-- ==== Sys2Proof/Word.lean ====
section
/-! DEFINITION. The word types of the WZ-840 and the four-fold container its slots, rails and branches share. -/

namespace Sys2Proof

/-- One byte of the command link (chapter 12). -/
abbrev Byte := BitVec 8

/-- One 32-bit word of the bogie link (12.7). -/
abbrev LinkWord := BitVec 32

/-- Device time in milliseconds, wrapping at 2^32 (scope, Quantities and units). -/
abbrev Time := BitVec 32

/-- A span slot, 0 to 3 (1.2). -/
abbrev Slot := Fin 4

/-- A bogie link branch, A = 0 to D = 3 (R183). -/
abbrev Branch := Fin 4

/-- A rail index of a span, 0 to 3 (R7). -/
abbrev Rail := Fin 4

/-- Four like things: the span slots, the rails of a span, the branches. -/
structure Quad (α : Type) where
  q0 : α
  q1 : α
  q2 : α
  q3 : α
deriving DecidableEq, Repr

/-- The thing at an index. -/
def Quad.get {α : Type} (q : Quad α) (i : Fin 4) : α :=
  match i with
  | 0 => q.q0
  | 1 => q.q1
  | 2 => q.q2
  | 3 => q.q3

/-- The four with the one at an index replaced. -/
def Quad.set {α : Type} (q : Quad α) (i : Fin 4) (a : α) : Quad α :=
  match i with
  | 0 => { q with q0 := a }
  | 1 => { q with q1 := a }
  | 2 => { q with q2 := a }
  | 3 => { q with q3 := a }

/-- The same thing four times. -/
def Quad.fill {α : Type} (a : α) : Quad α := ⟨a, a, a, a⟩

/-- One thing for each index. -/
def Quad.ofFn {α : Type} (f : Fin 4 → α) : Quad α := ⟨f 0, f 1, f 2, f 3⟩

/-- The four with a function applied to each. -/
def Quad.map {α β : Type} (f : α → β) (q : Quad α) : Quad β := ⟨f q.q0, f q.q1, f q.q2, f q.q3⟩

/-- The four as a list, index 0 first. -/
def Quad.toList {α : Type} (q : Quad α) : List α := [q.q0, q.q1, q.q2, q.q3]

/-- The four indices in ascending order: slots, rails and branches are taken in this order throughout. -/
def four : List (Fin 4) := [0, 1, 2, 3]

end Sys2Proof
end

