-- ==== Sys2Proof/Syntax.lean ====
section
/-! DEFINITION. The commands of the WZ-840: one constructor of `Instr` per row of spec/opcode_table.json, with
the enumerations and field records their operands use. Every field of a host request is kept at the width of
its payload field (R183), so every frame the host can send is a command. -/

namespace Sys2Proof

/-- A direction of travel or of torque, +1 or -1. -/
inductive Dir where
  | pos
  | neg
deriving DecidableEq, Repr

/-- Stop kinds, ranked CONTROLLED < QUICK < SAFE (2.2, R18). -/
inductive StopKind where
  | controlled
  | quick
  | safe
deriving DecidableEq, Repr

/-- End states of a stop, ranked HOLDING < RESTING < FAULTED (2.2, R18). -/
inductive EndState where
  | holding
  | resting
  | faulted
deriving DecidableEq, Repr

/-- The ten fault causes (R26, 12.4). -/
inductive FaultCause where
  | skewStop
  | skewTrip
  | following
  | bogieLoss
  | envelope
  | zoneIntrusion
  | zoneConflict
  | releaseTimeout
  | brakeProof
  | lockTimeout
deriving DecidableEq, Repr

/-- A stop request: a kind, an end state and, for FAULTED, a cause (2.2). -/
structure StopRequest where
  kind     : StopKind
  endState : EndState
  cause    : Option FaultCause
deriving DecidableEq, Repr

/-- The operator station inputs (9.7). A level of `true` is asserted, pressed, LOCAL or 1. -/
inductive StationInput where
  | estop
  | hold
  | key
  | jogFwd
  | jogRev
  | sel0
  | sel1
deriving DecidableEq, Repr

/-- One of the two spans of a clearance entry (8.1). -/
inductive Side where
  | a
  | b
deriving DecidableEq, Repr

/-- One of the two anemometers (9.1). -/
inductive AnemometerId where
  | an1
  | an2
deriving DecidableEq, Repr

/-- The payload of CONFIGURE DEVICE (10.1). -/
structure DeviceFields where
  budget : BitVec 16
  stale  : Byte
  wo     : BitVec 16
  wc     : BitVec 16
  eth    : Byte
  tmin   : BitVec 16
  tmax   : Byte
  fmax   : Byte
deriving DecidableEq, Repr

/-- The fields of CONFIGURE SPAN after the slot and the in-use setting, in the order of the table of 1.4. -/
structure SpanFields where
  rails       : Byte
  xmin        : BitVec 32
  xmax        : BitVec 32
  vmax        : BitVec 32
  vb          : BitVec 32
  ad          : BitVec 32
  aq          : BitVec 32
  c           : BitVec 32
  jog         : BitVec 32
  kp          : BitVec 16
  tmax        : BitVec 32
  kl          : BitVec 16
  lmax        : BitVec 32
  kdeg        : Byte
  sWarn       : BitVec 32
  sStop       : BitVec 32
  sTrip       : BitVec 32
  fLim        : BitVec 32
  tHold       : BitVec 16
  tRel        : Byte
  g           : Byte
  m           : Byte
  lock1       : BitVec 32
  lock2       : BitVec 32
  lockTol     : BitVec 32
  tLock       : Byte
  tProof      : BitVec 16
  proofTorque : Byte
  proofHold   : Byte
  creepLimit  : BitVec 32
  autoProof   : Byte
  autoResume  : Byte
deriving DecidableEq, Repr

/-- The payload of CONFIGURE ADDRESS (1.6). -/
structure AddressFields where
  addr   : Byte
  role   : Byte
  slot   : Byte
  rail   : Byte
  branch : Byte
  offset : BitVec 32
deriving DecidableEq, Repr

/-- The payload of CONFIGURE ZONE (8.1). -/
structure ZoneFields where
  entry : Byte
  inUse : Byte
  spanA : Byte
  a1    : BitVec 32
  a2    : BitVec 32
  spanB : Byte
  b1    : BitVec 32
  b2    : BitVec 32
  tzw   : BitVec 16
deriving DecidableEq, Repr

/-- The payload of CONFIGURE WIND (9.2). -/
structure WindFields where
  en1  : Byte
  k1   : BitVec 16
  en2  : Byte
  k2   : BitVec 16
  ws   : BitVec 16
  wt   : BitVec 16
  h    : BitVec 16
  kmin : Byte
  tdw  : BitVec 16
deriving DecidableEq, Repr

/-- The payload of APPEND SEGMENT (12.2). -/
structure SegmentFields where
  slot   : Byte
  tag    : BitVec 16
  target : BitVec 32
  cruise : BitVec 32
  accel  : BitVec 32
  flags  : Byte
  dwell  : BitVec 16
deriving DecidableEq, Repr

/-- A request frame after framing: KIND, TAG and the payload, whose length is LEN (11.1). -/
structure ReqFrame where
  kind    : Byte
  tag     : Byte
  payload : List Byte
deriving DecidableEq, Repr

/-- A host request read from a frame of a known KIND and the right LEN (R175, R183). -/
inductive Request where
  | configureDevice (f : DeviceFields)
  | configureBranch (branch w : Byte)
  | configureSpan (slot inUse : Byte) (f : SpanFields)
  | configureRail (slot rail n minValid : Byte)
  | configureAddress (f : AddressFields)
  | configureZone (f : ZoneFields)
  | configureWind (f : WindFields)
  | goReady
  | getDeviceStatus
  | getSpanStatus (slot : Byte)
  | getAddressStatus (addr : Byte)
  | getZoneStatus (entry : Byte)
  | keepalive
  | setLink (baud crc : Byte)
  | setReportMask (mask : BitVec 16)
  | hardReset
  | softReset
  | appendSegment (f : SegmentFields)
  | flushPlan (slot : Byte)
  | start (slot : Byte)
  | pause (slot : Byte)
  | stop (slot : Byte)
  | setOverride (slot value : Byte)
  | setLowWater (slot value : Byte)
  | clearFault (slot : Byte)
  | proof (slot : Byte)
  | lock (slot : Byte)
  | unlock (slot : Byte)
  | writeParameter (addr index : Byte) (value : BitVec 16)
  | stopAll
  | clearFailsafe
deriving DecidableEq, Repr

/-- The commands of the device, one per row of spec/opcode_table.json, in the table's order. A host request
carries the TAG its reply will echo (R172); an event carries what the outside world brings with it. -/
inductive Instr where
  /-- POWER_ON. -/
  | powerOn
  /-- RESET_PIN_ASSERT. -/
  | resetPinAssert
  /-- RESET_PIN_RELEASE. -/
  | resetPinRelease
  /-- FRAME_RECEIVED: the whole of a frame after its sync byte, with the CRC byte it came with. -/
  | frameReceived (kind tag : Byte) (payload : List Byte) (crc : Byte)
  /-- FRAME_GAP_TIMEOUT: the byte that ends the gap. -/
  | frameGapTimeout (byte : Byte)
  /-- REQUEST_TAKEN. -/
  | requestTaken
  /-- FRAME_SENT. -/
  | frameSent
  /-- CONFIGURE_DEVICE. -/
  | configureDevice (tag : Byte) (f : DeviceFields)
  /-- CONFIGURE_BRANCH. -/
  | configureBranch (tag branch w : Byte)
  /-- CONFIGURE_SPAN, with in use = yes. -/
  | configureSpan (tag slot : Byte) (f : SpanFields)
  /-- CONFIGURE_SPAN_REMOVE: CONFIGURE SPAN with in use = no. -/
  | configureSpanRemove (tag slot : Byte)
  /-- CONFIGURE_RAIL. -/
  | configureRail (tag slot rail n minValid : Byte)
  /-- CONFIGURE_ADDRESS, with a role other than NONE. -/
  | configureAddress (tag : Byte) (f : AddressFields)
  /-- CONFIGURE_ADDRESS_REMOVE: CONFIGURE ADDRESS with role NONE. -/
  | configureAddressRemove (tag addr : Byte)
  /-- CONFIGURE_ZONE. -/
  | configureZone (tag : Byte) (f : ZoneFields)
  /-- CONFIGURE_WIND. -/
  | configureWind (tag : Byte) (f : WindFields)
  /-- GO_READY. -/
  | goReady (tag : Byte)
  /-- GET_DEVICE_STATUS. -/
  | getDeviceStatus (tag : Byte)
  /-- GET_SPAN_STATUS. -/
  | getSpanStatus (tag slot : Byte)
  /-- GET_ADDRESS_STATUS. -/
  | getAddressStatus (tag addr : Byte)
  /-- GET_ZONE_STATUS. -/
  | getZoneStatus (tag entry : Byte)
  /-- KEEPALIVE. -/
  | keepalive (tag : Byte)
  /-- SET_LINK. -/
  | setLink (tag baud crc : Byte)
  /-- SET_REPORT_MASK. -/
  | setReportMask (tag : Byte) (mask : BitVec 16)
  /-- HARD_RESET. -/
  | hardReset (tag : Byte)
  /-- SOFT_RESET. -/
  | softReset (tag : Byte)
  /-- APPEND_SEGMENT. -/
  | appendSegment (tag : Byte) (f : SegmentFields)
  /-- FLUSH_PLAN. -/
  | flushPlan (tag slot : Byte)
  /-- START. -/
  | start (tag slot : Byte)
  /-- PAUSE. -/
  | pause (tag slot : Byte)
  /-- STOP. -/
  | stop (tag slot : Byte)
  /-- SET_OVERRIDE. -/
  | setOverride (tag slot value : Byte)
  /-- SET_LOW_WATER. -/
  | setLowWater (tag slot value : Byte)
  /-- CLEAR_FAULT. -/
  | clearFault (tag slot : Byte)
  /-- PROOF. -/
  | proof (tag slot : Byte)
  /-- LOCK. -/
  | lock (tag slot : Byte)
  /-- UNLOCK. -/
  | unlock (tag slot : Byte)
  /-- WRITE_PARAMETER. -/
  | writeParameter (tag addr index : Byte) (value : BitVec 16)
  /-- STOP_ALL. -/
  | stopAll (tag : Byte)
  /-- CLEAR_FAILSAFE. -/
  | clearFailsafe (tag : Byte)
  /-- SPAN_PERIOD of one span. -/
  | spanPeriod (slot : Slot)
  /-- STOP_TAKEN: the stop that reaches the span. -/
  | stopTaken (slot : Slot) (req : StopRequest)
  /-- GROUP_BROADCAST. -/
  | groupBroadcast
  /-- HOLD_TIMER_EXPIRY. -/
  | holdTimerExpiry (slot : Slot)
  /-- RELEASE_TIMER_EXPIRY. -/
  | releaseTimerExpiry (slot : Slot)
  /-- DWELL_TIMER_EXPIRY. -/
  | dwellTimerExpiry (slot : Slot)
  /-- SAFE_STOP_TIMER_EXPIRY. -/
  | safeStopTimerExpiry (slot : Slot)
  /-- PROOF_INTERVAL_EXPIRY. -/
  | proofIntervalExpiry (slot : Slot)
  /-- BRAKE_SET_PHASE_EXPIRY. -/
  | brakeSetPhaseExpiry (slot : Slot)
  /-- HOLD_PHASE_EXPIRY. -/
  | holdPhaseExpiry (slot : Slot)
  /-- LOCK_TIMER_EXPIRY. -/
  | lockTimerExpiry (slot : Slot)
  /-- LINK_CYCLE_START. -/
  | linkCycleStart
  /-- POLL_REPLY: the four reply words as they came in their windows, `none` for a word that did not. -/
  | pollReply (w0 w1 w2 w3 : Option LinkWord)
  /-- SETPOINT_ACK: the acknowledgement word, `none` when none came in its window. -/
  | setpointAck (w : Option LinkWord)
  /-- PARAMETER_WRITE_END: the acknowledgement word, `none` when none came in its window. -/
  | parameterWriteEnd (w : Option LinkWord)
  /-- LOCK_WRITE_END: the acknowledgement word, `none` when none came in its window. -/
  | lockWriteEnd (w : Option LinkWord)
  /-- ACQUISITION_TIMER_EXPIRY. -/
  | acquisitionTimerExpiry
  /-- KEEPALIVE_WINDOW_EXPIRY. -/
  | keepaliveWindowExpiry
  /-- STABLE_READY_EXPIRY. -/
  | stableReadyExpiry
  /-- WIND_SAMPLE. -/
  | windSample
  /-- TRIP_DWELL_EXPIRY. -/
  | tripDwellExpiry
  /-- ZONE_WAIT_TIMEOUT of one span of an entry. -/
  | zoneWaitTimeout (entry : Fin 16) (side : Side)
  /-- STATION_PIN_CHANGE: the input and its new pin level. -/
  | stationPinChange (input : StationInput) (level : Bool)
  /-- STATION_PRESS_TIMER_EXPIRY of one input. -/
  | stationPressTimerExpiry (input : StationInput)
  /-- ESTOP_ASSERTED. -/
  | estopAsserted
  /-- JOG_RELEASE: the jog input released, JOG_FWD for `pos`. -/
  | jogRelease (dir : Dir)
  /-- HOLD_STUCK: the HOLD timer reaches t_max. -/
  | holdStuck
  /-- ANEMOMETER_PULSE. -/
  | anemometerPulse (which : AnemometerId)
  /-- FRAME_BYTE_RECEIVED. -/
  | frameByteReceived (byte : Byte)
deriving DecidableEq, Repr

end Sys2Proof
end

