-- ==== Sys2Proof/Config.lean ====
section
/-! DEFINITION. The constants the manual fixes for every WZ-840. The manual leaves no value of an accepted command
open, so there is no free value among them (assumption log, entry 1). -/

namespace Sys2Proof.Config

/-- The control period P in milliseconds (scope, Time bases). -/
def periodMs : Nat := 10

/-- The link cycle in milliseconds (R93). -/
def cycleMs : Nat := 10

/-- The wind sample interval in milliseconds (R143). -/
def sampleMs : Nat := 250

/-- The safe stop timer in milliseconds (R20). -/
def safeStopMs : Nat := 5000

/-- The BRAKE_SET phase timer in milliseconds (R120). -/
def brakeSetMs : Nat := 2000

/-- The acquisition timer in milliseconds (R160). -/
def acquisitionMs : Nat := 2000

/-- The stable-READY timer in milliseconds (R168). -/
def stableReadyMs : Nat := 600000

/-- Milliseconds in an hour, the unit of T_proof. -/
def hourMs : Nat := 3600000

/-- The margin beyond the envelope at which a measured position faults the span, in micrometres (R27). -/
def envelopeMargin : Int := 50000

/-- Segments a plan queue holds (R36). -/
def planMax : Nat := 16

/-- Reports the report queue holds (R179). -/
def reportsMax : Nat := 16

/-- Requests the pending-request queue holds (R175). -/
def requestsMax : Nat := 4

/-- Entries the parameter queue holds (R107). -/
def paramsMax : Nat := 8

/-- The largest LEN of a frame (11.1). -/
def payloadMax : Nat := 240

/-- Samples an anemometer ring holds (R143). -/
def ringMax : Nat := 12

/-- The largest owed proof count (R116). -/
def owedMax : Int := 8

/-- The smallest owed proof count (R123). -/
def owedMin : Int := -8

/-- The sync byte of a frame (11.1). -/
def sync : Byte := 0x5A

/-- Good keep-alives CLEAR FAILSAFE asks for (R167). -/
def goodRun : Nat := 3

end Sys2Proof.Config
end

