-- ==== Sys2Proof/Decode.lean ====
section
/-! DEFINITION. Reading and writing the payloads of host requests (chapter 12), and the table decoder. The rows of
spec/opcode_table.json give no bits, so no word of that table spells a command; what the device itself decodes
is the KIND and payload of a request frame. -/

namespace Sys2Proof

/-- The command that a word of the opcode table spells. No row of the table gives bits. -/
def decodeTableWord (_nbits _w : Nat) : Option Instr := none

/-! ### Bytes of a field, most significant first (chapter 12) -/

/-- A one-byte field. -/
def enc8 (a : Byte) : List Byte := [a]

/-- A two-byte field. -/
def enc16 (a : BitVec 16) : List Byte := [a.extractLsb' 8 8, a.extractLsb' 0 8]

/-- A four-byte field. -/
def enc32 (a : BitVec 32) : List Byte :=
  [a.extractLsb' 24 8, a.extractLsb' 16 8, a.extractLsb' 8 8, a.extractLsb' 0 8]

/-- The byte at an offset. A payload is read only after its length has been judged (R175), so the offset is
always inside it. -/
def byteAt (p : List Byte) (i : Nat) : Byte := p.getD i 0

/-- The two-byte field at an offset. -/
def wordAt (p : List Byte) (i : Nat) : BitVec 16 := byteAt p i ++ byteAt p (i + 1)

/-- The four-byte field at an offset. -/
def longAt (p : List Byte) (i : Nat) : BitVec 32 :=
  byteAt p i ++ byteAt p (i + 1) ++ byteAt p (i + 2) ++ byteAt p (i + 3)

/-! ### Request codes and payload lengths (12.3) -/

/-- The code of a request. -/
def Request.code (r : Request) : Byte :=
  match r with
  | .configureDevice _ => 0x01
  | .configureBranch _ _ => 0x02
  | .configureSpan _ _ _ => 0x03
  | .configureRail _ _ _ _ => 0x04
  | .configureAddress _ => 0x05
  | .configureZone _ => 0x06
  | .configureWind _ => 0x07
  | .goReady => 0x08
  | .getDeviceStatus => 0x10
  | .getSpanStatus _ => 0x11
  | .getAddressStatus _ => 0x12
  | .getZoneStatus _ => 0x13
  | .keepalive => 0x14
  | .setLink _ _ => 0x15
  | .setReportMask _ => 0x16
  | .hardReset => 0x17
  | .softReset => 0x18
  | .appendSegment _ => 0x20
  | .flushPlan _ => 0x21
  | .start _ => 0x22
  | .pause _ => 0x23
  | .stop _ => 0x24
  | .setOverride _ _ => 0x25
  | .setLowWater _ _ => 0x26
  | .clearFault _ => 0x27
  | .proof _ => 0x28
  | .lock _ => 0x29
  | .unlock _ => 0x2A
  | .writeParameter _ _ _ => 0x2B
  | .stopAll => 0x2C
  | .clearFailsafe => 0x2D

/-- The payload length of a request code, `none` for a KIND that is no request's code. -/
def requestLength (kind : Byte) : Option Nat :=
  match kind.toNat with
  | 0x01 => some 12
  | 0x02 => some 2
  | 0x03 => some 92
  | 0x04 => some 4
  | 0x05 => some 9
  | 0x06 => some 22
  | 0x07 => some 15
  | 0x08 => some 0
  | 0x10 => some 0
  | 0x11 => some 1
  | 0x12 => some 1
  | 0x13 => some 1
  | 0x14 => some 0
  | 0x15 => some 2
  | 0x16 => some 2
  | 0x17 => some 0
  | 0x18 => some 0
  | 0x20 => some 18
  | 0x21 => some 1
  | 0x22 => some 1
  | 0x23 => some 1
  | 0x24 => some 1
  | 0x25 => some 2
  | 0x26 => some 2
  | 0x27 => some 1
  | 0x28 => some 1
  | 0x29 => some 1
  | 0x2A => some 1
  | 0x2B => some 4
  | 0x2C => some 0
  | 0x2D => some 0
  | _ => none

/-- The KIND of a reply to a request frame: the request's code + 0x80, or 0xFF where the KIND is no request's
code (R183). -/
def replyKind (kind : Byte) : Byte := if (requestLength kind).isSome then kind + 0x80 else 0xFF

/-! ### Reading a payload (R183) -/

/-- CONFIGURE DEVICE, in the order of the table of 10.1. -/
def DeviceFields.read (p : List Byte) : DeviceFields :=
  { budget := wordAt p 0, stale := byteAt p 2, wo := wordAt p 3, wc := wordAt p 5, eth := byteAt p 7,
    tmin := wordAt p 8, tmax := byteAt p 10, fmax := byteAt p 11 }

/-- CONFIGURE SPAN, in the order of the table of 1.4. -/
def SpanFields.read (p : List Byte) : SpanFields :=
  { rails := byteAt p 2, xmin := longAt p 3, xmax := longAt p 7, vmax := longAt p 11, vb := longAt p 15,
    ad := longAt p 19, aq := longAt p 23, c := longAt p 27, jog := longAt p 31, kp := wordAt p 35,
    tmax := longAt p 37, kl := wordAt p 41, lmax := longAt p 43, kdeg := byteAt p 47, sWarn := longAt p 48,
    sStop := longAt p 52, sTrip := longAt p 56, fLim := longAt p 60, tHold := wordAt p 64, tRel := byteAt p 66,
    g := byteAt p 67, m := byteAt p 68, lock1 := longAt p 69, lock2 := longAt p 73, lockTol := longAt p 77,
    tLock := byteAt p 81, tProof := wordAt p 82, proofTorque := byteAt p 84, proofHold := byteAt p 85,
    creepLimit := longAt p 86, autoProof := byteAt p 90, autoResume := byteAt p 91 }

/-- CONFIGURE ADDRESS, in the order of the table of 1.6. -/
def AddressFields.read (p : List Byte) : AddressFields :=
  { addr := byteAt p 0, role := byteAt p 1, slot := byteAt p 2, rail := byteAt p 3, branch := byteAt p 4,
    offset := longAt p 5 }

/-- CONFIGURE ZONE, in the order of the table of 8.1. -/
def ZoneFields.read (p : List Byte) : ZoneFields :=
  { entry := byteAt p 0, inUse := byteAt p 1, spanA := byteAt p 2, a1 := longAt p 3, a2 := longAt p 7,
    spanB := byteAt p 11, b1 := longAt p 12, b2 := longAt p 16, tzw := wordAt p 20 }

/-- CONFIGURE WIND, in the order of the table of 9.2. -/
def WindFields.read (p : List Byte) : WindFields :=
  { en1 := byteAt p 0, k1 := wordAt p 1, en2 := byteAt p 3, k2 := wordAt p 4, ws := wordAt p 6, wt := wordAt p 8,
    h := wordAt p 10, kmin := byteAt p 12, tdw := wordAt p 13 }

/-- APPEND SEGMENT (12.2). -/
def SegmentFields.read (p : List Byte) : SegmentFields :=
  { slot := byteAt p 0, tag := wordAt p 1, target := longAt p 3, cruise := longAt p 7, accel := longAt p 11,
    flags := byteAt p 15, dwell := wordAt p 16 }

/-- The request a KIND and a payload of that KIND's length stand for. -/
def readRequest (kind : Byte) (p : List Byte) : Option Request :=
  match kind.toNat with
  | 0x01 => some (.configureDevice (DeviceFields.read p))
  | 0x02 => some (.configureBranch (byteAt p 0) (byteAt p 1))
  | 0x03 => some (.configureSpan (byteAt p 0) (byteAt p 1) (SpanFields.read p))
  | 0x04 => some (.configureRail (byteAt p 0) (byteAt p 1) (byteAt p 2) (byteAt p 3))
  | 0x05 => some (.configureAddress (AddressFields.read p))
  | 0x06 => some (.configureZone (ZoneFields.read p))
  | 0x07 => some (.configureWind (WindFields.read p))
  | 0x08 => some .goReady
  | 0x10 => some .getDeviceStatus
  | 0x11 => some (.getSpanStatus (byteAt p 0))
  | 0x12 => some (.getAddressStatus (byteAt p 0))
  | 0x13 => some (.getZoneStatus (byteAt p 0))
  | 0x14 => some .keepalive
  | 0x15 => some (.setLink (byteAt p 0) (byteAt p 1))
  | 0x16 => some (.setReportMask (wordAt p 0))
  | 0x17 => some .hardReset
  | 0x18 => some .softReset
  | 0x20 => some (.appendSegment (SegmentFields.read p))
  | 0x21 => some (.flushPlan (byteAt p 0))
  | 0x22 => some (.start (byteAt p 0))
  | 0x23 => some (.pause (byteAt p 0))
  | 0x24 => some (.stop (byteAt p 0))
  | 0x25 => some (.setOverride (byteAt p 0) (byteAt p 1))
  | 0x26 => some (.setLowWater (byteAt p 0) (byteAt p 1))
  | 0x27 => some (.clearFault (byteAt p 0))
  | 0x28 => some (.proof (byteAt p 0))
  | 0x29 => some (.lock (byteAt p 0))
  | 0x2A => some (.unlock (byteAt p 0))
  | 0x2B => some (.writeParameter (byteAt p 0) (byteAt p 1) (wordAt p 2))
  | 0x2C => some .stopAll
  | 0x2D => some .clearFailsafe
  | _ => none

/-- What the Command Link Unit makes of a frame: a request, or one of its own two refusals (R175, 1 and 2). -/
inductive Parsed where
  | unknownKind
  | badLength
  | request (r : Request)
deriving DecidableEq, Repr

/-- The judgement of KIND and LEN (R175): an unknown KIND first, then a wrong length, then the payload. -/
def parseFrame (f : ReqFrame) : Parsed :=
  match requestLength f.kind with
  | none => .unknownKind
  | some n =>
    if f.payload.length = n then
      match readRequest f.kind f.payload with
      | some r => .request r
      | none => .unknownKind
    else .badLength

/-! ### Writing a payload: the inverse, from the same layouts -/

/-- The payload of a CONFIGURE SPAN. -/
def SpanFields.write (slot inUse : Byte) (f : SpanFields) : List Byte :=
  [enc8 slot, enc8 inUse, enc8 f.rails, enc32 f.xmin, enc32 f.xmax, enc32 f.vmax, enc32 f.vb, enc32 f.ad,
   enc32 f.aq, enc32 f.c, enc32 f.jog, enc16 f.kp, enc32 f.tmax, enc16 f.kl, enc32 f.lmax, enc8 f.kdeg,
   enc32 f.sWarn, enc32 f.sStop, enc32 f.sTrip, enc32 f.fLim, enc16 f.tHold, enc8 f.tRel, enc8 f.g, enc8 f.m,
   enc32 f.lock1, enc32 f.lock2, enc32 f.lockTol, enc8 f.tLock, enc16 f.tProof, enc8 f.proofTorque,
   enc8 f.proofHold, enc32 f.creepLimit, enc8 f.autoProof, enc8 f.autoResume].flatten

/-- The payload of a request. -/
def Request.payload (r : Request) : List Byte :=
  match r with
  | .configureDevice f =>
    enc16 f.budget ++ enc8 f.stale ++ enc16 f.wo ++ enc16 f.wc ++ enc8 f.eth ++ enc16 f.tmin ++ enc8 f.tmax ++ enc8 f.fmax
  | .configureBranch branch w => [branch, w]
  | .configureSpan slot inUse f => SpanFields.write slot inUse f
  | .configureRail slot rail n minValid => [slot, rail, n, minValid]
  | .configureAddress f => [f.addr, f.role, f.slot, f.rail, f.branch] ++ enc32 f.offset
  | .configureZone f =>
    [f.entry, f.inUse, f.spanA] ++ enc32 f.a1 ++ enc32 f.a2 ++ [f.spanB] ++ enc32 f.b1 ++ enc32 f.b2 ++ enc16 f.tzw
  | .configureWind f =>
    [f.en1] ++ enc16 f.k1 ++ [f.en2] ++ enc16 f.k2 ++ enc16 f.ws ++ enc16 f.wt ++ enc16 f.h ++ [f.kmin] ++ enc16 f.tdw
  | .getSpanStatus slot => [slot]
  | .getAddressStatus addr => [addr]
  | .getZoneStatus entry => [entry]
  | .setLink baud crc => [baud, crc]
  | .setReportMask mask => enc16 mask
  | .appendSegment f =>
    [f.slot] ++ enc16 f.tag ++ enc32 f.target ++ enc32 f.cruise ++ enc32 f.accel ++ [f.flags] ++ enc16 f.dwell
  | .flushPlan slot => [slot]
  | .start slot => [slot]
  | .pause slot => [slot]
  | .stop slot => [slot]
  | .setOverride slot value => [slot, value]
  | .setLowWater slot value => [slot, value]
  | .clearFault slot => [slot]
  | .proof slot => [slot]
  | .lock slot => [slot]
  | .unlock slot => [slot]
  | .writeParameter addr index value => [addr, index] ++ enc16 value
  | .goReady => []
  | .getDeviceStatus => []
  | .keepalive => []
  | .hardReset => []
  | .softReset => []
  | .stopAll => []
  | .clearFailsafe => []

/-- The frame that carries a request under a TAG. -/
def Request.frame (r : Request) (tag : Byte) : ReqFrame := { kind := r.code, tag := tag, payload := r.payload }

/-- The fields of a CONFIGURE SPAN that removes its span: not judged and stored as 0 (R3). -/
def SpanFields.zero : SpanFields := SpanFields.read []

end Sys2Proof
end

