-- ==== Sys2Proof/Machine/State.lean ====
section
/-! DEFINITION. The state of the WZ-840 as plain data: the configuration store, the Supervision Unit, the Wind
Gate, the Station Input Unit, the plant (Span Controllers, Plan Queues, proof state, Clearance Table, Bogie Link
Controller and report queue), the Command Link Unit, and the queue of commands that are waiting. -/

namespace Sys2Proof.Machine

/-! ### Configuration store (1.2) -/

/-- A span record (R5), with every acceleration already rounded down to a multiple of 100 (R3). -/
structure SpanConfig where
  rails       : Nat
  xmin        : Int
  xmax        : Int
  vmax        : Nat
  vb          : Nat
  ad          : Nat
  aq          : Nat
  c           : Nat
  jog         : Nat
  kp          : Nat
  tmax        : Nat
  kl          : Nat
  lmax        : Nat
  kdeg        : Nat
  sWarn       : Nat
  sStop       : Nat
  sTrip       : Nat
  fLim        : Nat
  tHold       : Nat
  tRel        : Nat
  g           : Byte
  m           : Byte
  lock1       : Int
  lock2       : Int
  lockTol     : Nat
  tLock       : Nat
  tProof      : Nat
  proofTorque : Nat
  proofHold   : Nat
  creepLimit  : Nat
  autoProof   : Bool
  autoResume  : Bool
deriving DecidableEq, Repr

/-- A rail record (R7): declared bogie count and minimum valid count. -/
structure RailConfig where
  n        : Nat
  minValid : Nat
deriving DecidableEq, Repr

/-- The device settings (R159). -/
structure DeviceSettings where
  budget : Nat
  stale  : Nat
  wo     : Nat
  wc     : Nat
  eth    : Nat
  tmin   : Nat
  tmax   : Nat
  fmax   : Nat
deriving DecidableEq, Repr

/-- The wind record (R144). -/
structure WindRecord where
  en1  : Bool
  k1   : Nat
  en2  : Bool
  k2   : Nat
  ws   : Nat
  wt   : Nat
  h    : Nat
  kmin : Nat
  tdw  : Nat
deriving DecidableEq, Repr

/-- The configuration store, but for the address configurations and clearance entries, which stand with their
link parts and claims in the plant. A span slot is in use exactly when its record is present (1.2). -/
structure ConfigStore where
  dev      : DeviceSettings
  branches : Quad (Option Nat)
  spans    : Quad (Option SpanConfig)
  rails    : Quad (Quad (Option RailConfig))
  wind     : Option WindRecord
deriving DecidableEq, Repr

/-! ### Modes and reports -/

/-- Device modes (chapter 10). -/
inductive Mode where
  | init
  | acquiring
  | ready
  | failsafe
deriving DecidableEq, Repr

/-- Span states (2.1). -/
inductive SpanState where
  | unconfigured
  | resting
  | starting
  | moving
  | holding
  | stopping
  | proving
  | locking
  | locked
  | unlocking
  | faulted
deriving DecidableEq, Repr

/-- FAILSAFE reasons (10.4). -/
inductive FailsafeReason where
  | hostSupervision
  | hostRequest
  | stationFault
  | operatorStop
deriving DecidableEq, Repr

/-- Causes an INIT mode report carries (12.4). -/
inductive InitCause where
  | powerOn
  | resetPin
  | hardReset
  | softReset
  | clearFailsafe
deriving DecidableEq, Repr

/-- Wind gate states (9.4). -/
inductive GateState where
  | clear
  | reduced
  | tripped
  | blind
deriving DecidableEq, Repr

/-- Proof results (R123). -/
inductive ProofResult where
  | pass
  | fail
  | abandoned
deriving DecidableEq, Repr

/-- Causes of an abandoned test (R124). -/
inductive AbandonCause where
  | brakesNotSet
  | bogieInvalid
  | stop
deriving DecidableEq, Repr

/-- What ends a jog, as JOG_ENDED carries it (12.5). -/
inductive JogEnd where
  | release
  | otherInput
  | selection
  | keyRemote
  | envelopeEnd
  | otherStop
  | releaseTimeout
deriving DecidableEq, Repr

/-- How a parameter write ends (R108, R109). -/
inductive WriteResult where
  | acknowledged
  | notAcknowledged
  | withdrawn
deriving DecidableEq, Repr

/-- The role of a configured address (1.6). Role NONE is the absence of a record. -/
inductive Role where
  | bogie
  | lockUnit
deriving DecidableEq, Repr

/-- A CONFIG refusal's check code and detail (R177, chapter 12). -/
inductive ConfigDetail where
  /-- GEOMETRY 1, GROUP 2, ZONE 4 or WIND 5, with condition number, slot or entry, and address. -/
  | fields (check cond slot addr : Nat)
  /-- LINK_BUDGET 3, with S_max, W and Q. -/
  | budget (sMax w : Nat) (q : Int)
deriving DecidableEq, Repr

/-- Refusal reasons, with the detail of those that carry one (R177). -/
inductive Reason where
  | unknownKind
  | length
  | mode
  | state
  | range
  | queueFull
  | busy
  | localControl
  | wind
  | proofOwed
  | proofRequired
  | notAtLock
  | noLockUnit
  | emptyPlan
  | skew
  | condition (cause : Option FaultCause)
  | lockout
  | config (detail : ConfigDetail)
deriving DecidableEq, Repr

/-- Events of a WIND report (12.5). -/
inductive WindEvent where
  | gate (old new : GateState) (gust : Option Nat) (kw : Nat)
  | suspect (which : AnemometerId) (sample : Nat)
  | recovered (which : AnemometerId) (sample : Nat)
deriving DecidableEq, Repr

/-- Events of a ZONE report (R141). -/
inductive ZoneEvent where
  | granted
  | released
  | waitTimeout (holder : Option Slot) (since : Time)
deriving DecidableEq, Repr

/-- Events of a STATION report (12.5), with the items their rules give. -/
inductive StationEvent where
  | estopAsserted
  | estopReleased
  | holdPressed
  | holdReleased
  | holdStuck
  | keyLocal
  | keyRemote
  | jogStarted (slot : Slot) (dir : Dir)
  | jogRefused (slot : Slot) (dir : Dir) (reason : Reason)
  | jogEnded (slot : Slot) (why : JogEnd)
  | selectChanged
deriving DecidableEq, Repr

/-- A stop record (R18): the kind and the end state. The safe stop timer stands beside it in the span. -/
structure StopRecord where
  kind     : StopKind
  endState : EndState
deriving DecidableEq, Repr

/-- What a mode report says besides the mode (R179's table). -/
inductive ModeNote where
  | none
  | reason (r : FailsafeReason)
  | cause (c : InitCause)
deriving DecidableEq, Repr

/-- The thirteen report kinds with their items (11.5, 12.5). -/
inductive Report where
  | planLow (slot : Slot) (count lw : Nat)
  | planStarved (slot : Slot) (tag : BitVec 16) (x : Int) (time : Time)
  | segmentDone (slot : Slot) (tag : BitVec 16) (target : Int) (time : Time) (count : Nat)
  | spanState (slot : Slot) (old new : SpanState) (stop : Option StopRecord)
  /-- The position and time stand in the report of a first cause only. -/
  | spanFault (slot : Slot) (cause : FaultCause) (first : Option (Int × Time))
  | skewWarn (slot : Slot) (s : Nat) (lead lag : Rail) (time : Time)
  | wind (event : WindEvent) (time : Time)
  | zone (entry : Nat) (slot : Slot) (event : ZoneEvent) (time : Time)
  /-- The creep and its address stand in the report of a PASS or FAIL, the cause in that of an ABANDONED. -/
  | proof (slot : Slot) (result : ProofResult) (owed : Int) (dir : Dir) (creep : Option (Nat × Nat))
      (cause : Option AbandonCause) (time : Time)
  | bogie (addr : Nat) (slot : Slot) (role : Role) (recovered : Bool) (time : Time)
  | paramDone (addr : Nat) (index : Byte) (value : BitVec 16) (result : WriteResult) (time : Time)
  | mode (mode : Mode) (note : ModeNote) (time : Time)
  | station (event : StationEvent) (time : Time)
deriving DecidableEq, Repr

/-- The report queue with the report mask (bit n for report code 0x40 + n) and the reports-dropped flag
(R179, R180). -/
structure ReportQueue where
  queue   : List Report
  mask    : BitVec 16
  dropped : Bool
deriving DecidableEq, Repr

/-! ### Spans -/

/-- A segment as stored (3.1). -/
structure Segment where
  tag    : BitVec 16
  target : Int
  cruise : Nat
  accel  : Nat
  stop   : Bool
  report : Bool
  dwell  : Nat
deriving DecidableEq, Repr

/-- A fault record that is not empty (R26). The later causes stand in the order they were registered. -/
structure FaultRecord where
  first : FaultCause
  pos   : Int
  time  : Time
  later : List FaultCause
deriving DecidableEq, Repr

/-- The jog context (4.10). Its STOP flag is always clear. -/
structure JogContext where
  dir    : Dir
  target : Int
  cruise : Nat
  accel  : Nat
deriving DecidableEq, Repr

/-- Setpoint modes (2.1). -/
inductive SetpointMode where
  | braked
  | energize
  | run
  | proof
deriving DecidableEq, Repr

/-- A setpoint set (6.3): the mode and one command for each bogie, by address, in rail then address order. -/
structure SetpointSet where
  mode : SetpointMode
  cmds : List (Nat × Int)
deriving DecidableEq, Repr

/-- What the last alignment step of a span formed (R78, R79, R91). -/
structure Measures where
  nValid : Quad Nat
  mr     : Quad (Option Int)
  er     : Quad (Option Int)
  tr     : Quad Int
  m      : Option Int
deriving DecidableEq, Repr

/-- Whether the interval timer is stopped, running or frozen (7.1). -/
inductive TimerRun where
  | stopped
  | running
  | frozen
deriving DecidableEq, Repr

/-- The proof state of a slot (7.1). -/
structure ProofState where
  intervalMs : Nat
  run        : TimerRun
  owed       : Int
  unproven   : Bool
  relock     : Bool
  due        : Bool
  last       : Option ProofResult
  nextDir    : Dir
deriving DecidableEq, Repr

/-- Phases of a brake proof test (R120, R121). -/
inductive TestPhase where
  | brakeSet
  | hold
deriving DecidableEq, Repr

/-- The test record (7.1): the phase, its timer in ms, the direction, and start positions by address. -/
structure TestRecord where
  phase  : TestPhase
  timer  : Nat
  dir    : Dir
  starts : List (Nat × Int)
deriving DecidableEq, Repr

/-- Lock commands (R110). -/
inductive LockCmd where
  | engage
  | retract
deriving DecidableEq, Repr

/-- The lock record (7.1). `replied` is set by a good poll reply of the lock unit taken after the sent flag was
set, so that the last reply counts when `replied` is set and it does not carry FAULT (R126). -/
structure LockRecord where
  cmd     : LockCmd
  sent    : Bool
  replied : Bool
  timer   : Nat
deriving DecidableEq, Repr

/-- Everything the device holds for one span slot besides its configuration: the Span Controller (R35, R92), its
Plan Queue (R55), its proof state (R129), its setpoint mailbox (R97), the stops its checks have raised and that
are still to be taken (R90), and its period timer. Timers hold their remaining milliseconds, `none` when stopped. -/
structure Span where
  state     : SpanState
  x         : Int
  v         : Nat
  dir       : Dir
  r         : Nat
  stop      : Option StopRecord
  holdT     : Option Nat
  releaseT  : Option Nat
  dwellT    : Option Nat
  safeT     : Option Nat
  override  : Nat
  jog       : Option JogContext
  windHold  : Bool
  degraded  : Bool
  zoneWait  : Bool
  skewArmed : Bool
  skew      : Nat
  leading   : Option Rail
  lagging   : Option Rail
  lastM     : Option Int
  meas      : Measures
  fault     : Option FaultRecord
  plan      : List Segment
  lw        : Nat
  starved   : Bool
  overflow  : Bool
  /-- A run is in progress: its direction is fixed and its chain stands at the head of the plan (R42). -/
  running   : Bool
  lastDwell : Option Nat
  lastTag   : Option (BitVec 16)
  proof     : ProofState
  test      : Option TestRecord
  lock      : Option LockRecord
  posted    : Option SetpointSet
  sent      : Option SetpointSet
  raised    : List StopRequest
  periodT   : Nat
deriving DecidableEq, Repr

/-! ### Clearance Table -/

/-- A clearance entry's claim (R133). -/
inductive Claim where
  | free
  | heldA
  | heldB
deriving DecidableEq, Repr

/-- What an entry holds for one of its spans (8.1). -/
structure ZoneSide where
  inside : Bool
  wait   : Bool
  since  : Time
  timer  : Option Nat
deriving DecidableEq, Repr

/-- A clearance entry in use (8.1). -/
structure ZoneEntry where
  entry : Nat
  spanA : Slot
  a1    : Int
  a2    : Int
  spanB : Slot
  b1    : Int
  b2    : Int
  tzw   : Nat
  claim : Claim
  sideA : ZoneSide
  sideB : ZoneSide
deriving DecidableEq, Repr

/-! ### Bogie link -/

/-- Link states of an address record (6.5). -/
inductive LinkState where
  | unknown
  | present
  | lost
deriving DecidableEq, Repr

/-- The content of a good poll reply (R184). `ready` is READY or PINS_ENGAGED and `released` is BRAKE_RELEASED
or PINS_RETRACTED, by the role of the address. -/
structure LastReply where
  pos      : Int
  speed    : Int
  torque   : Int
  ready    : Bool
  released : Bool
  fault    : Bool
deriving DecidableEq, Repr

/-- The address record of a configured address (1.6, 6.5), with the validity, load trim and command its span's
last period left (R91). -/
structure AddrRec where
  addr     : Nat
  role     : Role
  slot     : Slot
  rail     : Rail
  branch   : Branch
  offset   : Int
  link     : LinkState
  last     : Option LastReply
  age      : Nat
  miss     : Nat
  good     : Nat
  valid    : Bool
  loadTrim : Int
  command  : Int
deriving DecidableEq, Repr

/-- An entry of the parameter queue (R107). -/
inductive ParamEntry where
  | host (addr : Nat) (index : Byte) (value : BitVec 16)
  | lock (slot : Slot) (cmd : LockCmd)
deriving DecidableEq, Repr

/-- An entry of the pending broadcast list (R99), with the G and M it is sent with. -/
structure Broadcast where
  slot : Slot
  g    : Byte
  m    : Byte
deriving DecidableEq, Repr

/-- One bogie of a SETPOINT burst whose acknowledgement window has not closed. `live` is cleared when the reply
is to be discarded (R9, R114). -/
structure BurstWord where
  addr    : Nat
  command : Int
  live    : Bool
deriving DecidableEq, Repr

/-- A transaction of the link cycle in progress, with the branch and response wait it was composed with (R94).
`live` is cleared when its reply is to be discarded (R9, R17, R114). A broadcast is `inserted` when it was requested during
the cycle, and not composed at its step 1 (R99). -/
inductive Txn where
  | broadcast (b : Broadcast) (inserted : Bool)
  | burst (slot : Slot) (rail : Rail) (branch : Branch) (wait : Nat) (first n : Nat) (mode : SetpointMode)
      (words : List BurstWord)
  | poll (addr : Nat) (branch : Branch) (wait : Nat) (live : Bool)
  | param (addr : Nat) (index : Byte) (value : BitVec 16) (branch : Branch) (wait : Nat) (live : Bool)
  | lock (slot : Slot) (addr : Nat) (cmd : LockCmd) (branch : Branch) (wait : Nat) (live : Bool)
deriving DecidableEq, Repr

/-- The branch of a transaction and whether it was a POLL, as the turnaround gap reads it (R95). -/
structure TxnMark where
  branch : Branch
  isPoll : Bool
deriving DecidableEq, Repr

/-- The Bogie Link Controller (chapter 6). `cycle` holds the transactions of the cycle in progress that have not
ended, the one in progress first; `held` an expiry held until the cycle ends (R93); `prev` the last transaction
sent. -/
structure BogieLink where
  addrs   : List AddrRec
  params  : List ParamEntry
  bcasts  : List Broadcast
  cursor  : Nat
  cycle   : List Txn
  held    : Bool
  prev    : Option TxnMark
  cycleT  : Nat
deriving DecidableEq, Repr

/-- The plant as the device holds it: what span events act on. -/
structure Plant where
  spans : Quad Span
  zones : List ZoneEntry
  link  : BogieLink
  out   : ReportQueue
deriving DecidableEq, Repr

/-! ### Supervision, wind, station, command link -/

/-- The failsafe record (R164). The return mode is READY when `toReady` is set and INIT otherwise. -/
structure FailsafeRecord where
  reason  : FailsafeReason
  time    : Time
  toReady : Bool
  later   : List FailsafeReason
deriving DecidableEq, Repr

/-- The Supervision Unit (chapter 10). `window` is the time elapsed in the keep-alive window. -/
structure Supervision where
  mode    : Mode
  acqT    : Option Nat
  window  : Option Nat
  e       : Nat
  g       : Nat
  f       : Nat
  lockout : Bool
  record  : Option FailsafeRecord
  stableT : Option Nat
  stopReq : Bool
deriving DecidableEq, Repr

/-- Anemometer statuses (9.1). -/
inductive AnemometerStatus where
  | disabled
  | empty
  | valid
  | suspect
deriving DecidableEq, Repr

/-- One anemometer (9.1): the pulses counted towards its next sample, its status, its ring oldest first, and
its zero-run and recovery counts. -/
structure Anemometer where
  count    : Nat
  status   : AnemometerStatus
  ring     : List Nat
  zeroRun  : Nat
  recovery : Nat
deriving DecidableEq, Repr

/-- The Wind Gate (9.1 to 9.4). `limits` is the wind record the last sample expiry read: thresholds of a later
CONFIGURE WIND apply from the next one (R144). -/
structure WindGate where
  sampleT : Nat
  an1     : Anemometer
  an2     : Anemometer
  gate    : GateState
  gust    : Option Nat
  kw      : Nat
  dwellT  : Option Nat
  limits  : Option WindRecord
deriving DecidableEq, Repr

/-- One station input: its pin level, its validated level and its press timer (R152). -/
structure InputLevel where
  pin   : Bool
  val   : Bool
  press : Option Nat
deriving DecidableEq, Repr

/-- The Station Input Unit (9.7), with the HOLD timer of R154. -/
structure Station where
  estop  : InputLevel
  hold   : InputLevel
  key    : InputLevel
  jogFwd : InputLevel
  jogRev : InputLevel
  sel0   : InputLevel
  sel1   : InputLevel
  holdT  : Option Nat
deriving DecidableEq, Repr

/-- The link settings (11.2): 460,800 baud when `fast`, CRC selection 1 when `crcAlt`. -/
structure LinkSettings where
  fast   : Bool
  crcAlt : Bool
deriving DecidableEq, Repr

/-- The receiver (R173): hunting, or collecting a frame whose sync byte was taken under a CRC selection, with
the bytes after the sync byte so far. -/
inductive Receiver where
  | hunting
  | collecting (crcAlt : Bool) (bytes : List Byte)
deriving DecidableEq, Repr

/-- The result of a reply (R177), with its items as payload bytes. -/
inductive Result where
  | ok (items : List Byte)
  | okClamped (items : List Byte)
  | refused (reason : Reason)
deriving DecidableEq, Repr

/-- What is taken when a reply's last byte has been sent: the reset of an accepted HARD RESET (R182) or the
settings of an accepted SET LINK (R174). -/
inductive OnSent where
  | nothing
  | hardReset
  | settings (s : LinkSettings)
deriving DecidableEq, Repr

/-- The reply in the reply buffer (R175). `kind` is the reply's own KIND. -/
structure Reply where
  kind   : Byte
  tag    : Byte
  result : Result
  onSent : OnSent
deriving DecidableEq, Repr

/-- A reply waiting in the BUSY slot (R176). `kind` is the reply's own KIND. -/
structure BusyReply where
  kind : Byte
  tag  : Byte
deriving DecidableEq, Repr

/-- Where the frame being sent came from (R178). -/
inductive TxSource where
  | busy
  | reply
  | report
deriving DecidableEq, Repr

/-- The frame being sent, with the CRC selection in force when its first byte was sent (R172). -/
structure TxFrame where
  source  : TxSource
  kind    : Byte
  tag     : Byte
  payload : List Byte
  crcAlt  : Bool
deriving DecidableEq, Repr

/-- The Command Link Unit (chapter 11), but for its report queue. -/
structure CommandLink where
  rx       : Receiver
  requests : List ReqFrame
  reply    : Option Reply
  busy     : Option BusyReply
  tx       : Option TxFrame
  settings : LinkSettings
deriving DecidableEq, Repr

/-! ### The state -/

/-- The whole device, the level of its RESET pin (`true` is asserted), and the commands that are waiting, first
in, first out. -/
structure State where
  cfg      : ConfigStore
  time     : Time
  sup      : Supervision
  wind     : WindGate
  station  : Station
  plant    : Plant
  cmd      : CommandLink
  resetPin : Bool
  pending  : List Instr
deriving DecidableEq, Repr

/-- The block has no fault: the manual gives every command an effect or a refusal reply, and neither stops the
device (INVENTORY.md, Faults). -/
inductive Fault where
deriving DecidableEq, Repr

/-- Why the model has no meaning for a command. -/
inductive Refusal where
  /-- Raised by `exec` alone, for a command whose meaning is not written. Safe: no next state is claimed. -/
  | notModelled (mnemonic : String)
deriving DecidableEq, Repr

/-! ### Reset values -/

/-- The device settings after power-on (the table of 10.1). -/
def DeviceSettings.powerOn : DeviceSettings :=
  { budget := 600, stale := 4, wo := 500, wc := 2000, eth := 3, tmin := 50, tmax := 10, fmax := 0 }

/-- The cleared configuration store (R2). -/
def ConfigStore.powerOn : ConfigStore :=
  { dev := DeviceSettings.powerOn, branches := Quad.fill none, spans := Quad.fill none,
    rails := Quad.fill (Quad.fill none), wind := none }

/-- No measurement formed (R92). -/
def Measures.blank : Measures :=
  { nValid := Quad.fill 0, mr := Quad.fill none, er := Quad.fill none, tr := Quad.fill 0, m := none }

/-- The hard-reset values of a slot's proof state (R129). -/
def ProofState.hardReset : ProofState :=
  { intervalMs := 0, run := .stopped, owed := 0, unproven := true, relock := true, due := false,
    last := none, nextDir := .pos }

/-- A span at the reset values of R35, R55 and R92, with the proof state of a hard reset (R129) and a period
timer just restarted. -/
def Span.powerOn : Span :=
  { state := .unconfigured, x := 0, v := 0, dir := .pos, r := 0, stop := none, holdT := none, releaseT := none,
    dwellT := none, safeT := none, override := 100, jog := none, windHold := false, degraded := false,
    zoneWait := false, skewArmed := true, skew := 0, leading := none, lagging := none, lastM := none,
    meas := Measures.blank, fault := none, plan := [], lw := 2, starved := false, overflow := false,
    running := false, lastDwell := none, lastTag := none, proof := ProofState.hardReset, test := none,
    lock := none, posted := none, sent := none, raised := [], periodT := Config.periodMs }

/-- The Bogie Link Controller after a hard reset (R114). -/
def BogieLink.powerOn : BogieLink :=
  { addrs := [], params := [], bcasts := [], cursor := 1, cycle := [], held := false, prev := none,
    cycleT := Config.cycleMs }

/-- An empty report queue with every kind enabled (R180). -/
def ReportQueue.powerOn : ReportQueue := { queue := [], mask := 0x1FFF, dropped := false }

/-- The plant after a hard reset. -/
def Plant.powerOn : Plant :=
  { spans := Quad.fill Span.powerOn, zones := [], link := BogieLink.powerOn, out := ReportQueue.powerOn }

/-- The Supervision Unit after a hard reset (R170). -/
def Supervision.powerOn : Supervision :=
  { mode := .init, acqT := none, window := none, e := 0, g := 0, f := 0, lockout := false, record := none,
    stableT := none, stopReq := true }

/-- An anemometer with no wind record (R150). -/
def Anemometer.disabled : Anemometer :=
  { count := 0, status := .disabled, ring := [], zeroRun := 0, recovery := 0 }

/-- The Wind Gate after a hard reset (R150). -/
def WindGate.powerOn : WindGate :=
  { sampleT := Config.sampleMs, an1 := Anemometer.disabled, an2 := Anemometer.disabled, gate := .blind,
    gust := none, kw := 0, dwellT := none, limits := none }

/-- A station input at rest: released, REMOTE or 0. -/
def InputLevel.low : InputLevel := { pin := false, val := false, press := none }

/-- Every station input at rest. -/
def Station.low : Station :=
  { estop := InputLevel.low, hold := InputLevel.low, key := InputLevel.low, jogFwd := InputLevel.low,
    jogRev := InputLevel.low, sel0 := InputLevel.low, sel1 := InputLevel.low, holdT := none }

/-- The default link settings (R174). -/
def LinkSettings.powerOn : LinkSettings := { fast := false, crcAlt := false }

/-- The Command Link Unit after a hard reset (R182). -/
def CommandLink.powerOn : CommandLink :=
  { rx := .hunting, requests := [], reply := none, busy := none, tx := none, settings := LinkSettings.powerOn }

/-- The device right after power-on with every station input at rest (log entry 2): every block at its power-on
values, and the transmitter sending the MODE report that carries INIT and POWER_ON (R170, R182). -/
def State.reset : State :=
  { cfg := ConfigStore.powerOn, time := 0, sup := Supervision.powerOn, wind := WindGate.powerOn,
    station := Station.low, plant := Plant.powerOn,
    cmd := { CommandLink.powerOn with
             tx := some { source := .report, kind := 0x4B, tag := 0, payload := [0, 1, 0, 0, 0, 0], crcAlt := false } },
    resetPin := false, pending := [] }

end Sys2Proof.Machine
end

