-- ==== Sys2Proof/Machine/Operands.lean ====
section
/-! DEFINITION. The fields of a request as numbers, the range judgement of R3, and the records an accepted
configuration request stores. -/

namespace Sys2Proof
open Machine

/-- Whether a number lies in a range, both ends included (scope, Arithmetic). -/
def inRange (lo hi v : Int) : Bool := lo ≤ v && v ≤ hi

/-- An unsigned field as a number. -/
def unsigned {w : Nat} (a : BitVec w) : Nat := a.toNat

/-- A field whose range reaches below zero, as a number (R183). -/
def signed {w : Nat} (a : BitVec w) : Int := a.toInt

/-- Whether an unsigned field lies in a range. -/
def fits {w : Nat} (lo hi : Nat) (a : BitVec w) : Bool := lo ≤ a.toNat && a.toNat ≤ hi

/-- Whether a position field lies in the range of positions (scope, Quantities and units). -/
def posFits (a : BitVec 32) : Bool := inRange (-2000000000) 2000000000 a.toInt

/-- An acceleration rounded down to a multiple of 100 (R3). -/
def round100 (n : Nat) : Nat := n / 100 * 100

/-- Whether an acceleration field, rounded down, lies in a range (R3). -/
def accelFits (lo hi : Nat) (a : BitVec 32) : Bool := lo ≤ round100 a.toNat && round100 a.toNat ≤ hi

/-- Whether a yes/no field holds one of its two codes, no 0 and yes 1 (R183). -/
def yesNoFits (a : Byte) : Bool := a.toNat ≤ 1

/-- A yes/no field as a truth value. -/
def yes (a : Byte) : Bool := a == 1

/-- The slot a field names, when it is 0 to 3. -/
def slotOf (a : Byte) : Option Slot := if h : a.toNat < 4 then some ⟨a.toNat, h⟩ else none

/-- The role a field codes: NONE 0 has no role (R183). -/
def roleOf (a : Byte) : Option Role := if a = 1 then some .bogie else if a = 2 then some .lockUnit else none

/-! ### CONFIGURE DEVICE (R159) -/

/-- Every field of CONFIGURE DEVICE in its range, Wc judged against the Wo of the same request. -/
def DeviceFields.inRange (f : DeviceFields) : Bool :=
  fits 300 600 f.budget && fits 2 20 f.stale && fits 50 9999 f.wo && fits (f.wo.toNat + 1) 10000 f.wc &&
  fits 1 15 f.eth && fits 20 500 f.tmin && fits 1 30 f.tmax

/-- The settings CONFIGURE DEVICE stores. -/
def DeviceFields.settings (f : DeviceFields) : DeviceSettings :=
  { budget := f.budget.toNat, stale := f.stale.toNat, wo := f.wo.toNat, wc := f.wc.toNat, eth := f.eth.toNat,
    tmin := f.tmin.toNat, tmax := f.tmax.toNat, fmax := f.fmax.toNat }

/-! ### CONFIGURE SPAN (R5) -/

/-- Every field of CONFIGURE SPAN from the rail count on in its range (the table of 1.4). -/
def SpanFields.inRange (f : SpanFields) : Bool :=
  fits 2 4 f.rails && posFits f.xmin && posFits f.xmax && fits 1000 500000 f.vmax && fits 1000 600000 f.vb &&
  accelFits 100 50000 f.ad && accelFits 100 100000 f.aq && fits 100 5000 f.c && fits 100 500000 f.jog &&
  fits 0 2000 f.kp && fits 0 20000 f.tmax && fits 0 500 f.kl && fits 0 10000 f.lmax && fits 25 100 f.kdeg &&
  fits 1000 500000 f.sWarn && fits 1000 500000 f.sStop && fits 1000 500000 f.sTrip && fits 1000 1000000 f.fLim &&
  fits 1 3600 f.tHold && fits 5 100 f.tRel && fits 0 127 f.g && fits 0 127 f.m && posFits f.lock1 &&
  posFits f.lock2 && fits 1000 100000 f.lockTol && fits 1 60 f.tLock && fits 1 720 f.tProof &&
  fits 10 150 f.proofTorque && fits 2 30 f.proofHold && fits 10 5000 f.creepLimit && yesNoFits f.autoProof &&
  yesNoFits f.autoResume

/-- The record CONFIGURE SPAN stores, its accelerations rounded down (R3). -/
def SpanFields.record (f : SpanFields) : SpanConfig :=
  { rails := f.rails.toNat, xmin := f.xmin.toInt, xmax := f.xmax.toInt, vmax := f.vmax.toNat, vb := f.vb.toNat,
    ad := round100 f.ad.toNat, aq := round100 f.aq.toNat, c := f.c.toNat, jog := f.jog.toNat, kp := f.kp.toNat,
    tmax := f.tmax.toNat, kl := f.kl.toNat, lmax := f.lmax.toNat, kdeg := f.kdeg.toNat, sWarn := f.sWarn.toNat,
    sStop := f.sStop.toNat, sTrip := f.sTrip.toNat, fLim := f.fLim.toNat, tHold := f.tHold.toNat,
    tRel := f.tRel.toNat, g := f.g, m := f.m, lock1 := f.lock1.toInt, lock2 := f.lock2.toInt,
    lockTol := f.lockTol.toNat, tLock := f.tLock.toNat, tProof := f.tProof.toNat,
    proofTorque := f.proofTorque.toNat, proofHold := f.proofHold.toNat, creepLimit := f.creepLimit.toNat,
    autoProof := yes f.autoProof, autoResume := yes f.autoResume }

/-- The fields as stored: the accelerations are the only ones stored with another value (R3). -/
def SpanFields.stored (f : SpanFields) : SpanFields :=
  { f with ad := BitVec.ofNat 32 (round100 f.ad.toNat), aq := BitVec.ofNat 32 (round100 f.aq.toNat) }

/-! ### CONFIGURE ADDRESS (R8) -/

/-- Every field of a CONFIGURE ADDRESS with role BOGIE or LOCK_UNIT in its range; the rail and offset of a lock
unit are not judged (R3). -/
def AddressFields.inRange (f : AddressFields) : Bool :=
  fits 1 64 f.addr && fits 1 2 f.role && fits 0 3 f.slot && (f.role == 2 || fits 0 3 f.rail) &&
  fits 0 3 f.branch && (f.role == 2 || posFits f.offset)

/-- The address record at its first configuration (R8). A lock unit's rail and offset are held as 0 (R1, R3). -/
def AddressFields.record (f : AddressFields) (role : Role) : AddrRec :=
  { addr := f.addr.toNat, role := role, slot := Fin.ofNat 4 f.slot.toNat,
    rail := match role with | .bogie => Fin.ofNat 4 f.rail.toNat | .lockUnit => 0,
    branch := Fin.ofNat 4 f.branch.toNat,
    offset := match role with | .bogie => f.offset.toInt | .lockUnit => 0,
    link := .unknown, last := none, age := 0, miss := 0, good := 0, valid := false, loadTrim := 0, command := 0 }

/-! ### CONFIGURE ZONE (R130) -/

/-- Every field of a CONFIGURE ZONE with in use = yes in its range (the table of 8.1). -/
def ZoneFields.inRange (f : ZoneFields) : Bool :=
  fits 0 15 f.entry && yesNoFits f.inUse && fits 0 3 f.spanA && posFits f.a1 && posFits f.a2 && fits 0 3 f.spanB &&
  posFits f.b1 && posFits f.b2 && fits 10 600 f.tzw

/-- One span's part of an entry with no wait and no rail inside (R142). -/
def ZoneSide.clear : ZoneSide := { inside := false, wait := false, since := 0, timer := none }

/-- The entry CONFIGURE ZONE stores, its claim FREE. -/
def ZoneFields.record (f : ZoneFields) : ZoneEntry :=
  { entry := f.entry.toNat, spanA := Fin.ofNat 4 f.spanA.toNat, a1 := f.a1.toInt, a2 := f.a2.toInt,
    spanB := Fin.ofNat 4 f.spanB.toNat, b1 := f.b1.toInt, b2 := f.b2.toInt, tzw := f.tzw.toNat, claim := .free,
    sideA := ZoneSide.clear, sideB := ZoneSide.clear }

/-! ### CONFIGURE WIND (R144) -/

/-- Every field of CONFIGURE WIND in its range; the calibration of an anemometer not enabled is not judged. -/
def WindFields.inRange (f : WindFields) : Bool :=
  yesNoFits f.en1 && (f.en1 == 0 || fits 10 2000 f.k1) && yesNoFits f.en2 && (f.en2 == 0 || fits 10 2000 f.k2) &&
  fits 0 2000 f.ws && fits 1 2000 f.wt && fits 0 1000 f.h && fits 10 100 f.kmin && fits 60 1800 f.tdw

/-- The record CONFIGURE WIND stores; the calibration of an anemometer not enabled is stored as 0. -/
def WindFields.record (f : WindFields) : WindRecord :=
  { en1 := yes f.en1, k1 := if yes f.en1 then f.k1.toNat else 0, en2 := yes f.en2,
    k2 := if yes f.en2 then f.k2.toNat else 0, ws := f.ws.toNat, wt := f.wt.toNat, h := f.h.toNat,
    kmin := f.kmin.toNat, tdw := f.tdw.toNat }

/-! ### APPEND SEGMENT (R38) -/

/-- The segment APPEND SEGMENT stores under a span's Vmax: cruise, accel and dwell clamped. -/
def SegmentFields.segment (f : SegmentFields) (vmax : Nat) : Segment :=
  { tag := f.tag, target := f.target.toInt, cruise := min f.cruise.toNat vmax,
    accel := min (round100 f.accel.toNat) 50000, stop := f.flags.getLsbD 0, report := f.flags.getLsbD 1,
    dwell := min f.dwell.toNat 600 }

/-- Whether a field of the segment is stored with a value other than the one supplied (R38). -/
def SegmentFields.clamped (f : SegmentFields) (vmax : Nat) : Bool :=
  (f.segment vmax).cruise != f.cruise.toNat || (f.segment vmax).accel != f.accel.toNat ||
  (f.segment vmax).dwell != f.dwell.toNat

end Sys2Proof
end

