-- ==== Sys2Proof/Machine/Flags.lean ====
section
/-! DEFINITION. The flags and judgements the manual derives from other state: each is stored nowhere else, except
STOP-REQ, whose stored level is recomputed from `State.stopReqLevel` at the end of every event. -/

namespace Sys2Proof.Machine

/-- +1 or -1. -/
def dirInt (d : Dir) : Int :=
  match d with
  | .pos => 1
  | .neg => -1

/-- The opposite direction. -/
def dirFlip (d : Dir) : Dir :=
  match d with
  | .pos => .neg
  | .neg => .pos

/-- The rank of a stop kind (R18). -/
def kindRank (k : StopKind) : Nat :=
  match k with
  | .controlled => 0
  | .quick => 1
  | .safe => 2

/-- The rank of an end state (R18). -/
def endRank (e : EndState) : Nat :=
  match e with
  | .holding => 0
  | .resting => 1
  | .faulted => 2

/-- The higher of two kinds (R18). -/
def kindMax (a b : StopKind) : StopKind := if kindRank a < kindRank b then b else a

/-- The more severe of two end states (R18). -/
def endMax (a b : EndState) : EndState := if endRank a < endRank b then b else a

/-- HOLDING taken as RESTING (R20, R24). -/
def endAtRest (e : EndState) : EndState :=
  match e with
  | .holding => .resting
  | .resting => .resting
  | .faulted => .faulted

/-- The energised states (2.1). -/
def SpanState.energised (s : SpanState) : Bool :=
  match s with
  | .starting | .moving | .holding | .stopping | .proving => true
  | _ => false

/-- The states of a lock operation or a lock (R115). -/
def SpanState.lockFamily (s : SpanState) : Bool :=
  match s with
  | .locking | .locked | .unlocking => true
  | _ => false

/-- Whether a span is performing a SAFE stop (R20). -/
def Span.inSafeStop (sp : Span) : Bool :=
  sp.state == .stopping && (match sp.stop with | some r => r.kind == .safe | none => false)

/-- Whether a span's setpoint mode is RUN (R16). -/
def Span.inRun (sp : Span) : Bool :=
  match sp.state with
  | .moving | .holding => true
  | .stopping => !sp.inSafeStop
  | _ => false

/-- The setpoint mode of a span's state, `none` while UNCONFIGURED (the table of 2.1). -/
def Span.setpointMode (sp : Span) : Option SetpointMode :=
  match sp.state with
  | .unconfigured => none
  | .starting => some .energize
  | .moving | .holding => some .run
  | .stopping => if sp.inSafeStop then some .braked else some .run
  | .proving => match sp.test with
    | some t => match t.phase with
      | .brakeSet => some .braked
      | .hold => some .proof
    | none => some .braked
  | _ => some .braked

/-- The plan-low flag (R51). -/
def Span.planLow (sp : Span) : Bool := sp.state != .unconfigured && decide (sp.plan.length ≤ sp.lw)

/-- Whether a jog is in progress on a span: it holds a jog context and no stop has reached it (R73, R75). -/
def Span.jogging (sp : Span) : Bool := sp.jog.isSome && (sp.state == .starting || sp.state == .moving)

/-- Whether a span's fault record holds a cause (R26). -/
def Span.faultHas (sp : Span) (c : FaultCause) : Bool :=
  match sp.fault with
  | none => false
  | some f => f.first == c || f.later.contains c

/-- Whether the skew last computed exceeds S_stop (R28, condition 8). -/
def Span.skewed (sp : Span) (sc : SpanConfig) : Bool := sc.sStop < sp.skew

/-- Whether a bogie is valid under a stale limit (R77): PRESENT, fresh, and with a last reply that does not carry
FAULT (log entry 12). -/
def AddrRec.isValid (stale : Nat) (a : AddrRec) : Bool :=
  a.link == .present && decide (a.age ≤ stale) && (match a.last with | some r => !r.fault | none => false)

/-- Whether the gate forbids motion: TRIPPED or BLIND (R28, condition 4). -/
def GateState.shut (g : GateState) : Bool :=
  match g with
  | .tripped | .blind => true
  | _ => false

/-- Whether a wind record meets the relations Ws < Wt - H and H at least 1 (R144, R151). -/
def WindRecord.related (w : WindRecord) : Bool := decide (w.ws + w.h < w.wt) && decide (1 ≤ w.h)

/-- The slot the select inputs form from their validated levels (R152). -/
def Station.selected (st : Station) : Slot :=
  match st.sel1.val, st.sel0.val with
  | false, false => 0
  | false, true => 1
  | true, false => 2
  | true, true => 3

/-- The spans' jog in progress, lowest slot first: at most one (R157). -/
def Plant.jogSlot (p : Plant) : Option Slot := four.find? (fun i => (p.spans.get i).jogging)

/-- The level STOP-REQ has: asserted outside READY and while any span performs a SAFE stop (R168). -/
def State.stopReqLevel (s : State) : Bool :=
  s.sup.mode != .ready || s.plant.spans.toList.any (fun sp => sp.inSafeStop)

/-- A number limited to a range; a lower end above the upper end gives the lower. -/
def clampInt (lo hi v : Int) : Int := max lo (min hi v)

/-- The magnitude of a number. -/
def magnitude (v : Int) : Nat := v.natAbs

end Sys2Proof.Machine
end

