-- ==== Sys2Proof/Machine/Crc.lean ====
section
/-! DEFINITION. The CRC-8 of the command link (R172) and of the bogie link (R184). -/

namespace Sys2Proof.Machine

/-- The polynomial of a CRC selection without its leading term: x^8 + x^2 + x + 1 under selection 0 and
x^8 + x^5 + x^4 + 1 under selection 1 (R172). -/
def crcPoly (alt : Bool) : Byte := if alt then 0x31 else 0x07

/-- One bit of the division, most significant bit first. -/
def crcShift (poly c : Byte) : Byte := if c.msb then (c <<< 1) ^^^ poly else c <<< 1

/-- One byte taken into the remainder. -/
def crcByte (poly c b : Byte) : Byte :=
  let sh := crcShift poly
  sh (sh (sh (sh (sh (sh (sh (sh (c ^^^ b))))))))

/-- The CRC-8 of some bytes, from 0x00 and with no final inversion. -/
def crc8 (poly : Byte) (bs : List Byte) : Byte := bs.foldl (crcByte poly) 0

/-- The CRC byte of a frame, over LEN, KIND, TAG and the payload (R172). -/
def frameCrc (alt : Bool) (kind tag : Byte) (payload : List Byte) : Byte :=
  crc8 (crcPoly alt) ([BitVec.ofNat 8 payload.length, kind, tag] ++ payload)

/-- The CRC of a link word over its data bits 31 to 8, whatever the command link's selection (R184). -/
def linkCrc (data : BitVec 24) : Byte :=
  crc8 (crcPoly false) [data.extractLsb' 16 8, data.extractLsb' 8 8, data.extractLsb' 0 8]

/-- A link word from its data bits. -/
def linkWord (data : BitVec 24) : LinkWord := data ++ linkCrc data

/-- The data bits of a link word. -/
def linkData (w : LinkWord) : BitVec 24 := w.extractLsb' 8 24

/-- Whether a received word passes its CRC (R184). -/
def linkGood (w : LinkWord) : Bool := w.extractLsb' 0 8 == linkCrc (linkData w)

/-- The address a received word names: its bits 31 to 26, plus 1 (R184). -/
def linkAddr (w : LinkWord) : Nat := (w.extractLsb' 26 6).toNat + 1

end Sys2Proof.Machine
end

