-- ==== Sys2Proof/Machine/Frames.lean ====
section
/-! DEFINITION. What the device puts on its two links: the codes of 12.4, reply and report payloads (12.1, 12.5),
frames, and the words of the bogie link (12.7). -/

namespace Sys2Proof.Machine

/-! ### Numbers as bytes -/

/-- A number as one byte. -/
def num8 (n : Nat) : List Byte := [BitVec.ofNat 8 n]

/-- A number as two bytes. -/
def num16 (n : Nat) : List Byte := enc16 (BitVec.ofNat 16 n)

/-- A number as four bytes. -/
def num32 (n : Nat) : List Byte := enc32 (BitVec.ofNat 32 n)

/-- A signed number as one byte. -/
def int8 (v : Int) : List Byte := [BitVec.ofInt 8 v]

/-- A signed number as two bytes. -/
def int16 (v : Int) : List Byte := enc16 (BitVec.ofInt 16 v)

/-- A signed number as four bytes. -/
def int32 (v : Int) : List Byte := enc32 (BitVec.ofInt 32 v)

/-- A measured position or rail error, at the nearer end of its field where it lies outside (R183). -/
def measured32 (v : Int) : List Byte := int32 (clampInt (-2147483648) 2147483647 v)

/-- An item that may be absent, sent as 0 when it is (R183). -/
def measuredOr0 (v : Option Int) : List Byte := measured32 (v.getD 0)

/-- A skew, at the end of its field where it lies beyond it (R183). -/
def skew32 (n : Nat) : List Byte := num32 (min n 4294967295)

/-- A flag byte from its bits, bit 0 first. -/
def bitsByte (bs : List Bool) : Nat := bs.foldr (fun b n => 2 * n + b.toNat) 0

/-- A set of codes as a mask, bit n - 1 for code n (12.4). -/
def codeMask (cs : List Nat) : Nat := cs.foldl (fun n c => n ||| 2 ^ (c - 1)) 0

/-! ### Codes (12.4) -/

/-- The code of a span state. -/
def SpanState.code (s : SpanState) : Nat :=
  match s with
  | .unconfigured => 0
  | .resting => 1
  | .starting => 2
  | .moving => 3
  | .holding => 4
  | .stopping => 5
  | .proving => 6
  | .locking => 7
  | .locked => 8
  | .unlocking => 9
  | .faulted => 10

/-- The code of a fault cause. -/
def causeCode (c : FaultCause) : Nat :=
  match c with
  | .skewStop => 1
  | .skewTrip => 2
  | .following => 3
  | .bogieLoss => 4
  | .envelope => 5
  | .zoneIntrusion => 6
  | .zoneConflict => 7
  | .releaseTimeout => 8
  | .brakeProof => 9
  | .lockTimeout => 10

/-- The code of a refusal reason. -/
def Reason.code (r : Reason) : Nat :=
  match r with
  | .unknownKind => 1
  | .length => 2
  | .mode => 3
  | .state => 4
  | .range => 5
  | .queueFull => 6
  | .busy => 7
  | .localControl => 8
  | .wind => 9
  | .proofOwed => 10
  | .proofRequired => 11
  | .notAtLock => 12
  | .noLockUnit => 13
  | .emptyPlan => 14
  | .skew => 15
  | .condition _ => 16
  | .lockout => 17
  | .config _ => 18

/-- The code of a stop kind; 0 is none. -/
def stopKindCode (k : StopKind) : Nat :=
  match k with
  | .controlled => 1
  | .quick => 2
  | .safe => 3

/-- The span state an end state is. -/
def endSpanState (e : EndState) : SpanState :=
  match e with
  | .holding => .holding
  | .resting => .resting
  | .faulted => .faulted

/-- The code of a device mode. -/
def Mode.code (m : Mode) : Nat :=
  match m with
  | .init => 0
  | .acquiring => 1
  | .ready => 2
  | .failsafe => 3

/-- The code of a failsafe reason. -/
def FailsafeReason.code (r : FailsafeReason) : Nat :=
  match r with
  | .hostSupervision => 1
  | .hostRequest => 2
  | .stationFault => 3
  | .operatorStop => 4

/-- The code of an INIT cause. -/
def InitCause.code (c : InitCause) : Nat :=
  match c with
  | .powerOn => 1
  | .resetPin => 2
  | .hardReset => 3
  | .softReset => 4
  | .clearFailsafe => 5

/-- The code of a gate state. -/
def GateState.code (g : GateState) : Nat :=
  match g with
  | .clear => 0
  | .reduced => 1
  | .tripped => 2
  | .blind => 3

/-- The code of an anemometer status. -/
def AnemometerStatus.code (a : AnemometerStatus) : Nat :=
  match a with
  | .disabled => 0
  | .empty => 1
  | .valid => 2
  | .suspect => 3

/-- The code of a proof result. -/
def ProofResult.code (r : ProofResult) : Nat :=
  match r with
  | .pass => 1
  | .fail => 2
  | .abandoned => 3

/-- The code of an abandonment cause. -/
def AbandonCause.code (c : AbandonCause) : Nat :=
  match c with
  | .brakesNotSet => 1
  | .bogieInvalid => 2
  | .stop => 3

/-- The code of a link state. -/
def LinkState.code (l : LinkState) : Nat :=
  match l with
  | .unknown => 0
  | .present => 1
  | .lost => 2

/-- The code of a role (R183). -/
def Role.code (r : Role) : Nat :=
  match r with
  | .bogie => 1
  | .lockUnit => 2

/-- The code of a claim. -/
def Claim.code (c : Claim) : Nat :=
  match c with
  | .free => 0
  | .heldA => 1
  | .heldB => 2

/-- The byte of an anemometer in a WIND report: AN1 1 and AN2 2. Chapter 12 gives the byte and no code for it (log entry 44). -/
def anemometerCode (a : AnemometerId) : Nat :=
  match a with
  | .an1 => 1
  | .an2 => 2

/-- The code of a parameter write's result (12.5). -/
def WriteResult.code (r : WriteResult) : Nat :=
  match r with
  | .acknowledged => 1
  | .notAcknowledged => 2
  | .withdrawn => 3

/-- The code of what ended a jog (12.5). -/
def JogEnd.code (e : JogEnd) : Nat :=
  match e with
  | .release => 1
  | .otherInput => 2
  | .selection => 3
  | .keyRemote => 4
  | .envelopeEnd => 5
  | .otherStop => 6
  | .releaseTimeout => 7

/-- The code of a setpoint mode (12.7). -/
def SetpointMode.code (m : SetpointMode) : Nat :=
  match m with
  | .braked => 0
  | .energize => 1
  | .run => 2
  | .proof => 3

/-- The code of a lock command (12.7). -/
def LockCmd.code (c : LockCmd) : Nat :=
  match c with
  | .engage => 1
  | .retract => 2

/-- A gust, 65,535 when it is not formed (R183). -/
def gustCode (g : Option Nat) : Nat :=
  match g with
  | some v => v
  | none => 65535

/-- A slot or rail, 255 when it is named nowhere (R183). -/
def namedCode (i : Option (Fin 4)) : Nat :=
  match i with
  | some v => v.val
  | none => 255

/-! ### Replies (12.1) -/

/-- The detail after a REFUSED reason. -/
def Reason.detail (r : Reason) : List Byte :=
  match r with
  | .condition (some c) => num8 (causeCode c)
  | .config (.fields check cond slot addr) => num8 check ++ num8 cond ++ num8 slot ++ num8 addr
  | .config (.budget sMax w q) => num8 3 ++ num16 sMax ++ num8 w ++ int16 q
  | _ => []

/-- A reply payload: the result byte, then the items or the reason with its detail. -/
def Result.bytes (r : Result) : List Byte :=
  match r with
  | .ok items => 0 :: items
  | .okClamped items => 1 :: items
  | .refused reason => [2] ++ num8 reason.code ++ reason.detail

/-! ### Reports (12.5) -/

/-- The index of a report's kind in the report mask: its code less 0x40. -/
def Report.index (r : Report) : Nat :=
  match r with
  | .planLow .. => 0
  | .planStarved .. => 1
  | .segmentDone .. => 2
  | .spanState .. => 3
  | .spanFault .. => 4
  | .skewWarn .. => 5
  | .wind .. => 6
  | .zone .. => 7
  | .proof .. => 8
  | .bogie .. => 9
  | .paramDone .. => 10
  | .mode .. => 11
  | .station .. => 12

/-- The code of a report. -/
def Report.code (r : Report) : Byte := BitVec.ofNat 8 (0x40 + r.index)

/-- The stop kind and end state of a SPAN_STATE report or a span status. -/
def stopBytes (r : Option StopRecord) : List Byte :=
  match r with
  | none => [0, 0]
  | some s => num8 (stopKindCode s.kind) ++ num8 (endSpanState s.endState).code

/-- The fields of a WIND report before its time. -/
def WindEvent.bytes (e : WindEvent) : List Byte :=
  match e with
  | .gate old new gust kw => num8 1 ++ num8 old.code ++ num8 new.code ++ num16 (gustCode gust) ++ num8 kw ++ num8 0 ++ num16 0
  | .suspect a sample => num8 2 ++ num8 0 ++ num8 0 ++ num16 0 ++ num8 0 ++ num8 (anemometerCode a) ++ num16 sample
  | .recovered a sample => num8 3 ++ num8 0 ++ num8 0 ++ num16 0 ++ num8 0 ++ num8 (anemometerCode a) ++ num16 sample

/-- The event, holder and wait-start of a ZONE report. -/
def ZoneEvent.bytes (e : ZoneEvent) : List Byte :=
  match e with
  | .granted => num8 1 ++ num8 0 ++ num32 0
  | .released => num8 2 ++ num8 0 ++ num32 0
  | .waitTimeout holder since => num8 3 ++ num8 (namedCode holder) ++ enc32 since

/-- The event, slot, direction and detail of a STATION report. The events of ESTOP, HOLD and KEY and SELECT_CHANGED have no slot,
and an absent item is sent as 0 (R157, R180, R183; log entry 24). -/
def StationEvent.bytes (e : StationEvent) : List Byte :=
  match e with
  | .estopAsserted => num8 1 ++ num8 0 ++ num8 0 ++ num8 0
  | .estopReleased => num8 2 ++ num8 0 ++ num8 0 ++ num8 0
  | .holdPressed => num8 3 ++ num8 0 ++ num8 0 ++ num8 0
  | .holdReleased => num8 4 ++ num8 0 ++ num8 0 ++ num8 0
  | .holdStuck => num8 5 ++ num8 0 ++ num8 0 ++ num8 0
  | .keyLocal => num8 6 ++ num8 0 ++ num8 0 ++ num8 0
  | .keyRemote => num8 7 ++ num8 0 ++ num8 0 ++ num8 0
  | .jogStarted slot dir => num8 8 ++ num8 slot.val ++ int8 (dirInt dir) ++ num8 0
  | .jogRefused slot dir reason => num8 9 ++ num8 slot.val ++ int8 (dirInt dir) ++ num8 reason.code
  | .jogEnded slot why => num8 10 ++ num8 slot.val ++ num8 0 ++ num8 why.code
  | .selectChanged => num8 11 ++ num8 0 ++ num8 0 ++ num8 0

/-- The code of what a MODE report says besides the mode. -/
def ModeNote.code (n : ModeNote) : Nat :=
  match n with
  | .none => 0
  | .reason r => r.code
  | .cause c => c.code

/-- The payload of a report. -/
def Report.payload (r : Report) : List Byte :=
  match r with
  | .planLow slot count lw => num8 slot.val ++ num8 count ++ num8 lw
  | .planStarved slot tag x time => num8 slot.val ++ enc16 tag ++ int32 x ++ enc32 time
  | .segmentDone slot tag target time count => num8 slot.val ++ enc16 tag ++ int32 target ++ enc32 time ++ num8 count
  | .spanState slot old new stop => num8 slot.val ++ num8 old.code ++ num8 new.code ++ stopBytes stop
  | .spanFault slot cause first =>
    num8 slot.val ++ num8 (causeCode cause) ++ num8 first.isSome.toNat ++
    (match first with
      | some (pos, time) => measured32 pos ++ enc32 time
      | none => num32 0 ++ num32 0)
  | .skewWarn slot s lead lag time => num8 slot.val ++ skew32 s ++ num8 lead.val ++ num8 lag.val ++ enc32 time
  | .wind event time => event.bytes ++ enc32 time
  | .zone entry slot event time =>
    num8 entry ++ num8 slot.val ++ event.bytes ++ enc32 time
  | .proof slot result owed dir creep cause time =>
    num8 slot.val ++ num8 result.code ++ int8 owed ++ int8 (dirInt dir) ++
    (match creep with
      | some (c, a) => num32 c ++ num8 a
      | none => num32 0 ++ num8 0) ++
    (match cause with
      | some c => num8 c.code
      | none => num8 0) ++ enc32 time
  | .bogie addr slot role recovered time =>
    num8 addr ++ num8 slot.val ++ num8 role.code ++ num8 (if recovered then 2 else 1) ++ enc32 time
  | .paramDone addr index value result time =>
    num8 addr ++ enc8 index ++ enc16 value ++ num8 result.code ++ enc32 time
  | .mode md note time => num8 md.code ++ num8 note.code ++ enc32 time
  | .station event time => event.bytes ++ enc32 time

/-! ### Frames (12.1) -/

/-- The bytes of a frame being sent, from the sync byte to the CRC byte. -/
def TxFrame.bytes (t : TxFrame) : List Byte :=
  [Config.sync, BitVec.ofNat 8 t.payload.length, t.kind, t.tag] ++ t.payload ++ [frameCrc t.crcAlt t.kind t.tag t.payload]

/-! ### Words of the bogie link (12.7) -/

/-- A header word: transaction, the 7-bit address field, and n (or M). -/
def headerWord (transaction : Nat) (addr n : BitVec 7) : LinkWord :=
  linkWord (BitVec.ofNat 4 transaction ++ addr ++ n ++ (0 : BitVec 6))

/-- A setpoint word: the mode and the 22-bit command (R184). -/
def setpointWord (mode : SetpointMode) (command : Int) : LinkWord :=
  linkWord (BitVec.ofNat 2 mode.code ++ BitVec.ofInt 22 (match mode with | .run | .proof => command | _ => 0))

/-- The BRAKE word (R100). -/
def brakeWord : LinkWord := linkWord (BitVec.ofNat 24 0xFFFFFF)

/-- The words the device drives in a transaction. -/
def Txn.words (t : Txn) : List LinkWord :=
  match t with
  | .broadcast b _ => [headerWord 5 (b.g.extractLsb' 0 7) (b.m.extractLsb' 0 7), brakeWord]
  | .burst _ _ _ _ first n mode ws =>
    headerWord 1 (BitVec.ofNat 7 first) (BitVec.ofNat 7 n) :: ws.map (fun w => setpointWord mode w.command)
  | .poll addr _ _ _ => [headerWord 2 (BitVec.ofNat 7 addr) 0]
  | .param addr index value _ _ _ =>
    [headerWord 3 (BitVec.ofNat 7 addr) 0, linkWord (index ++ (0 : BitVec 16)), linkWord (value ++ (0 : BitVec 8))]
  | .lock _ addr cmd _ _ _ =>
    [headerWord 4 (BitVec.ofNat 7 addr) 0, linkWord (BitVec.ofNat 8 cmd.code ++ (0 : BitVec 16)), linkWord 0]

end Sys2Proof.Machine
end

