-- ==== Sys2Proof/Machine/Ops.lean ====
section
/-! DEFINITION. The named operations every block shares: reports, lookups, posting a setpoint set, group broadcasts,
the fault record, and the change of a span's state. Operations on the plant read the rest of the device through
`Env` only, so that none of them can change it. -/

namespace Sys2Proof.Machine

/-- What the plant's operations read of the rest of the device: the configuration store, device time, the device
mode, whether the validated key is LOCAL, the gate state and the wind factor. -/
structure Env where
  cfg      : ConfigStore
  time     : Time
  mode     : Mode
  keyLocal : Bool
  gate     : GateState
  kw       : Nat
deriving DecidableEq, Repr

/-- The device as its plant reads it. -/
def State.env (s : State) : Env :=
  { cfg := s.cfg, time := s.time, mode := s.sup.mode, keyLocal := s.station.key.val, gate := s.wind.gate,
    kw := s.wind.kw }

/-- The settings read for a slot that is not in use. Such a slot is UNCONFIGURED, and no span event reads them. -/
def SpanConfig.absent : SpanConfig :=
  { rails := 0, xmin := 0, xmax := 0, vmax := 0, vb := 0, ad := 0, aq := 0, c := 0, jog := 0, kp := 0, tmax := 0,
    kl := 0, lmax := 0, kdeg := 100, sWarn := 0, sStop := 0, sTrip := 0, fLim := 0, tHold := 0, tRel := 0, g := 0,
    m := 0, lock1 := 0, lock2 := 0, lockTol := 0, tLock := 0, tProof := 0, proofTorque := 0, proofHold := 0,
    creepLimit := 0, autoProof := false, autoResume := false }

/-- The span settings of a slot. -/
def Env.span (env : Env) (i : Slot) : SpanConfig := (env.cfg.spans.get i).getD SpanConfig.absent

/-- The span slots in ascending order, each taken by an operation. -/
def eachSlot (f : Slot → Plant → Plant) (p : Plant) : Plant := f 3 (f 2 (f 1 (f 0 p)))

/-! ### Reports (R179) -/

/-- A report queued: only when its kind is enabled, and dropped with the flag set when the queue is full. -/
def ReportQueue.push (q : ReportQueue) (r : Report) : ReportQueue :=
  if q.mask.getLsbD r.index then
    if q.queue.length < Config.reportsMax then { q with queue := q.queue ++ [r] } else { q with dropped := true }
  else q

/-- A report queued by a block of the plant. -/
def Plant.report (p : Plant) (r : Report) : Plant := { p with out := p.out.push r }

/-- Reports queued in order. -/
def Plant.reports (p : Plant) (rs : List Report) : Plant := rs.foldl Plant.report p

/-! ### Lookups -/

/-- The span of a slot. -/
def Plant.span (p : Plant) (i : Slot) : Span := p.spans.get i

/-- The span of a slot replaced. -/
def Plant.setSpan (p : Plant) (i : Slot) (sp : Span) : Plant := { p with spans := p.spans.set i sp }

/-- The record of a configured address. -/
def BogieLink.find (l : BogieLink) (addr : Nat) : Option AddrRec := l.addrs.find? (fun a => a.addr == addr)

/-- The record of an address changed. -/
def BogieLink.update (l : BogieLink) (addr : Nat) (f : AddrRec → AddrRec) : BogieLink :=
  { l with addrs := l.addrs.map (fun a => if a.addr == addr then f a else a) }

/-- Whether an address is a bogie of a slot (R77). -/
def AddrRec.isBogieOf (a : AddrRec) (i : Slot) : Bool := a.role == .bogie && a.slot == i

/-- The bogies of a slot, in address order. -/
def Plant.bogies (p : Plant) (i : Slot) : List AddrRec := p.link.addrs.filter (fun a => a.isBogieOf i)

/-- The bogies of a rail, in address order (R8). -/
def Plant.railBogies (p : Plant) (i : Slot) (r : Rail) : List AddrRec := (p.bogies i).filter (fun a => a.rail == r)

/-- The lock unit of a slot (R11): at most one in a store that has passed GO READY. Where two addresses name the slot before that,
the lowest of them (log entry 48). -/
def Plant.lockUnit (p : Plant) (i : Slot) : Option AddrRec :=
  p.link.addrs.find? (fun a => a.role == .lockUnit && a.slot == i)

/-- Whether every bogie of a slot is valid (R118). -/
def Plant.allValid (env : Env) (p : Plant) (i : Slot) : Bool := (p.bogies i).all (fun a => a.isValid env.cfg.dev.stale)

/-! ### Setpoint mailboxes (R16, R97) -/

/-- The command a set carries to a bogie: u_b in RUN, the signed test torque in PROOF, 0 otherwise (R98). -/
def setCommand (sc : SpanConfig) (sp : Span) (mode : SetpointMode) (a : AddrRec) : Int :=
  match mode with
  | .run => a.command
  | .proof => match sp.test with
    | some t => dirInt t.dir * sc.proofTorque
    | none => 0
  | .braked => 0
  | .energize => 0

/-- Post a set in the span's setpoint mode, replacing a posted set that no cycle has taken (R16, R97). -/
def postSet (env : Env) (i : Slot) (p : Plant) : Plant :=
  let sp := p.span i
  match sp.setpointMode with
  | none => p
  | some mode =>
    let cmds := (four.flatMap (p.railBogies i)).map (fun a => (a.addr, setCommand (env.span i) sp mode a))
    p.setSpan i { sp with posted := some { mode := mode, cmds := cmds } }

/-! ### Group broadcasts (R99) -/

/-- Whether a transaction is a group broadcast requested during the cycle. -/
def Txn.isInserted (t : Txn) : Bool :=
  match t with
  | .broadcast _ inserted => inserted
  | _ => false

/-- A broadcast requested during a cycle put before the next composed transaction, behind those requested earlier. -/
def insertBroadcast (b : Broadcast) (ts : List Txn) : List Txn :=
  match ts with
  | [] => [.broadcast b true]
  | t :: rest => if t.isInserted then t :: insertBroadcast b rest else .broadcast b true :: t :: rest

/-- A broadcast requested for a span: nothing when one is pending; otherwise it joins the list and, during a
cycle, stands before the next composed transaction. -/
def BogieLink.requestBroadcast (l : BogieLink) (b : Broadcast) : BogieLink :=
  if l.bcasts.any (fun c => c.slot == b.slot) then l
  else { l with bcasts := l.bcasts ++ [b],
                cycle := match l.cycle with
                  | [] => []
                  | head :: rest => head :: insertBroadcast b rest }

/-- The group broadcast BRAKE of a span (R20), with the G and M of the moment of the request (log entry 43). -/
def brakeSpan (env : Env) (i : Slot) (p : Plant) : Plant :=
  { p with link := p.link.requestBroadcast { slot := i, g := (env.span i).g, m := (env.span i).m } }

/-! ### The fault record (R26) -/

/-- A cause registered: as the first cause with the measured position (x where none was formed) and the device
time when the record is empty, and as a later cause when it is new. A SPAN_FAULT report is queued in both cases. -/
def registerFault (env : Env) (i : Slot) (c : FaultCause) (p : Plant) : Plant :=
  let sp := p.span i
  match sp.fault with
  | none =>
    let pos := sp.lastM.getD sp.x
    (p.setSpan i { sp with fault := some { first := c, pos := pos, time := env.time, later := [] } }).report
      (.spanFault i c (some (pos, env.time)))
  | some f =>
    if f.first == c || f.later.contains c then p
    else (p.setSpan i { sp with fault := some { f with later := f.later ++ [c] } }).report (.spanFault i c none)

/-- The cause of a stop request registered, when it has one. -/
def registerStop (env : Env) (i : Slot) (req : StopRequest) (p : Plant) : Plant :=
  match req.endState, req.cause with
  | .faulted, some c => registerFault env i c p
  | _, _ => p

/-! ### The parameter queue -/

/-- Whether an entry is a host write to an address of a slot. -/
def BogieLink.isWriteOf (l : BogieLink) (i : Slot) (e : ParamEntry) : Bool :=
  match e with
  | .host addr _ _ => match l.find addr with
    | some a => a.slot == i
    | none => false
  | .lock _ _ => false

/-- The PARAM_DONE report of a host write that is withdrawn; a lock command has none. -/
def withdrawnReport (time : Time) (e : ParamEntry) : List Report :=
  match e with
  | .host addr index value => [.paramDone addr index value .withdrawn time]
  | .lock _ _ => []

/-- The queued host writes of a slot's addresses withdrawn, each with its report, in queue order (R109). -/
def withdrawWrites (env : Env) (i : Slot) (p : Plant) : Plant :=
  let gone := p.link.params.filter (p.link.isWriteOf i)
  let kept := p.link.params.filter (fun e => !p.link.isWriteOf i e)
  Plant.reports { p with link := { p.link with params := kept } } (gone.flatMap (withdrawnReport env.time))

/-- Whether an entry is the lock command of a slot. -/
def ParamEntry.isLockOf (e : ParamEntry) (i : Slot) : Bool :=
  match e with
  | .lock slot _ => slot == i
  | .host _ _ _ => false

/-- A lock transaction of a slot, its completion no longer to change the span. -/
def Txn.deadLock (i : Slot) (t : Txn) : Txn :=
  match t with
  | .lock slot addr cmd branch wait live => .lock slot addr cmd branch wait (live && slot != i)
  | other => other

/-- A span's lock command removed unsent when it is still queued (R110), and its completion made to change nothing
when a cycle has taken it (R17). -/
def dropLockCommand (i : Slot) (p : Plant) : Plant :=
  { p with link := { p.link with params := p.link.params.filter (fun e => !e.isLockOf i),
                                 cycle := p.link.cycle.map (Txn.deadLock i) } }

/-! ### The change of a span's state -/

/-- Whether a stop record is a SAFE stop. -/
def StopRecord.isSafe (r : StopRecord) : Bool := r.kind == .safe

/-- Whether a state, with the stop record it is entered under, keeps the profile generator running (R56). -/
def generatorRuns (new : SpanState) (rec : Option StopRecord) : Bool :=
  match new with
  | .moving => true
  | .stopping => match rec with
    | some r => !r.isSafe
    | none => true
  | _ => false

/-- The run of the interval timer on entry into a state: frozen in the lock states, running on otherwise (R115). -/
def TimerRun.enter (t : TimerRun) (new : SpanState) : TimerRun :=
  match t with
  | .stopped => .stopped
  | _ => if new.lockFamily then .frozen else .running

/-- A span entering a state other than UNCONFIGURED: the timers, contexts and flags that entering or leaving a state
starts, stops or discards (R16, R19 to R25, R30, R69, R73, R75, R115, R123, R126, R149). -/
def Span.enter (sc : SpanConfig) (new : SpanState) (rec : Option StopRecord) (sp : Span) : Span :=
  let gen := generatorRuns new rec
  { sp with
    state := new,
    v := if gen then sp.v else 0,
    stop := if new == .stopping then rec else none,
    holdT := if new == .holding then some (sc.tHold * 1000) else none,
    releaseT := if new == .starting then some (sc.tRel * 100) else none,
    dwellT := none,
    safeT := if new == .stopping && !gen then (if sp.inSafeStop then sp.safeT else some Config.safeStopMs) else none,
    jog := if gen || new == .starting then sp.jog else none,
    windHold := sp.windHold && (new == .stopping || new == .holding || new == .resting),
    zoneWait := false,
    running := sp.running && gen,
    test := if new == .proving then sp.test else none,
    lock := if new == .locking || new == .unlocking then sp.lock else none,
    proof := { sp.proof with run := sp.proof.run.enter new } }

/-- A span changed into a state other than UNCONFIGURED: the SPAN_STATE report, the withdrawal of host writes on
entry into an energised state (R109), the end of a lock operation on leaving LOCKING or UNLOCKING (R110), and
the set posted at once when the setpoints go to BRAKED, ENERGIZE or PROOF (R16). A change that leaves the setpoint mode as it
was posts none, the end of a test in phase BRAKE_SET among them (R123, log entry 49). -/
def changeState (env : Env) (i : Slot) (new : SpanState) (rec : Option StopRecord) (p : Plant) : Plant :=
  let sp := p.span i
  let sp' := sp.enter (env.span i) new rec
  let p := (p.setSpan i sp').report (.spanState i sp.state new sp'.stop)
  let p := if new.energised then withdrawWrites env i p else p
  let p := if sp.state == .locking || sp.state == .unlocking then dropLockCommand i p else p
  if sp.setpointMode != sp'.setpointMode && sp'.setpointMode != some .run then postSet env i p else p

/-- A span in UNCONFIGURED: the reset values of R35, R55, R92 and R97, with the proof state kept and its timer
running on (R115, R129) and the period timer kept (R35). -/
def Span.unconfigured (sp : Span) : Span :=
  { Span.powerOn with proof := { sp.proof with run := sp.proof.run.enter .unconfigured }, periodT := sp.periodT }

/-- The JOG_ENDED report of a span whose jog a stop ends, before the stop's SPAN_STATE report (R157, R158). -/
def endJog (env : Env) (i : Slot) (why : JogEnd) (p : Plant) : Plant :=
  if (p.span i).jogging then p.report (.station (.jogEnded i why) env.time) else p

end Sys2Proof.Machine
end

