-- ==== Sys2Proof/Machine/Plan.lean ====
section
/-! DEFINITION. The Plan Queue (chapter 3): runs and stop points, retirement with its reports, and flushing. -/

namespace Sys2Proof.Machine

/-- Whether the segment queued after another has a course opposite to a direction (R40). -/
def courseOpposes (dir : Dir) (s t : Segment) : Bool := dirInt dir * (t.target - s.target) < 0

/-- The run at the head of a plan in a direction: the chain up to the first segment whose end is a stop point, by
its STOP flag, by a reversal of course, or because nothing follows it (R40). -/
def runChain (dir : Dir) (plan : List Segment) : List Segment :=
  match plan with
  | [] => []
  | [s] => [s]
  | s :: t :: rest => if s.stop || courseOpposes dir s t then [s] else s :: runChain dir (t :: rest)

/-- The run in progress of a span. -/
def Span.run (sp : Span) : List Segment := if sp.running then runChain sp.dir sp.plan else []

/-- The stop point of a chain: the end of its last segment (R60). -/
def chainEnd (chain : List Segment) : Option Int := chain.getLast?.map Segment.target

/-- The far end of a span's path: its run's stop point or its jog's envelope end, while it is MOVING, or STOPPING
under a CONTROLLED or QUICK stop (8.2). -/
def Span.pathEnd (sp : Span) : Option Int :=
  if generatorRuns sp.state sp.stop then
    match sp.jog with
    | some j => some j.target
    | none => chainEnd sp.run
  else none

/-- The PLAN_LOW report of a count that falls from above Lw to at or below it (R51). -/
def planLowReports (i : Slot) (lw before after : Nat) : List Report :=
  if lw < before && after ≤ lw then [.planLow i after lw] else []

/-- The SEGMENT_DONE report of a retired segment with its REPORT flag set (R43). -/
def segmentDoneReports (time : Time) (i : Slot) (s : Segment) (after : Nat) : List Report :=
  if s.report then [.segmentDone i s.tag s.target time after] else []

/-- The SEGMENT_DONE and the PLAN_LOW of each retirement in turn, from a count before the first (R43, R51). -/
def retirementReports (time : Time) (i : Slot) (lw count : Nat) (segs : List Segment) : List (List Report × List Report) :=
  match segs with
  | [] => []
  | s :: rest =>
    (segmentDoneReports time i s (count - 1), planLowReports i lw count (count - 1)) ::
      retirementReports time i lw (count - 1) rest

/-- The reports of a period's retirements, at the start of a run and by its advance: PLAN_LOW behind the SEGMENT_DONE of the
retirement that crosses the mark (R51), and behind every SEGMENT_DONE where the period ends the plan in MOVING (R46, R47). The
rules agree but for several retirements at the end of a plan; the model's reading is log entry 38. -/
def retireReports (time : Time) (i : Slot) (lw count : Nat) (segs : List Segment) (endsPlan : Bool) : List Report :=
  let rs := retirementReports time i lw count segs
  if endsPlan then rs.flatMap (fun r => r.1) ++ rs.flatMap (fun r => r.2) else rs.flatMap (fun r => r.1 ++ r.2)

/-- A span whose heads are retired: the dwell of the last is remembered when the run ended there, and its tag when the queue
is left empty (R43). -/
def Span.retired (sp : Span) (segs : List Segment) (endsRun : Bool) : Span :=
  match segs.getLast? with
  | none => sp
  | some last =>
    { sp with plan := sp.plan.drop segs.length,
              lastDwell := if endsRun then some last.dwell else sp.lastDwell,
              lastTag := if sp.plan.length ≤ segs.length then some last.tag else sp.lastTag }

/-- The reports of the heads a period has retired, in queue order, once they have left the plan (R43, R46, R51). The period ends
the plan when they empty the queue in MOVING; in STOPPING no rule but R51 orders them. -/
def reportRetired (env : Env) (i : Slot) (segs : List Segment) (p : Plant) : Plant :=
  let sp := p.span i
  p.reports (retireReports env.time i sp.lw (sp.plan.length + segs.length) segs (sp.state == .moving && sp.plan.isEmpty))

/-- Heads retired by an advance, and the reports of the period: those of the heads that the start of a run has retired in the
same period, and then theirs (R43, R46). -/
def retire (env : Env) (i : Slot) (gone segs : List Segment) (endsRun : Bool) (p : Plant) : Plant :=
  reportRetired env i (gone ++ segs) (p.setSpan i ((p.span i).retired segs endsRun))

/-- Whether x has reached or passed a segment's target in a direction (R43). -/
def reached (dir : Dir) (x : Int) (s : Segment) : Bool := 0 ≤ dirInt dir * (x - s.target)

/-- The heads an advance to x retires (R40, R43, R68): those of the run's chain that x has reached, also an interior one at
the zone edge x has snapped to, and behind a chain retired whole the heads with that same target. A head that lies
behind x after a reversal, or behind the stop point of a run, belongs to the next run (log entry 3). -/
def retiredHeads (dir : Dir) (x : Int) (chain plan : List Segment) : List Segment :=
  let run := chain.takeWhile (reached dir x)
  if chain.isEmpty || run.length < chain.length then run
  else run ++ (plan.drop run.length).takeWhile (fun s => s.target == x)

/-- The retirements that follow an advance of a run in progress, and the last segment retired. -/
def retireReached (env : Env) (i : Slot) (chain gone : List Segment) (p : Plant) : Plant × Option Segment :=
  let sp := p.span i
  let segs := retiredHeads sp.dir sp.x chain sp.plan
  (retire env i gone segs (chain.length ≤ segs.length) p, segs.getLast?)

/-- The heads whose target equals x, retired at once at the start of a run (R42). -/
def Span.headsAtX (sp : Span) : List Segment := sp.plan.takeWhile (fun s => s.target == sp.x)

/-- A span at the start of a run without the heads at x. Their dwell is not served; the period queues their reports (R42). -/
def retireEqual (i : Slot) (p : Plant) : Plant :=
  let sp := p.span i
  p.setSpan i (sp.retired sp.headsAtX false)

/-- Starvation registered (R47): the starved flag, and the PLAN_STARVED report with the tag remembered. -/
def starve (env : Env) (i : Slot) (p : Plant) : Plant :=
  let sp := p.span i
  (p.setSpan i { sp with starved := true }).report (.planStarved i (sp.lastTag.getD 0) sp.x env.time)

/-- The dwell that follows a run whose queue still holds a segment: the remembered dwell of the segment retired, no
timer for a dwell of 0 (R44). -/
def Span.dwelling (sp : Span) : Span :=
  let dwell := sp.lastDwell.getD 0
  { sp with running := false, v := 0, dwellT := if dwell = 0 then none else some (dwell * 1000) }

/-- The effect of a flush on the plan: every segment removed, none retired, and the PLAN_LOW report of the fall
(R49, R51). -/
def flushPlanOf (i : Slot) (p : Plant) : Plant :=
  let sp := p.span i
  (p.setSpan i { sp with plan := [] }).reports (planLowReports i sp.lw sp.plan.length 0)

end Sys2Proof.Machine
end

