-- ==== Sys2Proof/Machine/Zones.lean ====
section
/-! DEFINITION. The Clearance Table (chapter 8): inside flags, claims, waits, release and grant, the evaluations
that follow a change of x outside the generator, and the near edges the generator reads (R61). -/

namespace Sys2Proof.Machine

/-- The slot of a side. -/
def ZoneEntry.slot (z : ZoneEntry) (d : Side) : Slot :=
  match d with
  | .a => z.spanA
  | .b => z.spanB

/-- The side a slot has in an entry, `none` when the entry does not name it. -/
def ZoneEntry.sideOf (z : ZoneEntry) (i : Slot) : Option Side :=
  if z.spanA = i then some .a else if z.spanB = i then some .b else none

/-- The lower end of a side's interval. -/
def ZoneEntry.lo (z : ZoneEntry) (d : Side) : Int :=
  match d with
  | .a => z.a1
  | .b => z.b1

/-- The upper end of a side's interval. -/
def ZoneEntry.hi (z : ZoneEntry) (d : Side) : Int :=
  match d with
  | .a => z.a2
  | .b => z.b2

/-- What an entry holds for a side. -/
def ZoneEntry.part (z : ZoneEntry) (d : Side) : ZoneSide :=
  match d with
  | .a => z.sideA
  | .b => z.sideB

/-- An entry with one side's part replaced. -/
def ZoneEntry.withPart (z : ZoneEntry) (d : Side) (w : ZoneSide) : ZoneEntry :=
  match d with
  | .a => { z with sideA := w }
  | .b => { z with sideB := w }

/-- The other side. -/
def sideOther (d : Side) : Side :=
  match d with
  | .a => .b
  | .b => .a

/-- The claim held by a side. -/
def sideClaim (d : Side) : Claim :=
  match d with
  | .a => .heldA
  | .b => .heldB

/-- The slot that holds an entry's claim. -/
def ZoneEntry.holder (z : ZoneEntry) : Option Slot :=
  match z.claim with
  | .free => none
  | .heldA => some z.spanA
  | .heldB => some z.spanB

/-- Whether a position lies in a side's interval, ends included. -/
def ZoneEntry.covers (z : ZoneEntry) (d : Side) (v : Int) : Bool := inRange (z.lo d) (z.hi d) v

/-- Whether a span at x with some rail measured positions is inside a side's interval (R132). -/
def ZoneEntry.insideAt (z : ZoneEntry) (d : Side) (x : Int) (mr : Quad (Option Int)) : Bool :=
  z.covers d x || mr.toList.any (fun m => match m with | some v => z.covers d v | none => false)

/-- Whether the closed range between x and a path's end meets a side's interval (8.2). -/
def ZoneEntry.meets (z : ZoneEntry) (d : Side) (x : Int) (pathEnd : Option Int) : Bool :=
  match pathEnd with
  | none => false
  | some e => decide (min x e ≤ z.hi d) && decide (z.lo d ≤ max x e)

/-- A part with no wait: the flag clear and the timer stopped. -/
def ZoneSide.noWait (w : ZoneSide) : ZoneSide := { w with wait := false, since := 0, timer := none }

/-- A claim granted to a side: its wait flag clears and its timer stops, with the ZONE report GRANTED (R133). -/
def ZoneEntry.grant (time : Time) (d : Side) (z : ZoneEntry) (q : ReportQueue) : ZoneEntry × ReportQueue :=
  ({ z.withPart d (z.part d).noWait with claim := sideClaim d }, q.push (.zone z.entry (z.slot d) .granted time))

/-- A refused request: the wait flag is set with the wait-start time and T_zw unless it already is (R135). -/
def ZoneEntry.refuse (time : Time) (d : Side) (z : ZoneEntry) : ZoneEntry :=
  let w := z.part d
  if w.wait then z else z.withPart d { w with wait := true, since := time, timer := some (z.tzw * 1000) }

/-- The release of a period (R136): a claim held by a side not inside and with no path that meets the interval goes
FREE, and passes at once to the other side when that one waits. -/
def ZoneEntry.release (time : Time) (d : Side) (pathMeets : Bool) (z : ZoneEntry) (q : ReportQueue) : ZoneEntry × ReportQueue :=
  if z.claim == sideClaim d && !(z.part d).inside && !pathMeets then
    let q := q.push (.zone z.entry (z.slot d) .released time)
    let z := { z with claim := .free }
    if (z.part (sideOther d)).wait then z.grant time (sideOther d) q else (z, q)
  else (z, q)

/-- The request of a period (R133, R135): wanted, it is granted on a FREE claim with the other span not inside and
refused otherwise; not wanted, the wait clears. A holder requests nothing. -/
def ZoneEntry.request (time : Time) (d : Side) (wanted : Bool) (z : ZoneEntry) (q : ReportQueue) : ZoneEntry × ReportQueue :=
  if z.claim == sideClaim d then (z, q)
  else if wanted then
    if z.claim == .free && !(z.part (sideOther d)).inside then z.grant time d q else (z.refuse time d, q)
  else (z.withPart d (z.part d).noWait, q)

/-- Entries taken in ascending order by an operation that may queue reports. -/
def zoneSweep (f : ZoneEntry → ReportQueue → ZoneEntry × ReportQueue) (zs : List ZoneEntry) (q : ReportQueue) :
    List ZoneEntry × ReportQueue :=
  match zs with
  | [] => ([], q)
  | z :: rest =>
    let a := f z q
    let b := zoneSweep f rest a.2
    (a.1 :: b.1, b.2)

/-- Whether a span's fault record holds ZONE_CONFLICT, so that it neither requests nor is judged for intrusion. -/
def Span.inConflict (sp : Span) : Bool := sp.faultHas .zoneConflict

/-- One entry at a span's period (R133): the inside flag judged afresh, then release, then a request. -/
def zoneTurn (env : Env) (i : Slot) (sp : Span) (z : ZoneEntry) (q : ReportQueue) : ZoneEntry × ReportQueue :=
  match z.sideOf i with
  | none => (z, q)
  | some d =>
    let z := z.withPart d { z.part d with inside := z.insideAt d sp.x sp.meas.mr }
    let pathMeets := z.meets d sp.x sp.pathEnd
    let a := z.release env.time d pathMeets q
    let wanted := !sp.inConflict && ((sp.state == .moving && pathMeets) || z.covers d sp.x)
    a.1.request env.time d wanted a.2

/-- The Clearance Table's turn at a span's period. -/
def zonePeriod (env : Env) (i : Slot) (p : Plant) : Plant :=
  let a := zoneSweep (zoneTurn env i (p.span i)) p.zones p.out
  { p with zones := a.1, out := a.2 }

/-- Whether an entry has a span inside an interval whose claim the span does not hold. -/
def ZoneEntry.intruded (z : ZoneEntry) (i : Slot) : Bool :=
  match z.sideOf i with
  | none => false
  | some d => (z.part d).inside && z.claim != sideClaim d

/-- The intrusion check of a period (R138). -/
def zoneIntrusion (i : Slot) (p : Plant) : Bool := !(p.span i).inConflict && p.zones.any (fun z => z.intruded i)

/-- The evaluation of one entry after x was set outside the generator (R137): the claim granted where it can be. -/
def zoneEvalTurn (env : Env) (i : Slot) (sp : Span) (z : ZoneEntry) (q : ReportQueue) : ZoneEntry × ReportQueue :=
  match z.sideOf i with
  | none => (z, q)
  | some d =>
    if z.insideAt d sp.x sp.meas.mr && z.claim == .free && !(z.part (sideOther d)).inside then z.grant env.time d q
    else (z, q)

/-- The span's entries evaluated in ascending order (R137). -/
def zoneEvaluate (env : Env) (i : Slot) (p : Plant) : Plant :=
  let a := zoneSweep (zoneEvalTurn env i (p.span i)) p.zones p.out
  { p with zones := a.1, out := a.2 }

/-- Whether the evaluated span is in conflict: some interval of its entries contains x and it does not hold the
claim (R137). -/
def zoneConflict (i : Slot) (p : Plant) : Bool :=
  p.zones.any (fun z => match z.sideOf i with
    | none => false
    | some d => z.covers d (p.span i).x && z.claim != sideClaim d)

/-- The near edge an entry gives a span's path as a distance (R61): none where the claim is held, the interval does
not meet the path, or x is inside it. -/
def zoneEdge (i : Slot) (x : Int) (dir : Dir) (pathEnd : Option Int) (z : ZoneEntry) : Option Nat :=
  match z.sideOf i with
  | none => none
  | some d =>
    if z.claim != sideClaim d && z.meets d x pathEnd && !z.covers d x then
      let edge := match dir with
        | .pos => z.lo d - 1
        | .neg => z.hi d + 1
      some (dirInt dir * (edge - x)).toNat
    else none

/-- The near edges of the unheld intervals on a span's path (R61). -/
def zoneEdges (i : Slot) (p : Plant) : List Nat :=
  let sp := p.span i
  p.zones.filterMap (zoneEdge i sp.x sp.dir sp.pathEnd)

/-- A span's claims and flags cleared without a report, on its entry into UNCONFIGURED (R142). -/
def ZoneEntry.forget (i : Slot) (z : ZoneEntry) : ZoneEntry :=
  match z.sideOf i with
  | none => z
  | some d => { z.withPart d ZoneSide.clear with claim := if z.claim == sideClaim d then .free else z.claim }

/-- An entry with every claim FREE and every flag clear (R142). -/
def ZoneEntry.fresh (z : ZoneEntry) : ZoneEntry := { z with claim := .free, sideA := ZoneSide.clear, sideB := ZoneSide.clear }

/-- A span into UNCONFIGURED (R17): its controller, plan, mailbox and zone state cleared, no report, and its lock
command handled as R110 gives. -/
def unconfigureSpan (i : Slot) (p : Plant) : Plant :=
  let p := dropLockCommand i p
  { p.setSpan i (p.span i).unconfigured with zones := p.zones.map (ZoneEntry.forget i) }

/-- One entry at the assignment of claims (R139): inside flags judged afresh and the claim given to the one span
inside, `true` when both are. -/
def ZoneEntry.assign (z : ZoneEntry) (p : Plant) : ZoneEntry × Bool :=
  let a := z.insideAt .a (p.span z.spanA).x (p.span z.spanA).meas.mr && (p.span z.spanA).state != .unconfigured
  let b := z.insideAt .b (p.span z.spanB).x (p.span z.spanB).meas.mr && (p.span z.spanB).state != .unconfigured
  ({ z with claim := if a && !b then .heldA else if b && !a then .heldB else .free,
            sideA := { ZoneSide.clear with inside := a }, sideB := { ZoneSide.clear with inside := b } }, a && b)

/-- The expiry of a side's wait timer: the ZONE report WAIT_TIMEOUT with the holder and the wait-start time; the
flag stays set and the timer is not restarted (R135). -/
def ZoneEntry.waitExpired (time : Time) (d : Side) (z : ZoneEntry) (q : ReportQueue) : ZoneEntry × ReportQueue :=
  let w := z.part d
  if w.timer.isSome then
    (z.withPart d { w with timer := none }, q.push (.zone z.entry (z.slot d) (.waitTimeout z.holder w.since) time))
  else (z, q)

end Sys2Proof.Machine
end

