-- ==== Sys2Proof/Machine/BrakeProof.lean ====
section
/-! DEFINITION. The Proof Scheduler and the brake proof test (chapter 7): starting a test, its judgement of the
bogies, its results, and the entry into HOLDING or RESTING at which an owed test may start. -/

namespace Sys2Proof.Machine

/-- The start conditions of a test (R118). -/
def testAllowed (env : Env) (i : Slot) (p : Plant) : Bool :=
  env.mode == .ready && ((p.span i).state == .resting || (p.span i).state == .holding) && !env.keyLocal && p.allValid env i

/-- Whether an automatic test is wanted of a RESTING span (R118). -/
def autoTestWanted (sc : SpanConfig) (sp : Span) : Bool :=
  sc.autoProof && sp.state == .resting && (decide (1 ≤ sp.proof.owed) || sp.proof.unproven) && sp.proof.last != some .fail

/-- The test record a test starts with (R120). -/
def TestRecord.start (dir : Dir) : TestRecord := { phase := .brakeSet, timer := Config.brakeSetMs, dir := dir, starts := [] }

/-- A test started (R120): the record in phase BRAKE_SET, and the span in PROVING. -/
def startTest (env : Env) (i : Slot) (p : Plant) : Plant :=
  let sp := p.span i
  changeState env i .proving none (p.setSpan i { sp with test := some (TestRecord.start sp.proof.nextDir) })

/-- A forced test started when the proof-due flag is set and the conditions hold (R118). -/
def tryForced (env : Env) (i : Slot) (p : Plant) : Plant :=
  if (p.span i).proof.due && testAllowed env i p then startTest env i p else p

/-- A forced or an automatic test started when it is due or wanted and the conditions hold (R118). -/
def tryTest (env : Env) (i : Slot) (p : Plant) : Plant :=
  if ((p.span i).proof.due || autoTestWanted (env.span i) (p.span i)) && testAllowed env i p then startTest env i p else p

/-- A span's entry into an end state, where a test owed may start (R22, R118). -/
def enterEnd (env : Env) (i : Slot) (e : EndState) (p : Plant) : Plant :=
  tryTest env i (changeState env i (endSpanState e) none p)

/-! ### Results (R123, R124) -/

/-- The proof state after a PASS. -/
def ProofState.passed (ps : ProofState) : ProofState :=
  { ps with owed := max (ps.owed - 1) Config.owedMin, unproven := false, relock := false, due := false,
            last := some .pass, nextDir := dirFlip ps.nextDir }

/-- The proof state after a FAIL. -/
def ProofState.failed (ps : ProofState) : ProofState := { ps with unproven := true, last := some .fail }

/-- The proof state after an abandoned test. -/
def ProofState.abandon (ps : ProofState) : ProofState := { ps with last := some .abandoned }

/-- The direction of the test in progress. -/
def Span.testDir (sp : Span) : Dir :=
  match sp.test with
  | some t => t.dir
  | none => sp.proof.nextDir

/-- A test ended PASS: its PROOF report with the largest creep judged, then the entry into RESTING. -/
def passTest (env : Env) (i : Slot) (creep : Option (Nat × Nat)) (p : Plant) : Plant :=
  let sp := p.span i
  let ps := sp.proof.passed
  enterEnd env i .resting
    ((p.setSpan i { sp with proof := ps }).report (.proof i .pass ps.owed sp.testDir creep none env.time))

/-- A test ended FAIL: its PROOF report, the BRAKE_PROOF cause with its SPAN_FAULT report, then the entry into
FAULTED. -/
def failTest (env : Env) (i : Slot) (creep : Option (Nat × Nat)) (p : Plant) : Plant :=
  let sp := p.span i
  let ps := sp.proof.failed
  changeState env i .faulted none
    (registerFault env i .brakeProof
      ((p.setSpan i { sp with proof := ps }).report (.proof i .fail ps.owed sp.testDir creep none env.time)))

/-- The result ABANDONED with its PROOF report; the state the span then enters is the caller's. -/
def abandonTest (env : Env) (i : Slot) (why : AbandonCause) (p : Plant) : Plant :=
  let sp := p.span i
  let ps := sp.proof.abandon
  (p.setSpan i { sp with proof := ps }).report (.proof i .abandoned ps.owed sp.testDir none (some why) env.time)

/-! ### Judging the bogies (R120, R121) -/

/-- The position of a bogie's last reply. -/
def AddrRec.lastPos (a : AddrRec) : Int :=
  match a.last with
  | some r => r.pos
  | none => 0

/-- Whether a bogie's last reply carries BRAKE_RELEASED. -/
def AddrRec.released (a : AddrRec) : Bool :=
  match a.last with
  | some r => r.released
  | none => false

/-- Whether the brakes of a span are set: every bogie valid and reporting BRAKE_RELEASED clear. -/
def brakesSet (env : Env) (i : Slot) (p : Plant) : Bool :=
  p.allValid env i && (p.bogies i).all (fun a => !a.released)

/-- The start position recorded for an address. -/
def TestRecord.startOf (t : TestRecord) (addr : Nat) : Int :=
  match t.starts.find? (fun e => e.1 == addr) with
  | some e => e.2
  | none => 0

/-- A bogie's creep so far with its address: the magnitude of its position less its start position. -/
def TestRecord.creepOf (t : TestRecord) (a : AddrRec) : Nat × Nat := (magnitude (a.lastPos - t.startOf a.addr), a.addr)

/-- The largest of some creeps, the lowest address of equal ones. -/
def largestCreep (cs : List (Nat × Nat)) : Option (Nat × Nat) :=
  cs.foldl (fun best c => match best with
    | none => some c
    | some b => if b.1 < c.1 then some c else some b) none

/-- The phase HOLD begun at the period that finds the brakes set (R120): start positions, the proof hold time, and
the set in mode PROOF. -/
def beginHold (env : Env) (i : Slot) (t : TestRecord) (p : Plant) : Plant :=
  let sp := p.span i
  let t := { t with phase := .hold, timer := (env.span i).proofHold * 1000,
                    starts := (p.bogies i).map (fun a => (a.addr, a.lastPos)) }
  postSet env i (p.setSpan i { sp with test := some t })

/-- The judgement of a period in phase HOLD (R121): a bogie that is not valid abandons the test, and otherwise the
first creep above the limit in address order fails it. -/
def holdPeriod (env : Env) (i : Slot) (t : TestRecord) (p : Plant) : Plant :=
  if !p.allValid env i then enterEnd env i .resting (abandonTest env i .bogieInvalid p)
  else match ((p.bogies i).map t.creepOf).find? (fun c => (env.span i).creepLimit < c.1) with
    | some c => failTest env i (some c) p
    | none => p

/-- The judgement at the expiry of phase HOLD (R121). The largest creep reported is the largest of this judgement (log entry
23). -/
def holdEnd (env : Env) (i : Slot) (t : TestRecord) (p : Plant) : Plant :=
  let worst := largestCreep ((p.bogies i).map t.creepOf)
  if !p.allValid env i then enterEnd env i .resting (abandonTest env i .bogieInvalid p)
  else if (match worst with | some c => decide ((env.span i).creepLimit < c.1) | none => false) then failTest env i worst p
  else passTest env i worst p

/-- The period's part in a test (R120, R121). -/
def testPeriod (env : Env) (i : Slot) (p : Plant) : Plant :=
  match (p.span i).test with
  | none => p
  | some t => match t.phase with
    | .brakeSet => if brakesSet env i p then beginHold env i t p else p
    | .hold => holdPeriod env i t p

end Sys2Proof.Machine
end

