-- ==== Sys2Proof/Machine/Stops.lean ====
section
/-! DEFINITION. A stop request taken by a span (R18 to R25), the end of a stop (R20, R22), and START, jog starts and
CLEAR FAULT (R28, R32, R33, R73, R156). -/

namespace Sys2Proof.Machine

/-! ### Stops -/

/-- The group broadcast of a SAFE stop; no other kind requests one (R20, R23, R24, R122). -/
def brakeIfSafe (env : Env) (i : Slot) (req : StopRequest) (p : Plant) : Plant :=
  if req.kind == .safe then brakeSpan env i p else p

/-- A stop taken in RESTING: only an end state of FAULTED has an effect (R25). -/
def stopResting (env : Env) (i : Slot) (req : StopRequest) (p : Plant) : Plant :=
  match req.endState with
  | .faulted => enterEnd env i .faulted (registerStop env i req p)
  | _ => p

/-- A stop taken in STARTING: the release is aborted and the end state entered, HOLDING taken as RESTING (R24). JOG_ENDED comes
before the SPAN_FAULT report of the stop's cause (log entry 9). -/
def stopStarting (env : Env) (i : Slot) (req : StopRequest) (why : JogEnd) (p : Plant) : Plant :=
  enterEnd env i (endAtRest req.endState) (registerStop env i req (brakeIfSafe env i req (endJog env i why p)))

/-- A stop taken in MOVING: SAFE enters STOPPING at once; at v = 0 a CONTROLLED or QUICK stop is over at once;
otherwise the span enters STOPPING with the request's kind and end state (R19, R20). JOG_ENDED comes before the SPAN_FAULT
report of the stop's cause (log entry 9). -/
def stopMoving (env : Env) (i : Slot) (req : StopRequest) (why : JogEnd) (p : Plant) : Plant :=
  let p := registerStop env i req (brakeIfSafe env i req (endJog env i why p))
  if req.kind != .safe && (p.span i).v == 0 then enterEnd env i req.endState p
  else changeState env i .stopping (some { kind := req.kind, endState := req.endState }) p

/-- A stop taken in HOLDING: an end state of HOLDING has no effect, another is entered at once (R23). -/
def stopHolding (env : Env) (i : Slot) (req : StopRequest) (p : Plant) : Plant :=
  match req.endState with
  | .holding => p
  | e => enterEnd env i e (registerStop env i req (brakeIfSafe env i req p))

/-- A stop merged into the stop in progress (R21): the higher kind and the more severe end state, the broadcast of
an upgrade to SAFE, and a SPAN_STATE report when the kind or the end state changes. -/
def stopStopping (env : Env) (i : Slot) (req : StopRequest) (p : Plant) : Plant :=
  let sp := p.span i
  let p := registerStop env i req p
  match sp.stop with
  | none => p
  | some r =>
    let r' : StopRecord := { kind := kindMax r.kind req.kind, endState := endMax r.endState req.endState }
    if r' = r then p
    else changeState env i .stopping (some r') (if r'.isSafe && !r.isSafe then brakeSpan env i p else p)

/-- A stop taken in PROVING: the test is abandoned and the end state entered, HOLDING taken as RESTING (R25, R122).
The PROOF report comes before the SPAN_FAULT report of the stop's cause (log entry 9). -/
def stopProving (env : Env) (i : Slot) (req : StopRequest) (p : Plant) : Plant :=
  enterEnd env i (endAtRest req.endState) (registerStop env i req (brakeIfSafe env i req (abandonTest env i .stop p)))

/-- A stop taken in FAULTED: only an end state of FAULTED adds its cause (R25). -/
def stopFaulted (env : Env) (i : Slot) (req : StopRequest) (p : Plant) : Plant := registerStop env i req p

/-- A stop request taken whole at its arrival, by the state it finds (R18). `why` is what JOG_ENDED carries when
it ends a jog. -/
def takeStop (env : Env) (i : Slot) (req : StopRequest) (why : JogEnd) (p : Plant) : Plant :=
  match (p.span i).state with
  | .unconfigured => p
  | .resting => stopResting env i req p
  | .starting => stopStarting env i req why p
  | .moving => stopMoving env i req why p
  | .holding => stopHolding env i req p
  | .stopping => stopStopping env i req p
  | .proving => stopProving env i req p
  | .locking => p
  | .locked => p
  | .unlocking => p
  | .faulted => stopFaulted env i req p

/-- The stop of PAUSE and of the other sources that bring a span to HOLDING. -/
def controlledHold : StopRequest := { kind := .controlled, endState := .holding, cause := none }

/-- The stop of STOP and of FAILSAFE for a host or station reason. -/
def quickRest : StopRequest := { kind := .quick, endState := .resting, cause := none }

/-- The stop of FAILSAFE for OPERATOR_STOP. -/
def safeRest : StopRequest := { kind := .safe, endState := .resting, cause := none }

/-- A stop of a span's own checks, with its cause (the table of 2.2). -/
def faultStop (kind : StopKind) (c : FaultCause) : StopRequest := { kind := kind, endState := .faulted, cause := some c }

/-- A position clamped to a span's envelope. -/
def SpanConfig.clampX (sc : SpanConfig) (v : Int) : Int := clampInt sc.xmin sc.xmax v

/-- The end of a SAFE stop (R20, R137): x from the measured position, r = 0, the evaluation of the span's entries,
and the end state, FAULTED in place of RESTING or HOLDING on a conflict. -/
def endSafeStop (env : Env) (i : Slot) (p : Plant) : Plant :=
  let sp := p.span i
  let e := match sp.stop with
    | some r => endAtRest r.endState
    | none => .resting
  let x := match sp.meas.m with
    | some m => (env.span i).clampX m
    | none => sp.x
  let p := zoneEvaluate env i (p.setSpan i { sp with x := x, r := 0 })
  if zoneConflict i p then enterEnd env i .faulted (registerFault env i .zoneConflict p)
  else enterEnd env i e p

/-! ### START and jog -/

/-- The conditions of START after the mode and the plan, and the reasons that refuse it (R28, conditions 4 and 6 to
8, with the key condition between). -/
def motionRefusal (env : Env) (i : Slot) (keyReason : Option Reason) (sp : Span) : Option Reason :=
  if env.gate.shut then some .wind
  else if keyReason.isSome then keyReason
  else if sp.proof.owed == Config.owedMax then some .proofOwed
  else if sp.proof.unproven then some .proofRequired
  else if sp.skewed (env.span i) then some .skew
  else none

/-- Conditions 2 to 8 of START (R28). -/
def startRefusal (env : Env) (i : Slot) (p : Plant) : Option Reason :=
  let sp := p.span i
  if sp.state != .resting && sp.state != .holding then some .state
  else if sp.plan.isEmpty then some .emptyPlan
  else motionRefusal env i (if env.keyLocal then some .localControl else none) sp

/-- A span set in motion: STARTING from RESTING, MOVING at once from HOLDING (R28, R73). -/
def enterMotion (env : Env) (i : Slot) (p : Plant) : Plant :=
  if (p.span i).state == .holding then changeState env i .moving none p else changeState env i .starting none p

/-- An accepted START: the starved flag cleared, and the span set in motion (R28). -/
def startSpan (env : Env) (i : Slot) (p : Plant) : Plant :=
  enterMotion env i (p.setSpan i { p.span i with starved := false })

/-- An auto-resume: a START judged by conditions 2 to 8, refused in silence (R149). -/
def autoResume (env : Env) (i : Slot) (p : Plant) : Plant :=
  match startRefusal env i p with
  | some _ => p
  | none => startSpan env i p

/-- The conditions of a jog of a slot (R156). -/
def jogRefusal (env : Env) (i : Slot) (p : Plant) : Option Reason :=
  let sp := p.span i
  if env.mode != .ready then some .mode
  else if !env.keyLocal then some (.condition none)
  else if sp.state != .resting && sp.state != .holding then some .state
  else motionRefusal env i none sp

/-- The jog context of a direction (R73, the table of 4.10). -/
def jogContext (sc : SpanConfig) (dir : Dir) : JogContext :=
  { dir := dir, target := match dir with | .pos => sc.xmax | .neg => sc.xmin, cruise := sc.jog, accel := sc.ad }

/-- A jog requested by a validated press with the other input released (R156): refused with a report, or started
with its report, its context and the span set in motion. -/
def requestJog (env : Env) (i : Slot) (dir : Dir) (p : Plant) : Plant :=
  match jogRefusal env i p with
  | some why => p.report (.station (.jogRefused i dir why) env.time)
  | none =>
    let sp := p.span i
    enterMotion env i
      ((p.report (.station (.jogStarted i dir) env.time)).setSpan i
        { sp with jog := some (jogContext (env.span i) dir), dir := dir })

/-! ### CLEAR FAULT -/

/-- Whether every rail of a span satisfies a test of its valid count and record. -/
def Span.railsAll (sc : SpanConfig) (sp : Span) (ok : Rail → Nat → Bool) : Bool :=
  four.all (fun r => sc.rails ≤ r.val || ok r (sp.meas.nValid.get r))

/-- The minimum valid count of a rail (R80). -/
def Env.minValid (env : Env) (i : Slot) (r : Rail) : Nat :=
  match (env.cfg.rails.get i).get r with
  | some c => c.minValid
  | none => 1

/-- The declared count of a rail. -/
def Env.declared (env : Env) (i : Slot) (r : Rail) : Nat :=
  match (env.cfg.rails.get i).get r with
  | some c => c.n
  | none => 0

/-- Whether a span has a rail below its minimum valid count (R80). -/
def Span.belowMinimum (env : Env) (i : Slot) (sp : Span) : Bool :=
  !sp.railsAll (env.span i) (fun r n => env.minValid i r ≤ n)

/-- Whether both spans of some entry naming a slot are inside, as last judged (R140). -/
def bothInside (i : Slot) (p : Plant) : Bool :=
  p.zones.any (fun z => (z.sideOf i).isSome && z.sideA.inside && z.sideB.inside)

/-- The conditions of CLEAR FAULT on a FAULTED span, in the order of R32: the cause of the first unmet one. -/
def clearRefusal (env : Env) (i : Slot) (p : Plant) : Option FaultCause :=
  let sp := p.span i
  let sc := env.span i
  if !sp.railsAll sc (fun _ n => 1 ≤ n) then some .bogieLoss
  else if sp.faultHas .bogieLoss && sp.belowMinimum env i then some .bogieLoss
  else if sp.faultHas .zoneConflict && bothInside i p then some .zoneConflict
  else if sp.faultHas .envelope && !inRange sc.xmin sc.xmax (sp.meas.m.getD sp.x) then some .envelope
  else if sp.faultHas .skewStop && sp.skewed sc then some .skewStop
  else if sp.faultHas .skewTrip && sp.skewed sc then some .skewTrip
  else none

/-- An accepted CLEAR FAULT (R33): x from m, the fault record cleared, the entry into RESTING, then the evaluation of
the span's entries, where a conflict takes the span straight back to FAULTED (R137). A test owed may start only
on a span that stays RESTING. -/
def clearFault (env : Env) (i : Slot) (p : Plant) : Plant :=
  let sp := p.span i
  let x := match sp.meas.m with
    | some m => (env.span i).clampX m
    | none => sp.x
  let p := changeState env i .resting none (p.setSpan i { sp with x := x, r := 0, fault := none })
  let p := zoneEvaluate env i p
  if zoneConflict i p then changeState env i .faulted none (registerFault env i .zoneConflict p)
  else tryTest env i p

end Sys2Proof.Machine
end

