-- ==== Sys2Proof/Machine/Align.lean ====
section
/-! DEFINITION. Rail alignment and load sharing (chapter 5): valid bogies, measured positions, trims, commands, skew,
the degraded flag, and the checks whose stops a period raises. -/

namespace Sys2Proof.Machine

/-! ### Measurement (R77 to R79) -/

/-- The measured position of a rail from its valid bogies: the floor of the mean of p_b + o_b (R78). -/
def railPosition (valid : List AddrRec) : Option Int :=
  if valid.isEmpty then none
  else some ((valid.foldl (fun (n : Int) (a : AddrRec) => n + (a.lastPos + a.offset)) 0) / (valid.length : Int))

/-- The valid bogies of a rail. -/
def Plant.validRail (env : Env) (p : Plant) (i : Slot) (r : Rail) : List AddrRec :=
  (p.railBogies i r).filter (fun a => a.isValid env.cfg.dev.stale)

/-- The rails of a span that exist, in ascending order. -/
def railsOf (sc : SpanConfig) : List Rail := four.filter (fun r => r.val < sc.rails)

/-- All of some optional values, when every one is there. -/
def allSome (vs : List (Option Int)) : Option (List Int) :=
  match vs with
  | [] => some []
  | none :: _ => none
  | some v :: rest => (allSome rest).map (fun ws => v :: ws)

/-- The span measured position: the floor of the mean of the rail positions, when every rail has one (R79). -/
def spanPosition (sc : SpanConfig) (mr : Quad (Option Int)) : Option Int :=
  match allSome ((railsOf sc).map mr.get) with
  | some (v :: vs) => some (((v :: vs).foldl (fun a b => a + b) 0) / ((v :: vs).length : Int))
  | _ => none

/-- The valid counts and the rail and span measured positions formed from the address records as they stand, with the
last m formed kept (R77 to R79). -/
def formPositions (env : Env) (i : Slot) (p : Plant) : Plant :=
  let sc := env.span i
  let sp := p.span i
  let there (r : Rail) := decide (r.val < sc.rails)
  let mr := Quad.ofFn (fun r => if there r then railPosition (p.validRail env i r) else none)
  let n := Quad.ofFn (fun r => if there r then (p.validRail env i r).length else 0)
  let m := spanPosition sc mr
  p.setSpan i { sp with meas := { sp.meas with nValid := n, mr := mr, m := m },
                        lastM := match m with | some v => some v | none => sp.lastM }

/-- The measurement of a period: the validity of every bogie of the span, shown in its record until the next period
(R91), and the positions. -/
def measureSpan (env : Env) (i : Slot) (p : Plant) : Plant :=
  let p := formPositions env i p
  { p with link := { p.link with addrs := p.link.addrs.map (fun a =>
      if a.isBogieOf i then { a with valid := a.isValid env.cfg.dev.stale } else a) } }

/-! ### Trims and commands (R82 to R85) -/

/-- A rail trim (R82): Kp times the rail error over 1000, truncated toward zero and limited to Tmax. -/
def railTrim (sc : SpanConfig) (e : Option Int) : Int :=
  match e with
  | none => 0
  | some v => clampInt (-(sc.tmax : Int)) sc.tmax ((sc.kp * v).tdiv 1000)

/-- The torque of a bogie's last reply, limited to -200 to +200 (R83). -/
def AddrRec.torque (a : AddrRec) : Int :=
  match a.last with
  | some r => clampInt (-200) 200 r.torque
  | none => 0

/-- The mean torque of a rail's valid bogies, truncated toward zero (R83). -/
def meanTorque (valid : List AddrRec) : Int := (valid.foldl (fun (n : Int) (a : AddrRec) => n + a.torque) 0).tdiv (valid.length : Int)

/-- A load trim (R83): 0 for an invalid bogie. -/
def bogieTrim (sc : SpanConfig) (mean : Int) (a : AddrRec) : Int :=
  if a.valid then clampInt (-(sc.lmax : Int)) sc.lmax (sc.kl * (mean - a.torque)) else 0

/-- A bogie command (R84): the sum of the reference, the rail trim and the load trim, limited to Vb. -/
def bogieCommand (sc : SpanConfig) (dir : Dir) (v : Nat) (trim load : Int) : Int :=
  clampInt (-(sc.vb : Int)) sc.vb (dirInt dir * v + trim + load)

/-- The load trim and command of one address, formed for the bogies of a span in mode RUN and 0 otherwise. -/
def AddrRec.drive (sc : SpanConfig) (i : Slot) (sp : Span) (means : Quad Int) (a : AddrRec) : AddrRec :=
  if a.isBogieOf i then
    if sp.inRun then
      let load := bogieTrim sc (means.get a.rail) a
      { a with loadTrim := load, command := bogieCommand sc sp.dir sp.v (sp.meas.tr.get a.rail) load }
    else { a with loadTrim := 0, command := 0 }
  else a

/-! ### Skew (R86, R87) -/

/-- The rail of the highest value of `key`, the lowest-numbered of equal ones. -/
def bestRail (key : Rail → Int) (rs : List Rail) : Option Rail :=
  rs.foldl (fun best r => match best with
    | none => some r
    | some b => if key b < key r then some r else some b) none

/-- The skew of a period with its leading and lagging rails, when every rail has a measured position (R86). -/
def skewOf (sc : SpanConfig) (mr : Quad (Option Int)) : Option (Nat × Rail × Rail) :=
  let at_ (r : Rail) := (mr.get r).getD 0
  if (railsOf sc).all (fun r => (mr.get r).isSome) then
    match bestRail at_ (railsOf sc), bestRail (fun r => -at_ r) (railsOf sc) with
    | some lead, some lag => some ((at_ lead - at_ lag).toNat, lead, lag)
    | _, _ => none
  else none

/-- The skew of a period stored, and the skew warning judged with its report (R86, R87). -/
def skewStep (env : Env) (i : Slot) (p : Plant) : Plant :=
  let sc := env.span i
  let sp := p.span i
  match skewOf sc sp.meas.mr with
  | none => p
  | some (s, lead, lag) =>
    let warn := sp.skewArmed && decide (sc.sWarn < s)
    let rearm := !sp.skewArmed && decide (s < sc.sWarn / 2)
    let p := p.setSpan i { sp with skew := s, leading := some lead, lagging := some lag,
                                   skewArmed := (sp.skewArmed && !warn) || rearm }
    if warn then p.report (.skewWarn i s lead lag env.time) else p

/-! ### The alignment step (R76) -/

/-- Whether a span is degraded (R81): every rail at or above its minimum and some rail below its declared count. -/
def Span.degradedNow (env : Env) (i : Slot) (sp : Span) : Bool :=
  !sp.belowMinimum env i && !sp.railsAll (env.span i) (fun r n => env.declared i r ≤ n)

/-- The rest of the alignment step, on the measurement of the period and the x, v and dir the generator left: the
degraded flag, the rail errors, the trims and commands in mode RUN, and the skew. The trims of the last period
in mode RUN are kept out of RUN (R91). -/
def alignSpan (env : Env) (i : Slot) (p : Plant) : Plant :=
  let sc := env.span i
  let sp := p.span i
  let er := sp.meas.mr.map (fun m => m.map (fun v => sp.x - v))
  let tr := if sp.inRun then er.map (railTrim sc) else sp.meas.tr
  let sp := { sp with degraded := sp.degradedNow env i, meas := { sp.meas with er := er, tr := tr } }
  let means := Quad.ofFn (fun r => meanTorque (p.validRail env i r))
  let p := p.setSpan i sp
  skewStep env i { p with link := { p.link with addrs := p.link.addrs.map (AddrRec.drive sc i sp means) } }

/-! ### Checks (5.10) -/

/-- Whether m, formed at this period, lies more than the margin outside the envelope (R27). -/
def Span.outsideEnvelope (sc : SpanConfig) (sp : Span) : Bool :=
  match sp.meas.m with
  | none => false
  | some m => !inRange (sc.xmin - Config.envelopeMargin) (sc.xmax + Config.envelopeMargin) m

/-- Whether some rail error formed at this period exceeds F_lim, in the states R89 judges. R33 has an error left after CLEAR
FAULT raise its stop at the span's next period; the model follows R89, which judges it at the first period of MOVING
(log entry 39). -/
def Span.followingError (sc : SpanConfig) (sp : Span) : Bool :=
  sp.inRun && sp.meas.er.toList.any (fun e => match e with | some v => decide (sc.fLim < magnitude v) | none => false)

/-- The skew stop of a period (R88): judged while energised and when the skew was formed. -/
def Span.skewStop (sc : SpanConfig) (sp : Span) : List StopRequest :=
  if sp.state.energised && (skewOf sc sp.meas.mr).isSome then
    if sc.sTrip < sp.skew then [faultStop .safe .skewTrip]
    else if sc.sStop < sp.skew then [faultStop .controlled .skewStop]
    else []
  else []

/-- The stops a span's own checks raise at a period, in the order of R90: bogie loss, envelope, following, skew. -/
def Span.checks (env : Env) (i : Slot) (sp : Span) : List StopRequest :=
  let sc := env.span i
  (if sp.belowMinimum env i then [faultStop .quick .bogieLoss] else []) ++
  (if sp.outsideEnvelope sc then [faultStop .quick .envelope] else []) ++
  (if sp.followingError sc then [faultStop .quick .following] else []) ++ sp.skewStop sc

end Sys2Proof.Machine
end

