-- ==== Sys2Proof/Machine/Profile.lean ====
section
/-! DEFINITION. The profile generator (chapter 4), the start and end of a run (R42, R44 to R48), and the whole of a
span period. -/

namespace Sys2Proof.Machine

/-! ### The speed factor and the boundary list -/

/-- The factor k of a period: the least of the wind factor, the override and the degrade factor (R57). -/
def speedFactor (env : Env) (sc : SpanConfig) (sp : Span) : Nat :=
  min env.kw (min sp.override (if sp.degraded then sc.kdeg else 100))

/-- The effective limit of a cruise speed under k (R59). -/
def effLimit (k cruise : Nat) : Nat := cruise * k / 100

/-- A point ahead at which the speed must not exceed a limit (4.3). -/
structure Boundary where
  d     : Nat
  limit : Nat
deriving DecidableEq, Repr

/-- The distance ahead of x of a position in a direction. -/
def ahead (dir : Dir) (x target : Int) : Nat := (dirInt dir * (target - x)).toNat

/-- The boundaries of the run's segment ends but the last: each with the effective limit of the segment that
follows (R60). -/
def interiorBoundaries (k : Nat) (dir : Dir) (x : Int) (chain : List Segment) : List Boundary :=
  match chain with
  | [] => []
  | [_] => []
  | s :: t :: rest => { d := ahead dir x s.target, limit := effLimit k t.cruise } :: interiorBoundaries k dir x (t :: rest)

/-- The least of some distances. -/
def nearest (ds : List Nat) : Option Nat :=
  match ds with
  | [] => none
  | d :: rest => match nearest rest with
    | none => some d
    | some e => some (min d e)

/-- What the generator travels towards: the acceleration and cruise of the head or the jog context, the stop point's
distance, and the interior boundaries. -/
structure Travel where
  cruise   : Nat
  accel    : Nat
  stopAt   : Nat
  interior : List Boundary
deriving DecidableEq, Repr

/-- The travel of a span with a jog or a run in progress. -/
def Span.travel (k : Nat) (sp : Span) : Option Travel :=
  match sp.jog with
  | some j => some { cruise := j.cruise, accel := j.accel, stopAt := ahead sp.dir sp.x j.target, interior := [] }
  | none =>
    match sp.run with
    | [] => none
    | h :: rest =>
      some { cruise := h.cruise, accel := h.accel, stopAt := ahead sp.dir sp.x (((h :: rest).getLastD h).target),
             interior := interiorBoundaries k sp.dir sp.x (h :: rest) }

/-- R of a period: the distance to the nearest stop point, the run's end, the envelope end or a zone edge (R62). -/
def Travel.room (t : Travel) (edges : List Nat) : Nat :=
  match nearest edges with
  | none => t.stopAt
  | some e => min e t.stopAt

/-- The boundary list of a period: the stop point at R, and the interior boundaries not beyond it (R62). -/
def Travel.boundaries (t : Travel) (room : Nat) : List Boundary :=
  { d := room, limit := 0 } :: t.interior.filter (fun b => decide (b.d ≤ room))

/-! ### One period's speed and advance -/

/-- The advance a speed would cause with a remainder (R63). -/
def advanceOf (u r : Nat) : Nat := (u + r) / 100

/-- The braking check of a speed against one boundary (R63). -/
def brakeOk (ad r u : Nat) (b : Boundary) : Bool :=
  decide (u ≤ b.limit) || decide (u * u + 2 * ad * advanceOf u r ≤ 2 * ad * b.d + b.limit * b.limit)

/-- The braking check against every boundary. -/
def brakeOkAll (ad r u : Nat) (bs : List Boundary) : Bool := bs.all (brakeOk ad r u)

/-- The speed of the candidate and the check (R64, R65). -/
def checkedSpeed (ad dacc l0 v r : Nat) (bs : List Boundary) : Nat :=
  let ddec := ad / 100
  if l0 < v then max (v - ddec) l0
  else
    let cand := min (v + dacc) l0
    if brakeOkAll ad r cand bs then cand
    else if brakeOkAll ad r v bs then v
    else v - ddec

/-- The creep floor (R66). -/
def creepFloor (c l0 room u : Nat) : Nat := if u < min c l0 && 0 < room && 0 < l0 then min c l0 else u

/-- The reference after an advance at a speed towards the nearest stop point, and whether it snapped (R67). -/
def advance (sp : Span) (u room : Nat) : Span × Bool :=
  let d := advanceOf u sp.r
  if d < room then ({ sp with x := sp.x + dirInt sp.dir * d, v := u, r := u + sp.r - 100 * d }, false)
  else ({ sp with x := sp.x + dirInt sp.dir * room, v := 0, r := 0 }, true)

/-! ### The start and end of a run -/

/-- A run that has ended in MOVING (R44, R46, R47): a dwell when a segment remains, HOLDING when none does, with
starvation when the segment retired has its STOP flag clear. -/
def endRun (env : Env) (i : Slot) (last : Segment) (p : Plant) : Plant :=
  let sp := p.span i
  if sp.plan.isEmpty then enterEnd env i .holding (if last.stop then p else starve env i p)
  else p.setSpan i sp.dwelling

/-- The start of a run (R42): heads at x retired at once, the direction set from the next head, or the run ended at
standstill when none is left, which leaves dir as it was (log entry 47). Where the run begins, the reports of the heads retired are left to the advance of the same
period, so that PLAN_LOW stands behind every SEGMENT_DONE when that advance ends the run (R46, R47). -/
def startRun (env : Env) (i : Slot) (p : Plant) : Plant :=
  let gone := (p.span i).headsAtX
  let p := retireEqual i p
  let sp := p.span i
  match sp.plan, gone.getLast? with
  | [], some last => endRun env i last (reportRetired env i gone p)
  | [], none => p
  | h :: _, _ => p.setSpan i { sp with dir := if sp.x < h.target then .pos else .neg, running := true }

/-- What follows an advance in MOVING (R68): retirements, and the end of the run or of the jog when the snap placed x
on its stop point. `gone` are the heads retired at the start of the run in this period. A snap to a zone edge retires an
interior segment whose target is that edge (log entry 3). -/
def afterAdvance (env : Env) (i : Slot) (chain gone : List Segment) (atStop : Bool) (p : Plant) : Plant :=
  let sp := p.span i
  if sp.jog.isSome then if atStop then takeStop env i controlledHold .envelopeEnd p else p
  else
    let q := retireReached env i chain gone p
    match q.2, atStop with
    | some last, true => endRun env i last q.1
    | _, _ => q.1

/-- The generator's step in MOVING with a run or a jog in progress (R57 to R69, R74), in a period that has retired the heads
`gone` at the start of its run. -/
def travelStep (env : Env) (i : Slot) (gone : List Segment) (p : Plant) : Plant :=
  let sp := p.span i
  let sc := env.span i
  let k := speedFactor env sc sp
  match sp.travel k with
  | none => reportRetired env i gone p
  | some t =>
    let edges := zoneEdges i p
    let room := t.room edges
    let l0 := effLimit k t.cruise
    let u := creepFloor sc.c l0 room (checkedSpeed sc.ad (t.accel / 100) l0 sp.v sp.r (t.boundaries room))
    let a := advance sp u room
    let onEdge := edges.contains 0 || (a.2 && edges.contains room)
    afterAdvance env i sp.run gone (a.2 && room == t.stopAt) (p.setSpan i { a.1 with zoneWait := onEdge })

/-- The generator's part of a period in MOVING (R42, R71): nothing while a dwell is served, and a run started first
when none is in progress. -/
def movingStep (env : Env) (i : Slot) (p : Plant) : Plant :=
  let sp := p.span i
  if sp.dwellT.isSome then p
  else if sp.jog.isSome || sp.running then travelStep env i [] p
  else
    let p := startRun env i p
    if (p.span i).running then travelStep env i sp.headsAtX p else p

/-- The generator's part of a period in STOPPING under a CONTROLLED or QUICK stop (R48, R70): the ramp, the advance
with the snap, retirements, and the end of the stop when v reaches 0. A span with nothing left to travel stays
where it is. -/
def rampStep (env : Env) (i : Slot) (r : StopRecord) (p : Plant) : Plant :=
  let sp := p.span i
  let sc := env.span i
  let u := sp.v - (if r.kind == .quick then sc.aq else sc.ad) / 100
  let room := match sp.travel 100 with
    | none => 0
    | some t => t.room (zoneEdges i p)
  let a := advance sp u room
  let p := p.setSpan i a.1
  let p := if sp.jog.isSome then p else (retireReached env i sp.run [] p).1
  if a.1.v = 0 then enterEnd env i r.endState p else p

/-! ### The span period -/

/-- The release handshake (R29): every valid bogie READY and BRAKE_RELEASED, and at least one valid. -/
def handshake (env : Env) (i : Slot) (p : Plant) : Bool :=
  let valid := (p.bogies i).filter (fun a => a.isValid env.cfg.dev.stale)
  !valid.isEmpty && valid.all (fun a => match a.last with | some r => r.ready && r.released | none => false)

/-- Whether every valid bogie of a span reports speed 0 (R20). -/
def halted (env : Env) (i : Slot) (p : Plant) : Bool :=
  (p.bogies i).all (fun a => !a.isValid env.cfg.dev.stale || (match a.last with | some r => r.speed == 0 | none => true))

/-- The last reply of a span's lock unit when it counts for the lock operation (R126). -/
def lockReply (i : Slot) (p : Plant) : Option LastReply :=
  match (p.span i).lock, p.lockUnit i with
  | some l, some a => if l.sent && l.replied then a.last.filter (fun r => !r.fault) else none
  | _, _ => none

/-- The period of LOCKING (R126). -/
def lockingPeriod (env : Env) (i : Slot) (p : Plant) : Plant :=
  match lockReply i p with
  | some r => if r.ready then changeState env i .locked none p else p
  | none => p

/-- The period of UNLOCKING (R127): pins retracted set the relock flag and take the span to RESTING. -/
def unlockingPeriod (env : Env) (i : Slot) (p : Plant) : Plant :=
  match lockReply i p with
  | some r =>
    if r.released then
      let sp := p.span i
      enterEnd env i .resting (p.setSpan i { sp with proof := { sp.proof with relock := true } })
    else p
  | none => p

/-- The state machine's part of a period, by the state the period finds. -/
def spanStep (env : Env) (i : Slot) (p : Plant) : Plant :=
  let sp := p.span i
  match sp.state with
  | .unconfigured => p
  | .resting => tryTest env i p
  | .starting => if handshake env i p then changeState env i .moving none p else p
  | .moving => movingStep env i p
  | .holding => tryTest env i p
  | .stopping => match sp.stop with
    | none => p
    | some r => if r.isSafe then (if halted env i p then endSafeStop env i p else p) else rampStep env i r p
  | .proving => testPeriod env i p
  | .locking => lockingPeriod env i p
  | .locked => p
  | .unlocking => unlockingPeriod env i p
  | .faulted => p

/-- The stops of a period, its own checks' first and the Clearance Table's last, put to the span as events that are
to be taken after the period (R90, R138). -/
def raiseStops (env : Env) (i : Slot) (p : Plant) : Plant :=
  let sp := p.span i
  let stops := sp.checks env i ++ (if zoneIntrusion i p then [faultStop .quick .zoneIntrusion] else [])
  p.setSpan i { sp with raised := stops.foldl (fun l r => if l.contains r then l else l ++ [r]) sp.raised }

/-- One period of a span that is not UNCONFIGURED: the measurement, the state machine with the generator, the rest of
the alignment step, the set posted, the Clearance Table's turn, and the stops raised (R16, R68, R76, R90, R133). The
positions are formed before the state machine's transitions, which take this period's m for x and for a fault
position (log entry 40). -/
def periodOf (env : Env) (i : Slot) (p : Plant) : Plant :=
  let p := spanStep env i (measureSpan env i p)
  raiseStops env i (zonePeriod env i (postSet env i (alignSpan env i p)))

/-- The stops a span's checks have raised and that are still to be taken, taken in order. -/
def takeRaised (env : Env) (i : Slot) (p : Plant) : Plant :=
  let stops := (p.span i).raised
  stops.foldl (fun p r => takeStop env i r .otherStop p) (p.setSpan i { p.span i with raised := [] })

end Sys2Proof.Machine
end

