-- ==== Sys2Proof/Machine/Link.lean ====
section
/-! DEFINITION. The Bogie Link Controller (chapter 6): costs and gaps, composing a cycle, closing a transaction, and
the updates of the address records. -/

namespace Sys2Proof.Machine

/-! ### Costs and gaps (6.2) -/

/-- The branch a transaction addresses and whether it is a POLL; a broadcast has neither. -/
def Txn.mark (t : Txn) : Option TxnMark :=
  match t with
  | .broadcast _ _ => none
  | .burst _ _ branch _ _ _ _ _ => some { branch := branch, isPoll := false }
  | .poll _ branch _ _ => some { branch := branch, isPoll := true }
  | .param _ _ _ branch _ _ => some { branch := branch, isPoll := false }
  | .lock _ _ _ branch _ _ => some { branch := branch, isPoll := false }

/-- The slots of a write on a branch of response wait w, with its settle slot (6.2). -/
def writeCost (w : Nat) : Nat := 4 + w + (if 3 ≤ w then 1 else 0)

/-- The slots a transaction occupies (6.2). -/
def Txn.cost (t : Txn) : Nat :=
  match t with
  | .broadcast _ _ => 2
  | .burst _ _ _ wait _ n _ _ => 1 + n * (wait + 2)
  | .poll _ _ wait _ => 5 + wait
  | .param _ _ _ _ wait _ => writeCost wait
  | .lock _ _ _ _ wait _ => writeCost wait

/-- The turnaround gap between the transaction sent before and one that follows (R95): one slot to change branch, and
before a write-type transaction that follows a POLL. -/
def gapSlots (prev : Option TxnMark) (t : Txn) : Nat :=
  match prev, t.mark with
  | some a, some b => if a.branch != b.branch || (a.isPoll && !b.isPoll) then 1 else 0
  | _, _ => 0

/-- A cycle being composed: its transactions, the slots they take with their gaps, and the last one's mark. -/
structure Draft where
  txns : List Txn
  used : Nat
  prev : Option TxnMark
deriving DecidableEq, Repr

/-- The slots a transaction would add. -/
def Draft.price (d : Draft) (t : Txn) : Nat := gapSlots d.prev t + t.cost

/-- A transaction added. -/
def Draft.add (d : Draft) (t : Txn) : Draft :=
  { txns := d.txns ++ [t], used := d.used + d.price t, prev := match t.mark with | some m => some m | none => d.prev }

/-- Whether a transaction and any gap before it fit within the budget (R96). -/
def Draft.fits (d : Draft) (budget : Nat) (t : Txn) : Bool := decide (d.used + d.price t ≤ budget)

/-! ### Composing a cycle (6.3) -/

/-- The response wait of a branch whose record is present. -/
def Env.wait (env : Env) (b : Branch) : Option Nat := env.cfg.branches.get b

/-- The command a set holds for an address. -/
def SetpointSet.command (s : SetpointSet) (addr : Nat) : Int :=
  match s.cmds.find? (fun c => c.1 == addr) with
  | some c => c.2
  | none => 0

/-- The SETPOINT burst of a rail under a set (R98). -/
def railBurst (env : Env) (i : Slot) (s : SetpointSet) (p : Plant) (r : Rail) : List Txn :=
  match p.railBogies i r with
  | [] => []
  | a :: rest =>
    [.burst i r a.branch ((env.wait a.branch).getD 1) a.addr (a :: rest).length s.mode
      ((a :: rest).map (fun b => { addr := b.addr, command := s.command b.addr, live := true }))]

/-- The bursts of a span: one for each rail, of the posted set where there is one and otherwise of the sent set
(R96, R97). -/
def spanBursts (env : Env) (i : Slot) (p : Plant) : List Txn :=
  let sp := p.span i
  if sp.state == .unconfigured then []
  else match (match sp.posted with | some s => some s | none => sp.sent) with
    | none => []
    | some s => four.flatMap (railBurst env i s p)

/-- The posted set taken as the sent set (R97). -/
def Span.takeSet (sp : Span) : Span :=
  match sp.posted with
  | some s => if sp.state == .unconfigured then sp else { sp with posted := none, sent := some s }
  | none => sp

/-- Host writes at the head of the queue whose address has role NONE, which the cycle removes (R109). -/
def deadHead (l : BogieLink) (ps : List ParamEntry) : List ParamEntry × List ParamEntry :=
  match ps with
  | [] => ([], [])
  | .host addr index value :: rest =>
    if (l.find addr).isSome then ([], .host addr index value :: rest)
    else
      let q := deadHead l rest
      (.host addr index value :: q.1, q.2)
  | .lock slot cmd :: rest => ([], .lock slot cmd :: rest)

/-- The transaction of a parameter queue entry, to the address as it is configured (R9, R108); none while its branch
has no record. -/
def entryTxn (env : Env) (p : Plant) (e : ParamEntry) : Option Txn :=
  match e with
  | .host addr index value =>
    match p.link.find addr with
    | none => none
    | some a => (env.wait a.branch).map (fun w => .param addr index value a.branch w true)
  | .lock slot cmd =>
    match p.lockUnit slot with
    | none => none
    | some a => (env.wait a.branch).map (fun w => .lock slot a.addr cmd a.branch w true)

/-- Step 3 of R96: the head of the parameter queue when it fits. The second part is the queue that is left. -/
def composeWrite (env : Env) (p : Plant) (params : List ParamEntry) (d : Draft) : Draft × List ParamEntry :=
  match params with
  | [] => (d, [])
  | e :: rest =>
    match entryTxn env p e with
    | none => (d, e :: rest)
    | some t => if d.fits env.cfg.dev.budget t then (d.add t, rest) else (d, e :: rest)

/-- The POLL of an address on a configured branch. -/
def pollTxn (env : Env) (a : AddrRec) : Option Txn := (env.wait a.branch).map (fun w => .poll a.addr a.branch w true)

/-- The poll round from the cursor onward, wrapping from the highest address to the lowest (R101). A cursor that names an
address which has left the round moves on here, at the next composition (log entry 42). -/
def pollRound (env : Env) (l : BogieLink) : List Txn :=
  (l.addrs.filter (fun a => decide (l.cursor ≤ a.addr)) ++ l.addrs.filter (fun a => decide (a.addr < l.cursor))).filterMap
    (pollTxn env)

/-- The address of a POLL. -/
def Txn.pollAddr (t : Txn) : Nat :=
  match t with
  | .poll addr _ _ _ => addr
  | _ => 0

/-- Step 4 of R96: polls while each fits. The second part is the address of the first that does not fit. -/
def composePolls (budget : Nat) (round : List Txn) (d : Draft) : Draft × Option Nat :=
  match round with
  | [] => (d, none)
  | t :: rest => if d.fits budget t then composePolls budget rest (d.add t) else (d, some t.pollAddr)

/-- The cursor a cycle leaves (R101): the first address that did not fit, or the address after the last one polled,
which is the first of the round. -/
def nextCursor (cursor : Nat) (round : List Txn) (stopped : Option Nat) : Nat :=
  match stopped with
  | some a => a
  | none => match round with
    | [] => cursor
    | t :: _ => t.pollAddr

/-- The draft after steps 1 and 2 of R96: the pending broadcasts and the bursts, whatever they cost. -/
def composeHead (env : Env) (prev : Option TxnMark) (p : Plant) : Draft :=
  (p.link.bcasts.map (fun b => Txn.broadcast b false) ++ four.flatMap (fun i => spanBursts env i p)).foldl Draft.add
    { txns := [], used := 0, prev := prev }

/-- The ages at a cycle start: each one more, up to 255 (R102). -/
def AddrRec.older (a : AddrRec) : AddrRec := { a with age := min (a.age + 1) 255 }

/-- A link cycle composed from the state of the requesters and begun (R93, R96). -/
def startCycle (env : Env) (prev : Option TxnMark) (p : Plant) : Plant :=
  let dead := deadHead p.link p.link.params
  let p := Plant.reports { p with link := { p.link with params := dead.2, addrs := p.link.addrs.map AddrRec.older } }
    (dead.1.flatMap (withdrawnReport env.time))
  let w := composeWrite env p p.link.params (composeHead env prev p)
  let round := pollRound env p.link
  let c := composePolls env.cfg.dev.budget round w.1
  { p with spans := p.spans.map Span.takeSet,
           link := { p.link with params := w.2, cycle := c.1.txns, held := false, prev := prev,
                                 cursor := nextCursor p.link.cursor round c.2 } }

/-- LINK_CYCLE_START (R93): a held start begins at the end of the cycle before it and is judged for its gap against
that cycle's last transaction; an expiry on an idle link restarts the timer and begins a cycle with no gap; an
expiry during a cycle is held. -/
def cycleStart (env : Env) (p : Plant) : Plant :=
  match p.link.cycle with
  | [] =>
    if p.link.held then startCycle env p.link.prev p
    else startCycle env none { p with link := { p.link with cycleT := Config.cycleMs } }
  | _ :: _ => { p with link := { p.link with held := true, cycleT := Config.cycleMs } }

/-! ### Replies and records (6.5) -/

/-- Whether a received word is good: in its window, with its CRC, and naming the address (R94, R184). -/
def wordGood (addr : Nat) (w : Option LinkWord) : Bool :=
  match w with
  | none => false
  | some v => linkGood v && linkAddr v == addr

/-- The content of a poll reply whose four words are good (R184). -/
def assembleReply (role : Role) (w0 w1 w2 w3 : LinkWord) : LastReply :=
  let pos := (w0.extractLsb' 8 16 ++ w1.extractLsb' 8 16).toInt
  let speed := (w2.extractLsb' 8 18).toInt * 10
  let torque := (w3.extractLsb' 17 9).toInt
  match role with
  | .bogie => { pos := pos, speed := speed, torque := torque, ready := w3.getLsbD 16, released := w3.getLsbD 15, fault := w3.getLsbD 14 }
  | .lockUnit => { pos := 0, speed := 0, torque := 0, ready := w3.getLsbD 16, released := w3.getLsbD 15, fault := w3.getLsbD 14 }

/-- A poll reply read whole: `none` when any word of it is missing (R94). -/
def readReply (a : AddrRec) (w0 w1 w2 w3 : Option LinkWord) : Option LastReply :=
  if wordGood a.addr w0 && wordGood a.addr w1 && wordGood a.addr w2 && wordGood a.addr w3 then
    match w0, w1, w2, w3 with
    | some v0, some v1, some v2, some v3 => some (assembleReply a.role v0 v1 v2 v3)
    | _, _, _, _ => none
  else none

/-- The record after a miss (R103). In LOST a miss after a good reply counts as the rule's first sentence says, from 0
(log entry 41). -/
def AddrRec.missed (a : AddrRec) : AddrRec :=
  let n := min (a.miss + 1) 3
  { a with miss := n, good := 0, link := if a.link == .present && n == 3 then .lost else a.link }

/-- The record after a good reply (R104). -/
def AddrRec.heard (energised : Bool) (a : AddrRec) : AddrRec :=
  match a.link with
  | .unknown => { a with miss := 0, good := 0, link := .present }
  | .present => { a with miss := 0 }
  | .lost =>
    let n := min (a.good + 1) 4
    if n == 4 && !energised then { a with miss := 0, good := 0, link := .present } else { a with miss := 0, good := n }

/-- The BOGIE report of a change of link state: LOST, and RECOVERED from LOST; none from UNKNOWN. -/
def linkReports (time : Time) (a b : AddrRec) : List Report :=
  match a.link, b.link with
  | .present, .lost => [.bogie a.addr a.slot a.role false time]
  | .lost, .present => [.bogie a.addr a.slot a.role true time]
  | _, _ => []

/-- A reply window of an address judged: a good reply or a miss, with its BOGIE report. -/
def judgeWindow (env : Env) (addr : Nat) (good : Bool) (p : Plant) : Plant :=
  match p.link.find addr with
  | none => p
  | some a =>
    let b := if good then a.heard (p.span a.slot).state.energised else a.missed
    Plant.reports { p with link := p.link.update addr (fun _ => b) } (linkReports env.time a b)

/-- A good poll reply stored: the last reply and age 0 (R102); for the lock unit of a span whose lock command has
been sent, the reply counts for the lock operation (R126). -/
def storeReply (addr : Nat) (r : LastReply) (p : Plant) : Plant :=
  match p.link.find addr with
  | none => p
  | some a =>
    let p := { p with link := p.link.update addr (fun b => { b with last := some r, age := 0 }) }
    match a.role, (p.span a.slot).lock with
    | .lockUnit, some l =>
      if l.sent then p.setSpan a.slot { p.span a.slot with lock := some { l with replied := true } } else p
    | _, _ => p

/-- The head transaction ended: it leaves the cycle, and a later gap is judged against it. -/
def BogieLink.pop (l : BogieLink) : BogieLink :=
  match l.cycle with
  | [] => l
  | t :: rest => { l with cycle := rest, prev := match t.mark with | some m => some m | none => l.prev }

/-- The head transaction of the cycle ended. -/
def popTxn (p : Plant) : Plant := { p with link := p.link.pop }

/-- A POLL's window closed (R102 to R104): `live` tells whether the reply counts. -/
def pollClosed (env : Env) (addr : Nat) (live : Bool) (w0 w1 w2 w3 : Option LinkWord) (p : Plant) : Plant :=
  if live then
    match p.link.find addr with
    | none => p
    | some a => match readReply a w0 w1 w2 w3 with
      | some r => judgeWindow env addr true (storeReply addr r p)
      | none => judgeWindow env addr false p
  else p

/-- The POLL in progress ended by its window. -/
def pollEnd (env : Env) (w0 w1 w2 w3 : Option LinkWord) (p : Plant) : Plant :=
  match p.link.cycle with
  | .poll addr _ _ live :: _ => popTxn (pollClosed env addr live w0 w1 w2 w3 p)
  | _ => p

/-- One acknowledgement window of the burst in progress closed (R98); the burst ends with its last window. -/
def ackEnd (env : Env) (w : Option LinkWord) (p : Plant) : Plant :=
  match p.link.cycle with
  | .burst i r branch wait first n mode (b :: rest) :: later =>
    let p := if b.live then judgeWindow env b.addr (wordGood b.addr w) p else p
    match rest with
    | [] => popTxn p
    | _ :: _ => { p with link := { p.link with cycle := .burst i r branch wait first n mode rest :: later } }
  | _ => p

/-- The host write in progress ended (R108): PARAM_DONE with its result, unless the write was dropped by a reset. -/
def writeEnd (env : Env) (w : Option LinkWord) (p : Plant) : Plant :=
  match p.link.cycle with
  | .param addr index value _ _ live :: _ =>
    let result := if wordGood addr w then WriteResult.acknowledged else .notAcknowledged
    popTxn (if live then p.report (.paramDone addr index value result env.time) else p)
  | _ => p

/-- The sent flag of a span's lock record set when a transaction of its command ends (R126). -/
def markSent (i : Slot) (cmd : LockCmd) (p : Plant) : Plant :=
  let sp := p.span i
  match sp.lock with
  | some l => if l.cmd = cmd then p.setSpan i { sp with lock := some { l with sent := true, replied := false } } else p
  | none => p

/-- The lock command in progress ended, whether or not it was acknowledged (R110, R126). -/
def lockEnd (p : Plant) : Plant :=
  match p.link.cycle with
  | .lock slot _ cmd _ _ live :: _ => popTxn (if live then markSent slot cmd p else p)
  | _ => p

/-- The broadcast in progress sent: it leaves the pending list and the cycle (R99). -/
def broadcastEnd (p : Plant) : Plant :=
  match p.link.cycle with
  | .broadcast b _ :: _ => popTxn { p with link := { p.link with bcasts := p.link.bcasts.filter (fun c => c.slot != b.slot) } }
  | _ => p

/-- The bogies a broadcast brakes: those on the branches that carry a bogie of its span whose address matches its
group code under its mask (R100). -/
def brakedBy (p : Plant) (b : Broadcast) : List Nat :=
  (p.link.addrs.filter (fun a => a.role == .bogie && (p.bogies b.slot).any (fun c => c.branch == a.branch) &&
    (BitVec.ofNat 8 a.addr &&& b.m) == (b.g &&& b.m))).map AddrRec.addr

/-! ### Queueing writes (R106, R107) -/

/-- The newest host write of a queue and the queue without it. -/
def dropNewestHost (ps : List ParamEntry) : Option ParamEntry × List ParamEntry :=
  match ps with
  | [] => (none, [])
  | e :: rest =>
    match dropNewestHost rest, e with
    | (some gone, kept), e => (some gone, e :: kept)
    | (none, _), .host addr index value => (some (.host addr index value), rest)
    | (none, kept), .lock slot cmd => (none, .lock slot cmd :: kept)

/-- A lock command behind the lock commands already queued, ahead of every host write (R107). -/
def insertLock (e : ParamEntry) (ps : List ParamEntry) : List ParamEntry :=
  match ps with
  | .lock slot cmd :: rest => .lock slot cmd :: insertLock e rest
  | other => e :: other

/-- A lock command queued; at a full queue the newest host write is withdrawn to make room (R107). -/
def queueLock (env : Env) (i : Slot) (cmd : LockCmd) (p : Plant) : Plant :=
  let full := decide (Config.paramsMax ≤ p.link.params.length)
  let q := if full then dropNewestHost p.link.params else (none, p.link.params)
  let p := { p with link := { p.link with params := insertLock (.lock i cmd) q.2 } }
  match q.1 with
  | none => p
  | some e => p.reports (withdrawnReport env.time e)

/-- The lock record and command of an accepted LOCK or UNLOCK, with the span in the state that goes with it. -/
def startLock (env : Env) (i : Slot) (cmd : LockCmd) (new : SpanState) (p : Plant) : Plant :=
  let p := changeState env i new none p
  let p := p.setSpan i { p.span i with lock := some { cmd := cmd, sent := false, replied := false,
                                                      timer := (env.span i).tLock * 1000 } }
  queueLock env i cmd p

/-- The expiry of a span's lock timer (R126, R127): FAULTED with cause LOCK_TIMEOUT. -/
def lockTimeout (env : Env) (i : Slot) (p : Plant) : Plant :=
  let sp := p.span i
  if (sp.state == .locking || sp.state == .unlocking) && sp.lock.isSome then
    changeState env i .faulted none (registerFault env i .lockTimeout p)
  else p

/-! ### Records under a change of configuration -/

/-- A transaction whose reply for an address is to be discarded: its poll, or its word of a burst (R9). -/
def Txn.deaf (addr : Nat) (t : Txn) : Txn :=
  match t with
  | .poll a branch wait live => .poll a branch wait (live && a != addr)
  | .burst i r branch wait first n mode ws =>
    .burst i r branch wait first n mode (ws.map (fun w => { w with live := w.live && w.addr != addr }))
  | other => other

/-- An address put in its place among the configured addresses. -/
def insertAddr (a : AddrRec) (as : List AddrRec) : List AddrRec :=
  match as with
  | [] => [a]
  | b :: rest => if a.addr < b.addr then a :: b :: rest else if a.addr = b.addr then a :: rest else b :: insertAddr a rest

/-- The reply of the transaction in progress discarded where it is an address's; transactions started later count on
the new record (R9). -/
def BogieLink.deafen (l : BogieLink) (addr : Nat) : BogieLink :=
  { l with cycle := match l.cycle with
      | [] => []
      | t :: rest => t.deaf addr :: rest }

/-- An address configured (R8). -/
def BogieLink.configure (l : BogieLink) (a : AddrRec) : BogieLink := { l.deafen a.addr with addrs := insertAddr a l.addrs }

/-- An address removed (R9). -/
def BogieLink.remove (l : BogieLink) (addr : Nat) : BogieLink :=
  if (l.find addr).isSome then { l.deafen addr with addrs := l.addrs.filter (fun a => a.addr != addr) } else l

/-- A record's link part as on first configuration (R8, R114), with the validity, load trim and command of no period; a return
from FAILSAFE to INIT leaves those of the last period (log entry 46). -/
def AddrRec.unheard (a : AddrRec) : AddrRec :=
  { a with link := .unknown, last := none, age := 0, miss := 0, good := 0, valid := false, loadTrim := 0, command := 0 }

/-- A transaction whose reply is to be discarded, counted neither as good nor as a miss (R114). -/
def Txn.silenced (t : Txn) : Txn :=
  match t with
  | .broadcast b inserted => .broadcast b inserted
  | .burst i r branch wait first n mode ws => .burst i r branch wait first n mode (ws.map (fun w => { w with live := false }))
  | .poll a branch wait _ => .poll a branch wait false
  | .param a index value branch wait _ => .param a index value branch wait false
  | .lock i a cmd branch wait _ => .lock i a cmd branch wait false

/-- The Bogie Link Controller after a SOFT RESET (R114). -/
def BogieLink.softReset (l : BogieLink) : BogieLink :=
  { l with addrs := l.addrs.map AddrRec.unheard, params := [], bcasts := [], held := false,
           cycle := match l.cycle with | [] => [] | t :: _ => [t.silenced] }

/-- An address still UNKNOWN at the end of acquisition becomes LOST (R105). -/
def AddrRec.lostAtEnd (a : AddrRec) : AddrRec :=
  if a.link == .unknown then { a with link := .lost, miss := 3, good := 0 } else a

/-- The BOGIE reports of the end of acquisition, in ascending address order (R105). -/
def lostReports (time : Time) (as : List AddrRec) : List Report :=
  (as.filter (fun a => a.link == .unknown)).map (fun a => .bogie a.addr a.slot a.role false time)

end Sys2Proof.Machine
end

