-- ==== Sys2Proof/Machine/Wind.lean ====
section
/-! DEFINITION. The Wind Gate (9.1 to 9.6): samples, suspect anemometers, the gust, the gate state, the trip dwell, and
what a change of gate state does to the spans. -/

namespace Sys2Proof.Machine

/-! ### Samples (R143) -/

/-- The sample of a count under a calibration: floor(n * K / 25), a count above 250 taken as 250. -/
def sampleOf (count k : Nat) : Nat := min count 250 * k / 25

/-- A sample joining a ring of at most 12, oldest first. -/
def pushRing (ring : List Nat) (s : Nat) : List Nat :=
  if ring.length < Config.ringMax then ring ++ [s] else ring.tail ++ [s]

/-- The latest sample of an anemometer. -/
def Anemometer.latest (a : Anemometer) : Option Nat := a.ring.getLast?

/-- An anemometer's sample taken at an expiry, and its count begun afresh; the count of a DISABLED one is discarded. -/
def Anemometer.sample (k : Nat) (a : Anemometer) : Anemometer :=
  match a.status with
  | .disabled => { a with count := 0 }
  | .empty => { a with count := 0, ring := pushRing a.ring (sampleOf a.count k), status := .valid, zeroRun := 0, recovery := 0 }
  | _ => { a with count := 0, ring := pushRing a.ring (sampleOf a.count k) }

/-- A pulse counted towards the next sample (R143). -/
def Anemometer.pulse (a : Anemometer) : Anemometer := { a with count := a.count + 1 }

/-! ### Suspect anemometers (R145) -/

/-- Whether an anemometer is VALID or SUSPECT with a latest sample of 50 or more. -/
def Anemometer.windy (a : Anemometer) : Bool :=
  (a.status == .valid || a.status == .suspect) && (match a.latest with | some s => decide (50 ≤ s) | none => false)

/-- The judgement of one anemometer at an expiry, against the other as its sample left it. -/
def Anemometer.judge (a other : Anemometer) : Anemometer :=
  match a.status, a.latest with
  | .valid, some 0 =>
    if other.windy then
      if a.zeroRun + 1 = 120 then { a with status := .suspect, zeroRun := 120, recovery := 0 }
      else { a with zeroRun := a.zeroRun + 1 }
    else { a with zeroRun := 0 }
  | .valid, _ => { a with zeroRun := 0 }
  | .suspect, some 0 => { a with recovery := 0 }
  | .suspect, some _ =>
    if a.recovery + 1 = 8 then { a with status := .valid, zeroRun := 0, recovery := 8 }
    else { a with recovery := a.recovery + 1 }
  | _, _ => a

/-- The WIND report of a change of status by the judgement. -/
def judgeReports (time : Time) (which : AnemometerId) (a b : Anemometer) : List Report :=
  match a.status, b.status with
  | .valid, .suspect => [.wind (.suspect which (b.latest.getD 0)) time]
  | .suspect, .valid => [.wind (.recovered which (b.latest.getD 0)) time]
  | _, _ => []

/-! ### The gust and the gate (R146, R147) -/

/-- The larger of two optional numbers. -/
def maxOption (a b : Option Nat) : Option Nat :=
  match a, b with
  | some x, some y => some (max x y)
  | some x, none => some x
  | none, b => b

/-- The largest sample of a ring. -/
def ringMaxOf (ring : List Nat) : Option Nat := ring.foldl (fun m s => maxOption m (some s)) none

/-- The largest sample an anemometer contributes: its ring's when it is VALID. -/
def Anemometer.gust (a : Anemometer) : Option Nat := if a.status == .valid then ringMaxOf a.ring else none

/-- The wind factor of REDUCED (R146). -/
def reducedFactor (w : WindRecord) (g : Nat) : Nat := 100 - (100 - w.kmin) * (g - w.ws) / (w.wt - w.ws)

/-- The wind factor of a gate state and a gust (R146). -/
def windFactor (w : WindRecord) (gate : GateState) (g : Nat) : Nat :=
  match gate with
  | .clear => 100
  | .reduced => reducedFactor w g
  | .tripped => 0
  | .blind => 0

/-- The gate state a gust indicates outside TRIPPED and BLIND. -/
def gateFor (w : WindRecord) (g : Nat) : GateState :=
  if g ≤ w.ws then .clear else if g < w.wt then .reduced else .tripped

/-- The dwell timer of a TRIPPED gate at a sample (R147): started or kept below Wt - H, stopped at or above it. -/
def dwellAt (w : WindRecord) (g : Nat) (t : Option Nat) : Option Nat :=
  if g < w.wt - w.h then (match t with | some v => some v | none => some (w.tdw * 1000)) else none

/-- The gate judged from a gust (the table of R146): a gate entering TRIPPED has its dwell timer stopped, and one that
stays TRIPPED has its dwell judged. -/
def WindGate.judgeGate (w : WindRecord) (g : Nat) (n : WindGate) : WindGate :=
  match n.gate with
  | .tripped => { n with gust := some g, kw := 0, dwellT := dwellAt w g n.dwellT }
  | .blind => { n with gate := .tripped, gust := some g, kw := 0, dwellT := none }
  | _ =>
    let gate := gateFor w g
    { n with gate := gate, gust := some g, kw := windFactor w gate g, dwellT := none }

/-- The gate BLIND: no gust and no dwell. -/
def WindGate.goBlind (n : WindGate) : WindGate := { n with gate := .blind, gust := none, kw := 0, dwellT := none }

/-- The calibrations of a wind record. -/
def windCalibrations (w : Option WindRecord) : Nat × Nat :=
  match w with
  | some r => (r.k1, r.k2)
  | none => (0, 0)

/-- Both samples taken and both statuses judged, AN1 first (R143, R145). -/
def WindGate.sampled (w : Option WindRecord) (n : WindGate) : WindGate × WindGate :=
  let k := windCalibrations w
  let a := { n with an1 := n.an1.sample k.1, an2 := n.an2.sample k.2, limits := w, sampleT := Config.sampleMs }
  let j1 := a.an1.judge a.an2
  (a, { a with an1 := j1, an2 := a.an2.judge j1 })

/-- The gust of a sample expiry. -/
def WindGate.gustNow (n : WindGate) : Option Nat := maxOption n.an1.gust n.an2.gust

/-- The gust and gate state judged (R146): BLIND without a VALID anemometer or with a record that fails its relations. -/
def WindGate.gated (n : WindGate) : WindGate :=
  match n.limits, n.gustNow with
  | some w, some g => if w.related then n.judgeGate w g else n.goBlind
  | _, _ => n.goBlind

/-- The WIND report of a change of gate state (R150). -/
def gateReports (time : Time) (a b : WindGate) : List Report :=
  if a.gate = b.gate then [] else [.wind (.gate a.gate b.gate b.gust b.kw) time]

/-! ### What the gate does to the spans (R148, R149) -/

/-- A span held by the wind: STARTING and MOVING spans get the wind hold flag and a CONTROLLED stop to HOLDING. -/
def holdForWind (env : Env) (i : Slot) (p : Plant) : Plant :=
  let sp := p.span i
  if sp.state == .starting || sp.state == .moving then
    takeStop env i controlledHold .otherStop (p.setSpan i { sp with windHold := true })
  else p

/-- A span's wind hold flag cleared. -/
def clearWindHold (i : Slot) (p : Plant) : Plant := p.setSpan i { p.span i with windHold := false }

/-- The auto-resume of one span whose flag was set before the clearing (R149). -/
def resumeSpan (env : Env) (flags : Quad Bool) (i : Slot) (p : Plant) : Plant :=
  if flags.get i && env.mode == .ready && (env.span i).autoResume then autoResume env i p else p

/-- The gate leaving TRIPPED for CLEAR or REDUCED (R149): every flag cleared, then the auto-resumes in READY. -/
def resumeSpans (env : Env) (p : Plant) : Plant :=
  let flags := p.spans.map Span.windHold
  eachSlot (resumeSpan env flags) (eachSlot clearWindHold p)

/-- The sample expiry on the whole device (R143): samples, statuses, gate, reports, and the stops of an entry into
TRIPPED or BLIND from CLEAR or REDUCED. -/
def windSample (s : State) : State :=
  let a := s.wind.sampled s.cfg.wind
  let g := a.2.gated
  let reports := judgeReports s.time .an1 a.1.an1 a.2.an1 ++ judgeReports s.time .an2 a.1.an2 a.2.an2 ++
    gateReports s.time s.wind g
  let s' := { s with wind := g, plant := s.plant.reports reports }
  if g.gate.shut && !s.wind.gate.shut then { s' with plant := eachSlot (holdForWind s'.env) s'.plant } else s'

/-- The gate a dwell expiry leaves TRIPPED for, by its last gust (R147). -/
def WindGate.dwellOver (n : WindGate) : WindGate :=
  match n.limits, n.gust with
  | some w, some g =>
    let gate := if g ≤ w.ws then GateState.clear else .reduced
    { n with gate := gate, kw := windFactor w gate g, dwellT := none }
  | _, _ => n

/-- The trip dwell expiry on the whole device (R147, R149): with the timer running in TRIPPED, the gate leaves it. -/
def tripDwell (s : State) : State :=
  if s.wind.gate == .tripped && s.wind.dwellT.isSome then
    let g := s.wind.dwellOver
    let s' := { s with wind := g, plant := s.plant.reports (gateReports s.time s.wind g) }
    if g.gate.shut then s' else { s' with plant := resumeSpans s'.env s'.plant }
  else s

end Sys2Proof.Machine
end

