-- ==== Sys2Proof/Machine/Supervision.lean ====
section
/-! DEFINITION. The Supervision Unit (chapter 10): FAILSAFE and its causes, the keep-alive judgement, the end of
acquisition, the return from FAILSAFE, and the resets. -/

namespace Sys2Proof.Machine

/-! ### The plant and the supervision unit of a state -/

/-- The state with its plant changed by an operation that reads the rest of the device. -/
def State.onPlant (f : Env → Plant → Plant) (s : State) : State := { s with plant := f s.env s.plant }

/-- A report queued by a block outside the plant. -/
def State.report (r : Report) (s : State) : State := { s with plant := s.plant.report r }

/-! ### FAILSAFE (R164, R165) -/

/-- The stop a failsafe reason raises on every span (the table of 10.4). -/
def failsafeStop (r : FailsafeReason) : StopRequest :=
  match r with
  | .hostSupervision => quickRest
  | .hostRequest => quickRest
  | .stationFault => quickRest
  | .operatorStop => safeRest

/-- A reason's stop raised on every span in ascending slot order. -/
def stopEverySpan (r : FailsafeReason) (env : Env) (p : Plant) : Plant :=
  eachSlot (fun i p => takeStop env i (failsafeStop r) .otherStop p) p

/-- The Supervision Unit after an entry into FAILSAFE (R164, steps 1 to 3): the record, f and the lockout flag, g, the
mode, and the timers. The keep-alive window starts on an entry from INIT or ACQUIRING and runs on from READY. -/
def Supervision.enterFailsafe (fmax : Nat) (r : FailsafeReason) (time : Time) (u : Supervision) : Supervision :=
  let f := min (u.f + 1) 255
  { u with
    mode := .failsafe, acqT := none, stableT := none,
    window := if u.mode == .ready then u.window else some 0,
    g := 0, f := f,
    lockout := u.lockout || (fmax != 0 && decide (fmax < f)),
    record := some { reason := r, time := time, toReady := u.mode == .ready, later := [] } }

/-- An entry into FAILSAFE from INIT, ACQUIRING or READY (R164): the MODE report before the stops. The wind hold flags
are cleared without resume (log entry 4). -/
def enterFailsafe (r : FailsafeReason) (s : State) : State :=
  let s := { s with sup := s.sup.enterFailsafe s.cfg.dev.fmax r s.time }
  (s.report (.mode .failsafe (.reason r) s.time)).onPlant (fun env p => stopEverySpan r env (eachSlot clearWindHold p))

/-- Whether a reason is new to a failsafe record. -/
def FailsafeRecord.isNew (k : FailsafeRecord) (r : FailsafeReason) : Bool := k.reason != r && !k.later.contains r

/-- A cause that reaches the device in FAILSAFE (R165): a new reason joins the later ones with a MODE report, and the
stop is raised in any case. R165 does not order that report and those of the stops; it stands first (log entry 9). -/
def joinFailsafe (r : FailsafeReason) (s : State) : State :=
  let s := match s.sup.record with
    | some k =>
      if k.isNew r then
        State.report (.mode .failsafe (.reason r) s.time)
          { s with sup := { s.sup with record := some { k with later := k.later ++ [r] } } }
      else s
    | none => s
  s.onPlant (stopEverySpan r)

/-- A FAILSAFE cause reaching the device. -/
def raiseFailsafe (r : FailsafeReason) (s : State) : State :=
  match s.sup.mode with
  | .failsafe => joinFailsafe r s
  | _ => enterFailsafe r s

/-! ### Keep-alive (R163) -/

/-- The error count raised, and set to 0 with FAILSAFE raised when it reaches E_th. -/
def countError (s : State) : State :=
  let e := s.sup.e + 1
  if s.cfg.dev.eth ≤ e then raiseFailsafe .hostSupervision { s with sup := { s.sup with e := 0 } }
  else { s with sup := { s.sup with e := e } }

/-- The window restarted with the good-run count at 0, and the error counted: an early or a late outcome. -/
def badKeepalive (s : State) : State := countError { s with sup := { s.sup with g := 0, window := some 0 } }

/-- A good KEEPALIVE. -/
def goodKeepalive (s : State) : State :=
  { s with sup := { s.sup with e := s.sup.e - 1, g := min (s.sup.g + 1) 255, window := some 0 } }

/-- A KEEPALIVE judged when it is taken, with its outcome code: 0 not judged, 1 good, 2 early. -/
def judgeKeepalive (s : State) : State × Nat :=
  match s.sup.mode, s.sup.window with
  | .ready, some t | .failsafe, some t => if t < s.cfg.dev.wo then (badKeepalive s, 2) else (goodKeepalive s, 1)
  | _, _ => (s, 0)

/-! ### Entry into READY and INIT -/

/-- Every span's override set to 100 (R58). -/
def resetOverrides (p : Plant) : Plant := { p with spans := p.spans.map (fun sp => { sp with override := 100 }) }

/-- The entry into READY (R162 step 5, R167): the window and the stable-READY timer start, the overrides are 100, and
the MODE report is queued. -/
def enterReady (s : State) : State :=
  State.report (.mode .ready .none s.time)
    { s with plant := resetOverrides s.plant,
             sup := { s.sup with mode := .ready, acqT := none, window := some 0, stableT := some Config.stableReadyMs } }

/-- The Supervision Unit in INIT by SOFT RESET or CLEAR FAILSAFE: the timers stopped, e and g at 0, f and the lockout
flag kept (R163, R169). -/
def Supervision.toInit (u : Supervision) : Supervision :=
  { u with mode := .init, acqT := none, window := none, e := 0, g := 0, stableT := none }

/-! ### Acquisition (R160 to R162) -/

/-- A cause registered in a span's fault record before any report: the reports follow the span's SPAN_STATE report at
the end of acquisition. -/
def Span.note (time : Time) (c : FaultCause) (sp : Span) : Span :=
  match sp.fault with
  | none => { sp with fault := some { first := c, pos := sp.lastM.getD sp.x, time := time, later := [] } }
  | some f => if f.first == c || f.later.contains c then sp else { sp with fault := some { f with later := f.later ++ [c] } }

/-- A span given a first state at v = 0, with the interval timer frozen in LOCKED and running otherwise (R115). -/
def Span.first (new : SpanState) (sp : Span) : Span :=
  { sp with state := new, v := 0, proof := { sp.proof with run := sp.proof.run.enter new } }

/-- Whether a span's lock unit is PRESENT with PINS_ENGAGED and not FAULT in its last reply (R162). -/
def pinsEngaged (i : Slot) (p : Plant) : Bool :=
  match p.lockUnit i with
  | none => false
  | some a => a.link == .present && (match a.last with | some r => r.ready && !r.fault | none => false)

/-- The first state of a span in use (R162, step 2). -/
def firstState (env : Env) (i : Slot) (p : Plant) : Plant :=
  let sc := env.span i
  let p := formPositions env i p
  let sp := p.span i
  let sp := { sp with x := sc.clampX (sp.meas.m.getD 0), r := 0, dir := .pos }
  let sp :=
    if pinsEngaged i p then sp.first .locked
    else
      let loss := sp.belowMinimum env i
      let out := sp.outsideEnvelope sc
      let sp := if loss then sp.note env.time .bogieLoss else sp
      let sp := if out then sp.note env.time .envelope else sp
      sp.first (if loss || out then .faulted else .resting)
  p.setSpan i sp

/-- An operation for a slot in use only. -/
def ifInUse (env : Env) (f : Slot → Plant → Plant) (i : Slot) (p : Plant) : Plant :=
  if (env.cfg.spans.get i).isSome then f i p else p

/-- A span placed in conflict at the assignment of claims: FAULTED with ZONE_CONFLICT as R139 gives. -/
def conflictSpan (env : Env) (i : Slot) (p : Plant) : Plant :=
  p.setSpan i (((p.span i).note env.time .zoneConflict).first .faulted)

/-- The claims assigned in ascending entry order (R139). -/
def assignZones (env : Env) (zs : List ZoneEntry) (p : Plant) : List ZoneEntry × Plant :=
  match zs with
  | [] => ([], p)
  | z :: rest =>
    let a := z.assign p
    let q := assignZones env rest (if a.2 then conflictSpan env z.spanB (conflictSpan env z.spanA p) else p)
    (a.1 :: q.1, q.2)

/-- The reports of a span's first state: SPAN_STATE from UNCONFIGURED, then its SPAN_FAULT reports (R162). -/
def firstReports (i : Slot) (sp : Span) : List Report :=
  .spanState i .unconfigured sp.state none ::
  (match sp.fault with
    | none => []
    | some f => .spanFault i f.first (some (f.pos, f.time)) :: f.later.map (fun c => .spanFault i c none))

/-- The plant at the end of acquisition (R162, steps 1 to 3), with its reports before the MODE report. -/
def acquirePlant (env : Env) (p : Plant) : Plant :=
  let p := Plant.reports { p with link := { p.link with addrs := p.link.addrs.map AddrRec.lostAtEnd } }
    (lostReports env.time p.link.addrs)
  let p := eachSlot (ifInUse env (firstState env)) p
  let a := assignZones env p.zones p
  let p := { a.2 with zones := a.1 }
  eachSlot (ifInUse env (fun i p => (postSet env i p).reports (firstReports i (p.span i)))) p

/-- The end of acquisition: GO READY completed (R162). -/
def endAcquisition (s : State) : State :=
  let s := s.onPlant acquirePlant
  enterReady { s with sup := { s.sup with e := 0 } }

/-- Whether a good reply ends acquisition: in ACQUIRING with no configured address left UNKNOWN (R161). -/
def State.allKnown (s : State) : Bool := s.sup.mode == .acquiring && s.plant.link.addrs.all (fun a => a.link != .unknown)

/-- Acquisition ended by a good reply that leaves no configured address UNKNOWN (R161). -/
def afterGoodReply (good : Bool) (s : State) : State := if good && s.allKnown then endAcquisition s else s

/-! ### CLEAR FAILSAFE (R167) -/

/-- Whether a span is STARTING, MOVING, STOPPING or PROVING. -/
def SpanState.inMotion (st : SpanState) : Bool :=
  match st with
  | .starting | .moving | .stopping | .proving => true
  | _ => false

/-- The first condition of CLEAR FAILSAFE that holds. -/
def failsafeRefusal (s : State) : Option Reason :=
  if s.sup.mode != .failsafe then some .mode
  else if s.sup.lockout then some .lockout
  else if s.sup.g < Config.goodRun then some (.condition none)
  else if s.station.estop.val then some (.condition none)
  else if s.plant.spans.toList.any (fun sp => sp.state.inMotion) then some .state
  else none

/-- The return of an accepted CLEAR FAILSAFE: to READY, or to INIT with every span UNCONFIGURED. -/
def returnFromFailsafe (s : State) : State :=
  let toReady := match s.sup.record with
    | some k => k.toReady
    | none => false
  let s := { s with sup := { s.sup with record := none } }
  if toReady then enterReady s
  else
    State.report (.mode .init (.cause .clearFailsafe) s.time)
      { s with sup := s.sup.toInit, plant := eachSlot unconfigureSpan s.plant }

/-! ### Resets (R169, R170) -/

/-- Whether a span is at rest for a SOFT RESET: RESTING, LOCKED, FAULTED or UNCONFIGURED. -/
def SpanState.softResettable (st : SpanState) : Bool :=
  match st with
  | .resting | .locked | .faulted | .unconfigured => true
  | _ => false

/-- What refuses a SOFT RESET (R169). -/
def softResetRefusal (s : State) : Option Reason :=
  match s.sup.mode with
  | .init => none
  | .acquiring => none
  | .ready => if s.plant.spans.toList.all (fun sp => sp.state.softResettable) then none else some .state
  | .failsafe => some .mode

/-- The plant after a SOFT RESET: spans UNCONFIGURED, claims FREE, link parts UNKNOWN, and the report queue emptied with
its mask and flag kept (R114, R142, R169, R180). -/
def Plant.softReset (p : Plant) : Plant :=
  let p := eachSlot unconfigureSpan p
  { p with zones := p.zones.map ZoneEntry.fresh, link := p.link.softReset, out := { p.out with queue := [] } }

/-- An accepted SOFT RESET (R169), with the MODE report that follows its reply. -/
def softReset (s : State) : State :=
  State.report (.mode .init (.cause .softReset) s.time)
    { s with sup := s.sup.toInit, plant := s.plant.softReset }

/-- An input at a hard reset: its validated level is its pin level, with no timer (R152). -/
def InputLevel.atReset (l : InputLevel) : InputLevel := { pin := l.pin, val := l.pin, press := none }

/-- The station at a hard reset (R152). -/
def Station.atReset (st : Station) : Station :=
  { estop := st.estop.atReset, hold := st.hold.atReset, key := st.key.atReset, jogFwd := st.jogFwd.atReset,
    jogRev := st.jogRev.atReset, sel0 := st.sel0.atReset, sel1 := st.sel1.atReset, holdT := none }

/-- Every block at its power-on values (R170), with the MODE report that carries INIT and the cause. The station's pins
are the outside world's, and the waiting commands and the level of the RESET pin stay. -/
def hardReset (cause : InitCause) (s : State) : State :=
  State.report (.mode .init (.cause cause) 0)
    { s with cfg := ConfigStore.powerOn, time := 0, sup := Supervision.powerOn, wind := WindGate.powerOn,
             station := s.station.atReset, plant := Plant.powerOn, cmd := CommandLink.powerOn }

/-- What an ESTOP assertion raises (R153): the STATION report, then FAILSAFE with reason OPERATOR_STOP (the order of the two
reports is log entry 9). -/
def estopAction (s : State) : State := raiseFailsafe .operatorStop (s.report (.station .estopAsserted s.time))

/-- An ESTOP asserted at a hard reset raises the same at the reset (R153, R170). -/
def estopAtReset (s : State) : State := if s.station.estop.val then estopAction s else s

end Sys2Proof.Machine
end

