-- ==== Sys2Proof/Machine/StationInputs.lean ====
section
/-! DEFINITION. The Station Input Unit (9.7 to 9.9): validation of the inputs, their actions, and the end of a jog. -/

namespace Sys2Proof.Machine

/-! ### Levels (R152) -/

/-- The level record of an input. -/
def Station.get (st : Station) (i : StationInput) : InputLevel :=
  match i with
  | .estop => st.estop
  | .hold => st.hold
  | .key => st.key
  | .jogFwd => st.jogFwd
  | .jogRev => st.jogRev
  | .sel0 => st.sel0
  | .sel1 => st.sel1

/-- The level record of an input replaced. -/
def Station.set (st : Station) (i : StationInput) (l : InputLevel) : Station :=
  match i with
  | .estop => { st with estop := l }
  | .hold => { st with hold := l }
  | .key => { st with key := l }
  | .jogFwd => { st with jogFwd := l }
  | .jogRev => { st with jogRev := l }
  | .sel0 => { st with sel0 := l }
  | .sel1 => { st with sel1 := l }

/-- The state with an input's level record replaced. -/
def State.setInput (s : State) (i : StationInput) (l : InputLevel) : State := { s with station := s.station.set i l }

/-- A pin at a new level: the press timer starts at t_min when the level differs from the validated one, and stops when
it has returned to it. -/
def InputLevel.pinTo (tmin : Nat) (level : Bool) (l : InputLevel) : InputLevel :=
  { pin := level, val := l.val, press := if level = l.val then none else some tmin }

/-- A level that acts at its first edge, validated without a timer. -/
def InputLevel.atOnce (level : Bool) : InputLevel := { pin := level, val := level, press := none }

/-- The input of a jog direction. -/
def jogInput (d : Dir) : StationInput :=
  match d with
  | .pos => .jogFwd
  | .neg => .jogRev

/-! ### Ending a jog (R157) -/

/-- The jog in progress ended by a CONTROLLED stop to HOLDING, with JOG_ENDED carrying what ended it. -/
def stopJog (why : JogEnd) (env : Env) (p : Plant) : Plant :=
  match p.jogSlot with
  | some i => takeStop env i controlledHold why p
  | none => p

/-- Whether the jog in progress runs in a direction. -/
def jogRuns (d : Dir) (p : Plant) : Bool :=
  match p.jogSlot with
  | some i => (p.span i).jog.any (fun j => j.dir == d)
  | none => false

/-! ### First edges -/

/-- ESTOP asserted, at its first edge (R153). -/
def assertEstop (s : State) : State := estopAction (s.setInput .estop (InputLevel.atOnce true))

/-- A jog input released, at its first edge (R157): the jog it held ends. -/
def releaseJog (d : Dir) (s : State) : State :=
  let s := s.setInput (jogInput d) (InputLevel.atOnce false)
  if jogRuns d s.plant then s.onPlant (stopJog .release) else s

/-- A HOLD edge (R152, R154): the HOLD timer starts at the first edge of a press, and stops without effect when the press is
given up before it is validated. A release of a validated press is taken when it is validated itself, and the HOLD timer
runs on until then (log entry 16). -/
def holdEdge (level : Bool) (s : State) : State :=
  let l := s.station.hold
  let s := s.setInput .hold (l.pinTo s.cfg.dev.tmin level)
  if l.val then s else { s with station := { s.station with holdT := if level then some (s.cfg.dev.tmax * 1000) else none } }

/-- A validated release of HOLD (R154): the HOLD timer stops, and the release is reported, also that of a button held through
a reset (log entry 45). -/
def holdReleaseAction (s : State) : State :=
  State.report (.station .holdReleased s.time) { s with station := { s.station with holdT := none } }

/-- A pin change of an input (R152 to R157). A level the pin already has is no change. -/
def pinChange (i : StationInput) (level : Bool) (s : State) : State :=
  if (s.station.get i).pin = level then s
  else match i, level with
    | .estop, true => assertEstop s
    | .jogFwd, false => releaseJog .pos s
    | .jogRev, false => releaseJog .neg s
    | .hold, l => holdEdge l s
    | i, l => s.setInput i ((s.station.get i).pinTo s.cfg.dev.tmin l)

/-! ### Validated actions -/

/-- A span stopped to HOLDING by a validated HOLD press: MOVING spans only (R154). -/
def holdSpan (env : Env) (i : Slot) (p : Plant) : Plant :=
  if (p.span i).state == .moving then takeStop env i controlledHold .otherStop p else p

/-- A span stopped by KEY to LOCAL: MOVING or STARTING without a jog context (R155). -/
def localSpan (env : Env) (i : Slot) (p : Plant) : Plant :=
  let sp := p.span i
  if (sp.state == .moving || sp.state == .starting) && sp.jog.isNone then takeStop env i controlledHold .otherStop p else p

/-- A validated press of a jog input (R156): with the other input pressed no jog starts, JOG_REFUSED is queued and any
jog in progress ends; otherwise a jog of the selected slot is requested. -/
def jogPress (d : Dir) (s : State) : State :=
  let sel := s.station.selected
  if (s.station.get (jogInput (dirFlip d))).val then
    (s.report (.station (.jogRefused sel d (.condition none)) s.time)).onPlant (stopJog .otherInput)
  else s.onPlant (fun env p => requestJog env sel d p)

/-- A validated change of the selected slot (R157). The report carries no slot (log entry 24). -/
def selectAction (s : State) : State :=
  if s.plant.jogSlot.isSome then s.onPlant (stopJog .selection)
  else s.report (.station .selectChanged s.time)

/-- The action of an input's new validated level. A jog release has acted at its edge, as has an ESTOP assertion. -/
def inputAction (i : StationInput) (level : Bool) (s : State) : State :=
  match i, level with
  | .estop, true => s
  | .estop, false => s.report (.station .estopReleased s.time)
  | .hold, true => (s.report (.station .holdPressed s.time)).onPlant (fun env p => eachSlot (holdSpan env) p)
  | .hold, false => holdReleaseAction s
  | .key, true => (s.report (.station .keyLocal s.time)).onPlant (fun env p => eachSlot (localSpan env) p)
  | .key, false => (s.report (.station .keyRemote s.time)).onPlant (stopJog .keyRemote)
  | .jogFwd, true => jogPress .pos s
  | .jogFwd, false => s
  | .jogRev, true => jogPress .neg s
  | .jogRev, false => s
  | .sel0, _ => selectAction s
  | .sel1, _ => selectAction s

/-- The expiry of an input's press timer (R152): the pin's level becomes the validated level, and its action is taken. -/
def pressExpired (i : StationInput) (s : State) : State :=
  let l := s.station.get i
  if l.press.isSome then inputAction i l.pin (s.setInput i { pin := l.pin, val := l.pin, press := none }) else s

/-- HOLD held to t_max (R154): the STATION report, then FAILSAFE with reason STATION_FAULT (the order of the two reports is
log entry 9). -/
def holdStuckAction (s : State) : State :=
  if s.station.holdT.isSome then
    raiseFailsafe .stationFault
      (State.report (.station .holdStuck s.time) { s with station := { s.station with holdT := none } })
  else s

/-- The pins followed while the device is held in reset: a pin's level alone (R152, R170). -/
def pinOnly (i : StationInput) (level : Bool) (s : State) : State :=
  s.setInput i (InputLevel.atOnce level)

end Sys2Proof.Machine
end

