-- ==== Sys2Proof/Machine/Checks.lean ====
section
/-! DEFINITION. The five configuration checks of GO READY: geometry (R10 to R12), group (R111), link budget (R112), zone
(R131) and wind (R151). Each answers the detail of its first unmet requirement. -/

namespace Sys2Proof.Machine

/-- The first answer of a list of things, each judged in turn. -/
def firstSome {α β : Type} (f : α → Option β) (as : List α) : Option β :=
  match as with
  | [] => none
  | a :: rest => match f a with
    | some b => some b
    | none => firstSome f rest

/-- The first of several judgements that answers. -/
def firstOf {β : Type} (os : List (Option β)) : Option β := firstSome (fun o => o) os

/-- An unmet requirement of a check: its code, the condition number, the slot (255 for none) and the address (0 for
none). -/
def unmet (check cond slot addr : Nat) (bad : Bool) : Option ConfigDetail :=
  if bad then some (.fields check cond slot addr) else none

/-- The slots in use, in ascending order, with their settings. -/
def slotsInUse (env : Env) : List (Slot × SpanConfig) :=
  four.filterMap (fun i => (env.cfg.spans.get i).map (fun sc => (i, sc)))

/-- A judgement of each slot in use in ascending order. -/
def eachInUse (env : Env) (f : Slot → SpanConfig → Option ConfigDetail) : Option ConfigDetail :=
  firstSome (fun e => f e.1 e.2) (slotsInUse env)

/-- A judgement of each rail of each slot in use in ascending order. -/
def eachRail (env : Env) (f : Slot → Rail → Option ConfigDetail) : Option ConfigDetail :=
  eachInUse env (fun i sc => firstSome (f i) (railsOf sc))

/-- A judgement of each configured address in ascending order. -/
def eachAddr (p : Plant) (f : AddrRec → Option ConfigDetail) : Option ConfigDetail := firstSome f p.link.addrs

/-- A judgement of each bogie address in ascending order. -/
def eachBogie (p : Plant) (f : AddrRec → Option ConfigDetail) : Option ConfigDetail :=
  eachAddr p (fun a => if a.role == .bogie then f a else none)

/-! ### Geometry (R10) -/

/-- Whether a rail's bogie addresses are consecutive and all name one branch (G7, R11). -/
def railTight (as : List AddrRec) : Bool :=
  match as with
  | [] => true
  | [_] => true
  | a :: b :: rest => a.addr + 1 == b.addr && a.branch == b.branch && railTight (b :: rest)

/-- The lock units that name a slot. -/
def lockUnits (p : Plant) (i : Slot) : List AddrRec := p.link.addrs.filter (fun a => a.role == .lockUnit && a.slot == i)

/-- Whether a position field of a poll reply could hold a reading (G10). -/
def readable (v : Int) : Bool := inRange (-2000000000) 2000000000 v

/-- The geometry check: conditions G1 to G13 in table order, and within one condition slots, rails and addresses in
ascending order (R10). -/
def geometryCheck (env : Env) (p : Plant) : Option ConfigDetail :=
  firstOf [
    unmet 1 1 255 0 (slotsInUse env).isEmpty,
    eachAddr p (fun a => unmet 1 2 a.slot.val a.addr (env.cfg.spans.get a.slot).isNone),
    eachAddr p (fun a => unmet 1 3 a.slot.val a.addr (env.wait a.branch).isNone),
    eachBogie p (fun a => unmet 1 4 a.slot.val a.addr (decide ((env.span a.slot).rails ≤ a.rail.val))),
    eachRail env (fun i r => unmet 1 5 i.val 0 ((env.cfg.rails.get i).get r).isNone),
    eachRail env (fun i r => unmet 1 6 i.val 0 ((p.railBogies i r).length != env.declared i r)),
    eachRail env (fun i r => unmet 1 7 i.val 0 (!railTight (p.railBogies i r))),
    eachInUse env (fun i _ => unmet 1 8 i.val 0 (decide (1 < (lockUnits p i).length))),
    eachInUse env (fun i sc => unmet 1 9 i.val 0 (decide (sc.xmax ≤ sc.xmin))),
    eachBogie p (fun a => unmet 1 10 a.slot.val a.addr
      (!(readable ((env.span a.slot).xmin - a.offset) && readable ((env.span a.slot).xmax - a.offset)))),
    eachInUse env (fun i sc => unmet 1 11 i.val 0
      ((p.lockUnit i).isSome && !(inRange sc.xmin sc.xmax sc.lock1 && inRange sc.xmin sc.xmax sc.lock2))),
    eachInUse env (fun i sc => unmet 1 12 i.val 0
      (!(decide (sc.c ≤ sc.vmax) && decide (sc.jog ≤ sc.vmax) && decide (sc.vmax ≤ sc.vb) && decide (sc.ad ≤ sc.aq)))),
    eachInUse env (fun i sc => unmet 1 13 i.val 0 (!(decide (sc.sWarn < sc.sStop) && decide (sc.sStop < sc.sTrip))))]

/-! ### Group (R111) -/

/-- Whether an address matches a group code under a mask. -/
def groupMatch (sc : SpanConfig) (addr : Nat) : Bool := (BitVec.ofNat 8 addr &&& sc.m) == (sc.g &&& sc.m)

/-- Whether a slot's bogies lie on a branch. -/
def onBranches (p : Plant) (i : Slot) (b : Branch) : Bool := (p.bogies i).any (fun a => a.branch == b)

/-- The group check: each slot in use in ascending order, its own bogies and the others' judged together by address. -/
def groupCheck (env : Env) (p : Plant) : Option ConfigDetail :=
  eachInUse env (fun i sc => eachBogie p (fun a =>
    unmet 2 0 i.val a.addr
      (if a.slot == i then !groupMatch sc a.addr else onBranches p i a.branch && groupMatch sc a.addr)))

/-! ### Link budget (R112) -/

/-- The response wait of a rail: that of its bogies' branch. -/
def railWait (env : Env) (p : Plant) (i : Slot) (r : Rail) : Nat :=
  match p.railBogies i r with
  | [] => 0
  | a :: _ => (env.wait a.branch).getD 0

/-- S_max: every rail's burst with a gap, and every slot's broadcast. -/
def sMax (env : Env) (p : Plant) : Nat :=
  ((slotsInUse env).map (fun e =>
    2 + ((railsOf e.2).map (fun r => 1 + env.declared e.1 r * (railWait env p e.1 r + 2) + 1)).foldl (· + ·) 0)).foldl (· + ·) 0

/-- w_max: the largest wait of any present branch record. -/
def wMax (env : Env) : Nat := env.cfg.branches.toList.foldl (fun m w => max m (w.getD 0)) 0

/-- W: a write with its settle slot and its gap. -/
def writeWorst (env : Env) : Nat := writeCost (wMax env) + 1

/-- Q: the number of polls a cycle is certain to hold, negative where there is no room. -/
def pollsCertain (env : Env) (p : Plant) : Int :=
  ((env.cfg.dev.budget : Int) - sMax env p - writeWorst env) / ((5 + wMax env + 1 : Nat) : Int)

/-- The link-budget check: Q at least 1, and ceil(N / Q) below the stale limit. -/
def budgetCheck (env : Env) (p : Plant) : Option ConfigDetail :=
  let q := pollsCertain env p
  let n := p.link.addrs.length
  let bad := if q < 1 then true else decide (env.cfg.dev.stale ≤ (n + q.toNat - 1) / q.toNat)
  if bad then some (.budget (sMax env p) (writeWorst env) q) else none

/-! ### Zone (R131) -/

/-- Whether a closed interval lies within a span's envelope. -/
def withinEnvelope (sc : SpanConfig) (lo hi : Int) : Bool := inRange sc.xmin sc.xmax lo && inRange sc.xmin sc.xmax hi

/-- Conditions Z1 to Z4 of one entry. -/
def zoneEntryCheck (env : Env) (z : ZoneEntry) : Option ConfigDetail :=
  firstOf [
    unmet 4 1 z.entry 0 (z.spanA == z.spanB),
    unmet 4 2 z.entry 0 ((env.cfg.spans.get z.spanA).isNone || (env.cfg.spans.get z.spanB).isNone),
    unmet 4 3 z.entry 0 (decide (z.a2 < z.a1) || decide (z.b2 < z.b1)),
    unmet 4 4 z.entry 0 (!(withinEnvelope (env.span z.spanA) z.a1 z.a2 && withinEnvelope (env.span z.spanB) z.b1 z.b2))]

/-- The zone check: every entry in ascending order. -/
def zoneCheck (env : Env) (p : Plant) : Option ConfigDetail := firstSome (zoneEntryCheck env) p.zones

/-! ### Wind (R151) -/

/-- The wind check: conditions W1 to W4. -/
def windCheck (env : Env) : Option ConfigDetail :=
  match env.cfg.wind with
  | none => some (.fields 5 1 255 0)
  | some w => firstOf [
      unmet 5 2 255 0 (!w.en1 && !w.en2),
      unmet 5 3 255 0 (!decide (w.ws + w.h < w.wt)),
      unmet 5 4 255 0 (w.h == 0)]

/-- The five checks in the order of R160. -/
def readyChecks (env : Env) (p : Plant) : Option ConfigDetail :=
  firstOf [geometryCheck env p, groupCheck env p, budgetCheck env p, zoneCheck env p, windCheck env]

end Sys2Proof.Machine
end

