-- ==== Sys2Proof/Machine/Status.lean ====
section
/-! DEFINITION. The status payloads of 12.6, each composed from the state as it stands (R34, R54, R91, R113, R128, R141,
R150, R158, R171, R181). -/

namespace Sys2Proof.Machine

/-- A flag byte from its bits, bit 0 first. -/
def flagBits (bs : List Bool) : List Byte := num8 (bitsByte bs)

/-- A timer's remaining time, 0 when it is not running (R183). -/
def timer32 (t : Option Nat) : List Byte := num32 (t.getD 0)

/-- The code of a direction, 0 for none. -/
def dirByte (d : Option Dir) : List Byte := int8 (match d with | some v => dirInt v | none => 0)

/-! ### GET SPAN STATUS -/

/-- The first of three timers that runs: a span has at most one of the hold, release and safe stop timers. -/
def firstTimer (a b c : Option Nat) : Option Nat :=
  match a, b with
  | some t, _ => some t
  | none, some t => some t
  | none, none => c

/-- The fault record: first cause, position, time, later causes. -/
def faultBytes (f : Option FaultRecord) : List Byte :=
  match f with
  | none => num8 0 ++ num32 0 ++ num32 0 ++ num16 0
  | some r => num8 (causeCode r.first) ++ measured32 r.pos ++ enc32 r.time ++ num16 (codeMask (r.later.map causeCode))

/-- Whether a span's wind hold, degraded and other flags of the span part stand (offset 27). -/
def spanFlags (sp : Span) : List Bool :=
  [sp.windHold, sp.degraded, sp.zoneWait, sp.skewArmed, sp.meas.m.isSome, sp.fault.isSome]

/-- The span part (R34), offsets 0 to 38. -/
def spanPart (i : Slot) (sp : Span) : List Byte :=
  num8 i.val ++ num8 sp.state.code ++ stopBytes sp.stop ++ int32 sp.x ++ num32 sp.v ++ int8 (dirInt sp.dir) ++ num8 sp.r ++
  measuredOr0 sp.meas.m ++ skew32 sp.skew ++ timer32 (firstTimer sp.holdT sp.releaseT sp.safeT) ++ num8 sp.override ++
  flagBits (spanFlags sp) ++ faultBytes sp.fault

/-- The tag and target of the head, and the tag of the tail. -/
def planEnds (plan : List Segment) : List Byte :=
  match plan.head?, plan.getLast? with
  | some h, some t => enc16 h.tag ++ int32 h.target ++ enc16 t.tag
  | _, _ => num16 0 ++ num32 0 ++ num16 0

/-- The plan part (R54), offsets 39 to 58. -/
def planPart (sp : Span) : List Byte :=
  num8 sp.plan.length ++ num8 sp.lw ++
  flagBits [sp.planLow, sp.starved, sp.overflow, sp.running, sp.dwellT.isSome] ++ planEnds sp.plan ++
  num8 sp.run.length ++ int32 ((chainEnd sp.run).getD 0) ++ timer32 sp.dwellT

/-- One rail of the rail part (R91); a rail at or above the rail count is shown as zeros. -/
def railPart (env : Env) (i : Slot) (sp : Span) (r : Rail) : List Byte :=
  if r.val < (env.span i).rails then
    let m := sp.meas.mr.get r
    let e := sp.meas.er.get r
    num8 (sp.meas.nValid.get r) ++ num8 (env.declared i r) ++
    num8 (match (env.cfg.rails.get i).get r with | some c => c.minValid | none => 0) ++
    flagBits [m.isSome, e.isSome] ++ measuredOr0 m ++ measuredOr0 e ++ int16 (sp.meas.tr.get r)
  else List.replicate 14 0

/-- The interval timer's run as a code. -/
def TimerRun.code (t : TimerRun) : Nat :=
  match t with
  | .stopped => 0
  | .running => 1
  | .frozen => 2

/-- The test in progress: phase, direction and the phase's remaining time. -/
def testBytes (t : Option TestRecord) : List Byte :=
  match t with
  | none => num8 0 ++ num8 0 ++ num32 0
  | some r => num8 (match r.phase with | .brakeSet => 1 | .hold => 2) ++ int8 (dirInt r.dir) ++ num32 r.timer

/-- The lock operation in progress: command, sent flag and the lock timer's remaining time. -/
def lockBytes (l : Option LockRecord) : List Byte :=
  match l with
  | none => num8 0 ++ num8 0 ++ num32 0
  | some r => num8 r.cmd.code ++ num8 r.sent.toNat ++ num32 r.timer

/-- The flags of a lock unit's last reply. -/
def lockUnitFlags (a : Option AddrRec) : List Byte :=
  match a with
  | none => num8 0
  | some r => match r.last with
    | none => num8 0
    | some l => flagBits [l.ready, l.released, l.fault, true]

/-- The proof part (R128), offsets 117 to 137. -/
def proofPart (env : Env) (i : Slot) (p : Plant) : List Byte :=
  let sp := p.span i
  let ps := sp.proof
  int8 ps.owed ++ flagBits [ps.unproven, ps.relock, ps.due, (env.span i).autoProof, ps.nextDir == .neg] ++
  num8 (match ps.last with | some r => r.code | none => 0) ++ num8 ps.run.code ++ num32 (ps.intervalMs / 1000) ++
  testBytes sp.test ++ lockBytes sp.lock ++ lockUnitFlags (p.lockUnit i)

/-- The 138 bytes of a GET SPAN STATUS reply. -/
def spanStatus (env : Env) (i : Slot) (p : Plant) : List Byte :=
  let sp := p.span i
  spanPart i sp ++ planPart sp ++ four.flatMap (railPart env i sp) ++ num8 (namedCode sp.leading) ++
  num8 (namedCode sp.lagging) ++ proofPart env i p

/-! ### GET DEVICE STATUS -/

/-- The failsafe record: reason, return mode, later reasons, in the bytes after the mode; the time follows them. -/
def recordBytes (k : Option FailsafeRecord) : List Byte :=
  match k with
  | none => num8 0 ++ num8 0 ++ num8 0 ++ num32 0
  | some r => num8 r.reason.code ++ num8 (if r.toReady then Mode.code .ready else Mode.code .init) ++
      num8 (codeMask (r.later.map FailsafeReason.code)) ++ enc32 r.time

/-- The supervision part (R171), offsets 0 to 24. The window's remaining time is the time left to Wc. -/
def supervisionPart (dev : DeviceSettings) (u : Supervision) : List Byte :=
  num8 u.mode.code ++ recordBytes u.record ++ num8 u.e ++ num8 u.g ++ num8 u.f ++ num8 dev.eth ++
  flagBits [u.lockout, u.stopReq] ++ timer32 (u.window.map (fun t => dev.wc - t)) ++ timer32 u.stableT ++ timer32 u.acqT

/-- One anemometer: status, latest sample, largest ringed sample. -/
def anemometerBytes (a : Anemometer) : List Byte :=
  num8 a.status.code ++ num16 (a.latest.getD 0) ++ num16 ((ringMaxOf a.ring).getD 0)

/-- The wind part (R150), offsets 25 to 42. -/
def windPart (n : WindGate) : List Byte :=
  num8 n.gate.code ++ num16 (gustCode n.gust) ++ num8 n.kw ++ timer32 n.dwellT ++ anemometerBytes n.an1 ++ anemometerBytes n.an2

/-- The jog in progress: its slot (255 for none) and direction. -/
def jogBytes (p : Plant) : List Byte :=
  num8 (namedCode p.jogSlot) ++ dirByte (match p.jogSlot with | some i => (p.span i).jog.map JogContext.dir | none => none)

/-- The station part (R158), offsets 44 to 48, after the byte that is sent as 0. -/
def stationPart (st : Station) (p : Plant) : List Byte :=
  num8 0 ++
  flagBits [st.estop.val, st.hold.val, st.key.val, st.jogFwd.val, st.jogRev.val, st.sel0.val, st.sel1.val] ++
  num8 st.selected.val ++ jogBytes p ++ num8 st.holdT.isSome.toNat

/-- The link part (R181), offsets 49 to 59. -/
def linkPart (s : State) : List Byte :=
  num8 s.cmd.settings.fast.toNat ++ num8 s.cmd.settings.crcAlt.toNat ++ enc16 s.plant.out.mask ++
  num8 s.plant.out.queue.length ++ num8 s.plant.out.dropped.toNat ++ num8 s.cmd.requests.length ++ enc32 s.time

/-- The 60 bytes of a GET DEVICE STATUS reply. -/
def deviceStatus (s : State) : List Byte :=
  supervisionPart s.cfg.dev s.sup ++ windPart s.wind ++ stationPart s.station s.plant ++ linkPart s

/-! ### GET ADDRESS STATUS -/

/-- The last reply of an address: flags, position, speed and torque. -/
def replyBytes (r : Option LastReply) : List Byte :=
  match r with
  | none => num8 0 ++ num32 0 ++ num32 0 ++ num16 0
  | some l => flagBits [l.ready, l.released, l.fault, true] ++ int32 l.pos ++ int32 l.speed ++ int16 l.torque

/-- A bogie's validity, load trim and command of its span's last period, 0 out of mode RUN (R91). -/
def driveBytes (p : Plant) (a : AddrRec) : List Byte :=
  let run := a.role == .bogie && (p.span a.slot).inRun
  num8 a.valid.toNat ++ int16 (if run then a.loadTrim else 0) ++ int32 (if run then a.command else 0)

/-- The 31 bytes of a GET ADDRESS STATUS reply; for role NONE every byte after the address is 0. -/
def addressStatus (addr : Nat) (p : Plant) : List Byte :=
  match p.link.find addr with
  | none => num8 addr ++ List.replicate 30 0
  | some a =>
    num8 addr ++ num8 a.role.code ++ num8 a.slot.val ++ num8 a.rail.val ++ num8 a.branch.val ++ int32 a.offset ++
    num8 a.link.code ++ num8 a.age ++ num8 a.miss ++ num8 a.good ++ replyBytes a.last ++ driveBytes p a

/-! ### GET ZONE STATUS -/

/-- One side's flags and times, the times while it waits. -/
def zoneSideBytes (w : ZoneSide) : List Byte :=
  flagBits [w.inside, w.wait] ++ (if w.wait then enc32 w.since else num32 0) ++ timer32 w.timer

/-- The entry of a number. -/
def findZone (e : Nat) (p : Plant) : Option ZoneEntry := p.zones.find? (fun z => z.entry == e)

/-- The 41 bytes of a GET ZONE STATUS reply; for an absent entry every byte after the number is 0. -/
def zoneStatus (e : Nat) (p : Plant) : List Byte :=
  match findZone e p with
  | none => num8 e ++ List.replicate 40 0
  | some z =>
    num8 e ++ num8 1 ++ num8 z.spanA.val ++ int32 z.a1 ++ int32 z.a2 ++ num8 z.spanB.val ++ int32 z.b1 ++ int32 z.b2 ++
    num16 z.tzw ++ num8 z.claim.code ++ zoneSideBytes z.sideA ++ zoneSideBytes z.sideB

end Sys2Proof.Machine
end

