-- ==== Sys2Proof/Machine/Configure.lean ====
section
/-! DEFINITION. The configuration requests (R2 to R9, R130, R144, R159) and GO READY (R160): each judges its mode and
fields, changes the store, and gives its result. -/

namespace Sys2Proof.Machine

/-- A request acted on: the state after it, its result, and what is taken when its reply has been sent. -/
structure Done where
  state  : State
  result : Result
  onSent : OnSent

/-- An accepted request with no items. -/
def accept (s : State) : Done := { state := s, result := .ok [], onSent := .nothing }

/-- An accepted request with the items of its rule. -/
def acceptWith (s : State) (items : List Byte) : Done := { state := s, result := .ok items, onSent := .nothing }

/-- A request accepted with a value stored other than as supplied. -/
def acceptClamped (s : State) (items : List Byte) : Done := { state := s, result := .okClamped items, onSent := .nothing }

/-- A refused request. -/
def refuse (s : State) (why : Reason) : Done := { state := s, result := .refused why, onSent := .nothing }

/-- A configuration request: refused MODE outside INIT, refused RANGE for a field out of range, and otherwise acted on
(R2, R3). -/
def configRequest (s : State) (ok : Bool) (act : State → Done) : Done :=
  if s.sup.mode != .init then refuse s .mode else if ok then act s else refuse s .range

/-- CONFIGURE DEVICE (R159). -/
def doConfigureDevice (f : DeviceFields) (s : State) : Done :=
  configRequest s f.inRange (fun s => accept { s with cfg := { s.cfg with dev := f.settings } })

/-- CONFIGURE BRANCH (R4). -/
def doConfigureBranch (branch w : Byte) (s : State) : Done :=
  configRequest s (fits 0 3 branch && fits 1 7 w)
    (fun s => accept { s with cfg := { s.cfg with branches := s.cfg.branches.set (Fin.ofNat 4 branch.toNat) (some w.toNat) } })

/-- The proof state of a slot newly placed in use: hard-reset values, with the interval timer started (R5). -/
def ProofState.placed (hours : Nat) : ProofState :=
  { ProofState.hardReset with intervalMs := hours * Config.hourMs, run := .running }

/-- A slot's span settings stored (R5): the proof state of a slot newly in use started, and the rail records at or above
the new rail count discarded. -/
def storeSpan (i : Slot) (sc : SpanConfig) (s : State) : State :=
  let sp := s.plant.span i
  let ps := if (s.cfg.spans.get i).isSome then sp.proof else ProofState.placed sc.tProof
  let rails := Quad.ofFn (fun r => if r.val < sc.rails then (s.cfg.rails.get i).get r else none)
  { s with cfg := { s.cfg with spans := s.cfg.spans.set i (some sc), rails := s.cfg.rails.set i rails },
           plant := s.plant.setSpan i { sp with proof := ps } }

/-- A slot removed from use (R6). -/
def removeSpan (i : Slot) (s : State) : State :=
  if (s.cfg.spans.get i).isSome then
    { s with cfg := { s.cfg with spans := s.cfg.spans.set i none, rails := s.cfg.rails.set i (Quad.fill none) },
             plant := s.plant.setSpan i { s.plant.span i with proof := ProofState.hardReset } }
  else s

/-- CONFIGURE SPAN (R5, R6): by its in-use setting, the span stored, OK_CLAMPED with every stored field where an
acceleration was rounded, or the slot removed from use. -/
def doConfigureSpan (slot inUse : Byte) (f : SpanFields) (s : State) : Done :=
  configRequest s (fits 0 3 slot && yesNoFits inUse && (inUse == 0 || f.inRange)) (fun s =>
    let i : Slot := Fin.ofNat 4 slot.toNat
    if inUse == 0 then accept (removeSpan i s)
    else
      let s := storeSpan i f.record s
      if f.stored = f then accept s else acceptClamped s (SpanFields.write slot inUse f.stored))

/-- CONFIGURE RAIL (R7). -/
def doConfigureRail (slot rail n minValid : Byte) (s : State) : Done :=
  let i : Slot := Fin.ofNat 4 slot.toNat
  let rails := match s.cfg.spans.get i with
    | some sc => sc.rails
    | none => 0
  configRequest s (fits 0 3 slot && decide (rail.toNat < rails) && decide (rail.toNat < 4) && fits 1 8 n && fits 1 n.toNat minValid)
    (fun s => accept { s with cfg := { s.cfg with
      rails := s.cfg.rails.set i ((s.cfg.rails.get i).set (Fin.ofNat 4 rail.toNat) (some { n := n.toNat, minValid := minValid.toNat })) } })

/-- An address configured or, with role NONE, removed (R8, R9). -/
def storeAddress (f : AddressFields) (s : State) : State :=
  let link := match roleOf f.role with
    | some role => s.plant.link.configure (f.record role)
    | none => s.plant.link.remove f.addr.toNat
  { s with plant := { s.plant with link := link } }

/-- CONFIGURE ADDRESS (R8, R9): with role NONE the fields after the role are not judged. -/
def doConfigureAddress (f : AddressFields) (s : State) : Done :=
  configRequest s (if f.role == 0 then fits 1 64 f.addr else f.inRange) (fun s => accept (storeAddress f s))

/-- An entry put in its place among the entries in use. -/
def insertZone (z : ZoneEntry) (zs : List ZoneEntry) : List ZoneEntry :=
  match zs with
  | [] => [z]
  | y :: rest => if z.entry < y.entry then z :: y :: rest else if z.entry = y.entry then z :: rest else y :: insertZone z rest

/-- A clearance entry stored or, with in use = no, removed (R130). -/
def storeZone (f : ZoneFields) (s : State) : State :=
  let zones := if f.inUse == 0 then s.plant.zones.filter (fun z => z.entry != f.entry.toNat) else insertZone f.record s.plant.zones
  { s with plant := { s.plant with zones := zones } }

/-- CONFIGURE ZONE (R130): with in use = no the remaining fields are not judged. -/
def doConfigureZone (f : ZoneFields) (s : State) : Done :=
  configRequest s (if f.inUse == 0 then fits 0 15 f.entry else f.inRange) (fun s => accept (storeZone f s))

/-- An anemometer under a change of its enable (the table of R144). -/
def Anemometer.enableTo (enabled : Bool) (a : Anemometer) : Anemometer :=
  match enabled, a.status with
  | true, .disabled => { a with status := .empty, ring := [], zeroRun := 0, recovery := 0 }
  | true, _ => a
  | false, _ => { a with status := .disabled, ring := [], zeroRun := 0, recovery := 0 }

/-- CONFIGURE WIND (R144). -/
def doConfigureWind (f : WindFields) (s : State) : Done :=
  configRequest s f.inRange (fun s =>
    let w := f.record
    accept { s with cfg := { s.cfg with wind := some w },
                    wind := { s.wind with an1 := s.wind.an1.enableTo w.en1, an2 := s.wind.an2.enableTo w.en2 } })

/-- The Supervision Unit entering ACQUIRING (R160). -/
def Supervision.acquire (u : Supervision) : Supervision := { u with mode := .acquiring, acqT := some Config.acquisitionMs }

/-- GO READY (R160): the five checks in INIT, and the entry into ACQUIRING with its MODE report. -/
def doGoReady (s : State) : Done :=
  if s.sup.mode != .init then refuse s .mode
  else match readyChecks s.env s.plant with
    | some d => refuse s (.config d)
    | none => accept (State.report (.mode .acquiring .none s.time) { s with sup := s.sup.acquire })

end Sys2Proof.Machine
end

