-- ==== Sys2Proof/Machine/Requests.lean ====
section
/-! DEFINITION. The status, link, reset, plan and motion requests, and the dispatch of a request to the block that owns
its matter (11.4). Each judges its conditions in the order of its rule. -/

namespace Sys2Proof.Machine

/-- A request that names a slot: refused RANGE outside 0 to 3. -/
def onSlot (slot : Byte) (s : State) (act : Slot → Done) : Done :=
  match slotOf slot with
  | none => refuse s .range
  | some i => act i

/-- A request for a slot that is accepted in READY only. -/
def inReady (slot : Byte) (s : State) (act : Slot → Done) : Done :=
  onSlot slot s (fun i => if s.sup.mode != .ready then refuse s .mode else act i)

/-! ### Status requests (R181) -/

/-- GET DEVICE STATUS: composed as it stands, then the reports-dropped flag cleared (R179). -/
def doGetDeviceStatus (s : State) : Done :=
  acceptWith { s with plant := { s.plant with out := { s.plant.out with dropped := false } } } (deviceStatus s)

/-- GET SPAN STATUS: composed as it stands, then the span's overflow flag cleared (R39). -/
def doGetSpanStatus (slot : Byte) (s : State) : Done :=
  onSlot slot s (fun i =>
    acceptWith { s with plant := s.plant.setSpan i { s.plant.span i with overflow := false } } (spanStatus s.env i s.plant))

/-- GET ADDRESS STATUS (R113). -/
def doGetAddressStatus (addr : Byte) (s : State) : Done :=
  if fits 1 64 addr then acceptWith s (addressStatus addr.toNat s.plant) else refuse s .range

/-- GET ZONE STATUS (R141). -/
def doGetZoneStatus (entry : Byte) (s : State) : Done :=
  if fits 0 15 entry then acceptWith s (zoneStatus entry.toNat s.plant) else refuse s .range

/-! ### Supervision, link and reset requests -/

/-- KEEPALIVE (R163): the outcome, then e and g after it. -/
def doKeepalive (s : State) : Done :=
  let r := judgeKeepalive s
  acceptWith r.1 (num8 r.2 ++ num8 r.1.sup.e ++ num8 r.1.sup.g)

/-- SET LINK (R174): the new settings apply when the reply has been sent. -/
def doSetLink (baud crc : Byte) (s : State) : Done :=
  if yesNoFits baud && yesNoFits crc then
    { state := s, result := .ok [baud, crc], onSent := .settings { fast := yes baud, crcAlt := yes crc } }
  else refuse s .range

/-- SET REPORT MASK (R180): one enable for each of the thirteen kinds; the other bits are not read. -/
def doSetReportMask (mask : BitVec 16) (s : State) : Done :=
  let m := mask &&& 0x1FFF
  acceptWith { s with plant := { s.plant with out := { s.plant.out with mask := m } } } (enc16 m)

/-- HARD RESET (R170): answered first; the reset is taken when the reply has been sent. -/
def doHardReset (s : State) : Done := { state := s, result := .ok [], onSent := .hardReset }

/-- SOFT RESET (R169). -/
def doSoftReset (s : State) : Done :=
  match softResetRefusal s with
  | some why => refuse s why
  | none => accept (softReset s)

/-- STOP ALL (R166). -/
def doStopAll (s : State) : Done :=
  if s.sup.mode != .ready then refuse s .mode else accept (raiseFailsafe .hostRequest s)

/-- CLEAR FAILSAFE (R167). -/
def doClearFailsafe (s : State) : Done :=
  match failsafeRefusal s with
  | some why => refuse s why
  | none => accept (returnFromFailsafe s)

/-! ### Plan requests -/

/-- The conditions of APPEND SEGMENT after the slot (R37). -/
def appendRefusal (f : SegmentFields) (i : Slot) (s : State) : Option Reason :=
  let sp := s.plant.span i
  let sc := s.env.span i
  if s.sup.mode == .init || s.sup.mode == .acquiring then some .mode
  else if sp.state == .unconfigured then some .state
  else if !inRange sc.xmin sc.xmax f.target.toInt then some .range
  else if f.cruise.toNat == 0 then some .range
  else if decide (round100 f.accel.toNat < 100) then some .range
  else if decide (Config.planMax ≤ sp.plan.length) then some .queueFull
  else none

/-- The stored values of the seven fields of a segment, in the order of 12.2. -/
def segmentBytes (g : Segment) : List Byte :=
  enc16 g.tag ++ int32 g.target ++ num32 g.cruise ++ num32 g.accel ++ flagBits [g.stop, g.report] ++ num16 g.dwell

/-- APPEND SEGMENT (R37 to R39): a QUEUE_FULL refusal sets the overflow flag, and an accepted segment joins the tail
with its clamps. -/
def doAppendSegment (f : SegmentFields) (s : State) : Done :=
  onSlot f.slot s (fun i =>
    let sp := s.plant.span i
    match appendRefusal f i s with
    | some .queueFull => refuse { s with plant := s.plant.setSpan i { sp with overflow := true } } .queueFull
    | some why => refuse s why
    | none =>
      let vmax := (s.env.span i).vmax
      let seg := f.segment vmax
      let plan := sp.plan ++ [seg]
      let s := { s with plant := s.plant.setSpan i { sp with plan := plan } }
      if f.clamped vmax then acceptClamped s (segmentBytes seg ++ num8 plan.length) else acceptWith s (num8 plan.length))

/-- Whether a plan may be flushed in a state (R49). -/
def SpanState.flushable (st : SpanState) : Bool :=
  match st with
  | .resting | .holding | .faulted | .locked => true
  | _ => false

/-- FLUSH PLAN (R49). -/
def doFlushPlan (slot : Byte) (s : State) : Done :=
  inReady slot s (fun i =>
    if (s.plant.span i).state.flushable then
      acceptWith { s with plant := flushPlanOf i s.plant } (num8 (s.plant.span i).plan.length)
    else refuse s .state)

/-- SET LOW WATER (R50). -/
def doSetLowWater (slot value : Byte) (s : State) : Done :=
  inReady slot s (fun i =>
    let sp := s.plant.span i
    if sp.state == .unconfigured then refuse s .state
    else
      let s := { s with plant := s.plant.setSpan i { sp with lw := min value.toNat 15 } }
      if 15 < value.toNat then acceptClamped s (num8 15) else accept s)

/-! ### Motion requests -/

/-- START (R28). -/
def doStart (slot : Byte) (s : State) : Done :=
  inReady slot s (fun i =>
    match startRefusal s.env i s.plant with
    | some why => refuse s why
    | none => accept (s.onPlant (fun env p => startSpan env i p)))

/-- The common part of PAUSE and STOP (R31): accepted in READY and FAILSAFE in every span state; the wind hold flag
clears, and the stop is taken before the reply. -/
def stopRequest (slot : Byte) (req : StopRequest) (s : State) : Done :=
  onSlot slot s (fun i =>
    if s.sup.mode == .init || s.sup.mode == .acquiring then refuse s .mode
    else accept (s.onPlant (fun env p => takeStop env i req .otherStop (clearWindHold i p))))

/-- PAUSE (R31): a CONTROLLED stop to HOLDING. -/
def doPause (slot : Byte) (s : State) : Done := stopRequest slot controlledHold s

/-- STOP (R31): a QUICK stop to RESTING. -/
def doStop (slot : Byte) (s : State) : Done := stopRequest slot quickRest s

/-- SET OVERRIDE (R58). -/
def doSetOverride (slot value : Byte) (s : State) : Done :=
  inReady slot s (fun i =>
    let sp := s.plant.span i
    if sp.state == .unconfigured then refuse s .state
    else
      let s := { s with plant := s.plant.setSpan i { sp with override := min value.toNat 100 } }
      if 100 < value.toNat then acceptClamped s (num8 100) else accept s)

/-- CLEAR FAULT (R32, R33). -/
def doClearFault (slot : Byte) (s : State) : Done :=
  inReady slot s (fun i =>
    if (s.plant.span i).state != .faulted then refuse s .state
    else match clearRefusal s.env i s.plant with
      | some c => refuse s (.condition (some c))
      | none => accept (s.onPlant (fun env p => clearFault env i p)))

/-- PROOF (R119). -/
def doProof (slot : Byte) (s : State) : Done :=
  inReady slot s (fun i =>
    let sp := s.plant.span i
    if sp.state != .resting && sp.state != .holding then refuse s .state
    else if s.station.key.val then refuse s .localControl
    else if !s.plant.allValid s.env i then refuse s (.condition none)
    else accept (s.onPlant (fun env p => startTest env i p)))

/-- Whether the last m formed lies within the lock tolerance of a lock position (R125). -/
def atLock (sc : SpanConfig) (m : Option Int) : Bool :=
  match m with
  | none => false
  | some v => decide (magnitude (v - sc.lock1) ≤ sc.lockTol) || decide (magnitude (v - sc.lock2) ≤ sc.lockTol)

/-- The conditions of LOCK after the mode (R125). -/
def lockRefusal (env : Env) (i : Slot) (p : Plant) : Option Reason :=
  let sp := p.span i
  if sp.state != .resting then some .state
  else if env.keyLocal then some .localControl
  else if (p.lockUnit i).isNone then some .noLockUnit
  else if sp.proof.unproven || sp.proof.relock then some .proofRequired
  else if !atLock (env.span i) sp.lastM then some .notAtLock
  else none

/-- LOCK (R125). -/
def doLock (slot : Byte) (s : State) : Done :=
  inReady slot s (fun i =>
    match lockRefusal s.env i s.plant with
    | some why => refuse s why
    | none => accept (s.onPlant (fun env p => startLock env i .engage .locking p)))

/-- UNLOCK (R127). -/
def doUnlock (slot : Byte) (s : State) : Done :=
  inReady slot s (fun i =>
    if (s.plant.span i).state != .locked then refuse s .state
    else if s.station.key.val then refuse s .localControl
    else accept (s.onPlant (fun env p => startLock env i .retract .unlocking p)))

/-- The conditions of WRITE PARAMETER (R106). -/
def writeRefusal (addr : Byte) (s : State) : Option Reason :=
  if !fits 1 64 addr then some .range
  else if s.sup.mode != .ready then some .mode
  else match s.plant.link.find addr.toNat with
    | none => some .range
    | some a =>
      if (s.plant.span a.slot).state.energised then some .state
      else if decide (Config.paramsMax ≤ s.plant.link.params.length) then some .busy
      else none

/-- WRITE PARAMETER (R106): a host write at the tail of the parameter queue, answered with the entries it then holds. -/
def doWriteParameter (addr index : Byte) (value : BitVec 16) (s : State) : Done :=
  match writeRefusal addr s with
  | some why => refuse s why
  | none =>
    let params := s.plant.link.params ++ [.host addr.toNat index value]
    acceptWith { s with plant := { s.plant with link := { s.plant.link with params := params } } } (num8 params.length)

/-! ### Dispatch (11.4) -/

/-- A request handed to the block that owns its matter. -/
def perform (r : Request) (s : State) : Done :=
  match r with
  | .configureDevice f => doConfigureDevice f s
  | .configureBranch branch w => doConfigureBranch branch w s
  | .configureSpan slot inUse f => doConfigureSpan slot inUse f s
  | .configureRail slot rail n minValid => doConfigureRail slot rail n minValid s
  | .configureAddress f => doConfigureAddress f s
  | .configureZone f => doConfigureZone f s
  | .configureWind f => doConfigureWind f s
  | .goReady => doGoReady s
  | .getDeviceStatus => doGetDeviceStatus s
  | .getSpanStatus slot => doGetSpanStatus slot s
  | .getAddressStatus addr => doGetAddressStatus addr s
  | .getZoneStatus entry => doGetZoneStatus entry s
  | .keepalive => doKeepalive s
  | .setLink baud crc => doSetLink baud crc s
  | .setReportMask mask => doSetReportMask mask s
  | .hardReset => doHardReset s
  | .softReset => doSoftReset s
  | .appendSegment f => doAppendSegment f s
  | .flushPlan slot => doFlushPlan slot s
  | .start slot => doStart slot s
  | .pause slot => doPause slot s
  | .stop slot => doStop slot s
  | .setOverride slot value => doSetOverride slot value s
  | .setLowWater slot value => doSetLowWater slot value s
  | .clearFault slot => doClearFault slot s
  | .proof slot => doProof slot s
  | .lock slot => doLock slot s
  | .unlock slot => doUnlock slot s
  | .writeParameter addr index value => doWriteParameter addr index value s
  | .stopAll => doStopAll s
  | .clearFailsafe => doClearFailsafe s

end Sys2Proof.Machine
end

