-- ==== Sys2Proof/Machine/CommandLink.lean ====
section
/-! DEFINITION. The Command Link Unit (chapter 11): the receiver, the pending-request queue, the taking of requests, the
transmitter, and the end of every event. -/

namespace Sys2Proof.Machine

/-! ### Requests taken (R175) -/

/-- A frame judged and acted on: the Command Link Unit's own two refusals, or the request's owner. -/
def judgeFrame (f : ReqFrame) (s : State) : Done :=
  match parseFrame f with
  | .unknownKind => refuse s .unknownKind
  | .badLength => refuse s .length
  | .request r => perform r s

/-- A reply composed from a request acted on, placed in the reply buffer. -/
def placeReply (kind tag : Byte) (d : Done) : State :=
  { d.state with cmd := { d.state.cmd with
      reply := some { kind := replyKind kind, tag := tag, result := d.result, onSent := d.onSent } } }

/-- The head request taken when the reply buffer is empty; nothing otherwise (R175). -/
def takeRequest (s : State) : State :=
  match s.cmd.reply, s.cmd.requests with
  | none, f :: rest => placeReply f.kind f.tag (judgeFrame f { s with cmd := { s.cmd with requests := rest } })
  | _, _ => s

/-- A frame that has arrived (R175, R176): it joins the queue, or takes the BUSY slot at a full queue, or is discarded
when that slot is occupied too. -/
def enqueue (f : ReqFrame) (c : CommandLink) : CommandLink :=
  if c.requests.length < Config.requestsMax then { c with requests := c.requests ++ [f] }
  else match c.busy with
    | none => { c with busy := some { kind := replyKind f.kind, tag := f.tag } }
    | some _ => c

/-- A frame arriving, and the request that can be taken at once. -/
def frameArrives (f : ReqFrame) (s : State) : State := takeRequest { s with cmd := enqueue f s.cmd }

/-- A request of the host arriving under a TAG. Where nothing waits before it, it is taken at its arrival; otherwise
its frame joins the queue, to be read back at its taking (log entry 5). -/
def requestArrives (r : Request) (tag : Byte) (s : State) : State :=
  match s.cmd.reply, s.cmd.requests with
  | none, [] => placeReply r.code tag (perform r s)
  | _, _ => frameArrives (r.frame tag) s

/-! ### The receiver (R173) -/

/-- The receiver set. -/
def State.setRx (s : State) (r : Receiver) : State := { s with cmd := { s.cmd with rx := r } }

/-- A byte judged while hunting: a sync byte starts a frame under the CRC selection in force, and any other byte is
discarded. -/
def huntByte (b : Byte) (s : State) : State := s.setRx (if b = Config.sync then .collecting s.cmd.settings.crcAlt [] else .hunting)

/-- The length of a frame after its sync byte: LEN, KIND, TAG, the payload and the CRC. -/
def frameLength (len : Byte) : Nat := len.toNat + 4

/-- A whole frame after its sync byte judged by its CRC; a good one has arrived. -/
def frameWhole (alt : Bool) (bs : List Byte) (s : State) : State :=
  match bs with
  | len :: kind :: tag :: rest =>
    let payload := rest.take len.toNat
    if frameCrc alt kind tag payload = byteAt rest len.toNat then
      frameArrives { kind := kind, tag := tag, payload := payload } (s.setRx .hunting)
    else s.setRx .hunting
  | _ => s.setRx .hunting

/-- A byte collected: a LEN above 240 discards the frame at that byte, and the CRC byte ends it. -/
def collectByte (alt : Bool) (bytes : List Byte) (b : Byte) (s : State) : State :=
  let bs := bytes ++ [b]
  match bs with
  | [] => s
  | len :: _ =>
    if Config.payloadMax < len.toNat then s.setRx .hunting
    else if bs.length = frameLength len then frameWhole alt bs s
    else s.setRx (.collecting alt bs)

/-- A received byte, by the receiver's condition. -/
def receiveByte (b : Byte) (s : State) : State :=
  match s.cmd.rx with
  | .hunting => huntByte b s
  | .collecting alt bytes => collectByte alt bytes b s

/-- A frame received whole, its CRC byte judged with the selection in force at its sync byte: here the present one,
since the frame arrives as one event. -/
def receiveFrame (kind tag : Byte) (payload : List Byte) (crc : Byte) (s : State) : State :=
  if payload.length ≤ Config.payloadMax && frameCrc s.cmd.settings.crcAlt kind tag payload == crc then
    frameArrives { kind := kind, tag := tag, payload := payload } (s.setRx .hunting)
  else s.setRx .hunting

/-! ### The transmitter (R178) -/

/-- The state with a frame being sent, its CRC selection the one in force. -/
def State.send (s : State) (source : TxSource) (kind tag : Byte) (payload : List Byte) : State :=
  { s with cmd := { s.cmd with tx := some { source := source, kind := kind, tag := tag, payload := payload,
                                            crcAlt := s.cmd.settings.crcAlt } } }

/-- A frame started when the transmitter is free and a source waits: the BUSY reply, then the reply, then the oldest
report, which leaves its queue. -/
def startFrame (s : State) : State :=
  match s.cmd.tx with
  | some _ => s
  | none =>
    match s.cmd.busy with
    | some b => s.send .busy b.kind b.tag (Result.refused .busy).bytes
    | none =>
      match s.cmd.reply with
      | some r => s.send .reply r.kind r.tag r.result.bytes
      | none =>
        match s.plant.out.queue with
        | [] => s
        | r :: rest =>
          ({ s with plant := { s.plant with out := { s.plant.out with queue := rest } } } : State).send .report r.code 0 r.payload

/-- What an accepted request leaves to be done when its reply has been sent (R174, R182). -/
def afterReply (o : OnSent) (s : State) : State :=
  match o with
  | .nothing => s
  | .hardReset => estopAtReset (hardReset .hardReset s)
  | .settings l => { s with cmd := { s.cmd with settings := l } }

/-- The last byte of the frame being sent: its source is freed, what waits for it is done, and the next request can be
taken. -/
def frameEnds (s : State) : State :=
  match s.cmd.tx with
  | none => s
  | some t =>
    let s := { s with cmd := { s.cmd with tx := none } }
    match t.source with
    | .report => s
    | .busy => { s with cmd := { s.cmd with busy := none } }
    | .reply =>
      match s.cmd.reply with
      | none => s
      | some r => takeRequest (afterReply r.onSent { s with cmd := { s.cmd with reply := none } })

/-! ### The end of every event -/

/-- What follows every event: STOP-REQ at its level (R168), and a frame started when the transmitter is free (R178). -/
def settle (s : State) : State := startFrame { s with sup := { s.sup with stopReq := s.stopReqLevel } }

/-- An event on the device, without effect while it is held in reset (R170). -/
def runEvent (f : State → State) (s : State) : Host.Outcome State Fault Refusal :=
  .next (if s.resetPin then s else settle (f s))

end Sys2Proof.Machine
end

