-- ==== Sys2Proof/Machine/Expiries.lean ====
section
/-! DEFINITION. What each timer expiry does to the plant and the device. An expiry has its effect while its timer runs,
and none when the timer has been stopped. -/

namespace Sys2Proof.Machine

/-- SPAN_PERIOD of a span: the period timer restarts; any stop the period before it raised and that is still to be taken
is taken first; a span in UNCONFIGURED takes no step (R16, R35). -/
def spanPeriodOf (env : Env) (i : Slot) (p : Plant) : Plant :=
  let p := p.setSpan i { p.span i with periodT := Config.periodMs }
  if (p.span i).state == .unconfigured then p else periodOf env i (takeRaised env i p)

/-- STOP_TAKEN: the stop that reaches the span, no longer among those to be taken (R18). -/
def stopTakenBy (env : Env) (i : Slot) (req : StopRequest) (p : Plant) : Plant :=
  takeStop env i req .otherStop (p.setSpan i { p.span i with raised := (p.span i).raised.erase req })

/-- The hold timer's expiry (R30). -/
def holdExpired (env : Env) (i : Slot) (p : Plant) : Plant :=
  if (p.span i).state == .holding && (p.span i).holdT.isSome then enterEnd env i .resting p else p

/-- The release timer's expiry (R29): FAULTED with cause RELEASE_TIMEOUT; a jog held through STARTING ends (R157). JOG_ENDED comes
before SPAN_FAULT, and that before the report of the entry (log entry 9). -/
def releaseExpired (env : Env) (i : Slot) (p : Plant) : Plant :=
  if (p.span i).state == .starting && (p.span i).releaseT.isSome then
    changeState env i .faulted none (registerFault env i .releaseTimeout (endJog env i .releaseTimeout p))
  else p

/-- The dwell timer's expiry (R44): the next period begins a new run. -/
def dwellExpired (i : Slot) (p : Plant) : Plant := p.setSpan i { p.span i with dwellT := none }

/-- The safe stop timer's expiry (R20): the stop is over whatever the bogies report. -/
def safeExpired (env : Env) (i : Slot) (p : Plant) : Plant :=
  if (p.span i).inSafeStop && (p.span i).safeT.isSome then endSafeStop env i p else p

/-- The owed count at an expiry (R116). -/
def ProofState.expire (hours : Nat) (ps : ProofState) : ProofState :=
  if ps.owed < Config.owedMax then { ps with owed := ps.owed + 1, intervalMs := hours * Config.hourMs }
  else { ps with due := true, intervalMs := hours * Config.hourMs }

/-- What the Proof Scheduler does with a span when an expiry sets proof-due (R117): a stop to HOLDING for a span
STARTING, MOVING or HOLDING, and the forced test as soon as its conditions hold. -/
def forceProof (env : Env) (i : Slot) (p : Plant) : Plant :=
  match (p.span i).state with
  | .starting | .moving | .holding => tryForced env i (takeStop env i controlledHold .otherStop p)
  | .resting => tryForced env i p
  | _ => p

/-- The interval timer's expiry (R115 to R117). -/
def intervalExpired (env : Env) (i : Slot) (p : Plant) : Plant :=
  let sp := p.span i
  if sp.proof.run == .running then
    let q := p.setSpan i { sp with proof := sp.proof.expire (env.span i).tProof }
    if sp.proof.owed < Config.owedMax then q else forceProof env i q
  else p

/-- The BRAKE_SET phase timer's expiry (R120). -/
def brakeSetExpired (env : Env) (i : Slot) (p : Plant) : Plant :=
  match (p.span i).state, (p.span i).test with
  | .proving, some t => match t.phase with
    | .brakeSet => enterEnd env i .resting (abandonTest env i .brakesNotSet p)
    | .hold => p
  | _, _ => p

/-- The HOLD phase timer's expiry (R121). -/
def holdPhaseExpired (env : Env) (i : Slot) (p : Plant) : Plant :=
  match (p.span i).state, (p.span i).test with
  | .proving, some t => match t.phase with
    | .brakeSet => p
    | .hold => holdEnd env i t p
  | _, _ => p

/-- The wait timer's expiry of one span of an entry (R135). -/
def waitExpired (env : Env) (entry : Nat) (d : Side) (p : Plant) : Plant :=
  let a := zoneSweep (fun z q => if z.entry == entry then z.waitExpired env.time d q else (z, q)) p.zones p.out
  { p with zones := a.1, out := a.2 }

/-- The acquisition timer's expiry (R161). -/
def acquisitionExpired (s : State) : State :=
  if s.sup.mode == .acquiring && s.sup.acqT.isSome then endAcquisition s else s

/-- The window's closing at Wc with no KEEPALIVE (R163): a late outcome. -/
def windowExpired (s : State) : State := if s.sup.window.isSome then badKeepalive s else s

/-- The stable-READY timer's expiry (R168). -/
def stableExpired (s : State) : State :=
  if s.sup.stableT.isSome then { s with sup := { s.sup with f := 0, stableT := none } } else s

/-- The address of the POLL or burst word whose window closes next, when its reply counts. -/
def BogieLink.listening (l : BogieLink) : Option AddrRec :=
  match l.cycle with
  | .poll addr _ _ live :: _ => if live then l.find addr else none
  | .burst _ _ _ _ _ _ _ (w :: _) :: _ => if w.live then l.find w.addr else none
  | _ => none

/-- A POLL's window closed on the whole device, with acquisition ended by a good reply (R102, R161). -/
def pollReply (w0 w1 w2 w3 : Option LinkWord) (s : State) : State :=
  let good := match s.plant.link.cycle, s.plant.link.listening with
    | .poll .. :: _, some a => (readReply a w0 w1 w2 w3).isSome
    | _, _ => false
  afterGoodReply good (s.onPlant (fun env p => pollEnd env w0 w1 w2 w3 p))

/-- An acknowledgement window closed on the whole device (R98). A good acknowledgement is a good reply. -/
def setpointAck (w : Option LinkWord) (s : State) : State :=
  let good := match s.plant.link.cycle, s.plant.link.listening with
    | .burst .. :: _, some a => wordGood a.addr w
    | _, _ => false
  afterGoodReply good (s.onPlant (fun env p => ackEnd env w p))

end Sys2Proof.Machine
end

