-- ==== Sys2Proof/Machine/DeviceCommands.lean ====
section
/-! DEFINITION. The meanings of the events of the device: resets, supervision timers, the Wind Gate and the operator station. -/

namespace Sys2Proof.Machine

/-- A pulse counted on one anemometer. -/
def countPulse (which : AnemometerId) (s : State) : State :=
  match which with
  | .an1 => { s with wind := { s.wind with an1 := s.wind.an1.pulse } }
  | .an2 => { s with wind := { s.wind with an2 := s.wind.an2.pulse } }

/-- POWER_ON (R170). -/
def execPowerOn (s : State) : Host.Outcome State Fault Refusal :=
  let s := hardReset .powerOn s
  .next (if s.resetPin then s else settle (estopAtReset s))

/-- RESET_PIN_ASSERT (R170, R182): nothing is sent while the pin stays asserted. -/
def execResetPinAssert (s : State) : Host.Outcome State Fault Refusal :=
  .next { hardReset .resetPin s with resetPin := true }

/-- RESET_PIN_RELEASE (R170): the device runs from its power-on values, the inputs validated at their pin levels. -/
def execResetPinRelease (s : State) : Host.Outcome State Fault Refusal :=
  if s.resetPin then
    .next (settle (estopAtReset { s with resetPin := false, station := s.station.atReset }))
  else .next s

/-- ACQUISITION_TIMER_EXPIRY (R161). -/
def execAcquisitionTimerExpiry (s : State) : Host.Outcome State Fault Refusal :=
  runEvent acquisitionExpired s

/-- KEEPALIVE_WINDOW_EXPIRY (R163). -/
def execKeepaliveWindowExpiry (s : State) : Host.Outcome State Fault Refusal :=
  runEvent windowExpired s

/-- STABLE_READY_EXPIRY (R168). -/
def execStableReadyExpiry (s : State) : Host.Outcome State Fault Refusal :=
  runEvent stableExpired s

/-- WIND_SAMPLE (R143). -/
def execWindSample (s : State) : Host.Outcome State Fault Refusal :=
  runEvent Sys2Proof.Machine.windSample s

/-- TRIP_DWELL_EXPIRY (R147). -/
def execTripDwellExpiry (s : State) : Host.Outcome State Fault Refusal :=
  runEvent tripDwell s

/-- ANEMOMETER_PULSE (R143). -/
def execAnemometerPulse (which : AnemometerId) (s : State) : Host.Outcome State Fault Refusal :=
  runEvent (countPulse which) s

/-- STATION_PIN_CHANGE (R152): while the device is held in reset only the pin follows. -/
def execStationPinChange (input : StationInput) (level : Bool) (s : State) : Host.Outcome State Fault Refusal :=
  if s.resetPin then .next (pinOnly input level s) else runEvent (pinChange input level) s

/-- STATION_PRESS_TIMER_EXPIRY (R152). -/
def execStationPressTimerExpiry (input : StationInput) (s : State) : Host.Outcome State Fault Refusal :=
  runEvent (pressExpired input) s

/-- ESTOP_ASSERTED (R153). -/
def execEstopAsserted (s : State) : Host.Outcome State Fault Refusal :=
  if s.resetPin then .next (pinOnly .estop true s) else runEvent assertEstop s

/-- JOG_RELEASE (R157). -/
def execJogRelease (dir : Dir) (s : State) : Host.Outcome State Fault Refusal :=
  if s.resetPin then .next (pinOnly (jogInput dir) false s) else runEvent (releaseJog dir) s

/-- HOLD_STUCK (R154). -/
def execHoldStuck (s : State) : Host.Outcome State Fault Refusal :=
  runEvent holdStuckAction s

end Sys2Proof.Machine
end

