-- ==== Sys2Proof/Machine/FrameCommands.lean ====
section
/-! DEFINITION. The meanings of the command link's own events: frames, bytes, the taking of a request and the end of a frame. -/

namespace Sys2Proof.Machine

/-- FRAME_RECEIVED (R173). -/
def execFrameReceived (kind tag : Byte) (payload : List Byte) (crc : Byte) (s : State) : Host.Outcome State Fault Refusal :=
  runEvent (receiveFrame kind tag payload crc) s

/-- FRAME_GAP_TIMEOUT (R173): the frame in reception is discarded, and the byte is judged as a possible sync byte. -/
def execFrameGapTimeout (byte : Byte) (s : State) : Host.Outcome State Fault Refusal :=
  runEvent (huntByte byte) s

/-- FRAME_BYTE_RECEIVED (R173). -/
def execFrameByteReceived (byte : Byte) (s : State) : Host.Outcome State Fault Refusal :=
  runEvent (receiveByte byte) s

/-- REQUEST_TAKEN (R175). -/
def execRequestTaken (s : State) : Host.Outcome State Fault Refusal :=
  runEvent takeRequest s

/-- FRAME_SENT (R178). -/
def execFrameSent (s : State) : Host.Outcome State Fault Refusal :=
  runEvent frameEnds s

end Sys2Proof.Machine
end

