-- ==== Sys2Proof/Machine/HostCommands.lean ====
section
/-! DEFINITION. The meanings of the host requests, one for each row of the table that is a request. Each is the arrival
of the request's frame: `requestArrives` has it taken at once where nothing waits before it, and `perform` names
the operation that holds its rule. -/

namespace Sys2Proof.Machine

/-- CONFIGURE_DEVICE (R159). -/
def execConfigureDevice (tag : Byte) (f : DeviceFields) (s : State) : Host.Outcome State Fault Refusal :=
  runEvent (requestArrives (.configureDevice f) tag) s

/-- CONFIGURE_BRANCH (R4). -/
def execConfigureBranch (tag branch w : Byte) (s : State) : Host.Outcome State Fault Refusal :=
  runEvent (requestArrives (.configureBranch branch w) tag) s

/-- CONFIGURE_SPAN (R5), in use = yes. -/
def execConfigureSpan (tag slot : Byte) (f : SpanFields) (s : State) : Host.Outcome State Fault Refusal :=
  runEvent (requestArrives (.configureSpan slot 1 f) tag) s

/-- CONFIGURE_SPAN_REMOVE (R6), in use = no. -/
def execConfigureSpanRemove (tag slot : Byte) (s : State) : Host.Outcome State Fault Refusal :=
  runEvent (requestArrives (.configureSpan slot 0 SpanFields.zero) tag) s

/-- CONFIGURE_RAIL (R7). -/
def execConfigureRail (tag slot rail n minValid : Byte) (s : State) : Host.Outcome State Fault Refusal :=
  runEvent (requestArrives (.configureRail slot rail n minValid) tag) s

/-- CONFIGURE_ADDRESS (R8). -/
def execConfigureAddress (tag : Byte) (f : AddressFields) (s : State) : Host.Outcome State Fault Refusal :=
  runEvent (requestArrives (.configureAddress f) tag) s

/-- CONFIGURE_ADDRESS_REMOVE (R9), role NONE. -/
def execConfigureAddressRemove (tag addr : Byte) (s : State) : Host.Outcome State Fault Refusal :=
  runEvent (requestArrives (.configureAddress { addr := addr, role := 0, slot := 0, rail := 0, branch := 0, offset := 0 }) tag) s

/-- CONFIGURE_ZONE (R130). -/
def execConfigureZone (tag : Byte) (f : ZoneFields) (s : State) : Host.Outcome State Fault Refusal :=
  runEvent (requestArrives (.configureZone f) tag) s

/-- CONFIGURE_WIND (R144). -/
def execConfigureWind (tag : Byte) (f : WindFields) (s : State) : Host.Outcome State Fault Refusal :=
  runEvent (requestArrives (.configureWind f) tag) s

/-- GO_READY (R160). -/
def execGoReady (tag : Byte) (s : State) : Host.Outcome State Fault Refusal :=
  runEvent (requestArrives (.goReady) tag) s

/-- GET_DEVICE_STATUS (R181). -/
def execGetDeviceStatus (tag : Byte) (s : State) : Host.Outcome State Fault Refusal :=
  runEvent (requestArrives (.getDeviceStatus) tag) s

/-- GET_SPAN_STATUS (R34). -/
def execGetSpanStatus (tag slot : Byte) (s : State) : Host.Outcome State Fault Refusal :=
  runEvent (requestArrives (.getSpanStatus slot) tag) s

/-- GET_ADDRESS_STATUS (R113). -/
def execGetAddressStatus (tag addr : Byte) (s : State) : Host.Outcome State Fault Refusal :=
  runEvent (requestArrives (.getAddressStatus addr) tag) s

/-- GET_ZONE_STATUS (R141). -/
def execGetZoneStatus (tag entry : Byte) (s : State) : Host.Outcome State Fault Refusal :=
  runEvent (requestArrives (.getZoneStatus entry) tag) s

/-- KEEPALIVE (R163). -/
def execKeepalive (tag : Byte) (s : State) : Host.Outcome State Fault Refusal :=
  runEvent (requestArrives (.keepalive) tag) s

/-- SET_LINK (R174). -/
def execSetLink (tag baud crc : Byte) (s : State) : Host.Outcome State Fault Refusal :=
  runEvent (requestArrives (.setLink baud crc) tag) s

/-- SET_REPORT_MASK (R180). -/
def execSetReportMask (tag : Byte) (mask : BitVec 16) (s : State) : Host.Outcome State Fault Refusal :=
  runEvent (requestArrives (.setReportMask mask) tag) s

/-- HARD_RESET (R170). -/
def execHardReset (tag : Byte) (s : State) : Host.Outcome State Fault Refusal :=
  runEvent (requestArrives (.hardReset) tag) s

/-- SOFT_RESET (R169). -/
def execSoftReset (tag : Byte) (s : State) : Host.Outcome State Fault Refusal :=
  runEvent (requestArrives (.softReset) tag) s

/-- APPEND_SEGMENT (R37). -/
def execAppendSegment (tag : Byte) (f : SegmentFields) (s : State) : Host.Outcome State Fault Refusal :=
  runEvent (requestArrives (.appendSegment f) tag) s

/-- FLUSH_PLAN (R49). -/
def execFlushPlan (tag slot : Byte) (s : State) : Host.Outcome State Fault Refusal :=
  runEvent (requestArrives (.flushPlan slot) tag) s

/-- START (R28). -/
def execStart (tag slot : Byte) (s : State) : Host.Outcome State Fault Refusal :=
  runEvent (requestArrives (.start slot) tag) s

/-- PAUSE (R31). -/
def execPause (tag slot : Byte) (s : State) : Host.Outcome State Fault Refusal :=
  runEvent (requestArrives (.pause slot) tag) s

/-- STOP (R31). -/
def execStop (tag slot : Byte) (s : State) : Host.Outcome State Fault Refusal :=
  runEvent (requestArrives (.stop slot) tag) s

/-- SET_OVERRIDE (R58). -/
def execSetOverride (tag slot value : Byte) (s : State) : Host.Outcome State Fault Refusal :=
  runEvent (requestArrives (.setOverride slot value) tag) s

/-- SET_LOW_WATER (R50). -/
def execSetLowWater (tag slot value : Byte) (s : State) : Host.Outcome State Fault Refusal :=
  runEvent (requestArrives (.setLowWater slot value) tag) s

/-- CLEAR_FAULT (R32). -/
def execClearFault (tag slot : Byte) (s : State) : Host.Outcome State Fault Refusal :=
  runEvent (requestArrives (.clearFault slot) tag) s

/-- PROOF (R119). -/
def execProof (tag slot : Byte) (s : State) : Host.Outcome State Fault Refusal :=
  runEvent (requestArrives (.proof slot) tag) s

/-- LOCK (R125). -/
def execLock (tag slot : Byte) (s : State) : Host.Outcome State Fault Refusal :=
  runEvent (requestArrives (.lock slot) tag) s

/-- UNLOCK (R127). -/
def execUnlock (tag slot : Byte) (s : State) : Host.Outcome State Fault Refusal :=
  runEvent (requestArrives (.unlock slot) tag) s

/-- WRITE_PARAMETER (R106). -/
def execWriteParameter (tag addr index : Byte) (value : BitVec 16) (s : State) : Host.Outcome State Fault Refusal :=
  runEvent (requestArrives (.writeParameter addr index value) tag) s

/-- STOP_ALL (R166). -/
def execStopAll (tag : Byte) (s : State) : Host.Outcome State Fault Refusal :=
  runEvent (requestArrives (.stopAll) tag) s

/-- CLEAR_FAILSAFE (R167). -/
def execClearFailsafe (tag : Byte) (s : State) : Host.Outcome State Fault Refusal :=
  runEvent (requestArrives (.clearFailsafe) tag) s

end Sys2Proof.Machine
end

