-- ==== Sys2Proof/Machine/PlantCommands.lean ====
section
/-! DEFINITION. The meanings of the events of the spans, the Clearance Table and the bogie link. -/

namespace Sys2Proof.Machine

/-- SPAN_PERIOD (R76). -/
def execSpanPeriod (slot : Slot) (s : State) : Host.Outcome State Fault Refusal :=
  runEvent (State.onPlant (fun env p => spanPeriodOf env slot p)) s

/-- STOP_TAKEN (R18). -/
def execStopTaken (slot : Slot) (req : StopRequest) (s : State) : Host.Outcome State Fault Refusal :=
  runEvent (State.onPlant (fun env p => stopTakenBy env slot req p)) s

/-- HOLD_TIMER_EXPIRY (R30). -/
def execHoldTimerExpiry (slot : Slot) (s : State) : Host.Outcome State Fault Refusal :=
  runEvent (State.onPlant (fun env p => holdExpired env slot p)) s

/-- RELEASE_TIMER_EXPIRY (R29). -/
def execReleaseTimerExpiry (slot : Slot) (s : State) : Host.Outcome State Fault Refusal :=
  runEvent (State.onPlant (fun env p => releaseExpired env slot p)) s

/-- DWELL_TIMER_EXPIRY (R44). -/
def execDwellTimerExpiry (slot : Slot) (s : State) : Host.Outcome State Fault Refusal :=
  runEvent (State.onPlant (fun _ p => dwellExpired slot p)) s

/-- SAFE_STOP_TIMER_EXPIRY (R20). -/
def execSafeStopTimerExpiry (slot : Slot) (s : State) : Host.Outcome State Fault Refusal :=
  runEvent (State.onPlant (fun env p => safeExpired env slot p)) s

/-- PROOF_INTERVAL_EXPIRY (R116). -/
def execProofIntervalExpiry (slot : Slot) (s : State) : Host.Outcome State Fault Refusal :=
  runEvent (State.onPlant (fun env p => intervalExpired env slot p)) s

/-- BRAKE_SET_PHASE_EXPIRY (R120). -/
def execBrakeSetPhaseExpiry (slot : Slot) (s : State) : Host.Outcome State Fault Refusal :=
  runEvent (State.onPlant (fun env p => brakeSetExpired env slot p)) s

/-- HOLD_PHASE_EXPIRY (R121). -/
def execHoldPhaseExpiry (slot : Slot) (s : State) : Host.Outcome State Fault Refusal :=
  runEvent (State.onPlant (fun env p => holdPhaseExpired env slot p)) s

/-- LOCK_TIMER_EXPIRY (R126). -/
def execLockTimerExpiry (slot : Slot) (s : State) : Host.Outcome State Fault Refusal :=
  runEvent (State.onPlant (fun env p => lockTimeout env slot p)) s

/-- ZONE_WAIT_TIMEOUT (R135). -/
def execZoneWaitTimeout (entry : Fin 16) (side : Side) (s : State) : Host.Outcome State Fault Refusal :=
  runEvent (State.onPlant (fun env p => waitExpired env entry.val side p)) s

/-- GROUP_BROADCAST (R99). -/
def execGroupBroadcast (s : State) : Host.Outcome State Fault Refusal :=
  runEvent (State.onPlant (fun _ p => broadcastEnd p)) s

/-- LINK_CYCLE_START (R93). -/
def execLinkCycleStart (s : State) : Host.Outcome State Fault Refusal :=
  runEvent (State.onPlant cycleStart) s

/-- POLL_REPLY (R102). -/
def execPollReply (w0 w1 w2 w3 : Option LinkWord) (s : State) : Host.Outcome State Fault Refusal :=
  runEvent (Sys2Proof.Machine.pollReply w0 w1 w2 w3) s

/-- SETPOINT_ACK (R98). -/
def execSetpointAck (w : Option LinkWord) (s : State) : Host.Outcome State Fault Refusal :=
  runEvent (Sys2Proof.Machine.setpointAck w) s

/-- PARAMETER_WRITE_END (R108). -/
def execParameterWriteEnd (w : Option LinkWord) (s : State) : Host.Outcome State Fault Refusal :=
  runEvent (State.onPlant (fun env p => writeEnd env w p)) s

/-- LOCK_WRITE_END (R126): the sent flag is set whether or not the word acknowledges. -/
def execLockWriteEnd (_w : Option LinkWord) (s : State) : Host.Outcome State Fault Refusal :=
  runEvent (State.onPlant (fun _ p => lockEnd p)) s

end Sys2Proof.Machine
end

