-- ==== Sys2Proof/Machine/Dispatch.lean ====
section
/-! DEFINITION. The effect of a command: one arm per row of the table, each one direct call of its meaning. -/

namespace Sys2Proof.Machine

/-- The effect of a command on everything but the queue of waiting commands. -/
def exec (i : Instr) (s : State) : Host.Outcome State Fault Refusal :=
  match i with
  | .powerOn => Sys2Proof.Machine.execPowerOn s
  | .resetPinAssert => Sys2Proof.Machine.execResetPinAssert s
  | .resetPinRelease => Sys2Proof.Machine.execResetPinRelease s
  | .frameReceived kind tag payload crc => Sys2Proof.Machine.execFrameReceived kind tag payload crc s
  | .frameGapTimeout byte => Sys2Proof.Machine.execFrameGapTimeout byte s
  | .requestTaken => Sys2Proof.Machine.execRequestTaken s
  | .frameSent => Sys2Proof.Machine.execFrameSent s
  | .configureDevice tag f => Sys2Proof.Machine.execConfigureDevice tag f s
  | .configureBranch tag branch w => Sys2Proof.Machine.execConfigureBranch tag branch w s
  | .configureSpan tag slot f => Sys2Proof.Machine.execConfigureSpan tag slot f s
  | .configureSpanRemove tag slot => Sys2Proof.Machine.execConfigureSpanRemove tag slot s
  | .configureRail tag slot rail n minValid => Sys2Proof.Machine.execConfigureRail tag slot rail n minValid s
  | .configureAddress tag f => Sys2Proof.Machine.execConfigureAddress tag f s
  | .configureAddressRemove tag addr => Sys2Proof.Machine.execConfigureAddressRemove tag addr s
  | .configureZone tag f => Sys2Proof.Machine.execConfigureZone tag f s
  | .configureWind tag f => Sys2Proof.Machine.execConfigureWind tag f s
  | .goReady tag => Sys2Proof.Machine.execGoReady tag s
  | .getDeviceStatus tag => Sys2Proof.Machine.execGetDeviceStatus tag s
  | .getSpanStatus tag slot => Sys2Proof.Machine.execGetSpanStatus tag slot s
  | .getAddressStatus tag addr => Sys2Proof.Machine.execGetAddressStatus tag addr s
  | .getZoneStatus tag entry => Sys2Proof.Machine.execGetZoneStatus tag entry s
  | .keepalive tag => Sys2Proof.Machine.execKeepalive tag s
  | .setLink tag baud crc => Sys2Proof.Machine.execSetLink tag baud crc s
  | .setReportMask tag mask => Sys2Proof.Machine.execSetReportMask tag mask s
  | .hardReset tag => Sys2Proof.Machine.execHardReset tag s
  | .softReset tag => Sys2Proof.Machine.execSoftReset tag s
  | .appendSegment tag f => Sys2Proof.Machine.execAppendSegment tag f s
  | .flushPlan tag slot => Sys2Proof.Machine.execFlushPlan tag slot s
  | .start tag slot => Sys2Proof.Machine.execStart tag slot s
  | .pause tag slot => Sys2Proof.Machine.execPause tag slot s
  | .stop tag slot => Sys2Proof.Machine.execStop tag slot s
  | .setOverride tag slot value => Sys2Proof.Machine.execSetOverride tag slot value s
  | .setLowWater tag slot value => Sys2Proof.Machine.execSetLowWater tag slot value s
  | .clearFault tag slot => Sys2Proof.Machine.execClearFault tag slot s
  | .proof tag slot => Sys2Proof.Machine.execProof tag slot s
  | .lock tag slot => Sys2Proof.Machine.execLock tag slot s
  | .unlock tag slot => Sys2Proof.Machine.execUnlock tag slot s
  | .writeParameter tag addr index value => Sys2Proof.Machine.execWriteParameter tag addr index value s
  | .stopAll tag => Sys2Proof.Machine.execStopAll tag s
  | .clearFailsafe tag => Sys2Proof.Machine.execClearFailsafe tag s
  | .spanPeriod slot => Sys2Proof.Machine.execSpanPeriod slot s
  | .stopTaken slot req => Sys2Proof.Machine.execStopTaken slot req s
  | .groupBroadcast => Sys2Proof.Machine.execGroupBroadcast s
  | .holdTimerExpiry slot => Sys2Proof.Machine.execHoldTimerExpiry slot s
  | .releaseTimerExpiry slot => Sys2Proof.Machine.execReleaseTimerExpiry slot s
  | .dwellTimerExpiry slot => Sys2Proof.Machine.execDwellTimerExpiry slot s
  | .safeStopTimerExpiry slot => Sys2Proof.Machine.execSafeStopTimerExpiry slot s
  | .proofIntervalExpiry slot => Sys2Proof.Machine.execProofIntervalExpiry slot s
  | .brakeSetPhaseExpiry slot => Sys2Proof.Machine.execBrakeSetPhaseExpiry slot s
  | .holdPhaseExpiry slot => Sys2Proof.Machine.execHoldPhaseExpiry slot s
  | .lockTimerExpiry slot => Sys2Proof.Machine.execLockTimerExpiry slot s
  | .linkCycleStart => Sys2Proof.Machine.execLinkCycleStart s
  | .pollReply w0 w1 w2 w3 => Sys2Proof.Machine.execPollReply w0 w1 w2 w3 s
  | .setpointAck w => Sys2Proof.Machine.execSetpointAck w s
  | .parameterWriteEnd w => Sys2Proof.Machine.execParameterWriteEnd w s
  | .lockWriteEnd w => Sys2Proof.Machine.execLockWriteEnd w s
  | .acquisitionTimerExpiry => Sys2Proof.Machine.execAcquisitionTimerExpiry s
  | .keepaliveWindowExpiry => Sys2Proof.Machine.execKeepaliveWindowExpiry s
  | .stableReadyExpiry => Sys2Proof.Machine.execStableReadyExpiry s
  | .windSample => Sys2Proof.Machine.execWindSample s
  | .tripDwellExpiry => Sys2Proof.Machine.execTripDwellExpiry s
  | .zoneWaitTimeout entry side => Sys2Proof.Machine.execZoneWaitTimeout entry side s
  | .stationPinChange input level => Sys2Proof.Machine.execStationPinChange input level s
  | .stationPressTimerExpiry input => Sys2Proof.Machine.execStationPressTimerExpiry input s
  | .estopAsserted => Sys2Proof.Machine.execEstopAsserted s
  | .jogRelease dir => Sys2Proof.Machine.execJogRelease dir s
  | .holdStuck => Sys2Proof.Machine.execHoldStuck s
  | .anemometerPulse which => Sys2Proof.Machine.execAnemometerPulse which s
  | .frameByteReceived byte => Sys2Proof.Machine.execFrameByteReceived byte s

end Sys2Proof.Machine
end

