-- ==== Sys2Proof/Machine/Idle.lean ====
section
/-! DEFINITION. What the device does of itself when no command waits: the stops still to be taken, a link cycle held back,
and one millisecond of every timer with the expiries it brings (log entry 6). -/

namespace Sys2Proof.Machine

/-! ### One millisecond -/

/-- A one-shot timer one millisecond on. -/
def tickTimer (t : Option Nat) : Option Nat := t.map (fun v => v - 1)

/-- The proof interval timer one millisecond on, while it runs. -/
def ProofState.tick (ps : ProofState) : ProofState :=
  if ps.run == .running then { ps with intervalMs := ps.intervalMs - 1 } else ps

/-- The timers of a span one millisecond on. -/
def Span.tick (sp : Span) : Span :=
  { sp with holdT := tickTimer sp.holdT, releaseT := tickTimer sp.releaseT, dwellT := tickTimer sp.dwellT,
            safeT := tickTimer sp.safeT, proof := sp.proof.tick, periodT := sp.periodT - 1,
            test := sp.test.map (fun t => { t with timer := t.timer - 1 }),
            lock := sp.lock.map (fun l => { l with timer := l.timer - 1 }) }

/-- The wait timer of a side one millisecond on. -/
def ZoneSide.tick (w : ZoneSide) : ZoneSide := { w with timer := tickTimer w.timer }

/-- The timers of the plant one millisecond on. -/
def Plant.tick (p : Plant) : Plant :=
  { p with spans := p.spans.map Span.tick,
           zones := p.zones.map (fun z => { z with sideA := z.sideA.tick, sideB := z.sideB.tick }),
           link := { p.link with cycleT := p.link.cycleT - 1 } }

/-- The supervision timers one millisecond on; the keep-alive window counts up from its start. -/
def Supervision.tick (u : Supervision) : Supervision :=
  { u with acqT := tickTimer u.acqT, window := u.window.map (fun t => t + 1), stableT := tickTimer u.stableT }

/-- The timers of the Wind Gate one millisecond on. -/
def WindGate.tick (n : WindGate) : WindGate := { n with sampleT := n.sampleT - 1, dwellT := tickTimer n.dwellT }

/-- The press timer of an input one millisecond on. -/
def InputLevel.tick (l : InputLevel) : InputLevel := { l with press := tickTimer l.press }

/-- The timers of the station one millisecond on. -/
def Station.tick (st : Station) : Station :=
  { estop := st.estop.tick, hold := st.hold.tick, key := st.key.tick, jogFwd := st.jogFwd.tick, jogRev := st.jogRev.tick,
    sel0 := st.sel0.tick, sel1 := st.sel1.tick, holdT := tickTimer st.holdT }

/-- Every timer and device time one millisecond on. -/
def State.tick (s : State) : State :=
  { s with time := s.time + 1, sup := s.sup.tick, wind := s.wind.tick, station := s.station.tick, plant := s.plant.tick }

/-! ### Expiries -/

/-- A command when a timer has run out. -/
def dueAt (t : Option Nat) (c : Instr) : List Instr := if t = some 0 then [c] else []

/-- A command when a condition holds. -/
def dueIf (b : Bool) (c : Instr) : List Instr := if b then [c] else []

/-- The expiry of a test's phase timer. -/
def testDue (i : Slot) (t : Option TestRecord) : List Instr :=
  match t with
  | none => []
  | some r => dueIf (r.timer == 0) (match r.phase with | .brakeSet => .brakeSetPhaseExpiry i | .hold => .holdPhaseExpiry i)

/-- The one-shot expiries of a span. -/
def spanDue (i : Slot) (sp : Span) : List Instr :=
  dueAt sp.holdT (.holdTimerExpiry i) ++ dueAt sp.releaseT (.releaseTimerExpiry i) ++ dueAt sp.dwellT (.dwellTimerExpiry i) ++
  dueAt sp.safeT (.safeStopTimerExpiry i) ++ testDue i sp.test ++
  (match sp.lock with | some l => dueIf (l.timer == 0) (.lockTimerExpiry i) | none => [])

/-- The expiries of the supervision timers. -/
def supervisionDue (dev : DeviceSettings) (u : Supervision) : List Instr :=
  dueAt u.acqT .acquisitionTimerExpiry ++ dueIf (u.window.any (fun t => decide (dev.wc ≤ t))) .keepaliveWindowExpiry ++
  dueAt u.stableT .stableReadyExpiry

/-- The station inputs in the order of their table. -/
def allInputs : List StationInput := [.estop, .hold, .key, .jogFwd, .jogRev, .sel0, .sel1]

/-- The expiries of the station's timers. -/
def stationDue (st : Station) : List Instr :=
  allInputs.flatMap (fun i => dueAt (st.get i).press (.stationPressTimerExpiry i)) ++ dueAt st.holdT .holdStuck

/-- The expiries of an entry's wait timers. -/
def zoneDue (z : ZoneEntry) : List Instr :=
  dueAt z.sideA.timer (.zoneWaitTimeout (Fin.ofNat 16 z.entry) .a) ++
  dueAt z.sideB.timer (.zoneWaitTimeout (Fin.ofNat 16 z.entry) .b)

/-- The expiries of the timers that restart themselves: proof intervals, the wind sample, the link cycle and the span
periods. -/
def periodicDue (s : State) : List Instr :=
  four.flatMap (fun i => dueIf ((s.plant.span i).proof.run == .running && (s.plant.span i).proof.intervalMs == 0) (.proofIntervalExpiry i)) ++
  dueIf (s.wind.sampleT == 0) .windSample ++ dueIf (s.plant.link.cycleT == 0) .linkCycleStart ++
  four.flatMap (fun i => dueIf ((s.plant.span i).periodT == 0) (.spanPeriod i))

/-- The expiries of a millisecond, in the order the model takes them: one-shot timers before those that restart. The
manual lets expiries that come together be taken in either order. -/
def expiriesDue (s : State) : List Instr :=
  four.flatMap (fun i => spanDue i (s.plant.span i)) ++ supervisionDue s.cfg.dev s.sup ++ stationDue s.station ++
  s.plant.zones.flatMap zoneDue ++ dueAt s.wind.dwellT .tripDwellExpiry ++ periodicDue s

/-- The stops raised by the spans' checks that are still to be taken. -/
def raisedStops (p : Plant) : List Instr := four.flatMap (fun i => (p.span i).raised.map (fun r => .stopTaken i r))

/-- The idle device: held in reset it stands still; stops still to be taken come first, then a link cycle held back, and
otherwise a millisecond passes. -/
def idle (s : State) : State :=
  if s.resetPin then s
  else match raisedStops s.plant with
    | c :: rest => { s with pending := c :: rest }
    | [] =>
      if s.plant.link.held && s.plant.link.cycle.isEmpty then { s with pending := [.linkCycleStart] }
      else
        let s := s.tick
        { s with pending := expiriesDue s }

/-- The state with the command a table word spells in front of its queue; no word spells one. -/
def putFront (s : State) (c : Option Instr) : State :=
  match c with
  | none => s
  | some i => { s with pending := i :: s.pending }

end Sys2Proof.Machine
end

