-- ==== Sys2Proof/Machine/Step.lean ====
section
/-! DEFINITION. One step of the device: the command at the front of the queue, or what the device does of itself when
no command waits. -/

namespace Sys2Proof.Machine

/-- One step: the command at the front of the queue run on the state with the queue's rest. -/
def step (s : State) : Host.Outcome State Fault Refusal :=
  match s.pending with
  | [] => .next (idle s)
  | c :: rest => exec c { s with pending := rest }

/-- The state with the command a table word spells put at the front of its queue. -/
def State.withFetchWord (s : State) (nbits w : Nat) : State := putFront s (decodeTableWord nbits w)

end Sys2Proof.Machine
end

