-- ==== Sys2Proof/Safety.lean ====
section
/-! DEFINITION. What counts as a safe device, in the terms the manual uses: the statements of the manual that hold of the
device whatever commands it takes. After them, the terms claims are stated in: when a request is taken at its
arrival, what an answered request leaves in the Command Link Unit, and what an event leaves alone. -/

namespace Sys2Proof.Safety
open Machine

/-! ### What holds of the device -/

/-- STOP-REQ has the level R168 gives it. -/
def stopReqHolds (s : State) : Prop := s.sup.stopReq = s.stopReqLevel

/-- No span is STARTING or MOVING under a shut gate (R148). -/
def windHolds (s : State) : Prop :=
  s.wind.gate.shut = true → ∀ i : Slot, (s.plant.span i).state ≠ .starting ∧ (s.plant.span i).state ≠ .moving

/-- The owed proof counts lie between -8 and +8 (R116, R123). -/
def owedHolds (s : State) : Prop :=
  ∀ i : Slot, Config.owedMin ≤ (s.plant.span i).proof.owed ∧ (s.plant.span i).proof.owed ≤ Config.owedMax

/-- v is zero in every state other than MOVING and STOPPING (R16), and under a SAFE stop (R20). -/
def speedHolds (s : State) : Prop :=
  ∀ i : Slot, (s.plant.span i).state ≠ .moving → ((s.plant.span i).state ≠ .stopping ∨ (s.plant.span i).inSafeStop = true) →
    (s.plant.span i).v = 0

/-- The queues hold no more than the manual gives them: requests (R175), reports (R179), plans (R36). -/
def queuesHold (s : State) : Prop :=
  s.cmd.requests.length ≤ Config.requestsMax ∧ s.plant.out.queue.length ≤ Config.reportsMax ∧
  ∀ i : Slot, (s.plant.span i).plan.length ≤ Config.planMax

/-- A span that is UNCONFIGURED holds the values of R35, R55, R92 and R97 and nothing else but its proof state and the
period timer. -/
def blankSpan (sp : Span) : Prop := sp = { Span.powerOn with proof := sp.proof, periodT := sp.periodT }

/-- Every span is UNCONFIGURED in INIT and ACQUIRING, and in every mode while its slot is not in use (R17); and an
UNCONFIGURED span holds its reset values (R35). -/
def unconfiguredHolds (s : State) : Prop :=
  ∀ i : Slot,
    (s.sup.mode = .init ∨ s.sup.mode = .acquiring ∨ s.cfg.spans.get i = none → (s.plant.span i).state = .unconfigured) ∧
    ((s.plant.span i).state = .unconfigured → blankSpan (s.plant.span i))

/-- The numeric conditions of GO READY that bound the reference (R10, G9 and G12). -/
def boundsReference (sc : SpanConfig) : Prop := sc.xmin < sc.xmax ∧ sc.jog ≤ sc.vmax

/-- The reference of a span, with everything it may come to follow, lies within the span's limits (R56): x in the
envelope, v at most Vmax, the override at most 100, every queued segment's target in the envelope and its cruise at
most Vmax, and the same of a jog context. -/
def referenceWithin (sc : SpanConfig) (sp : Span) : Prop :=
  sc.xmin ≤ sp.x ∧ sp.x ≤ sc.xmax ∧ sp.v ≤ sc.vmax ∧ sp.override ≤ 100 ∧
  (∀ g ∈ sp.plan, sc.xmin ≤ g.target ∧ g.target ≤ sc.xmax ∧ g.cruise ≤ sc.vmax) ∧
  (∀ j, sp.jog = some j → sc.xmin ≤ j.target ∧ j.target ≤ sc.xmax ∧ j.cruise ≤ sc.vmax)

/-- The settings of every slot in use bound the reference from the acceptance of GO READY on, and the reference of every
span that has left UNCONFIGURED lies within its limits (R12, R56). -/
def referenceHolds (s : State) : Prop :=
  ∀ (i : Slot) (sc : SpanConfig), s.cfg.spans.get i = some sc →
    (s.sup.mode = .acquiring ∨ (s.plant.span i).state ≠ .unconfigured → boundsReference sc) ∧
    ((s.plant.span i).state ≠ .unconfigured → referenceWithin sc (s.plant.span i))

/-! ### Requests taken at their arrival -/

/-- A request sent now is taken at its arrival: the device is not held in reset, the reply buffer is empty, and no
request waits (R175). -/
def free (s : State) : Prop := s.resetPin = false ∧ s.cmd.reply = none ∧ s.cmd.requests = []

/-- The frame the transmitter is sending once a reply stands in the buffer: the one it was sending, else the BUSY reply
that waits, else the reply (R178). -/
def sending (c : CommandLink) (kind tag : Byte) (r : Result) : Option TxFrame :=
  match c.tx, c.busy with
  | some f, _ => some f
  | none, some b =>
    some { source := .busy, kind := b.kind, tag := b.tag, payload := [2, 7], crcAlt := c.settings.crcAlt }
  | none, none => some { source := .reply, kind := kind, tag := tag, payload := r.bytes, crcAlt := c.settings.crcAlt }

/-- A state as an answered request leaves it: the reply with its KIND and TAG in the buffer, the transmitter busy, and
STOP-REQ at its level (R168). Everything else is as the state gives it. -/
def answered (u : State) (kind tag : Byte) (r : Result) (o : OnSent) : State :=
  { u with cmd := { u.cmd with reply := some { kind := kind, tag := tag, result := r, onSent := o },
                               tx := sending u.cmd kind tag r },
           sup := { u.sup with stopReq := u.stopReqLevel } }

/-- An accepted request answered OK with no items. -/
def accepted (u : State) (kind tag : Byte) : State := answered u kind tag (.ok []) .nothing

/-- A refused request: the reply, and no other effect. -/
def refusedWith (s : State) (kind tag : Byte) (why : Reason) : State := answered s kind tag (.refused why) .nothing

/-! ### What an event leaves alone -/

/-- The plant after an event of one span: the other spans, the clearance entries and the bogie link are as they were. -/
def onlySpan (i : Slot) (p q : Plant) : Prop :=
  q.zones = p.zones ∧ q.link = p.link ∧ ∀ j : Slot, j ≠ i → q.span j = p.span j

/-- The plant after one span's entry into an energised state with a report: as `onlySpan`, but that the host writes queued
for the span's addresses are withdrawn, each with its report behind the first (R109). -/
def energises (time : Time) (i : Slot) (r : Report) (p q : Plant) : Prop :=
  q.zones = p.zones ∧
  q.link = { p.link with params := p.link.params.filter (fun e => !p.link.isWriteOf i e) } ∧
  q.out = (r :: (p.link.params.filter (p.link.isWriteOf i)).flatMap (withdrawnReport time)).foldl ReportQueue.push p.out ∧
  ∀ j : Slot, j ≠ i → q.span j = p.span j

/-- What a change of a span's state leaves alone: the reference but for v, the plan and its flags, the override, the
measurements and skew, the fault record, the sent set, the stops still to be taken, the period timer, and the proof
state but for whether its timer runs. -/
def sameJourney (a b : Span) : Prop :=
  b = { a with state := b.state, v := b.v, stop := b.stop, holdT := b.holdT, releaseT := b.releaseT, dwellT := b.dwellT,
               safeT := b.safeT, jog := b.jog, windHold := b.windHold, zoneWait := b.zoneWait, running := b.running,
               test := b.test, lock := b.lock, posted := b.posted,
               proof := { a.proof with run := b.proof.run } }

/-- A span at rest in a state: no stop, no timer, no jog, no run, no test and no lock operation. -/
def restsIn (new : SpanState) (sp : Span) : Prop :=
  sp.state = new ∧ sp.v = 0 ∧ sp.stop = none ∧ sp.holdT = none ∧ sp.releaseT = none ∧ sp.dwellT = none ∧ sp.safeT = none ∧
  sp.jog = none ∧ sp.zoneWait = false ∧ sp.running = false ∧ sp.test = none ∧ sp.lock = none

/-- The fault record of a span after a cause is registered: the first cause with the position and time where the record is
empty, and otherwise a later cause, once (R26). -/
def faultWith (time : Time) (c : FaultCause) (sp : Span) : FaultRecord :=
  match sp.fault with
  | none => { first := c, pos := sp.lastM.getD sp.x, time := time, later := [] }
  | some f => if f.first = c ∨ c ∈ f.later then f else { f with later := f.later ++ [c] }

/-- The fault record of a span after a stop is taken that registers its cause: only one ending FAULTED does (R18). -/
def faultAfter (time : Time) (req : StopRequest) (sp : Span) : Option FaultRecord :=
  match req.endState, req.cause with
  | .faulted, some c => some (faultWith time c sp)
  | _, _ => sp.fault

/-- The state a stop with an end state leads to where HOLDING is taken as RESTING (R20, R24, R25). -/
def restState (e : EndState) : SpanState :=
  match e with
  | .faulted => .faulted
  | .resting => .resting
  | .holding => .resting

/-- What a QUICK stop to RESTING makes of a span in FAILSAFE, where no test starts (R19, R21 to R25). -/
def quickStopped (a b : Span) : Prop :=
  match a.state with
  | .starting | .holding | .proving => b.state = .resting
  | .moving => if a.v = 0 then b.state = .resting else b.state = .stopping ∧ b.v = a.v ∧
      b.stop = some { kind := .quick, endState := .resting }
  | .stopping => b.state = .stopping ∧
      b.stop = a.stop.map (fun r => { kind := kindMax r.kind .quick, endState := endMax r.endState .resting })
  | st => b.state = st

/-- What a SAFE stop to RESTING makes of a span in FAILSAFE (R20, R23 to R25). -/
def safeStopped (a b : Span) : Prop :=
  match a.state with
  | .starting | .holding | .proving => b.state = .resting
  | .moving => b.state = .stopping ∧ b.v = 0 ∧ b.safeT = some 5000 ∧ b.stop = some { kind := .safe, endState := .resting }
  | .stopping => b.state = .stopping ∧
      b.stop = a.stop.map (fun r => { kind := .safe, endState := endMax r.endState .resting })
  | st => b.state = st

/-- No test is owed to a span that would start at its entry into HOLDING or RESTING: proof-due is clear and auto-proof is
off (R118). -/
def noTestOwed (s : State) (i : Slot) : Prop :=
  (s.plant.span i).proof.due = false ∧ (s.env.span i).autoProof = false

/-! ### What a span period forms (chapter 5) -/

/-- The measured position of a rail from its valid bogies: the floor of the mean of p_b + o_b (R78). -/
def railMean (valid : List AddrRec) : Option Int :=
  if valid = [] then none else some ((valid.map (fun a => a.lastPos + a.offset)).sum / (valid.length : Int))

/-- The measurement of a period from the records of a plant (R77 to R79): valid counts, rail positions, and m while every rail
has a position; the last m formed is kept otherwise. -/
def measured (env : Env) (i : Slot) (p : Plant) (a b : Span) : Prop :=
  (∀ r : Rail, r.val < (env.span i).rails →
    b.meas.nValid.get r = (p.validRail env i r).length ∧ b.meas.mr.get r = railMean (p.validRail env i r)) ∧
  ((∃ r : Rail, r.val < (env.span i).rails ∧ b.meas.mr.get r = none) → b.meas.m = none ∧ b.lastM = a.lastM) ∧
  ((∀ r : Rail, r.val < (env.span i).rails → b.meas.mr.get r ≠ none) →
    b.meas.m = some (((railsOf (env.span i)).map (fun r => (b.meas.mr.get r).getD 0)).sum / ((railsOf (env.span i)).length : Int)) ∧
    b.lastM = b.meas.m)

/-- The rail errors and rail trims of a period (R78, R82, R91): outside mode RUN the trims of the last period in RUN stand. -/
def trimmed (sc : SpanConfig) (a b : Span) : Prop :=
  ∀ r : Rail, b.meas.er.get r = (b.meas.mr.get r).map (fun m => b.x - m) ∧
    b.meas.tr.get r =
      if b.inRun = true then
        match b.meas.er.get r with
        | none => 0
        | some e => max (-(sc.tmax : Int)) (min sc.tmax ((sc.kp * e).tdiv 1000))
      else a.meas.tr.get r

/-- The load trim of a bogie at a period in mode RUN, 0 for an invalid one (R83). -/
def loadTrimOf (env : Env) (i : Slot) (p : Plant) (a : AddrRec) : Int :=
  if a.isValid env.cfg.dev.stale = true then
    max (-((env.span i).lmax : Int)) (min (env.span i).lmax ((env.span i).kl *
      (((p.validRail env i a.rail).map AddrRec.torque).sum.tdiv ((p.validRail env i a.rail).length : Int) - a.torque)))
  else 0

/-- The record a period of a span leaves an address (R77, R83, R84, R91): for a bogie of the span its validity, and its load
trim and command, both 0 outside mode RUN; every other record as it was. -/
def driven (env : Env) (i : Slot) (p : Plant) (b : Span) (a : AddrRec) : AddrRec :=
  if a.role = .bogie ∧ a.slot = i then
    if b.inRun = true then
      { a with valid := a.isValid env.cfg.dev.stale, loadTrim := loadTrimOf env i p a,
               command := max (-((env.span i).vb : Int)) (min (env.span i).vb
                 (dirInt b.dir * b.v + b.meas.tr.get a.rail + loadTrimOf env i p a)) }
    else { a with valid := a.isValid env.cfg.dev.stale, loadTrim := 0, command := 0 }
  else a

/-- The skew of a period with its rails and the armed flag (R86, R87): formed while every rail has a position, the
lowest-numbered of equal rails named, and kept otherwise. -/
def skewed (sc : SpanConfig) (a b : Span) : Prop :=
  ((∃ r : Rail, r.val < sc.rails ∧ b.meas.mr.get r = none) →
    b.skew = a.skew ∧ b.leading = a.leading ∧ b.lagging = a.lagging ∧ b.skewArmed = a.skewArmed) ∧
  ((∀ r : Rail, r.val < sc.rails → b.meas.mr.get r ≠ none) →
    b.skewArmed = (if a.skewArmed = true then decide (b.skew ≤ sc.sWarn) else decide (b.skew < sc.sWarn / 2)) ∧
    ∃ hi lo : Rail, hi.val < sc.rails ∧ lo.val < sc.rails ∧ b.leading = some hi ∧ b.lagging = some lo ∧
      (b.skew : Int) = (b.meas.mr.get hi).getD 0 - (b.meas.mr.get lo).getD 0 ∧
      ∀ r : Rail, r.val < sc.rails →
        (b.meas.mr.get lo).getD 0 ≤ (b.meas.mr.get r).getD 0 ∧ (b.meas.mr.get r).getD 0 ≤ (b.meas.mr.get hi).getD 0 ∧
        ((b.meas.mr.get r).getD 0 = (b.meas.mr.get hi).getD 0 → hi ≤ r) ∧
        ((b.meas.mr.get r).getD 0 = (b.meas.mr.get lo).getD 0 → lo ≤ r))

/-- The stops a period raises, in the order of R90 with the Clearance Table's last: bogie loss (R80), envelope (R27),
following in mode RUN (R89), skew trip or stop while energised (R88), and intrusion (R138). -/
def periodStops (env : Env) (i : Slot) (b : Span) (zones : List ZoneEntry) : List StopRequest :=
  let sc := env.span i
  (if ∃ r : Rail, r.val < sc.rails ∧ b.meas.nValid.get r < env.minValid i r then [faultStop .quick .bogieLoss] else []) ++
  (if b.meas.m.any (fun m => decide (m < sc.xmin - 50000) || decide (sc.xmax + 50000 < m)) = true
    then [faultStop .quick .envelope] else []) ++
  (if b.inRun = true ∧ ∃ r : Rail, (b.meas.er.get r).any (fun e => decide (sc.fLim < e.natAbs)) = true
    then [faultStop .quick .following] else []) ++
  (if b.state.energised = true ∧ ∀ r : Rail, r.val < sc.rails → b.meas.mr.get r ≠ none then
    (if sc.sTrip < b.skew then [faultStop .safe .skewTrip]
     else if sc.sStop < b.skew then [faultStop .controlled .skewStop] else [])
   else []) ++
  (if b.faultHas .zoneConflict = false ∧
      zones.any (fun z => (z.sideOf i).any (fun d => (z.part d).inside && z.claim != sideClaim d)) = true
    then [faultStop .quick .zoneIntrusion] else [])

/-! ### Claims at a period (chapter 8) -/

/-- Whether x or a rail measured position lies in a side's interval (R132). -/
def insideNow (z : ZoneEntry) (d : Side) (b : Span) : Bool :=
  decide (z.lo d ≤ b.x ∧ b.x ≤ z.hi d) ||
    four.any (fun r => (b.meas.mr.get r).any (fun m => decide (z.lo d ≤ m ∧ m ≤ z.hi d)))

/-- Whether the path from x to its end meets a side's interval (8.2). -/
def pathMeets (z : ZoneEntry) (d : Side) (b : Span) : Bool :=
  b.pathEnd.any (fun e => decide (min b.x e ≤ z.hi d ∧ z.lo d ≤ max b.x e))

/-- Whether a span that does not hold a claim requests it (R133). -/
def requests (z : ZoneEntry) (d : Side) (b : Span) : Bool :=
  !b.faultHas .zoneConflict && ((b.state == .moving && pathMeets z d b) || decide (z.lo d ≤ b.x ∧ b.x ≤ z.hi d))

/-- No wait: the flag clear and the timer stopped. -/
def noWait (w : ZoneSide) : Prop := w.wait = false ∧ w.timer = none

/-- An entry after the turn of one of its spans (R132 to R136): the inside flag judged afresh; a claim held is kept while the
span is inside or its path meets the interval, and otherwise released, to the other span when that one waits; a claim
not held is granted on request when it is FREE with the other span not inside, and otherwise the request waits; without
a request there is no wait. -/
def claimJudged (time : Time) (d : Side) (b : Span) (z w : ZoneEntry) : Prop :=
  w = { z with claim := w.claim, sideA := w.sideA, sideB := w.sideB } ∧
  (w.part d).inside = insideNow z d b ∧ (w.part (sideOther d)).inside = (z.part (sideOther d)).inside ∧
  (z.claim = sideClaim d →
    (insideNow z d b = true ∨ pathMeets z d b = true →
      w.claim = z.claim ∧ w.part d = { z.part d with inside := insideNow z d b } ∧ w.part (sideOther d) = z.part (sideOther d)) ∧
    (insideNow z d b = false → pathMeets z d b = false → noWait (w.part d) ∧
      ((z.part (sideOther d)).wait = true → w.claim = sideClaim (sideOther d) ∧ noWait (w.part (sideOther d))) ∧
      ((z.part (sideOther d)).wait = false → w.claim = .free ∧ w.part (sideOther d) = z.part (sideOther d)))) ∧
  (z.claim ≠ sideClaim d → w.part (sideOther d) = z.part (sideOther d) ∧
    (requests z d b = false → w.claim = z.claim ∧ noWait (w.part d)) ∧
    (requests z d b = true → z.claim = .free → (z.part (sideOther d)).inside = false →
      w.claim = sideClaim d ∧ noWait (w.part d)) ∧
    (requests z d b = true → z.claim ≠ .free ∨ (z.part (sideOther d)).inside = true →
      w.claim = z.claim ∧
      ((z.part d).wait = true → w.part d = { z.part d with inside := insideNow z d b }) ∧
      ((z.part d).wait = false →
        w.part d = { inside := insideNow z d b, wait := true, since := time, timer := some (z.tzw * 1000) })))

/-- The ZONE reports of the turn (R133, R136): RELEASED, with the GRANTED of the span that waits behind it, or GRANTED. -/
def claimReports (time : Time) (d : Side) (b : Span) (z : ZoneEntry) : List Report :=
  if z.claim = sideClaim d then
    if insideNow z d b = false ∧ pathMeets z d b = false then
      .zone z.entry (z.slot d) .released time ::
        (if (z.part (sideOther d)).wait = true then [.zone z.entry (z.slot (sideOther d)) .granted time] else [])
    else []
  else if requests z d b = true ∧ z.claim = .free ∧ (z.part (sideOther d)).inside = false then
    [.zone z.entry (z.slot d) .granted time]
  else []

/-! ### Retirements (chapter 3) -/

/-- The SEGMENT_DONE reports of some segments retired from a count, each with the count after its removal (R43). -/
def doneReports (time : Time) (i : Slot) (count : Nat) (segs : List Segment) : List Report :=
  segs.zipIdx.flatMap (fun g => if g.1.report = true then [.segmentDone i g.1.tag g.1.target time (count - (g.2 + 1))] else [])

/-! ### The Wind Gate -/

/-- The WIND report of a status judged at a sample (R145): SUSPECT, RECOVERED, or none. -/
def statusReports (time : Time) (which : AnemometerId) (a b : Anemometer) : List Report :=
  if a.status = .valid ∧ b.status = .suspect then [.wind (.suspect which (b.latest.getD 0)) time]
  else if a.status = .suspect ∧ b.status = .valid then [.wind (.recovered which (b.latest.getD 0)) time]
  else []

/-! ### What GO READY checks -/

/-- The conditions G1 to G13 of the geometry check (1.7, R10 to R12). -/
def geometryMet (env : Env) (p : Plant) (n : Nat) : Prop :=
  match n with
  | 1 => ∃ i : Slot, (env.cfg.spans.get i).isSome = true
  | 2 => ∀ a ∈ p.link.addrs, (env.cfg.spans.get a.slot).isSome = true
  | 3 => ∀ a ∈ p.link.addrs, (env.cfg.branches.get a.branch).isSome = true
  | 4 => ∀ a ∈ p.link.addrs, a.role = .bogie → a.rail.val < (env.span a.slot).rails
  | 5 => ∀ (i : Slot) (r : Rail), (env.cfg.spans.get i).isSome = true → r.val < (env.span i).rails →
      ((env.cfg.rails.get i).get r).isSome = true
  | 6 => ∀ (i : Slot) (r : Rail), (env.cfg.spans.get i).isSome = true → r.val < (env.span i).rails →
      (p.railBogies i r).length = env.declared i r
  | 7 => ∀ (i : Slot) (r : Rail), (env.cfg.spans.get i).isSome = true → r.val < (env.span i).rails →
      (p.railBogies i r).map AddrRec.addr =
        List.range' (((p.railBogies i r).head?.map AddrRec.addr).getD 0) (p.railBogies i r).length ∧
      ∀ a ∈ p.railBogies i r, ∀ b ∈ p.railBogies i r, a.branch = b.branch
  | 8 => ∀ i : Slot, (env.cfg.spans.get i).isSome = true →
      (p.link.addrs.filter (fun a => a.role == .lockUnit && a.slot == i)).length ≤ 1
  | 9 => ∀ i : Slot, (env.cfg.spans.get i).isSome = true → (env.span i).xmin < (env.span i).xmax
  | 10 => ∀ a ∈ p.link.addrs, a.role = .bogie →
      -2000000000 ≤ (env.span a.slot).xmin - a.offset ∧ (env.span a.slot).xmin - a.offset ≤ 2000000000 ∧
      -2000000000 ≤ (env.span a.slot).xmax - a.offset ∧ (env.span a.slot).xmax - a.offset ≤ 2000000000
  | 11 => ∀ i : Slot, (env.cfg.spans.get i).isSome = true → (p.lockUnit i).isSome = true →
      (env.span i).xmin ≤ (env.span i).lock1 ∧ (env.span i).lock1 ≤ (env.span i).xmax ∧
      (env.span i).xmin ≤ (env.span i).lock2 ∧ (env.span i).lock2 ≤ (env.span i).xmax
  | 12 => ∀ i : Slot, (env.cfg.spans.get i).isSome = true →
      (env.span i).c ≤ (env.span i).vmax ∧ (env.span i).jog ≤ (env.span i).vmax ∧ (env.span i).vmax ≤ (env.span i).vb ∧
      (env.span i).ad ≤ (env.span i).aq
  | 13 => ∀ i : Slot, (env.cfg.spans.get i).isSome = true →
      (env.span i).sWarn < (env.span i).sStop ∧ (env.span i).sStop < (env.span i).sTrip
  | _ => True

/-- The conditions Z1 to Z4 of one clearance entry (R131). -/
def zoneMet (env : Env) (z : ZoneEntry) (n : Nat) : Prop :=
  match n with
  | 1 => z.spanA ≠ z.spanB
  | 2 => (env.cfg.spans.get z.spanA).isSome = true ∧ (env.cfg.spans.get z.spanB).isSome = true
  | 3 => z.a1 ≤ z.a2 ∧ z.b1 ≤ z.b2
  | 4 => (env.span z.spanA).xmin ≤ z.a1 ∧ z.a2 ≤ (env.span z.spanA).xmax ∧
      (env.span z.spanB).xmin ≤ z.b1 ∧ z.b2 ≤ (env.span z.spanB).xmax
  | _ => True

/-- The two requirements of the group check on a slot and an address (R111). -/
def groupMet (env : Env) (p : Plant) (i : Slot) (a : AddrRec) : Prop :=
  (a.slot = i → BitVec.ofNat 8 a.addr &&& (env.span i).m = (env.span i).g &&& (env.span i).m) ∧
  (a.slot ≠ i → (∃ b ∈ p.bogies i, b.branch = a.branch) →
    BitVec.ofNat 8 a.addr &&& (env.span i).m ≠ (env.span i).g &&& (env.span i).m)

/-- S_max of the link-budget check (R112): for every slot in use its broadcast, and for every rail its burst and one gap. -/
def slotsMost (env : Env) (p : Plant) : Nat :=
  ((slotsInUse env).map (fun e => 2 + ((railsOf e.2).map (fun r =>
    (1 + env.declared e.1 r * (railWait env p e.1 r + 2)) + 1)).sum)).sum

/-- The conditions of CLEAR FAULT on a FAULTED span (R32), in the order of its table. -/
def clearMet (env : Env) (i : Slot) (p : Plant) (n : Nat) : Prop :=
  let sp := p.span i
  match n with
  | 1 => ∀ r : Rail, r.val < (env.span i).rails → 1 ≤ sp.meas.nValid.get r
  | 2 => sp.faultHas .bogieLoss = true → ∀ r : Rail, r.val < (env.span i).rails → env.minValid i r ≤ sp.meas.nValid.get r
  | 3 => sp.faultHas .zoneConflict = true → ∀ z ∈ p.zones, (z.sideOf i).isSome = true →
      z.sideA.inside = false ∨ z.sideB.inside = false
  | 4 => sp.faultHas .envelope = true →
      (env.span i).xmin ≤ sp.meas.m.getD sp.x ∧ sp.meas.m.getD sp.x ≤ (env.span i).xmax
  | 5 => sp.faultHas .skewStop = true ∨ sp.faultHas .skewTrip = true → sp.skew ≤ (env.span i).sStop
  | _ => True

end Sys2Proof.Safety
end

