-- ==== Sys2Proof/WellFormed.lean ====
section
/-! DEFINITION. Which commands the outside world can bring. Every host request is well formed except for the two
rows that split one KIND between them; an event is well formed when it is what its row says. -/

namespace Sys2Proof

/-- Whether a stop request carries a cause exactly when it ends FAULTED (2.2, the table of stop sources). -/
def StopRequest.causeFits (r : StopRequest) : Bool :=
  match r.endState, r.cause with
  | .faulted, some _ => true
  | .faulted, none => false
  | _, none => true
  | _, some _ => false

/-- Whether a command is one its row describes: a frame payload has at most 240 bytes (11.1), CONFIGURE_ADDRESS
has a role other than NONE (R9 is the other row), and a stop carries a cause exactly when it ends FAULTED. -/
def Instr.wellFormed (i : Instr) : Bool :=
  match i with
  | .frameReceived _ _ payload _ => payload.length ≤ 240
  | .configureAddress _ f => f.role != 0
  | .stopTaken _ req => req.causeFits
  | _ => true

end Sys2Proof
end

