-- ==== Sys2Proof/Certificates/Slice0/Obligations.lean ====
section
/-! DEFINITION. The statements for the provers. Each docstring names the rule of spec/ a statement formalises, or the log
entry of a choice of the model's it rests on. A statement about a request is about its taking at its arrival
(`Safety.free`); requests that wait are covered by the statements about the command link. -/

open Sys2Proof Sys2Proof.Machine Sys2Proof.Safety

/-! ### The machine -/

/-- A step runs the command at the front of the queue on the state with the queue's rest, and an empty queue is the idle
device (log entry 6). -/
def Obligations.StepRunsTheFrontCommand : Prop :=
  (∀ (c : Instr) (rest : List Instr) (s : State), s.pending = c :: rest → step s = exec c { s with pending := rest }) ∧
  (∀ s : State, s.pending = [] → step s = .next (idle s))

/-- Every command answers a next state, with the waiting commands as they were: no request and no event stops the device
(log entries 1 and 34). -/
def Obligations.EveryCommandAnswers : Prop :=
  ∀ (c : Instr) (s : State), ∃ t, exec c s = .next t ∧ t.pending = s.pending

/-- The end of every event (R168, R178): STOP-REQ takes its level, and a free transmitter starts the BUSY reply, else the
reply in the buffer, else the oldest report, which leaves its queue. -/
def Obligations.EndOfEveryEvent : Prop :=
  (∀ s f, s.cmd.tx = some f → settle s = { s with sup := { s.sup with stopReq := s.stopReqLevel } }) ∧
  (∀ s b, s.cmd.tx = none → s.cmd.busy = some b →
    settle s = { s with
      sup := { s.sup with stopReq := s.stopReqLevel },
      cmd := { s.cmd with tx := some { source := .busy, kind := b.kind, tag := b.tag, payload := [2, 7],
                                       crcAlt := s.cmd.settings.crcAlt } } }) ∧
  (∀ s r, s.cmd.tx = none → s.cmd.busy = none → s.cmd.reply = some r →
    settle s = { s with
      sup := { s.sup with stopReq := s.stopReqLevel },
      cmd := { s.cmd with tx := some { source := .reply, kind := r.kind, tag := r.tag, payload := r.result.bytes,
                                       crcAlt := s.cmd.settings.crcAlt } } }) ∧
  (∀ s r rest, s.cmd.tx = none → s.cmd.busy = none → s.cmd.reply = none → s.plant.out.queue = r :: rest →
    settle s = { s with
      sup := { s.sup with stopReq := s.stopReqLevel },
      plant := { s.plant with out := { s.plant.out with queue := rest } },
      cmd := { s.cmd with tx := some { source := .report, kind := r.code, tag := 0, payload := r.payload,
                                       crcAlt := s.cmd.settings.crcAlt } } }) ∧
  (∀ s, s.cmd.tx = none → s.cmd.busy = none → s.cmd.reply = none → s.plant.out.queue = [] →
    settle s = { s with sup := { s.sup with stopReq := s.stopReqLevel } })

/-- While the RESET pin holds the device, every command but power-on, the pin's own two events and the edges of the
station's pins leaves it as it is (R170, R182; log entry 7). -/
def Obligations.HeldInResetNothingHappens : Prop :=
  ∀ (c : Instr) (s : State), s.resetPin = true → c ≠ .powerOn → c ≠ .resetPinAssert → c ≠ .resetPinRelease →
    (∀ input level, c ≠ .stationPinChange input level) → c ≠ .estopAsserted → (∀ d, c ≠ .jogRelease d) →
    exec c s = .next s

/-- The values after a reset, block by block: the cleared store with its device settings (R2, R159), every span UNCONFIGURED with
the values of R35, R55 and R92 and an empty mailbox (R97), the proof state (R129), the supervision unit (R170), the Wind
Gate and its anemometers (R150), the station's levels (R152), no clearance entry (R142), the bogie link (R114), and the
command link (R174, R180, R182). The levels of the station's pins at power-on are the model's choice (log entry 2). -/
def Obligations.ResetValuesOfEveryBlock : Prop :=
  State.reset.cfg.branches = Quad.fill none ∧ State.reset.cfg.spans = Quad.fill none ∧
  State.reset.cfg.rails = Quad.fill (Quad.fill none) ∧ State.reset.plant.link.addrs = [] ∧
  (∀ i : Slot, (State.reset.plant.span i).state = .unconfigured ∧ (State.reset.plant.span i).x = 0 ∧
    (State.reset.plant.span i).v = 0 ∧ (State.reset.plant.span i).r = 0 ∧ (State.reset.plant.span i).dir = .pos ∧
    (State.reset.plant.span i).stop = none ∧ (State.reset.plant.span i).holdT = none ∧
    (State.reset.plant.span i).releaseT = none ∧ (State.reset.plant.span i).dwellT = none ∧
    (State.reset.plant.span i).safeT = none ∧ (State.reset.plant.span i).override = 100 ∧
    (State.reset.plant.span i).jog = none ∧ (State.reset.plant.span i).windHold = false ∧
    (State.reset.plant.span i).degraded = false ∧ (State.reset.plant.span i).zoneWait = false ∧
    (State.reset.plant.span i).skewArmed = true ∧ (State.reset.plant.span i).fault = none ∧
    (State.reset.plant.span i).plan = [] ∧ (State.reset.plant.span i).lw = 2 ∧
    (State.reset.plant.span i).starved = false ∧ (State.reset.plant.span i).overflow = false ∧
    (State.reset.plant.span i).lastDwell = none ∧ (State.reset.plant.span i).lastTag = none ∧
    (State.reset.plant.span i).proof.owed = 0 ∧ (State.reset.plant.span i).proof.unproven = true ∧
    (State.reset.plant.span i).proof.relock = true ∧ (State.reset.plant.span i).proof.due = false ∧
    (State.reset.plant.span i).proof.last = none ∧ (State.reset.plant.span i).proof.nextDir = .pos ∧
    (State.reset.plant.span i).proof.run = .stopped ∧ (State.reset.plant.span i).skew = 0 ∧
    (State.reset.plant.span i).leading = none ∧ (State.reset.plant.span i).lagging = none ∧
    (State.reset.plant.span i).lastM = none ∧ (State.reset.plant.span i).test = none ∧
    (State.reset.plant.span i).lock = none ∧ (State.reset.plant.span i).posted = none ∧
    (State.reset.plant.span i).sent = none) ∧
  State.reset.cfg.dev = { budget := 600, stale := 4, wo := 500, wc := 2000, eth := 3, tmin := 50, tmax := 10, fmax := 0 } ∧
  State.reset.cfg.wind = none ∧ State.reset.sup.g = 0 ∧
  State.reset.wind.an1 = { count := 0, status := .disabled, ring := [], zeroRun := 0, recovery := 0 } ∧
  State.reset.wind.an2 = { count := 0, status := .disabled, ring := [], zeroRun := 0, recovery := 0 } ∧
  State.reset.wind.gust = none ∧ State.reset.wind.dwellT = none ∧
  (∀ input : StationInput, State.reset.station.get input = { pin := false, val := false, press := none }) ∧
  State.reset.station.holdT = none ∧
  State.reset.plant.link.params = [] ∧ State.reset.plant.link.bcasts = [] ∧ State.reset.plant.link.cycle = [] ∧
  State.reset.plant.link.cursor = 1 ∧ State.reset.plant.out.queue = [] ∧ State.reset.cmd.rx = .hunting ∧
  State.reset.cmd.reply = none ∧ State.reset.cmd.busy = none ∧
  State.reset.sup.mode = .init ∧ State.reset.sup.e = 0 ∧ State.reset.sup.f = 0 ∧ State.reset.sup.lockout = false ∧
  State.reset.sup.record = none ∧ State.reset.sup.acqT = none ∧ State.reset.sup.window = none ∧
  State.reset.sup.stableT = none ∧ State.reset.sup.stopReq = true ∧ State.reset.wind.gate = .blind ∧
  State.reset.wind.kw = 0 ∧ State.reset.plant.zones = [] ∧ State.reset.plant.out.mask = 0x1FFF ∧
  State.reset.plant.out.dropped = false ∧ State.reset.cmd.requests = [] ∧
  State.reset.cmd.settings = { fast := false, crcAlt := false } ∧ State.reset.time = 0

/-- Power-on and the RESET pin (R2, R14, R170, R182). Power-on leaves the state after reset, with the station's pins as
they are and its levels those of the pins; the pin's assertion leaves the same device with nothing sent, held in
reset; its release lets it run and sends the first report. An ESTOP asserted at the reset enters FAILSAFE (R153). The model's
choices: the waiting commands and the pins' levels are kept (log entries 2 and 34); the validated levels are those of the pins
at the release of the RESET pin, and a power-on while the pin is asserted leaves the device held in reset (log entry 7); and the
STATION report ESTOP_ASSERTED stands before the MODE report FAILSAFE, an order no rule gives (log entry 9). -/
def Obligations.PowerOnAndResetPin : Prop :=
  (∀ s : State, s.resetPin = false → s.station.estop.pin = false →
    exec .powerOn s = .next { State.reset with station := s.station.atReset, pending := s.pending }) ∧
  (∀ s : State, exec .resetPinAssert s =
    .next { State.reset with
      station := s.station.atReset, pending := s.pending, resetPin := true, cmd := CommandLink.powerOn,
      plant := { Plant.powerOn with out := { queue := [.mode .init (.cause .resetPin) 0], mask := 0x1FFF, dropped := false } } }) ∧
  (∀ s : State, s.resetPin = true → exec .powerOn s =
    .next { State.reset with
      station := s.station.atReset, pending := s.pending, resetPin := true, cmd := CommandLink.powerOn,
      plant := { Plant.powerOn with out := { queue := [.mode .init (.cause .powerOn) 0], mask := 0x1FFF, dropped := false } } }) ∧
  (∀ s : State, s.resetPin = true → s.station.estop.pin = false →
    exec .resetPinRelease s = .next (settle { s with resetPin := false, station := s.station.atReset })) ∧
  (∀ s : State, s.resetPin = false → s.station.estop.pin = true → ∃ t, exec .powerOn s = .next t ∧
    t.sup.mode = .failsafe ∧ t.sup.f = 1 ∧
    t.sup.record = some { reason := .operatorStop, time := 0, toReady := false, later := [] } ∧
    t.plant.out.queue = [.station .estopAsserted 0, .mode .failsafe (.reason .operatorStop) 0])

/-! ### The command link -/

/-- DECODE AND ENCODE AGREE: the frame that carries a request, under every KIND's layout (R183) and with every field at
every value, reads back as that request. -/
def Obligations.RequestFramesReadBack : Prop :=
  ∀ (r : Request) (tag : Byte), parseFrame (r.frame tag) = .request r

/-- The bytes of a frame received one by one while hunting (sync byte, LEN, KIND, TAG, payload, CRC) have the frame
arrive, with the receiver hunting again (R172, R173). -/
def Obligations.ByteStreamDeliversTheFrame : Prop :=
  ∀ (s : State) (kind tag : Byte) (payload : List Byte), s.cmd.rx = .hunting → payload.length ≤ 240 →
    ([0x5A, BitVec.ofNat 8 payload.length, kind, tag] ++ payload ++
        [frameCrc s.cmd.settings.crcAlt kind tag payload]).foldl (fun u b => receiveByte b u) s =
      frameArrives { kind := kind, tag := tag, payload := payload } s

/-- The receiver's bytes (R173): while hunting, a sync byte starts a frame under the CRC selection in force and any other
byte is discarded; a byte after a gap is judged the same way whatever was in reception; a byte of a frame in reception
is kept, and a LEN above 240 discards the frame at that byte. -/
def Obligations.ReceiverBytesAndGaps : Prop :=
  (∀ (s : State) (b : Byte), s.resetPin = false → s.cmd.rx = .hunting →
    exec (.frameByteReceived b) s = .next (settle { s with cmd := { s.cmd with
      rx := if b = 0x5A then .collecting s.cmd.settings.crcAlt [] else .hunting } })) ∧
  (∀ (s : State) (b : Byte), s.resetPin = false →
    exec (.frameGapTimeout b) s = .next (settle { s with cmd := { s.cmd with
      rx := if b = 0x5A then .collecting s.cmd.settings.crcAlt [] else .hunting } })) ∧
  (∀ (s : State) (alt : Bool) (b : Byte), s.resetPin = false → s.cmd.rx = .collecting alt [] →
    exec (.frameByteReceived b) s = .next (settle { s with cmd := { s.cmd with
      rx := if 240 < b.toNat then .hunting else .collecting alt [b] } })) ∧
  (∀ (s : State) (alt : Bool) (len : Byte) (bs : List Byte) (b : Byte), s.resetPin = false →
    s.cmd.rx = .collecting alt (len :: bs) → len.toNat ≤ 240 → bs.length + 2 ≠ len.toNat + 4 →
    exec (.frameByteReceived b) s = .next (settle { s with cmd := { s.cmd with
      rx := .collecting alt (len :: bs ++ [b]) } }))

/-- A frame received whole (R173, R175, R176): one with a wrong CRC is discarded without a reply; one that finds a reply in
the buffer joins the queue while it holds fewer than four, takes the BUSY slot at a full queue, and is discarded when
that slot is occupied. The command is the whole frame in one event: its CRC is judged under the selection then in force, and a
frame in reception is gone, which is the model's choice (log entry 20). -/
def Obligations.ReceivedFramesQueueOrAreBusy : Prop :=
  ∀ (s : State) (kind tag : Byte) (payload : List Byte) (crc : Byte), s.resetPin = false → payload.length ≤ 240 →
    (crc ≠ frameCrc s.cmd.settings.crcAlt kind tag payload →
      exec (.frameReceived kind tag payload crc) s = .next (settle { s with cmd := { s.cmd with rx := .hunting } })) ∧
    (crc = frameCrc s.cmd.settings.crcAlt kind tag payload → s.cmd.reply.isSome = true →
      (s.cmd.requests.length < 4 → exec (.frameReceived kind tag payload crc) s =
        .next (settle { s with cmd := { s.cmd with
          rx := .hunting, requests := s.cmd.requests ++ [{ kind := kind, tag := tag, payload := payload }] } })) ∧
      (4 ≤ s.cmd.requests.length → s.cmd.busy = none → exec (.frameReceived kind tag payload crc) s =
        .next (settle { s with cmd := { s.cmd with
          rx := .hunting, busy := some { kind := replyKind kind, tag := tag } } })) ∧
      (4 ≤ s.cmd.requests.length → s.cmd.busy.isSome = true → exec (.frameReceived kind tag payload crc) s =
        .next (settle { s with cmd := { s.cmd with rx := .hunting } })))

/-- A host request command is the arrival of its frame: received whole with its CRC byte by a device at which nothing waits,
the frame has the effect of the request's own operation, answered under its TAG (R175; log entry 5). A frame of an
unknown KIND, or of a known KIND with the wrong length, is refused UNKNOWN_KIND or LENGTH. -/
def Obligations.ReceivedRequestIsPerformed : Prop :=
  (∀ (s : State) (r : Request) (tag : Byte), free s → s.cmd.rx = .hunting →
    exec (.frameReceived r.code tag r.payload (frameCrc s.cmd.settings.crcAlt r.code tag r.payload)) s =
      .next (answered (perform r s).state (r.code + 0x80) tag (perform r s).result (perform r s).onSent)) ∧
  (∀ (s : State) (kind tag : Byte) (payload : List Byte), free s → s.cmd.rx = .hunting → payload.length ≤ 240 →
    requestLength kind = none →
    exec (.frameReceived kind tag payload (frameCrc s.cmd.settings.crcAlt kind tag payload)) s =
      .next (refusedWith s 0xFF tag .unknownKind)) ∧
  (∀ (s : State) (kind tag : Byte) (payload : List Byte) (n : Nat), free s → s.cmd.rx = .hunting →
    payload.length ≤ 240 → requestLength kind = some n → payload.length ≠ n →
    exec (.frameReceived kind tag payload (frameCrc s.cmd.settings.crcAlt kind tag payload)) s =
      .next (refusedWith s (kind + 0x80) tag .length))

/-- The head request is taken when the reply buffer is empty, judged and answered under its own KIND and TAG; with a reply
in the buffer, or no request waiting, nothing is taken (R175). -/
def Obligations.RequestTakenFromTheQueue : Prop :=
  (∀ (s : State) (r : Request) (tag : Byte) (rest : List ReqFrame), s.resetPin = false → s.cmd.reply = none →
    s.cmd.requests = r.frame tag :: rest →
    exec .requestTaken s =
      .next (answered (perform r { s with cmd := { s.cmd with requests := rest } }).state (r.code + 0x80) tag
        (perform r { s with cmd := { s.cmd with requests := rest } }).result
        (perform r { s with cmd := { s.cmd with requests := rest } }).onSent)) ∧
  (∀ s : State, s.resetPin = false → s.cmd.reply.isSome = true ∨ s.cmd.requests = [] →
    exec .requestTaken s = .next (settle s))

/-- The last byte of a frame sent (R174, R175, R178): a report's frame frees the transmitter, the BUSY reply's its slot as
well, and a reply's the reply buffer; what an accepted SET LINK left is then done, and the next request is taken. After the reply of
an accepted HARD RESET the device is reset, and an ESTOP asserted then enters FAILSAFE (R153, R170, R182). The model's choices: the
next request is taken in the same event (log entry 5), the reset keeps the waiting commands and the pins' levels (log entry
34), and the STATION report ESTOP_ASSERTED stands before the MODE report FAILSAFE (log entry 9). -/
def Obligations.FrameSentFreesItsSource : Prop :=
  (∀ (s : State), s.resetPin = false → s.cmd.tx = none → exec .frameSent s = .next (settle s)) ∧
  (∀ (s : State) (f : TxFrame), s.resetPin = false → s.cmd.tx = some f → f.source = .report →
    exec .frameSent s = .next (settle { s with cmd := { s.cmd with tx := none } })) ∧
  (∀ (s : State) (f : TxFrame), s.resetPin = false → s.cmd.tx = some f → f.source = .busy →
    exec .frameSent s = .next (settle { s with cmd := { s.cmd with tx := none, busy := none } })) ∧
  (∀ (s : State) (f : TxFrame) (r : Reply), s.resetPin = false → s.cmd.tx = some f → f.source = .reply →
    s.cmd.reply = some r →
    (r.onSent = .nothing →
      exec .frameSent s = .next (settle (takeRequest { s with cmd := { s.cmd with tx := none, reply := none } }))) ∧
    (∀ l, r.onSent = .settings l → exec .frameSent s =
      .next (settle (takeRequest { s with cmd := { s.cmd with tx := none, reply := none, settings := l } }))) ∧
    (r.onSent = .hardReset → s.station.estop.pin = false →
      exec .frameSent s = .next { State.reset with
        station := s.station.atReset, pending := s.pending,
        cmd := { CommandLink.powerOn with
          tx := some { source := .report, kind := 0x4B, tag := 0, payload := [0, 3, 0, 0, 0, 0], crcAlt := false } } }) ∧
    (r.onSent = .hardReset → s.station.estop.pin = true → ∃ t, exec .frameSent s = .next t ∧ t.pending = s.pending ∧
      t.station = s.station.atReset ∧ t.cfg = State.reset.cfg ∧ t.sup.mode = .failsafe ∧ t.sup.f = 1 ∧
      t.sup.record = some { reason := .operatorStop, time := 0, toReady := false, later := [] } ∧
      t.cmd = { CommandLink.powerOn with
        tx := some { source := .report, kind := 0x4B, tag := 0, payload := [0, 3, 0, 0, 0, 0], crcAlt := false } } ∧
      t.plant.out.queue = [.station .estopAsserted 0, .mode .failsafe (.reason .operatorStop) 0]))

/-! ### Configuration requests -/

/-- CONFIGURE BRANCH, CONFIGURE RAIL and CONFIGURE DEVICE (R2, R3, R4, R7, R159): accepted in INIT with every field in range,
each stores its record and nothing else; out of range they are refused RANGE, and outside INIT MODE, whatever the fields
(log entry 19). -/
def Obligations.BranchRailAndDeviceConfigured : Prop :=
  (∀ (s : State) (tag branch w : Byte) (b : Branch), free s → s.sup.mode = .init → slotOf branch = some b →
    1 ≤ w.toNat → w.toNat ≤ 7 →
    exec (.configureBranch tag branch w) s =
      .next (accepted { s with cfg := { s.cfg with branches := s.cfg.branches.set b (some w.toNat) } } 0x82 tag)) ∧
  (∀ (s : State) (tag branch w : Byte), free s → s.sup.mode = .init →
    slotOf branch = none ∨ w.toNat = 0 ∨ 7 < w.toNat →
    exec (.configureBranch tag branch w) s = .next (refusedWith s 0x82 tag .range)) ∧
  (∀ (s : State) (tag slot rail n m : Byte) (i : Slot) (r : Rail) (sc : SpanConfig), free s → s.sup.mode = .init →
    slotOf slot = some i → slotOf rail = some r → s.cfg.spans.get i = some sc → r.val < sc.rails →
    1 ≤ n.toNat → n.toNat ≤ 8 → 1 ≤ m.toNat → m.toNat ≤ n.toNat →
    exec (.configureRail tag slot rail n m) s =
      .next (accepted { s with cfg := { s.cfg with
        rails := s.cfg.rails.set i ((s.cfg.rails.get i).set r (some { n := n.toNat, minValid := m.toNat })) } } 0x84 tag)) ∧
  (∀ (s : State) (tag slot rail n m : Byte) (i : Slot), free s → s.sup.mode = .init → slotOf slot = some i →
    s.cfg.spans.get i = none → exec (.configureRail tag slot rail n m) s = .next (refusedWith s 0x84 tag .range)) ∧
  (∀ (s : State) (tag slot rail n m : Byte), free s → s.sup.mode = .init →
    slotOf slot = none ∨ (∃ i sc, slotOf slot = some i ∧ s.cfg.spans.get i = some sc ∧ sc.rails ≤ rail.toNat) ∨
      n.toNat = 0 ∨ 8 < n.toNat ∨ m.toNat = 0 ∨ n.toNat < m.toNat →
    exec (.configureRail tag slot rail n m) s = .next (refusedWith s 0x84 tag .range)) ∧
  (∀ (s : State) (tag : Byte) (f : DeviceFields), free s → s.sup.mode = .init →
    300 ≤ f.budget.toNat → f.budget.toNat ≤ 600 → 2 ≤ f.stale.toNat → f.stale.toNat ≤ 20 → 50 ≤ f.wo.toNat →
    f.wo.toNat ≤ 9999 → f.wo.toNat < f.wc.toNat → f.wc.toNat ≤ 10000 → 1 ≤ f.eth.toNat → f.eth.toNat ≤ 15 →
    20 ≤ f.tmin.toNat → f.tmin.toNat ≤ 500 → 1 ≤ f.tmax.toNat → f.tmax.toNat ≤ 30 →
    exec (.configureDevice tag f) s =
      .next (accepted { s with cfg := { s.cfg with
        dev := { budget := f.budget.toNat, stale := f.stale.toNat, wo := f.wo.toNat, wc := f.wc.toNat,
                 eth := f.eth.toNat, tmin := f.tmin.toNat, tmax := f.tmax.toNat, fmax := f.fmax.toNat } } } 0x81 tag)) ∧
  (∀ (s : State) (tag : Byte) (f : DeviceFields), free s → s.sup.mode = .init →
    f.budget.toNat < 300 ∨ 600 < f.budget.toNat ∨ f.stale.toNat < 2 ∨ 20 < f.stale.toNat ∨ f.wo.toNat < 50 ∨
      9999 < f.wo.toNat ∨ f.wc.toNat ≤ f.wo.toNat ∨ 10000 < f.wc.toNat ∨ f.eth.toNat = 0 ∨ 15 < f.eth.toNat ∨
      f.tmin.toNat < 20 ∨ 500 < f.tmin.toNat ∨ f.tmax.toNat = 0 ∨ 30 < f.tmax.toNat →
    exec (.configureDevice tag f) s = .next (refusedWith s 0x81 tag .range)) ∧
  (∀ (s : State) (tag a b c d : Byte) (f : DeviceFields), free s → s.sup.mode ≠ .init →
    exec (.configureBranch tag a b) s = .next (refusedWith s 0x82 tag .mode) ∧
    exec (.configureRail tag a b c d) s = .next (refusedWith s 0x84 tag .mode) ∧
    exec (.configureDevice tag f) s = .next (refusedWith s 0x81 tag .mode))

/-- CONFIGURE SPAN (R3, R5, R6). In use: every field stored with the accelerations rounded down, the rail records below the
new rail count kept, the proof state of a slot already in use kept and that of one newly in use started, and
OK_CLAMPED where one differs; that its bytes are the slot, in use and every stored field is the model's reading (log entry 26).
Not in use: the slot removed. Out of range RANGE, and outside INIT MODE, whatever the fields (log entry 19). -/
def Obligations.SpanSlotConfiguredAndRemoved : Prop :=
  (∀ (s : State) (tag slot : Byte) (i : Slot) (f : SpanFields), free s → s.sup.mode = .init → slotOf slot = some i →
    f.inRange = true →
    exec (.configureSpan tag slot f) s = .next (answered { s with
        cfg := { s.cfg with
          spans := s.cfg.spans.set i (some f.record),
          rails := s.cfg.rails.set i (Quad.ofFn (fun r => if r.val < f.rails.toNat then (s.cfg.rails.get i).get r else none)) },
        plant := s.plant.setSpan i { s.plant.span i with
          proof := match s.cfg.spans.get i with
            | some _ => (s.plant.span i).proof
            | none => { intervalMs := f.tProof.toNat * 3600000, run := .running, owed := 0, unproven := true,
                        relock := true, due := false, last := none, nextDir := .pos } } }
      0x83 tag (if f.stored = f then .ok [] else .okClamped (SpanFields.write slot 1 f.stored)) .nothing)) ∧
  (∀ f : SpanFields, f.record.ad = f.ad.toNat / 100 * 100 ∧ f.record.aq = f.aq.toNat / 100 * 100 ∧
    f.record.vmax = f.vmax.toNat ∧ f.record.xmin = f.xmin.toInt ∧ f.record.xmax = f.xmax.toInt) ∧
  (∀ (s : State) (tag slot : Byte) (f : SpanFields), free s → s.sup.mode = .init → slotOf slot = none ∨ f.inRange = false →
    exec (.configureSpan tag slot f) s = .next (refusedWith s 0x83 tag .range)) ∧
  (∀ (s : State) (tag slot : Byte) (i : Slot), free s → s.sup.mode = .init → slotOf slot = some i →
    (s.cfg.spans.get i = none → exec (.configureSpanRemove tag slot) s = .next (accepted s 0x83 tag)) ∧
    ((s.cfg.spans.get i).isSome = true → exec (.configureSpanRemove tag slot) s = .next (accepted { s with
      cfg := { s.cfg with spans := s.cfg.spans.set i none, rails := s.cfg.rails.set i (Quad.fill none) },
      plant := s.plant.setSpan i { s.plant.span i with
        proof := { intervalMs := 0, run := .stopped, owed := 0, unproven := true, relock := true, due := false,
                   last := none, nextDir := .pos } } } 0x83 tag))) ∧
  (∀ (s : State) (tag slot : Byte) (f : SpanFields), free s → s.sup.mode ≠ .init →
    exec (.configureSpan tag slot f) s = .next (refusedWith s 0x83 tag .mode) ∧
    exec (.configureSpanRemove tag slot) s = .next (refusedWith s 0x83 tag .mode))

/-- CONFIGURE ADDRESS (R8, R9). With a role: the record as configured, its link part as on first configuration; the other
addresses, the parameter queue, the broadcasts and the cursor as they were. With role NONE: no record. A field out of range
is refused RANGE with nothing stored, the rail and offset judged for a bogie alone and no field after role NONE; and any request
outside INIT is refused MODE, whatever the fields (log entry 19). That the cursor stays at an address removed until the next
composition is the model's reading (log entry 42). -/
def Obligations.AddressConfiguredAndRemoved : Prop :=
  (∀ (s : State) (tag : Byte) (f : AddressFields) (i : Slot) (r : Rail) (b : Branch), free s → s.sup.mode = .init →
    1 ≤ f.addr.toNat → f.addr.toNat ≤ 64 → slotOf f.slot = some i → slotOf f.branch = some b →
    (f.role = 1 ∧ slotOf f.rail = some r ∧ -2000000000 ≤ f.offset.toInt ∧ f.offset.toInt ≤ 2000000000) ∨
      (f.role = 2 ∧ r = 0) →
    ∃ link : BogieLink, exec (.configureAddress tag f) s =
        .next (accepted { s with plant := { s.plant with link := link } } 0x85 tag) ∧
      link = { s.plant.link with addrs := link.addrs, cycle := link.cycle } ∧
      link.find f.addr.toNat = some { addr := f.addr.toNat, role := if f.role = 1 then .bogie else .lockUnit, slot := i,
                                      rail := r, branch := b, offset := if f.role = 1 then f.offset.toInt else 0,
                                      link := .unknown, last := none, age := 0, miss := 0, good := 0, valid := false,
                                      loadTrim := 0, command := 0 } ∧
      ∀ a : Nat, a ≠ f.addr.toNat → link.find a = s.plant.link.find a) ∧
  (∀ (s : State) (tag addr : Byte), free s → s.sup.mode = .init → 1 ≤ addr.toNat → addr.toNat ≤ 64 →
    (s.plant.link.find addr.toNat = none → exec (.configureAddressRemove tag addr) s = .next (accepted s 0x85 tag)) ∧
    ∃ link : BogieLink, exec (.configureAddressRemove tag addr) s =
        .next (accepted { s with plant := { s.plant with link := link } } 0x85 tag) ∧
      link = { s.plant.link with addrs := link.addrs, cycle := link.cycle } ∧ link.find addr.toNat = none ∧
      ∀ a : Nat, a ≠ addr.toNat → link.find a = s.plant.link.find a) ∧
  (∀ (s : State) (tag addr : Byte) (f : AddressFields), free s → s.sup.mode = .init →
    (addr.toNat = 0 ∨ 64 < addr.toNat → exec (.configureAddressRemove tag addr) s = .next (refusedWith s 0x85 tag .range)) ∧
    (f.addr.toNat = 0 ∨ 64 < f.addr.toNat ∨ 2 < f.role.toNat ∨
        (f.role ≠ 0 ∧ (slotOf f.slot = none ∨ slotOf f.branch = none)) ∨
        (f.role = 1 ∧ (slotOf f.rail = none ∨ f.offset.toInt < -2000000000 ∨ 2000000000 < f.offset.toInt)) →
      exec (.configureAddress tag f) s = .next (refusedWith s 0x85 tag .range)) ∧
    (f.role = 0 → 1 ≤ f.addr.toNat → f.addr.toNat ≤ 64 →
      exec (.configureAddress tag f) s = exec (.configureAddressRemove tag f.addr) s)) ∧
  (∀ (s : State) (tag addr : Byte) (f : AddressFields), free s → s.sup.mode ≠ .init →
    exec (.configureAddress tag f) s = .next (refusedWith s 0x85 tag .mode) ∧
    exec (.configureAddressRemove tag addr) s = .next (refusedWith s 0x85 tag .mode))

/-- CONFIGURE ZONE and CONFIGURE WIND (R130, R144). A clearance entry in use stands with its claim FREE and no flag set, and
one not in use is absent, the other entries as they were. A wind record is stored; an anemometer newly enabled is
EMPTY, one no longer enabled DISABLED with its ring emptied, and one that stays enabled as it was. A field out of range is
refused RANGE with nothing stored: of an entry not in use its number alone is judged, and of an anemometer not enabled no
calibration. Outside INIT both are refused MODE, whatever the fields (log entry 19). -/
def Obligations.ZoneAndWindConfigured : Prop :=
  (∀ (s : State) (tag : Byte) (f : ZoneFields), free s → s.sup.mode = .init → f.inUse = 1 → f.inRange = true →
    ∃ zs : List ZoneEntry, exec (.configureZone tag f) s =
        .next (accepted { s with plant := { s.plant with zones := zs } } 0x86 tag) ∧
      zs.find? (fun z => z.entry == f.entry.toNat) = some f.record ∧
      f.record.claim = .free ∧ f.record.sideA = ZoneSide.clear ∧ f.record.sideB = ZoneSide.clear ∧
      ∀ e : Nat, e ≠ f.entry.toNat →
        zs.find? (fun z => z.entry == e) = s.plant.zones.find? (fun z => z.entry == e)) ∧
  (∀ (s : State) (tag : Byte) (f : ZoneFields), free s → s.sup.mode = .init → f.inUse = 0 → f.entry.toNat ≤ 15 →
    ∃ zs : List ZoneEntry, exec (.configureZone tag f) s =
        .next (accepted { s with plant := { s.plant with zones := zs } } 0x86 tag) ∧
      zs.find? (fun z => z.entry == f.entry.toNat) = none ∧
      ∀ e : Nat, e ≠ f.entry.toNat →
        zs.find? (fun z => z.entry == e) = s.plant.zones.find? (fun z => z.entry == e)) ∧
  (∀ (s : State) (tag : Byte) (f : WindFields), free s → s.sup.mode = .init → f.inRange = true →
    ∃ a b : Anemometer, exec (.configureWind tag f) s = .next (accepted { s with
        cfg := { s.cfg with wind := some f.record }, wind := { s.wind with an1 := a, an2 := b } } 0x87 tag) ∧
      (f.en1 = 1 → s.wind.an1.status = .disabled → a.status = .empty ∧ a.ring = []) ∧
      (f.en1 = 1 → s.wind.an1.status ≠ .disabled → a = s.wind.an1) ∧
      (f.en1 = 0 → a.status = .disabled ∧ a.ring = []) ∧
      (f.en2 = 1 → s.wind.an2.status = .disabled → b.status = .empty ∧ b.ring = []) ∧
      (f.en2 = 1 → s.wind.an2.status ≠ .disabled → b = s.wind.an2) ∧
      (f.en2 = 0 → b.status = .disabled ∧ b.ring = [])) ∧
  (∀ (s : State) (tag : Byte) (f : ZoneFields), free s → s.sup.mode = .init →
    15 < f.entry.toNat ∨ 1 < f.inUse.toNat ∨ (f.inUse = 1 ∧ (slotOf f.spanA = none ∨ slotOf f.spanB = none ∨
        f.tzw.toNat < 10 ∨ 600 < f.tzw.toNat ∨
        ∃ v, (v = f.a1 ∨ v = f.a2 ∨ v = f.b1 ∨ v = f.b2) ∧ (v.toInt < -2000000000 ∨ 2000000000 < v.toInt))) →
    exec (.configureZone tag f) s = .next (refusedWith s 0x86 tag .range)) ∧
  (∀ (s : State) (tag : Byte) (f : WindFields), free s → s.sup.mode = .init →
    1 < f.en1.toNat ∨ (f.en1 = 1 ∧ (f.k1.toNat < 10 ∨ 2000 < f.k1.toNat)) ∨
      1 < f.en2.toNat ∨ (f.en2 = 1 ∧ (f.k2.toNat < 10 ∨ 2000 < f.k2.toNat)) ∨
      2000 < f.ws.toNat ∨ f.wt.toNat = 0 ∨ 2000 < f.wt.toNat ∨ 1000 < f.h.toNat ∨ f.kmin.toNat < 10 ∨ 100 < f.kmin.toNat ∨
      f.tdw.toNat < 60 ∨ 1800 < f.tdw.toNat →
    exec (.configureWind tag f) s = .next (refusedWith s 0x87 tag .range)) ∧
  (∀ (f : ZoneFields), f.inUse = 1 → f.entry.toNat ≤ 15 → (slotOf f.spanA).isSome = true → (slotOf f.spanB).isSome = true →
    10 ≤ f.tzw.toNat → f.tzw.toNat ≤ 600 →
    (∀ v, v = f.a1 ∨ v = f.a2 ∨ v = f.b1 ∨ v = f.b2 → -2000000000 ≤ v.toInt ∧ v.toInt ≤ 2000000000) → f.inRange = true) ∧
  (∀ (f : WindFields), f.en1 = 0 ∨ (f.en1 = 1 ∧ 10 ≤ f.k1.toNat ∧ f.k1.toNat ≤ 2000) →
    f.en2 = 0 ∨ (f.en2 = 1 ∧ 10 ≤ f.k2.toNat ∧ f.k2.toNat ≤ 2000) → f.ws.toNat ≤ 2000 → 1 ≤ f.wt.toNat → f.wt.toNat ≤ 2000 →
    f.h.toNat ≤ 1000 → 10 ≤ f.kmin.toNat → f.kmin.toNat ≤ 100 → 60 ≤ f.tdw.toNat → f.tdw.toNat ≤ 1800 → f.inRange = true) ∧
  (∀ (s : State) (tag : Byte) (f : ZoneFields) (w : WindFields), free s → s.sup.mode ≠ .init →
    exec (.configureZone tag f) s = .next (refusedWith s 0x86 tag .mode) ∧
    exec (.configureWind tag w) s = .next (refusedWith s 0x87 tag .mode))

/-- GO READY (R160): in INIT, with the five checks passed, the device enters ACQUIRING with its timer at 2 s and its MODE
report; a failed check refuses it CONFIG with its detail, each check judged when the earlier ones have passed; outside
INIT it is refused MODE. What the checks judge: G1 to G13, the first unmet named (R10, R11, R12); the group codes, the first slot
and address named (R111); S_max, W and Q of the link budget (R112); Z1 to Z4 of each entry (R131); W1 to W4 (R151). -/
def Obligations.GoReadyEntersAcquiring : Prop :=
  (∀ (s : State) (tag : Byte), free s →
    (s.sup.mode = .init → geometryCheck s.env s.plant = none → groupCheck s.env s.plant = none →
      budgetCheck s.env s.plant = none → zoneCheck s.env s.plant = none → windCheck s.env = none →
      exec (.goReady tag) s = .next (accepted { s with
        sup := { s.sup with mode := .acquiring, acqT := some 2000 },
        plant := s.plant.report (.mode .acquiring .none s.time) } 0x88 tag)) ∧
    (∀ d, s.sup.mode = .init →
      geometryCheck s.env s.plant = some d ∨
        (geometryCheck s.env s.plant = none ∧ (groupCheck s.env s.plant = some d ∨
          (groupCheck s.env s.plant = none ∧ (budgetCheck s.env s.plant = some d ∨
            (budgetCheck s.env s.plant = none ∧ (zoneCheck s.env s.plant = some d ∨
              (zoneCheck s.env s.plant = none ∧ windCheck s.env = some d))))))) →
      exec (.goReady tag) s = .next (refusedWith s 0x88 tag (.config d))) ∧
    (s.sup.mode ≠ .init → exec (.goReady tag) s = .next (refusedWith s 0x88 tag .mode))) ∧
  (∀ (env : Env) (p : Plant),
    (geometryCheck env p = none ↔ ∀ n, geometryMet env p n) ∧
    (∀ n, (∀ m, m < n → geometryMet env p m) → ¬ geometryMet env p n →
      ∃ slot addr, geometryCheck env p = some (.fields 1 n slot addr)) ∧
    (groupCheck env p = none ↔
      ∀ i : Slot, (env.cfg.spans.get i).isSome = true → ∀ a ∈ p.link.addrs, a.role = .bogie → groupMet env p i a) ∧
    (∀ (i : Slot) (pre post : List AddrRec) (a : AddrRec), (env.cfg.spans.get i).isSome = true →
      (∀ j : Slot, j < i → (env.cfg.spans.get j).isSome = true → ∀ b ∈ p.link.addrs, b.role = .bogie → groupMet env p j b) →
      p.link.addrs = pre ++ a :: post → (∀ b ∈ pre, b.role = .bogie → groupMet env p i b) → a.role = .bogie →
      ¬ groupMet env p i a → groupCheck env p = some (.fields 2 0 i.val a.addr)) ∧
    (∀ (wm w : Nat) (q : Int), (∀ b v, env.cfg.branches.get b = some v → v ≤ wm) →
      (wm = 0 ∨ ∃ b : Branch, env.cfg.branches.get b = some wm) → w = (4 + wm) + (if 3 ≤ wm then 1 else 0) + 1 →
      q = ((env.cfg.dev.budget : Int) - slotsMost env p - w) / ((5 + wm + 1 : Nat) : Int) →
      (1 ≤ q → (p.link.addrs.length : Int) ≤ q * ((env.cfg.dev.stale : Int) - 1) → budgetCheck env p = none) ∧
      (q < 1 ∨ q * ((env.cfg.dev.stale : Int) - 1) < p.link.addrs.length →
        budgetCheck env p = some (.budget (slotsMost env p) w q))) ∧
    (zoneCheck env p = none ↔ ∀ z ∈ p.zones, ∀ n, zoneMet env z n) ∧
    (∀ (pre post : List ZoneEntry) (z : ZoneEntry) (n : Nat), p.zones = pre ++ z :: post → (∀ y ∈ pre, ∀ m, zoneMet env y m) →
      (∀ m, m < n → zoneMet env z m) → ¬ zoneMet env z n → zoneCheck env p = some (.fields 4 n z.entry 0)) ∧
    (env.cfg.wind = none → windCheck env = some (.fields 5 1 255 0)) ∧
    (∀ w, env.cfg.wind = some w →
      windCheck env = if w.en1 = false ∧ w.en2 = false then some (.fields 5 2 255 0)
        else if w.wt ≤ w.ws + w.h then some (.fields 5 3 255 0)
        else if w.h = 0 then some (.fields 5 4 255 0) else none))

/-! ### Status, supervision and link requests -/

/-- The four status requests (R39, R113, R141, R179, R181): answered in every mode with the state at their taking; reading
clears the overflow flag of the span and the reports-dropped flag, and nothing else. A value out of range is refused. The
replies carry 60, 138, 31 and 41 bytes of items (chapter 12). -/
def Obligations.StatusRequestsAnswered : Prop :=
  ∀ (s : State) (tag a : Byte), free s →
    ((deviceStatus s).length = 60 ∧ (∀ i : Slot, (spanStatus s.env i s.plant).length = 138) ∧
      (addressStatus a.toNat s.plant).length = 31 ∧ (zoneStatus a.toNat s.plant).length = 41) ∧
    exec (.getDeviceStatus tag) s = .next (answered { s with
      plant := { s.plant with out := { s.plant.out with dropped := false } } } 0x90 tag (.ok (deviceStatus s)) .nothing) ∧
    (∀ i, slotOf a = some i → exec (.getSpanStatus tag a) s = .next (answered { s with
      plant := s.plant.setSpan i { s.plant.span i with overflow := false } } 0x91 tag (.ok (spanStatus s.env i s.plant)) .nothing)) ∧
    (slotOf a = none → exec (.getSpanStatus tag a) s = .next (refusedWith s 0x91 tag .range)) ∧
    (1 ≤ a.toNat → a.toNat ≤ 64 → exec (.getAddressStatus tag a) s =
      .next (answered s 0x92 tag (.ok (addressStatus a.toNat s.plant)) .nothing)) ∧
    (a.toNat = 0 ∨ 64 < a.toNat → exec (.getAddressStatus tag a) s = .next (refusedWith s 0x92 tag .range)) ∧
    (a.toNat ≤ 15 → exec (.getZoneStatus tag a) s =
      .next (answered s 0x93 tag (.ok (zoneStatus a.toNat s.plant)) .nothing)) ∧
    (15 < a.toNat → exec (.getZoneStatus tag a) s = .next (refusedWith s 0x93 tag .range))

/-- KEEPALIVE judged when it is taken (R163): not judged in INIT and ACQUIRING; in READY and FAILSAFE good at or after Wo and
early before it, each restarting the window, with the outcome, e and g in the reply. An early outcome that brings e to E_th
sets it to 0 and enters FAILSAFE for HOST_SUPERVISION (R164), and in FAILSAFE joins it as a second cause (R165); every span is
stopped QUICK to RESTING. The wind hold flags are cleared at the entry, the model's reading (log entry 4). -/
def Obligations.KeepaliveJudged : Prop :=
  ∀ (s : State) (tag : Byte), free s →
    (s.sup.mode = .init ∨ s.sup.mode = .acquiring →
      exec (.keepalive tag) s = .next (answered s 0x94 tag (.ok (num8 0 ++ num8 s.sup.e ++ num8 s.sup.g)) .nothing)) ∧
    (∀ t, s.sup.mode = .ready ∨ s.sup.mode = .failsafe → s.sup.window = some t → s.cfg.dev.wo ≤ t →
      exec (.keepalive tag) s = .next (answered { s with
          sup := { s.sup with e := s.sup.e - 1, g := min (s.sup.g + 1) 255, window := some 0 } } 0x94 tag
        (.ok (num8 1 ++ num8 (s.sup.e - 1) ++ num8 (min (s.sup.g + 1) 255))) .nothing)) ∧
    (∀ t, s.sup.mode = .ready ∨ s.sup.mode = .failsafe → s.sup.window = some t → t < s.cfg.dev.wo →
      s.sup.e + 1 < s.cfg.dev.eth →
      exec (.keepalive tag) s = .next (answered { s with
          sup := { s.sup with e := s.sup.e + 1, g := 0, window := some 0 } } 0x94 tag
        (.ok (num8 2 ++ num8 (s.sup.e + 1) ++ num8 0)) .nothing)) ∧
    (∀ t, s.sup.mode = .ready → s.sup.window = some t → t < s.cfg.dev.wo → s.cfg.dev.eth ≤ s.sup.e + 1 →
      ∃ q : Plant, exec (.keepalive tag) s = .next (answered { s with
          plant := q,
          sup := { s.sup with
            mode := .failsafe, e := 0, g := 0, window := some 0, acqT := none, stableT := none, f := min (s.sup.f + 1) 255,
            lockout := s.sup.lockout || (s.cfg.dev.fmax != 0 && decide (s.cfg.dev.fmax < min (s.sup.f + 1) 255)),
            record := some { reason := .hostSupervision, time := s.time, toReady := true, later := [] } } } 0x94 tag
          (.ok (num8 2 ++ num8 0 ++ num8 0)) .nothing) ∧
        ∀ i : Slot, quickStopped (s.plant.span i) (q.span i) ∧ (q.span i).windHold = false) ∧
    (∀ t k, s.sup.mode = .failsafe → s.sup.window = some t → t < s.cfg.dev.wo → s.cfg.dev.eth ≤ s.sup.e + 1 →
      s.sup.record = some k →
      ∃ q : Plant, exec (.keepalive tag) s = .next (answered { s with
          plant := q,
          sup := { s.sup with
            e := 0, g := 0, window := some 0,
            record := some { k with later := if k.reason = .hostSupervision ∨ .hostSupervision ∈ k.later
                                             then k.later else k.later ++ [.hostSupervision] } } } 0x94 tag
          (.ok (num8 2 ++ num8 0 ++ num8 0)) .nothing) ∧
        ∀ i : Slot, quickStopped (s.plant.span i) (q.span i))

/-- The keep-alive window's closing with no KEEPALIVE, and the stable-READY expiry (R163, R168): a late outcome counts an
error, which at E_th enters FAILSAFE for HOST_SUPERVISION with e at 0 and every span stopped QUICK to RESTING, and in FAILSAFE
joins it as a second cause with the same stop (R165); the stable-READY expiry sets f to 0. Neither has an effect when its timer does not run. The model's choices: the wind hold
flags are cleared at the entry (log entry 4), and an expiry acts whenever its timer runs (log entry 32). -/
def Obligations.SupervisionTimersExpire : Prop :=
  (∀ s : State, s.resetPin = false → s.sup.window.isSome = true → s.sup.e + 1 < s.cfg.dev.eth →
    exec .keepaliveWindowExpiry s =
      .next (settle { s with sup := { s.sup with e := s.sup.e + 1, g := 0, window := some 0 } })) ∧
  (∀ s : State, s.resetPin = false → s.sup.mode = .ready → s.sup.window.isSome = true → s.cfg.dev.eth ≤ s.sup.e + 1 →
    ∃ q : Plant, exec .keepaliveWindowExpiry s = .next (settle { s with
        plant := q,
        sup := { s.sup with
          mode := .failsafe, e := 0, g := 0, window := some 0, acqT := none, stableT := none, f := min (s.sup.f + 1) 255,
          lockout := s.sup.lockout || (s.cfg.dev.fmax != 0 && decide (s.cfg.dev.fmax < min (s.sup.f + 1) 255)),
          record := some { reason := .hostSupervision, time := s.time, toReady := true, later := [] } } }) ∧
      ∀ i : Slot, quickStopped (s.plant.span i) (q.span i) ∧ (q.span i).windHold = false) ∧
  (∀ (s : State) (k : FailsafeRecord), s.resetPin = false → s.sup.mode = .failsafe → s.sup.window.isSome = true →
    s.cfg.dev.eth ≤ s.sup.e + 1 → s.sup.record = some k →
    ∃ q : Plant, exec .keepaliveWindowExpiry s = .next (settle { s with
        plant := q,
        sup := { s.sup with
          e := 0, g := 0, window := some 0,
          record := some { k with later := if k.reason = .hostSupervision ∨ .hostSupervision ∈ k.later
                                           then k.later else k.later ++ [.hostSupervision] } } }) ∧
      ∀ i : Slot, quickStopped (s.plant.span i) (q.span i)) ∧
  (∀ s : State, s.resetPin = false → s.sup.stableT.isSome = true →
    exec .stableReadyExpiry s = .next (settle { s with sup := { s.sup with f := 0, stableT := none } })) ∧
  (∀ s : State, s.resetPin = false → (s.sup.window = none → exec .keepaliveWindowExpiry s = .next (settle s)) ∧
    (s.sup.stableT = none → exec .stableReadyExpiry s = .next (settle s)))

/-- SET LINK, SET REPORT MASK and HARD RESET (R170, R174, R180, R182): SET LINK and HARD RESET change nothing until their
reply has been sent; SET REPORT MASK stores one enable for each of the thirteen kinds; that the bits above them are stored and
answered as 0 is the model's reading (log entry 37). -/
def Obligations.LinkMaskAndHardResetRequests : Prop :=
  ∀ (s : State) (tag a b : Byte) (mask : BitVec 16), free s →
    (a.toNat ≤ 1 → b.toNat ≤ 1 → exec (.setLink tag a b) s =
      .next (answered s 0x95 tag (.ok [a, b]) (.settings { fast := a == 1, crcAlt := b == 1 }))) ∧
    (1 < a.toNat ∨ 1 < b.toNat → exec (.setLink tag a b) s = .next (refusedWith s 0x95 tag .range)) ∧
    exec (.setReportMask tag mask) s = .next (answered { s with
      plant := { s.plant with out := { s.plant.out with mask := mask &&& 0x1FFF } } } 0x96 tag (.ok (enc16 (mask &&& 0x1FFF))) .nothing) ∧
    exec (.hardReset tag) s = .next (answered s 0x97 tag (.ok []) .hardReset)

/-- SOFT RESET (R17, R55, R114, R142, R169, R180): accepted in INIT and ACQUIRING, and in READY with every span RESTING,
LOCKED, FAULTED or UNCONFIGURED, it takes the device to INIT with every span UNCONFIGURED and its proof state kept,
claims FREE, link parts UNKNOWN, the parameter queue and the report queue emptied, and the MODE report queued;
configuration, wind, station, f, the lockout flag and device time are kept. Otherwise it is refused. The model's
reading: the validity, load trim and command that a record shows are cleared with its link part (log entry 46). -/
def Obligations.SoftResetReturnsToInit : Prop :=
  ∀ (s : State) (tag : Byte), free s →
    (s.sup.mode = .init ∨ s.sup.mode = .acquiring ∨ (s.sup.mode = .ready ∧ ∀ i : Slot,
        (s.plant.span i).state = .resting ∨ (s.plant.span i).state = .locked ∨ (s.plant.span i).state = .faulted ∨
        (s.plant.span i).state = .unconfigured) →
      ∃ q : Plant, exec (.softReset tag) s = .next (accepted { s with
          sup := { s.sup with mode := .init, acqT := none, window := none, e := 0, g := 0, stableT := none },
          plant := q } 0x98 tag) ∧
        (∀ i : Slot, (q.span i).state = .unconfigured ∧ blankSpan (q.span i) ∧ (q.span i).periodT = (s.plant.span i).periodT ∧
          (q.span i).proof = { (s.plant.span i).proof with run := (s.plant.span i).proof.run.enter .unconfigured }) ∧
        q.zones = s.plant.zones.map ZoneEntry.fresh ∧ q.link.addrs = s.plant.link.addrs.map AddrRec.unheard ∧
        q.link.params = [] ∧ q.link.bcasts = [] ∧ q.link.cursor = s.plant.link.cursor ∧
        q.out = ReportQueue.push { s.plant.out with queue := [] } (.mode .init (.cause .softReset) s.time)) ∧
    (∀ i : Slot, s.sup.mode = .ready → (s.plant.span i).state = .moving ∨ (s.plant.span i).state = .starting ∨
        (s.plant.span i).state = .holding ∨ (s.plant.span i).state = .stopping ∨ (s.plant.span i).state = .proving ∨
        (s.plant.span i).state = .locking ∨ (s.plant.span i).state = .unlocking →
      exec (.softReset tag) s = .next (refusedWith s 0x98 tag .state)) ∧
    (s.sup.mode = .failsafe → exec (.softReset tag) s = .next (refusedWith s 0x98 tag .mode))

/-! ### Plan requests -/

/-- APPEND SEGMENT (R37, R38, R39): in READY and FAILSAFE, for a span that has left UNCONFIGURED, a segment in range joins the
tail with its cruise at most Vmax, its accel rounded down and at most 50,000 and its dwell at most 600, answered with
the count, and with the stored values where one differs; at a full queue it is refused QUEUE_FULL and the overflow
flag is set. Which bytes the OK_CLAMPED reply carries (the seven stored fields, then the count) is the model's reading (log
entry 26). -/
def Obligations.SegmentAppendedAtTheTail : Prop :=
  (∀ (s : State) (tag : Byte) (f : SegmentFields) (i : Slot) (sc : SpanConfig) (g : Segment), free s →
    slotOf f.slot = some i → s.cfg.spans.get i = some sc → s.sup.mode = .ready ∨ s.sup.mode = .failsafe →
    (s.plant.span i).state ≠ .unconfigured → sc.xmin ≤ f.target.toInt → f.target.toInt ≤ sc.xmax → f.cruise.toNat ≠ 0 →
    100 ≤ f.accel.toNat / 100 * 100 →
    g = { tag := f.tag, target := f.target.toInt, cruise := min f.cruise.toNat sc.vmax,
          accel := min (f.accel.toNat / 100 * 100) 50000, stop := f.flags.getLsbD 0, report := f.flags.getLsbD 1,
          dwell := min f.dwell.toNat 600 } →
    ((s.plant.span i).plan.length < 16 →
      exec (.appendSegment tag f) s = .next (answered { s with
          plant := s.plant.setSpan i { s.plant.span i with plan := (s.plant.span i).plan ++ [g] } } 0xA0 tag
        (if g.cruise = f.cruise.toNat ∧ g.accel = f.accel.toNat ∧ g.dwell = f.dwell.toNat
          then .ok (num8 ((s.plant.span i).plan.length + 1))
          else .okClamped (segmentBytes g ++ num8 ((s.plant.span i).plan.length + 1))) .nothing)) ∧
    (16 ≤ (s.plant.span i).plan.length →
      exec (.appendSegment tag f) s = .next (refusedWith { s with
          plant := s.plant.setSpan i { s.plant.span i with overflow := true } } 0xA0 tag .queueFull))) ∧
  (∀ (s : State) (tag : Byte) (f : SegmentFields) (i : Slot), free s →
    (slotOf f.slot = none → exec (.appendSegment tag f) s = .next (refusedWith s 0xA0 tag .range)) ∧
    (slotOf f.slot = some i → s.sup.mode = .init ∨ s.sup.mode = .acquiring →
      exec (.appendSegment tag f) s = .next (refusedWith s 0xA0 tag .mode)) ∧
    (slotOf f.slot = some i → s.sup.mode = .ready ∨ s.sup.mode = .failsafe → (s.plant.span i).state = .unconfigured →
      exec (.appendSegment tag f) s = .next (refusedWith s 0xA0 tag .state)) ∧
    (slotOf f.slot = some i → s.sup.mode = .ready ∨ s.sup.mode = .failsafe → (s.plant.span i).state ≠ .unconfigured →
      f.target.toInt < (s.env.span i).xmin ∨ (s.env.span i).xmax < f.target.toInt ∨ f.cruise.toNat = 0 ∨ f.accel.toNat < 100 →
      exec (.appendSegment tag f) s = .next (refusedWith s 0xA0 tag .range)))

/-- FLUSH PLAN (R49, R51): in READY, for a RESTING, HOLDING, FAULTED or LOCKED span, every segment is removed and none
retired, the reply carries their number, a fall from above Lw queues PLAN_LOW, and nothing else of the span changes; in
any other state it is refused STATE, outside READY MODE, and for no slot RANGE. -/
def Obligations.PlanFlushed : Prop :=
  ∀ (s : State) (tag slot : Byte), free s →
    (∀ i, slotOf slot = some i → s.sup.mode = .ready →
      (s.plant.span i).state = .resting ∨ (s.plant.span i).state = .holding ∨ (s.plant.span i).state = .faulted ∨
        (s.plant.span i).state = .locked →
      ∃ q : Plant, exec (.flushPlan tag slot) s = .next (answered { s with plant := q } 0xA1 tag
          (.ok (num8 (s.plant.span i).plan.length)) .nothing) ∧
        onlySpan i s.plant q ∧ q.span i = { s.plant.span i with plan := [] } ∧
        q.out = if (s.plant.span i).lw < (s.plant.span i).plan.length
          then s.plant.out.push (.planLow i 0 (s.plant.span i).lw) else s.plant.out) ∧
    (∀ i, slotOf slot = some i → s.sup.mode = .ready →
      (s.plant.span i).state = .unconfigured ∨ (s.plant.span i).state = .starting ∨ (s.plant.span i).state = .moving ∨
        (s.plant.span i).state = .stopping ∨ (s.plant.span i).state = .proving ∨ (s.plant.span i).state = .locking ∨
        (s.plant.span i).state = .unlocking →
      exec (.flushPlan tag slot) s = .next (refusedWith s 0xA1 tag .state)) ∧
    (∀ i, slotOf slot = some i → s.sup.mode ≠ .ready → exec (.flushPlan tag slot) s = .next (refusedWith s 0xA1 tag .mode)) ∧
    (slotOf slot = none → exec (.flushPlan tag slot) s = .next (refusedWith s 0xA1 tag .range))

/-- SET OVERRIDE and SET LOW WATER (R50, R58): in READY, for a span that has left UNCONFIGURED, a value within 100 and 15 is
stored with OK, and a value above as 100 and 15 with OK_CLAMPED carrying it; no report is queued. -/
def Obligations.OverrideAndLowWaterStored : Prop :=
  ∀ (s : State) (tag slot value : Byte), free s →
    (∀ i, slotOf slot = some i → s.sup.mode = .ready → (s.plant.span i).state ≠ .unconfigured →
      exec (.setOverride tag slot value) s = .next (answered { s with
          plant := s.plant.setSpan i { s.plant.span i with override := min value.toNat 100 } } 0xA5 tag
        (if value.toNat ≤ 100 then .ok [] else .okClamped [100]) .nothing) ∧
      exec (.setLowWater tag slot value) s = .next (answered { s with
          plant := s.plant.setSpan i { s.plant.span i with lw := min value.toNat 15 } } 0xA6 tag
        (if value.toNat ≤ 15 then .ok [] else .okClamped [15]) .nothing)) ∧
    (∀ i, slotOf slot = some i → s.sup.mode = .ready → (s.plant.span i).state = .unconfigured →
      exec (.setOverride tag slot value) s = .next (refusedWith s 0xA5 tag .state) ∧
      exec (.setLowWater tag slot value) s = .next (refusedWith s 0xA6 tag .state)) ∧
    (∀ i, slotOf slot = some i → s.sup.mode ≠ .ready →
      exec (.setOverride tag slot value) s = .next (refusedWith s 0xA5 tag .mode) ∧
      exec (.setLowWater tag slot value) s = .next (refusedWith s 0xA6 tag .mode)) ∧
    (slotOf slot = none →
      exec (.setOverride tag slot value) s = .next (refusedWith s 0xA5 tag .range) ∧
      exec (.setLowWater tag slot value) s = .next (refusedWith s 0xA6 tag .range))

/-! ### Motion requests -/

/-- An accepted START (R28, R29, R109): with its eight conditions met, the starved flag clears; a RESTING span enters STARTING
with v = 0, ENERGIZE posted with every command 0 and the release timer at T_rel, and a HOLDING span MOVING with the
hold timer stopped and no set posted; queued host writes of its addresses are withdrawn. That their PARAM_DONE reports follow the
SPAN_STATE report is the model's choice (log entry 9). -/
def Obligations.StartSetsTheSpanInMotion : Prop :=
  ∀ (s : State) (tag slot : Byte) (i : Slot), free s → slotOf slot = some i → s.sup.mode = .ready →
    (s.plant.span i).plan ≠ [] → s.wind.gate.shut = false → s.station.key.val = false →
    (s.plant.span i).proof.owed ≠ 8 → (s.plant.span i).proof.unproven = false →
    (s.plant.span i).skew ≤ (s.env.span i).sStop →
    ((s.plant.span i).state = .resting →
      ∃ q : Plant, exec (.start tag slot) s = .next (accepted { s with plant := q } 0xA2 tag) ∧
        energises s.time i (.spanState i .resting .starting none) s.plant q ∧
        sameJourney { s.plant.span i with starved := false } (q.span i) ∧ (q.span i).state = .starting ∧
        (q.span i).v = 0 ∧ (q.span i).releaseT = some ((s.env.span i).tRel * 100) ∧ (q.span i).holdT = none ∧
        ∃ cmds, (q.span i).posted = some { mode := .energize, cmds := cmds } ∧ ∀ c ∈ cmds, c.2 = 0) ∧
    ((s.plant.span i).state = .holding →
      ∃ q : Plant, exec (.start tag slot) s = .next (accepted { s with plant := q } 0xA2 tag) ∧
        energises s.time i (.spanState i .holding .moving none) s.plant q ∧
        sameJourney { s.plant.span i with starved := false } (q.span i) ∧ (q.span i).state = .moving ∧
        (q.span i).v = (s.plant.span i).v ∧ (q.span i).holdT = none ∧ (q.span i).posted = (s.plant.span i).posted)

/-- What refuses a START, each condition with every earlier one passed (the table of R28). -/
def Obligations.StartRefusedInOrder : Prop :=
  ∀ (s : State) (tag slot : Byte), free s →
    (slotOf slot = none → exec (.start tag slot) s = .next (refusedWith s 0xA2 tag .range)) ∧
    ∀ i, slotOf slot = some i →
      (s.sup.mode ≠ .ready → exec (.start tag slot) s = .next (refusedWith s 0xA2 tag .mode)) ∧
      (s.sup.mode = .ready →
        ((s.plant.span i).state ≠ .resting → (s.plant.span i).state ≠ .holding →
          exec (.start tag slot) s = .next (refusedWith s 0xA2 tag .state)) ∧
        ((s.plant.span i).state = .resting ∨ (s.plant.span i).state = .holding →
          ((s.plant.span i).plan = [] → exec (.start tag slot) s = .next (refusedWith s 0xA2 tag .emptyPlan)) ∧
          ((s.plant.span i).plan ≠ [] →
            (s.wind.gate = .tripped ∨ s.wind.gate = .blind →
              exec (.start tag slot) s = .next (refusedWith s 0xA2 tag .wind)) ∧
            (s.wind.gate = .clear ∨ s.wind.gate = .reduced →
              (s.station.key.val = true → exec (.start tag slot) s = .next (refusedWith s 0xA2 tag .localControl)) ∧
              (s.station.key.val = false →
                ((s.plant.span i).proof.owed = 8 → exec (.start tag slot) s = .next (refusedWith s 0xA2 tag .proofOwed)) ∧
                ((s.plant.span i).proof.owed ≠ 8 →
                  ((s.plant.span i).proof.unproven = true →
                    exec (.start tag slot) s = .next (refusedWith s 0xA2 tag .proofRequired)) ∧
                  ((s.plant.span i).proof.unproven = false → (s.env.span i).sStop < (s.plant.span i).skew →
                    exec (.start tag slot) s = .next (refusedWith s 0xA2 tag .skew))))))))

/-- PAUSE and STOP (R31, R19, R23, R24, R25), accepted in READY and FAILSAFE in every span state, with the wind hold flag
cleared: without effect on a span at rest, faulted or in a lock state; a moving span ramps CONTROLLED to HOLDING or
QUICK to RESTING, its jog ended and reported where it jogs (R157); a span MOVING at v = 0 enters the end state at once; PAUSE leaves a
HOLDING span as it is, and STOP takes it to RESTING; a STARTING span goes to RESTING, and a PROVING one with its test
abandoned (R122); a stop in progress is merged (R21). In INIT and ACQUIRING they are refused MODE. That PARAM_DONE reports
follow the SPAN_STATE report is the model's choice (log entry 9). -/
def Obligations.PauseAndStopTaken : Prop :=
  ∀ (s : State) (tag slot : Byte), free s →
    (slotOf slot = none → exec (.pause tag slot) s = .next (refusedWith s 0xA3 tag .range) ∧
      exec (.stop tag slot) s = .next (refusedWith s 0xA4 tag .range)) ∧
    ∀ i, slotOf slot = some i →
      (s.sup.mode = .init ∨ s.sup.mode = .acquiring → exec (.pause tag slot) s = .next (refusedWith s 0xA3 tag .mode) ∧
        exec (.stop tag slot) s = .next (refusedWith s 0xA4 tag .mode)) ∧
      (s.sup.mode = .ready ∨ s.sup.mode = .failsafe →
        ((s.plant.span i).state = .unconfigured ∨ (s.plant.span i).state = .resting ∨ (s.plant.span i).state = .locking ∨
            (s.plant.span i).state = .locked ∨ (s.plant.span i).state = .unlocking ∨ (s.plant.span i).state = .faulted →
          exec (.pause tag slot) s = .next (accepted { s with
            plant := s.plant.setSpan i { s.plant.span i with windHold := false } } 0xA3 tag) ∧
          exec (.stop tag slot) s = .next (accepted { s with
            plant := s.plant.setSpan i { s.plant.span i with windHold := false } } 0xA4 tag)) ∧
        ((s.plant.span i).state = .moving → (s.plant.span i).v ≠ 0 → (s.plant.span i).jog = none →
          (∃ q : Plant, exec (.pause tag slot) s = .next (accepted { s with plant := q } 0xA3 tag) ∧
            energises s.time i (.spanState i .moving .stopping (some { kind := .controlled, endState := .holding })) s.plant q ∧
            sameJourney (s.plant.span i) (q.span i) ∧ (q.span i).state = .stopping ∧ (q.span i).v = (s.plant.span i).v ∧
            (q.span i).stop = some { kind := .controlled, endState := .holding } ∧ (q.span i).windHold = false ∧
            (q.span i).running = (s.plant.span i).running ∧ (q.span i).posted = (s.plant.span i).posted) ∧
          (∃ q : Plant, exec (.stop tag slot) s = .next (accepted { s with plant := q } 0xA4 tag) ∧
            energises s.time i (.spanState i .moving .stopping (some { kind := .quick, endState := .resting })) s.plant q ∧
            sameJourney (s.plant.span i) (q.span i) ∧ (q.span i).state = .stopping ∧ (q.span i).v = (s.plant.span i).v ∧
            (q.span i).stop = some { kind := .quick, endState := .resting } ∧ (q.span i).windHold = false ∧
            (q.span i).running = (s.plant.span i).running ∧ (q.span i).posted = (s.plant.span i).posted)) ∧
        ((s.plant.span i).state = .holding →
          exec (.pause tag slot) s = .next (accepted { s with
            plant := s.plant.setSpan i { s.plant.span i with windHold := false } } 0xA3 tag) ∧
          (noTestOwed s i → ∃ q : Plant, exec (.stop tag slot) s = .next (accepted { s with plant := q } 0xA4 tag) ∧
            onlySpan i s.plant q ∧ q.out = s.plant.out.push (.spanState i .holding .resting none) ∧
            sameJourney (s.plant.span i) (q.span i) ∧ restsIn .resting (q.span i))) ∧
        ((s.plant.span i).state = .starting → (s.plant.span i).jog = none → noTestOwed s i →
          ∃ q : Plant, exec (.pause tag slot) s = .next (accepted { s with plant := q } 0xA3 tag) ∧
            exec (.stop tag slot) s = .next (accepted { s with plant := q } 0xA4 tag) ∧
            onlySpan i s.plant q ∧ q.out = s.plant.out.push (.spanState i .starting .resting none) ∧
            sameJourney (s.plant.span i) (q.span i) ∧ restsIn .resting (q.span i)) ∧
        (∀ j, (s.plant.span i).state = .moving → (s.plant.span i).v ≠ 0 → (s.plant.span i).jog = some j →
          (∃ q : Plant, exec (.pause tag slot) s = .next (accepted { s with plant := q } 0xA3 tag) ∧
            energises s.time i (.spanState i .moving .stopping (some { kind := .controlled, endState := .holding }))
              { s.plant with out := s.plant.out.push (.station (.jogEnded i .otherStop) s.time) } q ∧
            sameJourney (s.plant.span i) (q.span i) ∧ (q.span i).state = .stopping ∧ (q.span i).v = (s.plant.span i).v ∧
            (q.span i).jog = some j ∧ (q.span i).stop = some { kind := .controlled, endState := .holding }) ∧
          (∃ q : Plant, exec (.stop tag slot) s = .next (accepted { s with plant := q } 0xA4 tag) ∧
            energises s.time i (.spanState i .moving .stopping (some { kind := .quick, endState := .resting }))
              { s.plant with out := s.plant.out.push (.station (.jogEnded i .otherStop) s.time) } q ∧
            sameJourney (s.plant.span i) (q.span i) ∧ (q.span i).state = .stopping ∧ (q.span i).v = (s.plant.span i).v ∧
            (q.span i).jog = some j ∧ (q.span i).stop = some { kind := .quick, endState := .resting })) ∧
        ((s.plant.span i).state = .starting → (s.plant.span i).jog.isSome = true → noTestOwed s i →
          ∃ q : Plant, exec (.pause tag slot) s = .next (accepted { s with plant := q } 0xA3 tag) ∧
            exec (.stop tag slot) s = .next (accepted { s with plant := q } 0xA4 tag) ∧ onlySpan i s.plant q ∧
            q.out = (s.plant.out.push (.station (.jogEnded i .otherStop) s.time)).push (.spanState i .starting .resting none) ∧
            sameJourney (s.plant.span i) (q.span i) ∧ restsIn .resting (q.span i)) ∧
        (∀ out, (s.plant.span i).state = .moving → (s.plant.span i).v = 0 → noTestOwed s i →
          out = (if (s.plant.span i).jog.isSome = true then s.plant.out.push (.station (.jogEnded i .otherStop) s.time)
            else s.plant.out) →
          (∃ q : Plant, exec (.pause tag slot) s = .next (accepted { s with plant := q } 0xA3 tag) ∧
            energises s.time i (.spanState i .moving .holding none) { s.plant with out := out } q ∧
            sameJourney (s.plant.span i) (q.span i) ∧ (q.span i).state = .holding ∧ (q.span i).v = 0 ∧
            (q.span i).jog = none ∧ (q.span i).holdT = some ((s.env.span i).tHold * 1000) ∧ (q.span i).dwellT = none ∧ (q.span i).stop = none ∧
            (q.span i).running = false ∧ (q.span i).zoneWait = false) ∧
          (∃ q : Plant, exec (.stop tag slot) s = .next (accepted { s with plant := q } 0xA4 tag) ∧
            onlySpan i s.plant q ∧ q.out = out.push (.spanState i .moving .resting none) ∧
            sameJourney (s.plant.span i) (q.span i) ∧ restsIn .resting (q.span i))) ∧
        ((s.plant.span i).state = .proving → (s.plant.span i).test.isSome = true → noTestOwed s i →
          ∃ q : Plant, exec (.pause tag slot) s = .next (accepted { s with plant := q } 0xA3 tag) ∧
            exec (.stop tag slot) s = .next (accepted { s with plant := q } 0xA4 tag) ∧ onlySpan i s.plant q ∧
            q.out = (s.plant.out.push (.proof i .abandoned (s.plant.span i).proof.owed (s.plant.span i).testDir none
              (some .stop) s.time)).push (.spanState i .proving .resting none) ∧
            (q.span i).proof = { (s.plant.span i).proof with last := some .abandoned, run := (q.span i).proof.run } ∧
            (q.span i).x = (s.plant.span i).x ∧ (q.span i).plan = (s.plant.span i).plan ∧ restsIn .resting (q.span i)) ∧
        (∀ r, (s.plant.span i).state = .stopping → (s.plant.span i).stop = some r →
          exec (.pause tag slot) s = .next (accepted { s with
            plant := s.plant.setSpan i { s.plant.span i with windHold := false } } 0xA3 tag) ∧
          ∃ q : Plant, exec (.stop tag slot) s = .next (accepted { s with plant := q } 0xA4 tag) ∧
            q.zones = s.plant.zones ∧ (∀ m : Slot, m ≠ i → q.span m = s.plant.span m) ∧
            sameJourney (s.plant.span i) (q.span i) ∧ (q.span i).state = .stopping ∧
            (r.isSafe = false → (q.span i).v = (s.plant.span i).v) ∧
            (q.span i).stop = some { kind := kindMax r.kind .quick, endState := endMax r.endState .resting }))

/-- CLEAR FAULT (R32, R33, R137): a FAULTED span in READY whose conditions are met takes x from its measured position clamped
to the envelope and r = 0, clears its fault record and rests; where an interval it is then inside can be neither held nor
granted, it is FAULTED again with first cause ZONE_CONFLICT. The conditions are those of R32's table, and the first unmet one
refuses CONDITION with its cause; which of two skew causes it names is the model's choice (log entry 15). -/
def Obligations.FaultClearedToResting : Prop :=
  (∀ (s : State) (tag slot : Byte), free s →
    (slotOf slot = none → exec (.clearFault tag slot) s = .next (refusedWith s 0xA7 tag .range)) ∧
    ∀ i, slotOf slot = some i →
      (s.sup.mode ≠ .ready → exec (.clearFault tag slot) s = .next (refusedWith s 0xA7 tag .mode)) ∧
      (s.sup.mode = .ready → (s.plant.span i).state ≠ .faulted →
        exec (.clearFault tag slot) s = .next (refusedWith s 0xA7 tag .state))) ∧
  (∀ (env : Env) (i : Slot) (p : Plant),
    (clearRefusal env i p = none ↔ ∀ n, clearMet env i p n) ∧
    (¬ clearMet env i p 1 → clearRefusal env i p = some .bogieLoss) ∧
    (clearMet env i p 1 → ¬ clearMet env i p 2 → clearRefusal env i p = some .bogieLoss) ∧
    ((∀ n, n < 3 → clearMet env i p n) → ¬ clearMet env i p 3 → clearRefusal env i p = some .zoneConflict) ∧
    ((∀ n, n < 4 → clearMet env i p n) → ¬ clearMet env i p 4 → clearRefusal env i p = some .envelope) ∧
    ((∀ n, n < 5 → clearMet env i p n) → ¬ clearMet env i p 5 → clearRefusal env i p =
      some (if (p.span i).faultHas .skewStop = true then .skewStop else .skewTrip))) ∧
  (∀ (s : State) (tag slot : Byte) (i : Slot) (x : Int), free s → slotOf slot = some i → s.sup.mode = .ready →
    (s.plant.span i).state = .faulted →
    (∀ c, clearRefusal s.env i s.plant = some c →
      exec (.clearFault tag slot) s = .next (refusedWith s 0xA7 tag (.condition (some c)))) ∧
    (clearRefusal s.env i s.plant = none →
      x = (match (s.plant.span i).meas.m with
        | some m => max (s.env.span i).xmin (min (s.env.span i).xmax m)
        | none => (s.plant.span i).x) →
      ((∀ z ∈ s.plant.zones, ∀ d, z.sideOf i = some d → z.lo d ≤ x → x ≤ z.hi d →
          z.claim = sideClaim d ∨ (z.claim = .free ∧ (z.part (sideOther d)).inside = false)) → noTestOwed s i →
        ∃ q : Plant, exec (.clearFault tag slot) s = .next (accepted { s with plant := q } 0xA7 tag) ∧
          q.link = s.plant.link ∧ (∀ j : Slot, j ≠ i → q.span j = s.plant.span j) ∧
          sameJourney { s.plant.span i with x := x, r := 0, fault := none } (q.span i) ∧ restsIn .resting (q.span i)) ∧
      ((∃ z ∈ s.plant.zones, ∃ d, z.sideOf i = some d ∧ z.lo d ≤ x ∧ x ≤ z.hi d ∧
          z.claim ≠ sideClaim d ∧ (z.claim ≠ .free ∨ (z.part (sideOther d)).inside = true)) →
        ∃ q : Plant, exec (.clearFault tag slot) s = .next (accepted { s with plant := q } 0xA7 tag) ∧
          q.link = s.plant.link ∧ (∀ j : Slot, j ≠ i → q.span j = s.plant.span j) ∧ restsIn .faulted (q.span i) ∧
          (q.span i).x = x ∧ (q.span i).plan = (s.plant.span i).plan ∧
          ∃ f, (q.span i).fault = some f ∧ f.first = .zoneConflict ∧ f.later = [])))

/-- PROOF (R119, R120): in READY, for a RESTING or HOLDING span with the key REMOTE and every bogie valid, the span enters
PROVING with a test in phase BRAKE_SET, its timer at 2 s and its direction the next one; otherwise it is refused, in the
order of the rule's table. Queued host writes of its addresses are withdrawn (R109); that their reports follow the SPAN_STATE
report is the model's choice (log entry 9). -/
def Obligations.ProofRequestStartsATest : Prop :=
  ∀ (s : State) (tag slot : Byte), free s →
    (∀ i, slotOf slot = some i → s.sup.mode = .ready →
      (s.plant.span i).state = .resting ∨ (s.plant.span i).state = .holding → s.station.key.val = false →
      (∀ a ∈ s.plant.bogies i, a.isValid s.cfg.dev.stale = true) →
      ∃ q : Plant, exec (.proof tag slot) s = .next (accepted { s with plant := q } 0xA8 tag) ∧
        energises s.time i (.spanState i (s.plant.span i).state .proving none) s.plant q ∧
        sameJourney (s.plant.span i) (q.span i) ∧ (q.span i).state = .proving ∧ (q.span i).v = 0 ∧ (q.span i).holdT = none ∧
        (q.span i).test = some { phase := .brakeSet, timer := 2000, dir := (s.plant.span i).proof.nextDir, starts := [] }) ∧
    (∀ i, slotOf slot = some i → s.sup.mode = .ready →
      ((s.plant.span i).state ≠ .resting → (s.plant.span i).state ≠ .holding →
        exec (.proof tag slot) s = .next (refusedWith s 0xA8 tag .state)) ∧
      ((s.plant.span i).state = .resting ∨ (s.plant.span i).state = .holding →
        (s.station.key.val = true → exec (.proof tag slot) s = .next (refusedWith s 0xA8 tag .localControl)) ∧
        (s.station.key.val = false → (∃ a ∈ s.plant.bogies i, a.isValid s.cfg.dev.stale = false) →
          exec (.proof tag slot) s = .next (refusedWith s 0xA8 tag (.condition none))))) ∧
    (∀ i, slotOf slot = some i → s.sup.mode ≠ .ready → exec (.proof tag slot) s = .next (refusedWith s 0xA8 tag .mode)) ∧
    (slotOf slot = none → exec (.proof tag slot) s = .next (refusedWith s 0xA8 tag .range))

/-- LOCK and UNLOCK (R107, R125, R127): a RESTING span at a lock position with a lock unit, proven and not owing a relock
test enters LOCKING, and a LOCKED span UNLOCKING, each with its lock record, the lock timer at T_lock, and its command
behind the lock commands already queued and ahead of every host write; at a full queue the newest host write makes room. -/
def Obligations.LockAndUnlockQueued : Prop :=
  ∀ (s : State) (tag slot : Byte) (i : Slot), free s → slotOf slot = some i → s.sup.mode = .ready →
    s.station.key.val = false →
    ((s.plant.span i).state = .resting → (s.plant.lockUnit i).isSome = true → (s.plant.span i).proof.unproven = false →
      (s.plant.span i).proof.relock = false →
      (∃ m, (s.plant.span i).lastM = some m ∧
        ((m - (s.env.span i).lock1).natAbs ≤ (s.env.span i).lockTol ∨ (m - (s.env.span i).lock2).natAbs ≤ (s.env.span i).lockTol)) →
      ∃ q : Plant, exec (.lock tag slot) s = .next (accepted { s with plant := q } 0xA9 tag) ∧
        q.zones = s.plant.zones ∧ (∀ j : Slot, j ≠ i → q.span j = s.plant.span j) ∧
        q.link = { s.plant.link with
          params := insertLock (.lock i .engage) (if 8 ≤ s.plant.link.params.length
            then (dropNewestHost s.plant.link.params).2 else s.plant.link.params) } ∧
        sameJourney (s.plant.span i) (q.span i) ∧ (q.span i).state = .locking ∧
        (q.span i).lock = some { cmd := .engage, sent := false, replied := false, timer := (s.env.span i).tLock * 1000 }) ∧
    ((s.plant.span i).state = .locked →
      ∃ q : Plant, exec (.unlock tag slot) s = .next (accepted { s with plant := q } 0xAA tag) ∧
        q.zones = s.plant.zones ∧ (∀ j : Slot, j ≠ i → q.span j = s.plant.span j) ∧
        q.link = { s.plant.link with
          params := insertLock (.lock i .retract) (if 8 ≤ s.plant.link.params.length
            then (dropNewestHost s.plant.link.params).2 else s.plant.link.params) } ∧
        sameJourney (s.plant.span i) (q.span i) ∧ (q.span i).state = .unlocking ∧
        (q.span i).lock = some { cmd := .retract, sent := false, replied := false, timer := (s.env.span i).tLock * 1000 })

/-- What refuses a LOCK, each condition with every earlier one passed (the table of R125), and what refuses an UNLOCK (R127). -/
def Obligations.LockRefusedInOrder : Prop :=
  ∀ (s : State) (tag slot : Byte), free s →
    (slotOf slot = none → exec (.lock tag slot) s = .next (refusedWith s 0xA9 tag .range) ∧
      exec (.unlock tag slot) s = .next (refusedWith s 0xAA tag .range)) ∧
    ∀ i, slotOf slot = some i →
      (s.sup.mode ≠ .ready → exec (.lock tag slot) s = .next (refusedWith s 0xA9 tag .mode) ∧
        exec (.unlock tag slot) s = .next (refusedWith s 0xAA tag .mode)) ∧
      (s.sup.mode = .ready →
        ((s.plant.span i).state ≠ .resting → exec (.lock tag slot) s = .next (refusedWith s 0xA9 tag .state)) ∧
        ((s.plant.span i).state = .resting →
          (s.station.key.val = true → exec (.lock tag slot) s = .next (refusedWith s 0xA9 tag .localControl)) ∧
          (s.station.key.val = false →
            (s.plant.lockUnit i = none → exec (.lock tag slot) s = .next (refusedWith s 0xA9 tag .noLockUnit)) ∧
            ((s.plant.lockUnit i).isSome = true →
              ((s.plant.span i).proof.unproven = true ∨ (s.plant.span i).proof.relock = true →
                exec (.lock tag slot) s = .next (refusedWith s 0xA9 tag .proofRequired)) ∧
              ((s.plant.span i).proof.unproven = false → (s.plant.span i).proof.relock = false →
                (∀ m, (s.plant.span i).lastM = some m → (s.env.span i).lockTol < (m - (s.env.span i).lock1).natAbs ∧
                  (s.env.span i).lockTol < (m - (s.env.span i).lock2).natAbs) →
                exec (.lock tag slot) s = .next (refusedWith s 0xA9 tag .notAtLock))))) ∧
        ((s.plant.span i).state ≠ .locked → exec (.unlock tag slot) s = .next (refusedWith s 0xAA tag .state)) ∧
        ((s.plant.span i).state = .locked → s.station.key.val = true →
          exec (.unlock tag slot) s = .next (refusedWith s 0xAA tag .localControl)))

/-- WRITE PARAMETER (R106): in READY, for a configured address of a span that is not energised, the write joins the tail of
a queue with room, answered with the entries it then holds; otherwise it is refused, in the order of the rule's table. -/
def Obligations.ParameterWriteQueued : Prop :=
  ∀ (s : State) (tag addr index : Byte) (value : BitVec 16), free s →
    (addr.toNat = 0 ∨ 64 < addr.toNat → exec (.writeParameter tag addr index value) s = .next (refusedWith s 0xAB tag .range)) ∧
    (1 ≤ addr.toNat → addr.toNat ≤ 64 →
      (s.sup.mode ≠ .ready → exec (.writeParameter tag addr index value) s = .next (refusedWith s 0xAB tag .mode)) ∧
      (s.sup.mode = .ready → s.plant.link.find addr.toNat = none →
        exec (.writeParameter tag addr index value) s = .next (refusedWith s 0xAB tag .range)) ∧
      (∀ a, s.sup.mode = .ready → s.plant.link.find addr.toNat = some a →
        ((s.plant.span a.slot).state.energised = true →
          exec (.writeParameter tag addr index value) s = .next (refusedWith s 0xAB tag .state)) ∧
        ((s.plant.span a.slot).state.energised = false → 8 ≤ s.plant.link.params.length →
          exec (.writeParameter tag addr index value) s = .next (refusedWith s 0xAB tag .busy)) ∧
        ((s.plant.span a.slot).state.energised = false → s.plant.link.params.length < 8 →
          exec (.writeParameter tag addr index value) s = .next (answered { s with
              plant := { s.plant with link := { s.plant.link with
                params := s.plant.link.params ++ [.host addr.toNat index value] } } } 0xAB tag
            (.ok (num8 (s.plant.link.params.length + 1))) .nothing))))

/-! ### FAILSAFE -/

/-- STOP ALL (R164, R166): in READY the device enters FAILSAFE for HOST_REQUEST with its record, f and the lockout flag, and
every span is stopped QUICK to RESTING; in every other mode it is refused MODE. -/
def Obligations.StopAllEntersFailsafe : Prop :=
  ∀ (s : State) (tag : Byte), free s →
    (s.sup.mode ≠ .ready → exec (.stopAll tag) s = .next (refusedWith s 0xAC tag .mode)) ∧
    (s.sup.mode = .ready →
      ∃ q : Plant, exec (.stopAll tag) s = .next (accepted { s with
          plant := q,
          sup := { s.sup with
            mode := .failsafe, acqT := none, stableT := none, g := 0, f := min (s.sup.f + 1) 255,
            lockout := s.sup.lockout || (s.cfg.dev.fmax != 0 && decide (s.cfg.dev.fmax < min (s.sup.f + 1) 255)),
            record := some { reason := .hostRequest, time := s.time, toReady := true, later := [] } } } 0xAC tag) ∧
        ∀ i : Slot, quickStopped (s.plant.span i) (q.span i))

/-- CLEAR FAILSAFE (R58, R167): refused, in the order of the rule's table, outside FAILSAFE, under lockout, with a good run
below 3 or ESTOP asserted, and with a span in motion; otherwise the record is cleared, and the device enters READY with
every override at 100, or INIT with every span UNCONFIGURED, by the record's return mode. The address records are kept, with the
validity, load trim and command of the last period: the model's reading (log entry 46). -/
def Obligations.FailsafeClearedToItsReturnMode : Prop :=
  ∀ (s : State) (tag : Byte), free s →
    (s.sup.mode ≠ .failsafe → exec (.clearFailsafe tag) s = .next (refusedWith s 0xAD tag .mode)) ∧
    (s.sup.mode = .failsafe →
      (s.sup.lockout = true → exec (.clearFailsafe tag) s = .next (refusedWith s 0xAD tag .lockout)) ∧
      (s.sup.lockout = false →
        (s.sup.g < 3 ∨ s.station.estop.val = true →
          exec (.clearFailsafe tag) s = .next (refusedWith s 0xAD tag (.condition none))) ∧
        (3 ≤ s.sup.g → s.station.estop.val = false →
          (∀ i : Slot, (s.plant.span i).state = .starting ∨ (s.plant.span i).state = .moving ∨
              (s.plant.span i).state = .stopping ∨ (s.plant.span i).state = .proving →
            exec (.clearFailsafe tag) s = .next (refusedWith s 0xAD tag .state)) ∧
          (∀ k, (∀ i : Slot, (s.plant.span i).state.inMotion = false) → s.sup.record = some k →
            (k.toReady = true → exec (.clearFailsafe tag) s = .next (accepted { s with
              sup := { s.sup with mode := .ready, acqT := none, window := some 0, stableT := some 600000, record := none },
              plant := { s.plant with
                spans := s.plant.spans.map (fun sp => { sp with override := 100 }),
                out := s.plant.out.push (.mode .ready .none s.time) } } 0xAD tag)) ∧
            (k.toReady = false → ∃ q : Plant, exec (.clearFailsafe tag) s = .next (accepted { s with
                sup := { s.sup with mode := .init, acqT := none, window := none, e := 0, g := 0, stableT := none, record := none },
                plant := q } 0xAD tag) ∧
              q.out = s.plant.out.push (.mode .init (.cause .clearFailsafe) s.time) ∧
              q.link.addrs = s.plant.link.addrs ∧ q.link.bcasts = s.plant.link.bcasts ∧
              ∀ i : Slot, (q.span i).state = .unconfigured ∧ blankSpan (q.span i) ∧
                (q.span i).proof.owed = (s.plant.span i).proof.owed)))))

/-! ### Events of the spans -/

/-- SPAN_PERIOD of a span that is UNCONFIGURED restarts its period timer and takes no step; in every other state the timer
restarts, a set is posted in the setpoint mode the period leaves, and the other spans are as they were (R16, R35). With no stop
still to be taken, the period measures (R77 to R79), judges the degraded flag (R81), forms the trims, commands and skew (R78,
R82 to R87, R91), posts the commands in rail and address order (R98), and raises the stops of its checks in the order of R90 (R27,
R80, R88 to R90), read from x and the state the period leaves (log entries 39 and 40). That the intrusion stop of R138, which R90
lets be taken before or after them, stands last is the model's choice (log entry 8). -/
def Obligations.SpanPeriodPostsASet : Prop :=
  ∀ (s : State) (i : Slot), s.resetPin = false →
    ((s.plant.span i).state = .unconfigured → exec (.spanPeriod i) s =
      .next (settle { s with plant := s.plant.setSpan i { s.plant.span i with periodT := 10 } })) ∧
    ((s.plant.span i).state ≠ .unconfigured →
      ∃ q : Plant, exec (.spanPeriod i) s = .next (settle { s with plant := q }) ∧ (q.span i).periodT = 10 ∧
        (q.span i).state ≠ .unconfigured ∧ (∀ j : Slot, j ≠ i → q.span j = s.plant.span j) ∧
        (∃ set, (q.span i).posted = some set ∧ (q.span i).setpointMode = some set.mode) ∧
        ((s.plant.span i).raised = [] → 0 < (s.env.span i).rails →
          measured s.env i s.plant (s.plant.span i) (q.span i) ∧ trimmed (s.env.span i) (s.plant.span i) (q.span i) ∧
          skewed (s.env.span i) (s.plant.span i) (q.span i) ∧
          (q.span i).degraded = decide
            ((∀ r : Rail, r.val < (s.env.span i).rails → s.env.minValid i r ≤ (q.span i).meas.nValid.get r) ∧
              ∃ r : Rail, r.val < (s.env.span i).rails ∧ (q.span i).meas.nValid.get r < s.env.declared i r) ∧
          q.link.addrs = s.plant.link.addrs.map (driven s.env i s.plant (q.span i)) ∧
          (∀ set, (q.span i).posted = some set → set.cmds = (four.flatMap (q.railBogies i)).map (fun a => (a.addr,
            match set.mode with
            | .run => a.command
            | .proof => dirInt (q.span i).testDir * (s.env.span i).proofTorque
            | .braked => 0
            | .energize => 0))) ∧
          (q.span i).raised = periodStops s.env i (q.span i) q.zones ∧
          ((s.plant.span i).state = .faulted ∨ (s.plant.span i).state = .locked → s.plant.zones = [] →
            q.out = if (s.plant.span i).skewArmed = true ∧ (q.span i).skewArmed = false
              then s.plant.out.push (.skewWarn i (q.span i).skew (((q.span i).leading).getD 0) (((q.span i).lagging).getD 0) s.time)
              else s.plant.out)))

/-- One period in MOVING (R40 to R47, R61 to R69, R74). With a jog or a run in progress, R63 to R66 choose the speed for the run,
the zone edges and k; short of the nearest stop point x and r follow R67, and otherwise x stands on it with v = 0 and r = 0.
Heads the chain has reached retire, at the run's end also those behind it with its target (log entry 3); what follows is a dwell or
HOLDING, starved or not; the reports are SEGMENT_DONE and PLAN_LOW in the order of log entry 38, then PLAN_STARVED and SPAN_STATE.
A snap on a zone edge leaves the span MOVING in zone wait (log entry 11). A dwell changes nothing. A first period retires the
heads at x and runs from the next as a period of that run does, with the reports of both retirements in one order (log entry 38).
An interior boundary of limit 0, at k = 0, is no stop point (log entry 10). -/
def Obligations.PeriodInMovingAdvancesOrSnaps : Prop :=
  (∀ (s : State) (i : Slot) (k : Nat) (t : Travel) (room u : Nat), s.resetPin = false →
    (s.plant.span i).state = .moving → (s.plant.span i).dwellT = none → (s.plant.span i).raised = [] →
    (s.plant.span i).jog.isSome = true ∨ (s.plant.span i).running = true →
    k = min s.wind.kw (min (s.plant.span i).override (if (s.plant.span i).degraded then (s.env.span i).kdeg else 100)) →
    (s.plant.span i).travel k = some t → room = t.room (zoneEdges i s.plant) →
    u = creepFloor (s.env.span i).c (t.cruise * k / 100) room
      (checkedSpeed (s.env.span i).ad (t.accel / 100) (t.cruise * k / 100) (s.plant.span i).v (s.plant.span i).r (t.boundaries room)) →
    ∃ q : Plant, exec (.spanPeriod i) s = .next (settle { s with plant := q }) ∧
      (∀ j : Slot, j ≠ i → q.span j = s.plant.span j) ∧ (q.span i).dir = (s.plant.span i).dir ∧
      ((u + (s.plant.span i).r) / 100 < room →
        (q.span i).state = .moving ∧ (q.span i).v = u ∧
        (q.span i).x = (s.plant.span i).x + dirInt (s.plant.span i).dir * ((u + (s.plant.span i).r) / 100 : Nat) ∧
        (q.span i).r = (u + (s.plant.span i).r) % 100 ∧ (q.span i).zoneWait = false ∧
        (q.span i).running = (s.plant.span i).running ∧ (q.span i).jog = (s.plant.span i).jog) ∧
      (room ≤ (u + (s.plant.span i).r) / 100 →
        (q.span i).x = (s.plant.span i).x + dirInt (s.plant.span i).dir * room ∧ (q.span i).v = 0 ∧ (q.span i).r = 0) ∧
      (room ≤ (u + (s.plant.span i).r) / 100 → room ≠ t.stopAt →
        (q.span i).state = .moving ∧ (q.span i).zoneWait = true ∧ (q.span i).running = (s.plant.span i).running ∧
        (q.span i).jog = (s.plant.span i).jog) ∧
      ((s.plant.span i).jog = none →
        (q.span i).plan = (s.plant.span i).plan.drop
          (retiredHeads (s.plant.span i).dir (q.span i).x (s.plant.span i).run (s.plant.span i).plan).length) ∧
      (∀ j, (s.plant.span i).jog = some j → (q.span i).plan = (s.plant.span i).plan ∧
        (room ≤ (u + (s.plant.span i).r) / 100 → room = t.stopAt → noTestOwed s i →
          (q.span i).state = .holding ∧ (q.span i).jog = none)) ∧
      (∀ (segs : List Segment) (last : Segment), (s.plant.span i).jog = none → room ≤ (u + (s.plant.span i).r) / 100 →
        room = t.stopAt → noTestOwed s i →
        segs = retiredHeads (s.plant.span i).dir (q.span i).x (s.plant.span i).run (s.plant.span i).plan →
        segs.getLast? = some last →
        ((q.span i).plan ≠ [] → (q.span i).state = .moving ∧ (q.span i).running = false ∧
          (q.span i).starved = (s.plant.span i).starved ∧
          (q.span i).dwellT = if last.dwell = 0 then none else some (last.dwell * 1000)) ∧
        ((q.span i).plan = [] → (q.span i).state = .holding ∧ (q.span i).running = false ∧ (q.span i).dwellT = none ∧
          (q.span i).holdT = some ((s.env.span i).tHold * 1000) ∧
          (q.span i).starved = (if last.stop = true then (s.plant.span i).starved else true) ∧
          (s.plant.zones = [] → (s.plant.span i).skewArmed = false →
            (∀ e ∈ s.plant.link.params, s.plant.link.isWriteOf i e = false) →
            q.out = (retireReports s.time i (s.plant.span i).lw (s.plant.span i).plan.length segs true ++
              (if last.stop = true then [] else [Report.planStarved i last.tag (q.span i).x s.time]) ++
              [Report.spanState i .moving .holding none]).foldl ReportQueue.push s.plant.out)))) ∧
  (∀ (s : State) (i : Slot) (t : Nat), s.resetPin = false → (s.plant.span i).state = .moving →
    (s.plant.span i).dwellT = some t → (s.plant.span i).raised = [] →
    ∃ q : Plant, exec (.spanPeriod i) s = .next (settle { s with plant := q }) ∧ (q.span i).state = .moving ∧
      (q.span i).x = (s.plant.span i).x ∧ (q.span i).v = (s.plant.span i).v ∧ (q.span i).r = (s.plant.span i).r ∧
      (q.span i).plan = (s.plant.span i).plan ∧ (q.span i).dwellT = some t ∧ (q.span i).running = (s.plant.span i).running) ∧
  (∀ (s : State) (i : Slot) (gone later : List Segment), s.resetPin = false → (s.plant.span i).state = .moving →
    (s.plant.span i).dwellT = none → (s.plant.span i).raised = [] → (s.plant.span i).jog = none →
    (s.plant.span i).running = false → (s.plant.span i).plan = gone ++ later → (∀ g ∈ gone, g.target = (s.plant.span i).x) →
    (∀ h rest p, later = h :: rest → h.target ≠ (s.plant.span i).x →
      p = s.plant.setSpan i { s.plant.span i with
          plan := later, running := true, dir := if (s.plant.span i).x < h.target then .pos else .neg } →
      ∃ (q u : Plant), exec (.spanPeriod i) s = .next (settle { s with plant := q }) ∧
        exec (.spanPeriod i) { s with plant := p } = .next (settle { s with plant := u }) ∧ q = { u with out := q.out } ∧
        ((q.span i).plan ≠ [] → exec (.spanPeriod i) s = exec (.spanPeriod i) { s with plant := { p with
          out := (retireReports s.time i (s.plant.span i).lw (s.plant.span i).plan.length gone false).foldl ReportQueue.push
            s.plant.out } }) ∧
        (∀ last, (q.span i).plan = [] → later.getLast? = some last → noTestOwed s i → s.plant.zones = [] →
          (s.plant.span i).skewArmed = false → (∀ e ∈ s.plant.link.params, s.plant.link.isWriteOf i e = false) →
          (q.span i).state = .holding ∧
          q.out = (retireReports s.time i (s.plant.span i).lw (s.plant.span i).plan.length (s.plant.span i).plan true ++
            (if last.stop = true then [] else [Report.planStarved i last.tag (q.span i).x s.time]) ++
            [Report.spanState i .moving .holding none]).foldl ReportQueue.push s.plant.out)) ∧
    (∀ last, later = [] → gone.getLast? = some last → noTestOwed s i →
      ∃ q : Plant, exec (.spanPeriod i) s = .next (settle { s with plant := q }) ∧ (q.span i).state = .holding ∧
        (q.span i).plan = [] ∧ (q.span i).x = (s.plant.span i).x ∧ (q.span i).v = 0 ∧
        (q.span i).starved = (if last.stop = true then (s.plant.span i).starved else true) ∧
        (s.plant.zones = [] → (s.plant.span i).skewArmed = false →
          (∀ e ∈ s.plant.link.params, s.plant.link.isWriteOf i e = false) →
          q.out = (retireReports s.time i (s.plant.span i).lw (s.plant.span i).plan.length gone true ++
            (if last.stop = true then [] else [Report.planStarved i last.tag (q.span i).x s.time]) ++
            [Report.spanState i .moving .holding none]).foldl ReportQueue.push s.plant.out))) ∧
  (∀ (dir : Dir) (x : Int) (chain later : List Segment),
    ((∃ g ∈ chain, dirInt dir * (x - g.target) < 0) →
      retiredHeads dir x chain (chain ++ later) = chain.takeWhile (fun g => 0 ≤ dirInt dir * (x - g.target))) ∧
    (chain ≠ [] → (∀ g ∈ chain, 0 ≤ dirInt dir * (x - g.target)) →
      retiredHeads dir x chain (chain ++ later) = chain ++ later.takeWhile (fun g => g.target == x))) ∧
  (∀ (time : Time) (i : Slot) (lw count : Nat) (segs : List Segment), segs.length ≤ count →
    (∀ b, count ≤ lw ∨ lw < count - segs.length → retireReports time i lw count segs b = doneReports time i count segs) ∧
    (lw < count → count - segs.length ≤ lw →
      retireReports time i lw count segs true = doneReports time i count segs ++ [.planLow i lw lw] ∧
      retireReports time i lw count segs false = doneReports time i count (segs.take (count - lw)) ++ [.planLow i lw lw] ++
        doneReports time i lw (segs.drop (count - lw))))

/-- What the generator's choice of speed keeps (R59, R64, R65, R66): a speed never above the head's effective limit unless the
span was already above it, and then never below v less d_dec; a speed above v passes the braking check or is the creep
floor; and a span slows by at most d_dec in a period. In STOPPING under a CONTROLLED or QUICK stop v falls by d_dec or d_q, x
advances with the snap, heads reached retire, and at v = 0 the stop's end state is entered with no dwell and no starvation
(R22, R48, R70), the reports being the SEGMENT_DONEs, with PLAN_LOW behind the one that crosses the mark (R51), and then SPAN_STATE.
Which heads retire, those of the run's chain and those of its target behind it, is the model's reading (log entry 3). -/
def Obligations.ChosenSpeedKeepsItsLimits : Prop :=
  (∀ (ad dacc l0 v r c room : Nat) (bs : List Boundary) (u : Nat),
    u = creepFloor c l0 room (checkedSpeed ad dacc l0 v r bs) →
    (v ≤ l0 → u ≤ l0) ∧ (l0 < v → u < v ∨ ad / 100 = 0) ∧ v - ad / 100 ≤ u ∧ u ≤ max v l0 ∧
    (v < u → brakeOkAll ad r u bs = true ∨ u = min c l0) ∧ (v < u → u ≤ max (v + dacc) c)) ∧
  (∀ (s : State) (i : Slot) (rec : StopRecord) (t : Travel) (room u δ : Nat), s.resetPin = false →
    (s.plant.span i).state = .stopping → (s.plant.span i).stop = some rec → rec.kind ≠ .safe →
    (s.plant.span i).raised = [] → (s.plant.span i).travel 100 = some t → room = t.room (zoneEdges i s.plant) →
    u = (s.plant.span i).v - (if rec.kind = .quick then (s.env.span i).aq else (s.env.span i).ad) / 100 →
    δ = (u + (s.plant.span i).r) / 100 → noTestOwed s i →
    ∃ q : Plant, exec (.spanPeriod i) s = .next (settle { s with plant := q }) ∧
      (∀ j : Slot, j ≠ i → q.span j = s.plant.span j) ∧
      (q.span i).x = (s.plant.span i).x + dirInt (s.plant.span i).dir * (min δ room : Nat) ∧
      (q.span i).r = (if δ < room then (u + (s.plant.span i).r) % 100 else 0) ∧
      (q.span i).starved = (s.plant.span i).starved ∧
      ((s.plant.span i).jog = none → (q.span i).plan = (s.plant.span i).plan.drop
        (retiredHeads (s.plant.span i).dir (q.span i).x (s.plant.span i).run (s.plant.span i).plan).length) ∧
      ((s.plant.span i).jog.isSome = true → (q.span i).plan = (s.plant.span i).plan) ∧
      (δ < room → u ≠ 0 → (q.span i).state = .stopping ∧ (q.span i).v = u ∧ (q.span i).stop = some rec) ∧
      (room ≤ δ ∨ u = 0 → (q.span i).v = 0 ∧ (q.span i).stop = none ∧ (q.span i).jog = none ∧
        (q.span i).running = false ∧ (q.span i).zoneWait = false ∧ (q.span i).dwellT = none ∧
        (q.span i).state = (match rec.endState with | .holding => .holding | .resting => .resting | .faulted => .faulted)) ∧
      (s.plant.zones = [] → (s.plant.span i).skewArmed = false →
        (∀ e ∈ s.plant.link.params, s.plant.link.isWriteOf i e = false) →
        q.out = ((if (s.plant.span i).jog.isSome then [] else
            retireReports s.time i (s.plant.span i).lw (s.plant.span i).plan.length
              (retiredHeads (s.plant.span i).dir (q.span i).x (s.plant.span i).run (s.plant.span i).plan) false) ++
          (if room ≤ δ ∨ u = 0 then [Report.spanState i .stopping (q.span i).state none] else [])).foldl
            ReportQueue.push s.plant.out))

/-- STOP_TAKEN (R18 to R26, R80), by the state that the stop finds. In LOCKING, LOCKED, UNLOCKING and UNCONFIGURED, in RESTING and FAULTED
with an end state other than FAULTED, and in HOLDING with the end state HOLDING, it has no effect (a SAFE one in HOLDING: log entry
33). In FAULTED its cause joins the record, once. In RESTING, HOLDING, STARTING and PROVING it leads to its end state at once, HOLDING
taken as RESTING, a test abandoned, and a SAFE one leaves a broadcast pending but in RESTING. In MOVING a SAFE one sets v to 0, starts the
safe stop timer at 5 s, posts BRAKED and leaves a broadcast pending; another is over at once at v = 0, and at speed enters STOPPING
with v kept. In STOPPING kind and end state are merged. A stop ending FAULTED registers its cause. The model's choices: the stop is
removed once from those still to be taken, and one that is not among them is taken all the same (log entry 8). -/
def Obligations.StopTakenByState : Prop :=
  ∀ (s : State) (i : Slot) (req : StopRequest), s.resetPin = false → req.causeFits = true →
    ((s.plant.span i).state = .locking ∨ (s.plant.span i).state = .locked ∨ (s.plant.span i).state = .unlocking ∨
        (s.plant.span i).state = .unconfigured ∨ ((s.plant.span i).state = .resting ∧ req.endState ≠ .faulted) ∨
        ((s.plant.span i).state = .faulted ∧ req.endState ≠ .faulted) ∨
        ((s.plant.span i).state = .holding ∧ req.endState = .holding) →
      exec (.stopTaken i req) s = .next (settle { s with
        plant := s.plant.setSpan i { s.plant.span i with raised := (s.plant.span i).raised.erase req } })) ∧
    (∀ c, (s.plant.span i).state = .faulted → req.endState = .faulted → req.cause = some c →
      ∃ q : Plant, exec (.stopTaken i req) s = .next (settle { s with plant := q }) ∧ onlySpan i s.plant q ∧
        q.span i = { s.plant.span i with
          raised := (s.plant.span i).raised.erase req, fault := some (faultWith s.time c (s.plant.span i)) } ∧
        (∀ f, (s.plant.span i).fault = some f →
          q.out = if f.first = c ∨ c ∈ f.later then s.plant.out else s.plant.out.push (.spanFault i c none))) ∧
    ((s.plant.span i).state = .resting ∧ req.endState = .faulted ∨
        (s.plant.span i).state = .holding ∧ req.endState ≠ .holding ∨ (s.plant.span i).state = .starting ∨
        (s.plant.span i).state = .proving ∨
        ((s.plant.span i).state = .moving ∧ (s.plant.span i).v = 0 ∧ req.kind ≠ .safe ∧ req.endState ≠ .holding) →
      req.endState = .faulted ∨ noTestOwed s i →
      ∃ q : Plant, exec (.stopTaken i req) s = .next (settle { s with plant := q }) ∧ q.zones = s.plant.zones ∧
        q.link = { s.plant.link with bcasts := q.link.bcasts, cycle := q.link.cycle } ∧
        (req.kind ≠ .safe ∨ (s.plant.span i).state = .resting → q.link = s.plant.link) ∧
        (req.kind = .safe → (s.plant.span i).state ≠ .resting → q.link.bcasts.any (fun b => b.slot == i) = true) ∧
        (∀ j : Slot, j ≠ i → q.span j = s.plant.span j) ∧ restsIn (restState req.endState) (q.span i) ∧
        sameJourney { s.plant.span i with
          raised := (s.plant.span i).raised.erase req, fault := faultAfter s.time req (s.plant.span i),
          proof := if (s.plant.span i).state = .proving then { (s.plant.span i).proof with last := some .abandoned }
            else (s.plant.span i).proof } (q.span i) ∧
        ((s.plant.span i).state = .holding ∨ (s.plant.span i).state = .starting ∨ (s.plant.span i).state = .moving →
          (q.span i).posted.map (fun set => set.mode) = some .braked)) ∧
    ((s.plant.span i).state = .moving → (s.plant.span i).v = 0 → req.kind ≠ .safe → req.endState = .holding → noTestOwed s i →
      ∃ q : Plant, exec (.stopTaken i req) s = .next (settle { s with plant := q }) ∧ q.zones = s.plant.zones ∧
        q.link = { s.plant.link with params := s.plant.link.params.filter (fun e => !s.plant.link.isWriteOf i e) } ∧
        (∀ j : Slot, j ≠ i → q.span j = s.plant.span j) ∧ (q.span i).state = .holding ∧ (q.span i).v = 0 ∧
        (q.span i).holdT = some ((s.env.span i).tHold * 1000) ∧ (q.span i).stop = none ∧ (q.span i).dwellT = none ∧
        (q.span i).jog = none ∧ (q.span i).running = false ∧ (q.span i).zoneWait = false ∧
        sameJourney { s.plant.span i with raised := (s.plant.span i).raised.erase req } (q.span i)) ∧
    ((s.plant.span i).state = .moving → (s.plant.span i).v ≠ 0 → req.kind ≠ .safe →
      ∃ q : Plant, exec (.stopTaken i req) s = .next (settle { s with plant := q }) ∧ q.zones = s.plant.zones ∧
        q.link = { s.plant.link with params := s.plant.link.params.filter (fun e => !s.plant.link.isWriteOf i e) } ∧
        (∀ j : Slot, j ≠ i → q.span j = s.plant.span j) ∧ (q.span i).state = .stopping ∧
        (q.span i).stop = some { kind := req.kind, endState := req.endState } ∧ (q.span i).v = (s.plant.span i).v ∧
        (q.span i).dwellT = none ∧ (q.span i).safeT = none ∧ (q.span i).running = (s.plant.span i).running ∧
        (q.span i).jog = (s.plant.span i).jog ∧ (q.span i).posted = (s.plant.span i).posted ∧
        sameJourney { s.plant.span i with
          raised := (s.plant.span i).raised.erase req, fault := faultAfter s.time req (s.plant.span i) } (q.span i)) ∧
    ((s.plant.span i).state = .moving → req.kind = .safe →
      ∃ q : Plant, exec (.stopTaken i req) s = .next (settle { s with plant := q }) ∧ q.zones = s.plant.zones ∧
        (∀ j : Slot, j ≠ i → q.span j = s.plant.span j) ∧ (q.span i).state = .stopping ∧ (q.span i).v = 0 ∧
        (q.span i).safeT = some 5000 ∧ (q.span i).stop = some { kind := .safe, endState := req.endState } ∧
        (q.span i).jog = none ∧ (q.span i).running = false ∧ (q.span i).dwellT = none ∧
        (q.span i).posted.map (fun set => set.mode) = some .braked ∧
        q.link.bcasts.any (fun b => b.slot == i) = true ∧
        sameJourney { s.plant.span i with
          raised := (s.plant.span i).raised.erase req, fault := faultAfter s.time req (s.plant.span i) } (q.span i)) ∧
    (∀ r, (s.plant.span i).state = .stopping → (s.plant.span i).stop = some r →
      ∃ q : Plant, exec (.stopTaken i req) s = .next (settle { s with plant := q }) ∧ q.zones = s.plant.zones ∧
        (∀ j : Slot, j ≠ i → q.span j = s.plant.span j) ∧ (q.span i).state = .stopping ∧
        (q.span i).stop = some { kind := kindMax r.kind req.kind, endState := endMax r.endState req.endState } ∧
        (req.kind = .safe → r.kind ≠ .safe → (q.span i).v = 0 ∧ (q.span i).safeT = some 5000 ∧
          (q.span i).posted.map (fun set => set.mode) = some .braked ∧
          q.link.bcasts.any (fun b => b.slot == i) = true) ∧
        (req.kind ≠ .safe → r.kind ≠ .safe → (q.span i).v = (s.plant.span i).v ∧ (q.span i).jog = (s.plant.span i).jog ∧
          (q.span i).running = (s.plant.span i).running) ∧
        (r.kind = .safe → (s.plant.span i).safeT.isSome = true → (q.span i).safeT = (s.plant.span i).safeT) ∧
        sameJourney { s.plant.span i with
          raised := (s.plant.span i).raised.erase req, fault := faultAfter s.time req (s.plant.span i) } (q.span i))

/-- Two stops that reach a STOPPING span together leave the same state, stop record and causes in whichever order they are
taken: the higher kind and the more severe end state (R18, R21). -/
def Obligations.StopsMergeInEitherOrder : Prop :=
  ∀ (env : Env) (i : Slot) (a b : StopRequest) (p : Plant) (r : StopRecord) (why : JogEnd),
    (p.span i).state = .stopping → (p.span i).stop = some r →
    ((takeStop env i b why (takeStop env i a why p)).span i).state = .stopping ∧
    ((takeStop env i b why (takeStop env i a why p)).span i).stop =
      some { kind := kindMax (kindMax r.kind a.kind) b.kind, endState := endMax (endMax r.endState a.endState) b.endState } ∧
    ((takeStop env i a why (takeStop env i b why p)).span i).stop =
      ((takeStop env i b why (takeStop env i a why p)).span i).stop ∧
    ∀ c, ((takeStop env i a why (takeStop env i b why p)).span i).faultHas c =
      ((takeStop env i b why (takeStop env i a why p)).span i).faultHas c

/-- The hold timer's and the release timer's expiry (R29, R30): HOLDING goes to RESTING with plan, x and direction kept;
STARTING goes to FAULTED with cause RELEASE_TIMEOUT registered. Neither acts on a span that has left the state. A period that finds
every valid bogie READY and BRAKE_RELEASED takes STARTING to MOVING (R29); one that finds another, or no valid bogie (log entry 13),
leaves it STARTING. The model's choices: SPAN_FAULT before SPAN_STATE (log entry 9), and an expiry that acts whenever its
timer runs (log entry 32). -/
def Obligations.HoldAndReleaseTimersExpire : Prop :=
  ∀ (s : State) (i : Slot), s.resetPin = false →
    ((s.plant.span i).state = .holding → (s.plant.span i).holdT.isSome = true → noTestOwed s i →
      ∃ q : Plant, exec (.holdTimerExpiry i) s = .next (settle { s with plant := q }) ∧ onlySpan i s.plant q ∧
        q.out = s.plant.out.push (.spanState i .holding .resting none) ∧
        sameJourney (s.plant.span i) (q.span i) ∧ restsIn .resting (q.span i) ∧
        (q.span i).posted.map (fun set => set.mode) = some .braked) ∧
    ((s.plant.span i).state ≠ .holding → exec (.holdTimerExpiry i) s = .next (settle s)) ∧
    ((s.plant.span i).state = .starting → (s.plant.span i).releaseT.isSome = true → (s.plant.span i).fault = none →
        (s.plant.span i).jog = none →
      ∃ q : Plant, exec (.releaseTimerExpiry i) s = .next (settle { s with plant := q }) ∧ onlySpan i s.plant q ∧
        q.out = (s.plant.out.push (.spanFault i .releaseTimeout
          (some ((s.plant.span i).lastM.getD (s.plant.span i).x, s.time)))).push (.spanState i .starting .faulted none) ∧
        restsIn .faulted (q.span i) ∧
        sameJourney { s.plant.span i with
          fault := some { first := .releaseTimeout, pos := (s.plant.span i).lastM.getD (s.plant.span i).x, time := s.time,
                          later := [] } } (q.span i)) ∧
    ((s.plant.span i).state ≠ .starting → exec (.releaseTimerExpiry i) s = .next (settle s)) ∧
    ((s.plant.span i).state = .starting → (s.plant.span i).raised = [] →
      ∃ q : Plant, exec (.spanPeriod i) s = .next (settle { s with plant := q }) ∧
        (∀ j : Slot, j ≠ i → q.span j = s.plant.span j) ∧ (q.span i).x = (s.plant.span i).x ∧
        (q.span i).v = (s.plant.span i).v ∧ (q.span i).plan = (s.plant.span i).plan ∧ (q.span i).jog = (s.plant.span i).jog ∧
        ((∃ a ∈ s.plant.bogies i, a.isValid s.cfg.dev.stale = true) →
          (∀ a ∈ s.plant.bogies i, a.isValid s.cfg.dev.stale = true →
            ∃ r, a.last = some r ∧ r.ready = true ∧ r.released = true) →
          (q.span i).state = .moving ∧ (q.span i).releaseT = none ∧ (q.span i).setpointMode = some .run) ∧
        ((∀ a ∈ s.plant.bogies i, a.isValid s.cfg.dev.stale = false) ∨
            (∃ a ∈ s.plant.bogies i, a.isValid s.cfg.dev.stale = true ∧
              ∃ r, a.last = some r ∧ (r.ready = false ∨ r.released = false)) →
          (q.span i).state = .starting ∧ (q.span i).releaseT = (s.plant.span i).releaseT))

/-- The dwell timer's and the safe stop timer's expiry (R20, R44, R137): a dwell is over and the next period begins a run; a
SAFE stop is over whatever the bogies report, x taken from the measured position and r = 0, in the end state of the stop
with HOLDING taken as RESTING, where no entry of the Clearance Table names the span or every one that holds x is held. A period that
finds every valid bogie at speed 0 ends the stop in the same way (R20), with x from that period's own m (log entry 40); an interval
that holds x and can be neither held nor granted makes the end state FAULTED with ZONE_CONFLICT; a bogie still moving keeps the
stop. An expiry acts whenever its timer runs, whatever time is left: the model's choice (log entry 32). -/
def Obligations.DwellAndSafeStopTimersExpire : Prop :=
  ∀ (s : State) (i : Slot), s.resetPin = false →
    exec (.dwellTimerExpiry i) s = .next (settle { s with plant := s.plant.setSpan i { s.plant.span i with dwellT := none } }) ∧
    (∀ e x, (s.plant.span i).state = .stopping → (s.plant.span i).stop = some { kind := .safe, endState := e } →
      (s.plant.span i).safeT.isSome = true →
      x = (match (s.plant.span i).meas.m with
        | some m => max (s.env.span i).xmin (min (s.env.span i).xmax m)
        | none => (s.plant.span i).x) →
      (∀ z ∈ s.plant.zones, ∀ d, z.sideOf i = some d → z.lo d ≤ x → x ≤ z.hi d → z.claim = sideClaim d) → noTestOwed s i →
      ∃ q : Plant, exec (.safeStopTimerExpiry i) s = .next (settle { s with plant := q }) ∧ q.link = s.plant.link ∧
        (∀ j : Slot, j ≠ i → q.span j = s.plant.span j) ∧
        restsIn (match e with | .faulted => .faulted | .resting => .resting | .holding => .resting) (q.span i) ∧
        sameJourney { s.plant.span i with x := x, r := 0 } (q.span i)) ∧
    ((s.plant.span i).state ≠ .stopping → exec (.safeStopTimerExpiry i) s = .next (settle s)) ∧
    (∀ e, (s.plant.span i).state = .stopping → (s.plant.span i).stop = some { kind := .safe, endState := e } →
      (s.plant.span i).raised = [] → noTestOwed s i →
      ∃ q : Plant, exec (.spanPeriod i) s = .next (settle { s with plant := q }) ∧
        (∀ j : Slot, j ≠ i → q.span j = s.plant.span j) ∧ (q.span i).plan = (s.plant.span i).plan ∧
        ((∃ a ∈ s.plant.bogies i, a.isValid s.cfg.dev.stale = true ∧ ∃ r, a.last = some r ∧ r.speed ≠ 0) →
          (q.span i).state = .stopping ∧ (q.span i).stop = some { kind := .safe, endState := e } ∧
          (q.span i).x = (s.plant.span i).x ∧ (q.span i).safeT = (s.plant.span i).safeT) ∧
        ((∀ a ∈ s.plant.bogies i, a.isValid s.cfg.dev.stale = true → ∀ r, a.last = some r → r.speed = 0) →
          (q.span i).x = (match (q.span i).meas.m with
            | some m => max (s.env.span i).xmin (min (s.env.span i).xmax m)
            | none => (s.plant.span i).x) ∧ (q.span i).r = 0 ∧
          ((∀ z ∈ s.plant.zones, ∀ d, z.sideOf i = some d → z.lo d ≤ (q.span i).x → (q.span i).x ≤ z.hi d →
              z.claim = sideClaim d ∨ (z.claim = .free ∧ (z.part (sideOther d)).inside = false)) →
            restsIn (match e with | .faulted => .faulted | .resting => .resting | .holding => .resting) (q.span i)) ∧
          ((∃ z ∈ s.plant.zones, ∃ d, z.sideOf i = some d ∧ z.lo d ≤ (q.span i).x ∧ (q.span i).x ≤ z.hi d ∧
              z.claim ≠ sideClaim d ∧ (z.claim ≠ .free ∨ (z.part (sideOther d)).inside = true)) →
            restsIn .faulted (q.span i) ∧ (q.span i).faultHas .zoneConflict = true)))

/-- The interval timer's expiry (R115, R116, R117): below 8 the owed count rises by one and the timer restarts at T_proof with
no report and nothing else changed; at 8 it stays and proof-due is set, and a MOVING span at speed takes a CONTROLLED
stop to HOLDING. A timer that does not run has no effect. The model's choices:
every expiry at o = 8 acts, also one that finds proof-due set (log entry 31), and an expiry acts whenever its timer runs (log
entry 32). -/
def Obligations.ProofIntervalExpires : Prop :=
  ∀ (s : State) (i : Slot), s.resetPin = false →
    ((s.plant.span i).proof.run = .running → (s.plant.span i).proof.owed < 8 →
      exec (.proofIntervalExpiry i) s = .next (settle { s with plant := s.plant.setSpan i { s.plant.span i with
        proof := { (s.plant.span i).proof with
          owed := (s.plant.span i).proof.owed + 1, intervalMs := (s.env.span i).tProof * 3600000 } } })) ∧
    ((s.plant.span i).proof.run = .running → (s.plant.span i).proof.owed = 8 →
      ∃ q : Plant, exec (.proofIntervalExpiry i) s = .next (settle { s with plant := q }) ∧
        (∀ j : Slot, j ≠ i → q.span j = s.plant.span j) ∧ (q.span i).proof.owed = 8 ∧ (q.span i).proof.due = true ∧
        (q.span i).proof.intervalMs = (s.env.span i).tProof * 3600000 ∧ (q.span i).plan = (s.plant.span i).plan ∧
        ((s.plant.span i).state = .moving → (s.plant.span i).v ≠ 0 → (q.span i).state = .stopping ∧
          (q.span i).stop = some { kind := .controlled, endState := .holding }) ∧
        ((s.plant.span i).state = .locked ∨ (s.plant.span i).state = .stopping ∨ (s.plant.span i).state = .proving →
          (q.span i).state = (s.plant.span i).state)) ∧
    ((s.plant.span i).proof.run ≠ .running → exec (.proofIntervalExpiry i) s = .next (settle s))

/-- The ends of a test and of a lock operation by their timers (R120, R121, R123, R124, R126): BRAKE_SET ends ABANDONED for
BRAKES_NOT_SET; HOLD ends PASS when no bogie has crept past the limit, with o less one, unproven, relock and proof-due
clear and the next direction turned, and FAIL when one has, with unproven set and BRAKE_PROOF registered; a lock
operation ends FAULTED with LOCK_TIMEOUT registered and its command removed unsent. At a period, brakes found set begin HOLD
with the start positions (R120); in HOLD an invalid bogie abandons the test and a creep past the limit fails it (R121); and a
reply that counts takes LOCKING to LOCKED, and UNLOCKING to RESTING with the relock flag set (R126, R127). The model's choices: at
a period of HOLD an invalid bogie is judged before any creep (log entry 23), and an expiry acts whenever its timer runs (log
entry 32). -/
def Obligations.TestAndLockTimersExpire : Prop :=
  ∀ (s : State) (i : Slot), s.resetPin = false →
    (∀ t, (s.plant.span i).state = .proving → (s.plant.span i).test = some t → t.phase = .brakeSet → noTestOwed s i →
      ∃ q : Plant, exec (.brakeSetPhaseExpiry i) s = .next (settle { s with plant := q }) ∧ onlySpan i s.plant q ∧
        restsIn .resting (q.span i) ∧
        (q.span i).proof = { (s.plant.span i).proof with last := some .abandoned, run := (q.span i).proof.run } ∧
        q.out = (s.plant.out.push (.proof i .abandoned (s.plant.span i).proof.owed t.dir none (some .brakesNotSet) s.time)).push
          (.spanState i .proving .resting none)) ∧
    (∀ t, (s.plant.span i).state = .proving → (s.plant.span i).test = some t → t.phase = .hold →
      (∀ a ∈ s.plant.bogies i, a.isValid s.cfg.dev.stale = true) →
      ((∀ a ∈ s.plant.bogies i, (t.creepOf a).1 ≤ (s.env.span i).creepLimit) → (s.env.span i).autoProof = false →
        ∃ q : Plant, exec (.holdPhaseExpiry i) s = .next (settle { s with plant := q }) ∧ onlySpan i s.plant q ∧
          restsIn .resting (q.span i) ∧
          (q.span i).proof = { (s.plant.span i).proof with
            owed := max ((s.plant.span i).proof.owed - 1) (-8), unproven := false, relock := false, due := false,
            last := some .pass, nextDir := dirFlip (s.plant.span i).proof.nextDir, run := (q.span i).proof.run }) ∧
      ((∃ a ∈ s.plant.bogies i, (s.env.span i).creepLimit < (t.creepOf a).1) → (s.plant.span i).fault = none →
        ∃ q : Plant, exec (.holdPhaseExpiry i) s = .next (settle { s with plant := q }) ∧ onlySpan i s.plant q ∧
          restsIn .faulted (q.span i) ∧
          (q.span i).proof = { (s.plant.span i).proof with
            unproven := true, last := some .fail, run := (q.span i).proof.run } ∧
          (q.span i).fault = some { first := .brakeProof, pos := (s.plant.span i).lastM.getD (s.plant.span i).x,
                                    time := s.time, later := [] })) ∧
    ((s.plant.span i).state = .locking ∨ (s.plant.span i).state = .unlocking → (s.plant.span i).lock.isSome = true →
        (s.plant.span i).fault = none →
      ∃ q : Plant, exec (.lockTimerExpiry i) s = .next (settle { s with plant := q }) ∧ q.zones = s.plant.zones ∧
        (∀ j : Slot, j ≠ i → q.span j = s.plant.span j) ∧ restsIn .faulted (q.span i) ∧
        q.link.params = s.plant.link.params.filter (fun e => !e.isLockOf i) ∧
        (q.span i).proof.relock = (s.plant.span i).proof.relock ∧
        (q.span i).fault = some { first := .lockTimeout, pos := (s.plant.span i).lastM.getD (s.plant.span i).x,
                                  time := s.time, later := [] }) ∧
    ((s.plant.span i).state ≠ .proving → exec (.brakeSetPhaseExpiry i) s = .next (settle s) ∧
      exec (.holdPhaseExpiry i) s = .next (settle s)) ∧
    ((s.plant.span i).state ≠ .locking → (s.plant.span i).state ≠ .unlocking →
      exec (.lockTimerExpiry i) s = .next (settle s)) ∧
    (∀ t, (s.plant.span i).state = .proving → (s.plant.span i).test = some t → (s.plant.span i).raised = [] → noTestOwed s i →
      ∃ q : Plant, exec (.spanPeriod i) s = .next (settle { s with plant := q }) ∧
        (t.phase = .brakeSet →
          ((∀ a ∈ s.plant.bogies i, a.isValid s.cfg.dev.stale = true ∧ a.released = false) →
            (q.span i).state = .proving ∧ (q.span i).setpointMode = some .proof ∧
            (q.span i).test = some { t with phase := .hold, timer := (s.env.span i).proofHold * 1000,
                                            starts := (s.plant.bogies i).map (fun a => (a.addr, a.lastPos)) }) ∧
          ((∃ a ∈ s.plant.bogies i, a.isValid s.cfg.dev.stale = false ∨ a.released = true) →
            (q.span i).state = .proving ∧ (q.span i).test = some t)) ∧
        (t.phase = .hold →
          ((∃ a ∈ s.plant.bogies i, a.isValid s.cfg.dev.stale = false) → restsIn .resting (q.span i) ∧
            (q.span i).proof = { (s.plant.span i).proof with last := some .abandoned, run := (q.span i).proof.run }) ∧
          ((∀ a ∈ s.plant.bogies i, a.isValid s.cfg.dev.stale = true) →
            ((∀ a ∈ s.plant.bogies i, (t.creepOf a).1 ≤ (s.env.span i).creepLimit) →
              (q.span i).state = .proving ∧ (q.span i).test = some t) ∧
            ((∃ a ∈ s.plant.bogies i, (s.env.span i).creepLimit < (t.creepOf a).1) → restsIn .faulted (q.span i) ∧
              (q.span i).faultHas .brakeProof = true ∧
              (q.span i).proof = { (s.plant.span i).proof with
                unproven := true, last := some .fail, run := (q.span i).proof.run })))) ∧
    (∀ l a, (s.plant.span i).state = .locking ∨ (s.plant.span i).state = .unlocking → (s.plant.span i).raised = [] →
      noTestOwed s i → (s.plant.span i).lock = some l → s.plant.lockUnit i = some a →
      ∃ q : Plant, exec (.spanPeriod i) s = .next (settle { s with plant := q }) ∧
        (∀ r, l.sent = true → l.replied = true → a.last = some r → r.fault = false →
          ((s.plant.span i).state = .locking → r.ready = true → restsIn .locked (q.span i) ∧
            (q.span i).proof.relock = (s.plant.span i).proof.relock) ∧
          ((s.plant.span i).state = .unlocking → r.released = true → restsIn .resting (q.span i) ∧
            (q.span i).proof.relock = true)) ∧
        (l.sent = false ∨ l.replied = false ∨ (∀ r, a.last = some r → r.fault = true ∨
            (if (s.plant.span i).state = .locking then r.ready else r.released) = false) →
          (q.span i).state = (s.plant.span i).state ∧ (q.span i).lock = some l))

/-! ### Events of the bogie link -/

/-- LINK_CYCLE_START (R93, R96, R97, R101, R102, R108, R109). With no cycle being sent, every age goes up by one to at most 255, every
mailbox's posted set becomes its sent set, host writes to role NONE at the head of the parameter queue are withdrawn with
PARAM_DONE, and a cycle is composed: the pending broadcasts; the bursts of every span; the head of the parameter queue when
it fits the budget with its gap, and otherwise none and the queue kept; and the polls of the round from the cursor while each
fits, the next one not fitting. An expiry begins the cycle with no gap and restarts the timer; a held start is judged for its
gap and does not (R95). During a cycle the expiry is held. The model's readings: the cycle as a list (log entry 21), the cursor
after a full round (log entry 22), a write that waits for its branch (log entry 18), and every configured address aged (log entry
36). -/
def Obligations.LinkCycleComposed : Prop :=
  ∀ (s : State), s.resetPin = false →
    (s.plant.link.cycle = [] →
      ∃ (q : Plant) (dead params left : List ParamEntry) (head w ps : List Txn) (before : Option TxnMark),
        exec .linkCycleStart s = .next (settle { s with plant := q }) ∧
        q.zones = s.plant.zones ∧ (∀ i : Slot, q.span i = (s.plant.span i).takeSet) ∧
        q.link.addrs = s.plant.link.addrs.map (fun a => { a with age := min (a.age + 1) 255 }) ∧
        q.link.bcasts = s.plant.link.bcasts ∧ q.link.held = false ∧
        q.link.cycleT = (if s.plant.link.held = true then s.plant.link.cycleT else 10) ∧
        before = (if s.plant.link.held = true then s.plant.link.prev else none) ∧ q.link.prev = before ∧
        s.plant.link.params = dead ++ params ∧
        (∀ e ∈ dead, ∃ addr index value, e = .host addr index value ∧ s.plant.link.find addr = none) ∧
        (∀ addr index value, params.head? = some (.host addr index value) → (s.plant.link.find addr).isSome = true) ∧
        q.out = (dead.flatMap (withdrawnReport s.time)).foldl ReportQueue.push s.plant.out ∧
        head = s.plant.link.bcasts.map (fun b => Txn.broadcast b false) ++ four.flatMap (fun i => spanBursts s.env i s.plant) ∧
        q.link.cycle = head ++ w ++ ps ∧ q.link.params = left ∧
        (params = [] → w = [] ∧ left = []) ∧
        (∀ e rest, params = e :: rest →
          (entryTxn s.env s.plant e = none → w = [] ∧ left = params) ∧
          (∀ x, entryTxn s.env s.plant e = some x →
            (Draft.fits (head.foldl Draft.add { txns := [], used := 0, prev := before }) s.cfg.dev.budget x = true →
              w = [x] ∧ left = rest) ∧
            (Draft.fits (head.foldl Draft.add { txns := [], used := 0, prev := before }) s.cfg.dev.budget x = false →
              w = [] ∧ left = params))) ∧
        ps = (pollRound s.env s.plant.link).take ps.length ∧
        (∀ x, ((pollRound s.env s.plant.link).drop ps.length).head? = some x →
          s.cfg.dev.budget < (q.link.cycle.foldl Draft.add { txns := [], used := 0, prev := before }).used +
            gapSlots (q.link.cycle.foldl Draft.add { txns := [], used := 0, prev := before }).prev x + x.cost) ∧
        q.link.cursor = (match (pollRound s.env s.plant.link).drop ps.length ++ pollRound s.env s.plant.link with
          | [] => s.plant.link.cursor
          | x :: _ => x.pollAddr) ∧
        (w ++ ps ≠ [] →
          (q.link.cycle.foldl Draft.add { txns := [], used := 0, prev := before }).used ≤ s.cfg.dev.budget)) ∧
    (s.plant.link.cycle ≠ [] → exec .linkCycleStart s = .next (settle { s with
      plant := { s.plant with link := { s.plant.link with held := true, cycleT := 10 } } }))

/-- A transaction with no record to update ends (R99, R108, R109, R110, R126): a broadcast leaves the pending list; a host write
ends in PARAM_DONE, ACKNOWLEDGED by a good word of its address and NOT_ACKNOWLEDGED otherwise; a lock command sets the
sent flag of its span's lock record, acknowledged or not. Without such a transaction at the head nothing happens, whether the
cycle is empty or another kind is at its head (log entry 21). A broadcast requested during a cycle goes before the next
transaction composed, behind those requested earlier in it (R99). -/
def Obligations.BroadcastAndWritesEnd : Prop :=
  ∀ (s : State), s.resetPin = false →
    (∀ b inserted rest, s.plant.link.cycle = .broadcast b inserted :: rest →
      exec .groupBroadcast s = .next (settle { s with plant := { s.plant with link := { s.plant.link with
        cycle := rest, bcasts := s.plant.link.bcasts.filter (fun c => c.slot != b.slot) } } })) ∧
    (∀ addr index value branch wait rest w, s.plant.link.cycle = .param addr index value branch wait true :: rest →
      exec (.parameterWriteEnd w) s = .next (settle { s with plant := { s.plant with
        out := s.plant.out.push (.paramDone addr index value
          (if wordGood addr w then .acknowledged else .notAcknowledged) s.time),
        link := { s.plant.link with cycle := rest, prev := some { branch := branch, isPoll := false } } } })) ∧
    (∀ i addr cmd branch wait rest w l, s.plant.link.cycle = .lock i addr cmd branch wait true :: rest →
      (s.plant.span i).lock = some l → l.cmd = cmd →
      exec (.lockWriteEnd w) s = .next (settle { s with
        plant := Plant.setSpan { s.plant with
            link := { s.plant.link with cycle := rest, prev := some { branch := branch, isPoll := false } } } i
          { s.plant.span i with lock := some { l with sent := true, replied := false } } })) ∧
    (∀ w, s.plant.link.cycle = [] → exec .groupBroadcast s = .next (settle s) ∧
      exec (.parameterWriteEnd w) s = .next (settle s) ∧ exec (.lockWriteEnd w) s = .next (settle s)) ∧
    (∀ w x rest, s.plant.link.cycle = x :: rest →
      ((∀ b inserted, x ≠ .broadcast b inserted) → exec .groupBroadcast s = .next (settle s)) ∧
      ((∀ addr index value branch wait live, x ≠ .param addr index value branch wait live) →
        exec (.parameterWriteEnd w) s = .next (settle s)) ∧
      ((∀ i addr cmd branch wait live, x ≠ .lock i addr cmd branch wait live) →
        exec (.lockWriteEnd w) s = .next (settle s))) ∧
    (∀ (l : BogieLink) (b : Broadcast) (x : Txn) (asked later : List Txn), l.cycle = x :: (asked ++ later) →
      l.bcasts.any (fun c => c.slot == b.slot) = false → (∀ y ∈ asked, ∃ c, y = .broadcast c true) →
      (∀ y, later.head? = some y → ∀ c, y ≠ .broadcast c true) →
      l.requestBroadcast b = { l with bcasts := l.bcasts ++ [b], cycle := x :: (asked ++ .broadcast b true :: later) })

/-- A reply window closes (R94, R98, R102, R103, R104). Four good words of the polled address become its last reply, with age 0
and miss streak 0; a missing or a bad word at any of the four places, or a missing acknowledgement, is a miss; a good
acknowledgement changes neither last reply nor age. UNKNOWN becomes PRESENT at a good reply, PRESENT becomes LOST at the third
miss, and LOST becomes PRESENT at the fourth good reply in a row unless its span is energised. Other addresses keep their
records. In ACQUIRING the good reply that leaves no address UNKNOWN ends acquisition (R161). The model's readings: a miss in LOST
counts from the streak it finds (log entry 41), and the measurement at the end of acquisition stores no validity, load trim or
command in the records (log entry 35). -/
def Obligations.ReplyWindowsJudged : Prop :=
  (∀ (s : State) (addr wait : Nat) (branch : Branch) (rest : List Txn) (a : AddrRec) (v0 v1 v2 v3 : LinkWord),
    s.resetPin = false →
    (s.sup.mode = .acquiring → ∃ b ∈ s.plant.link.addrs, b.addr ≠ addr ∧ b.link = .unknown) →
    s.plant.link.cycle = .poll addr branch wait true :: rest → s.plant.link.find addr = some a →
    wordGood addr (some v0) = true → wordGood addr (some v1) = true → wordGood addr (some v2) = true →
    wordGood addr (some v3) = true →
    ∃ q : Plant, exec (.pollReply (some v0) (some v1) (some v2) (some v3)) s = .next (settle { s with plant := q }) ∧
      q.link.cycle = rest ∧ q.zones = s.plant.zones ∧ (a.role = .bogie → q.spans = s.plant.spans) ∧
      (∀ b : Nat, b ≠ addr → q.link.find b = s.plant.link.find b) ∧
      (a.link = .unknown → q.link.find addr = some { a with
        last := some (assembleReply a.role v0 v1 v2 v3), age := 0, miss := 0, good := 0, link := .present }) ∧
      (a.link = .present → q.link.find addr = some { a with
        last := some (assembleReply a.role v0 v1 v2 v3), age := 0, miss := 0 }) ∧
      (a.link = .lost → 3 ≤ a.good → (s.plant.span a.slot).state.energised = false → q.link.find addr = some { a with
        last := some (assembleReply a.role v0 v1 v2 v3), age := 0, miss := 0, good := 0, link := .present }) ∧
      (a.link = .lost → a.good < 3 ∨ (s.plant.span a.slot).state.energised = true → q.link.find addr = some { a with
        last := some (assembleReply a.role v0 v1 v2 v3), age := 0, miss := 0, good := min (a.good + 1) 4 })) ∧
  (∀ (s : State) (addr wait : Nat) (branch : Branch) (rest : List Txn) (a : AddrRec) (v0 v1 v2 v3 : LinkWord),
    s.resetPin = false → s.sup.mode = .acquiring → s.plant.link.cycle = .poll addr branch wait true :: rest →
    s.plant.link.find addr = some a → (∀ b ∈ s.plant.link.addrs, b.addr ≠ addr → b.link ≠ .unknown) →
    wordGood addr (some v0) = true → wordGood addr (some v1) = true → wordGood addr (some v2) = true →
    wordGood addr (some v3) = true →
    ∃ q : Plant, exec (.pollReply (some v0) (some v1) (some v2) (some v3)) s = .next (settle { s with
        plant := q,
        sup := { s.sup with mode := .ready, e := 0, acqT := none, window := some 0, stableT := some 600000 } }) ∧
      q.link.cycle = rest ∧ (∀ b : Nat, b ≠ addr → q.link.find b = s.plant.link.find b) ∧
      (q.link.find addr).map AddrRec.last = some (some (assembleReply a.role v0 v1 v2 v3)) ∧
      ∀ i : Slot, (s.cfg.spans.get i).isSome = true →
        (q.span i).state = .resting ∨ (q.span i).state = .locked ∨ (q.span i).state = .faulted) ∧
  (∀ (s : State) (addr wait : Nat) (branch : Branch) (rest : List Txn) (a : AddrRec) (w0 w1 w2 w3 : Option LinkWord),
    s.resetPin = false → s.plant.link.cycle = .poll addr branch wait true :: rest → s.plant.link.find addr = some a →
    wordGood addr w0 = false ∨ wordGood addr w1 = false ∨ wordGood addr w2 = false ∨ wordGood addr w3 = false →
    ∃ q : Plant, exec (.pollReply w0 w1 w2 w3) s = .next (settle { s with plant := q }) ∧ q.link.cycle = rest ∧
      q.zones = s.plant.zones ∧ q.spans = s.plant.spans ∧ (∀ b : Nat, b ≠ addr → q.link.find b = s.plant.link.find b) ∧
      q.link.find addr = some { a with
        miss := min (a.miss + 1) 3, good := 0,
        link := if a.link = .present ∧ 2 ≤ a.miss then .lost else a.link } ∧
      q.out = if a.link = .present ∧ 2 ≤ a.miss
        then s.plant.out.push (.bogie addr a.slot a.role false s.time) else s.plant.out) ∧
  (∀ (s : State) (i : Slot) (r : Rail) (branch : Branch) (wait first n : Nat) (mode : SetpointMode) (b : BurstWord)
      (ws : List BurstWord) (rest : List Txn) (a : AddrRec) (w : Option LinkWord),
    s.resetPin = false →
    (s.sup.mode = .acquiring → ∃ b' ∈ s.plant.link.addrs, b'.addr ≠ b.addr ∧ b'.link = .unknown) →
    s.plant.link.cycle = .burst i r branch wait first n mode (b :: ws) :: rest → b.live = true →
    s.plant.link.find b.addr = some a →
    ∃ q : Plant, exec (.setpointAck w) s = .next (settle { s with plant := q }) ∧ q.spans = s.plant.spans ∧
      q.zones = s.plant.zones ∧ (∀ c : Nat, c ≠ b.addr → q.link.find c = s.plant.link.find c) ∧
      q.link.cycle = (if ws = [] then rest else .burst i r branch wait first n mode ws :: rest) ∧
      (wordGood b.addr w = true → a.link = .present → q.link.find b.addr = some { a with miss := 0 }) ∧
      (wordGood b.addr w = true → a.link = .unknown →
        q.link.find b.addr = some { a with miss := 0, good := 0, link := .present }) ∧
      (wordGood b.addr w = true → a.link = .lost → 3 ≤ a.good → (s.plant.span a.slot).state.energised = false →
        q.link.find b.addr = some { a with miss := 0, good := 0, link := .present }) ∧
      (wordGood b.addr w = true → a.link = .lost → a.good < 3 ∨ (s.plant.span a.slot).state.energised = true →
        q.link.find b.addr = some { a with miss := 0, good := min (a.good + 1) 4 }) ∧
      (wordGood b.addr w = false → q.link.find b.addr = some { a with
        miss := min (a.miss + 1) 3, good := 0, link := if a.link = .present ∧ 2 ≤ a.miss then .lost else a.link }))

/-! ### Events of the device -/

/-- The acquisition timer's expiry (R105, R161, R162): the device enters READY with e at 0, its keep-alive window and stable-READY
timer started; every address still UNKNOWN is LOST; every span in use is RESTING, LOCKED or FAULTED with v and r 0,
direction +, x its measured position, or 0 where none is formed, clamped to the envelope, the override at 100 and a BRAKED set
posted. With its pins engaged it is LOCKED, with a rail below minimum or m beyond the margin FAULTED for BOGIE_LOSS or ENVELOPE, and
otherwise RESTING; claims go to the one span inside, and two inside are FAULTED for ZONE_CONFLICT (R139). Outside ACQUIRING nothing
happens. The model's readings: the measurement of the first state stores no validity, load trim or command in the address records
(log entry 35), and an expiry acts whatever time its timer has left (log entry 32). -/
def Obligations.AcquisitionEndsInReady : Prop :=
  ∀ (s : State), s.resetPin = false →
    (s.sup.mode = .acquiring → s.sup.acqT.isSome = true →
      ∃ q : Plant, exec .acquisitionTimerExpiry s = .next (settle { s with
          plant := q,
          sup := { s.sup with mode := .ready, e := 0, acqT := none, window := some 0, stableT := some 600000 } }) ∧
        q.link = { s.plant.link with addrs := s.plant.link.addrs.map (fun a =>
          if a.link = .unknown then { a with link := .lost, miss := 3, good := 0 } else a) } ∧
        (∀ i : Slot, s.cfg.spans.get i = none → (s.plant.span i).state = .unconfigured →
          q.span i = { s.plant.span i with override := 100 }) ∧
        q.zones.length = s.plant.zones.length ∧
        (∀ (k : Nat) (z w : ZoneEntry), s.plant.zones[k]? = some z → q.zones[k]? = some w →
          w = { z with claim := w.claim, sideA := w.sideA, sideB := w.sideB } ∧ noWait w.sideA ∧ noWait w.sideB ∧
          (w.sideA.inside = true ↔ (q.span z.spanA).state ≠ .unconfigured ∧ insideNow z .a (q.span z.spanA) = true) ∧
          (w.sideB.inside = true ↔ (q.span z.spanB).state ≠ .unconfigured ∧ insideNow z .b (q.span z.spanB) = true) ∧
          w.claim = (match w.sideA.inside, w.sideB.inside with
            | true, false => .heldA | false, true => .heldB | false, false => .free | true, true => .free)) ∧
        ∀ (i : Slot) (sc : SpanConfig), s.cfg.spans.get i = some sc →
          ((q.span i).state = .resting ∨ (q.span i).state = .locked ∨ (q.span i).state = .faulted) ∧
          (q.span i).v = 0 ∧ (q.span i).r = 0 ∧ (q.span i).dir = .pos ∧ (q.span i).override = 100 ∧
          (∀ m, (q.span i).meas.m = some m → (q.span i).x = max sc.xmin (min sc.xmax m)) ∧
          ((q.span i).meas.m = none → (q.span i).x = max sc.xmin (min sc.xmax 0)) ∧
          (0 < sc.rails → measured s.env i s.plant (s.plant.span i) (q.span i)) ∧
          ((s.plant.span i).fault = none → (∀ z ∈ q.zones, (z.sideOf i).isSome = true → ¬ (z.sideA.inside = true ∧ z.sideB.inside = true)) →
            (pinsEngaged i s.plant = true → (q.span i).state = .locked ∧ (q.span i).fault = none) ∧
            (pinsEngaged i s.plant = false →
              ∀ loss out : Prop, (loss ↔ ∃ r : Rail, r.val < sc.rails ∧ (q.span i).meas.nValid.get r < s.env.minValid i r) →
                (out ↔ ∃ m, (q.span i).meas.m = some m ∧ (m < sc.xmin - 50000 ∨ sc.xmax + 50000 < m)) →
                (¬ loss → ¬ out → (q.span i).state = .resting ∧ (q.span i).fault = none) ∧
                (loss ∨ out → (q.span i).state = .faulted ∧ ∃ f, (q.span i).fault = some f ∧ f.time = s.time ∧
                  (loss → f.first = .bogieLoss ∧ (f.later = [.envelope] ↔ out) ∧ (f.later = [] ↔ ¬ out)) ∧
                  (¬ loss → f.first = .envelope ∧ f.later = [])))) ∧
          (∀ z ∈ q.zones, (z.sideOf i).isSome = true → z.sideA.inside = true → z.sideB.inside = true →
            (q.span i).state = .faulted ∧ (q.span i).faultHas .zoneConflict = true) ∧
          (q.span i).posted.map (fun set => set.mode) = some .braked ∧
          (pinsEngaged i s.plant = true → s.plant.zones = [] → (q.span i).state = .locked)) ∧
    (s.sup.mode ≠ .acquiring → exec .acquisitionTimerExpiry s = .next (settle s))

/-- WIND_SAMPLE and ANEMOMETER_PULSE (R143, R146, R148, R150): a pulse counts one; a sample of an anemometer that is not DISABLED joins
its ring at min(n, 250) x K / 25, the counts and the timer begin afresh, and the gate follows the gust by the table of R146,
BLIND where no anemometer is VALID or no record that meets its relations stands; at its entry into TRIPPED or BLIND from CLEAR or
REDUCED every span moving at speed takes a CONTROLLED stop to HOLDING with its wind hold flag set, one at v = 0 is HOLDING at once and
one STARTING aborts to RESTING, both with the flag, and otherwise the spans are as they were. A VALID anemometer whose samples stay 0
for 120 expiries while the other reads 50 or more becomes SUSPECT, and a SUSPECT one VALID after 8 samples above 0 (R145). The
reports are those of the anemometers and then GATE (R150); that AN1's stands before AN2's is the model's choice (log entry 9). -/
def Obligations.WindSampledAndGated : Prop :=
  (∀ (s : State), s.resetPin = false →
    exec (.anemometerPulse .an1) s = .next (settle { s with
      wind := { s.wind with an1 := { s.wind.an1 with count := s.wind.an1.count + 1 } } }) ∧
    exec (.anemometerPulse .an2) s = .next (settle { s with
      wind := { s.wind with an2 := { s.wind.an2 with count := s.wind.an2.count + 1 } } })) ∧
  (∀ (s : State) (w : WindRecord), s.resetPin = false → s.cfg.wind = some w →
    ∃ (n : WindGate) (q : Plant), exec .windSample s = .next (settle { s with wind := n, plant := q }) ∧
      n.sampleT = 250 ∧ n.an1.count = 0 ∧ n.an2.count = 0 ∧
      (s.wind.an1.status ≠ .disabled → n.an1.ring = pushRing s.wind.an1.ring (min s.wind.an1.count 250 * w.k1 / 25)) ∧
      (s.wind.an2.status ≠ .disabled → n.an2.ring = pushRing s.wind.an2.ring (min s.wind.an2.count 250 * w.k2 / 25)) ∧
      (s.wind.an1.status = .empty → n.an1.status = .valid) ∧ (s.wind.an1.status = .disabled → n.an1.status = .disabled) ∧
      (∀ g, w.ws + w.h < w.wt → 1 ≤ w.h → maxOption n.an1.gust n.an2.gust = some g → n.gust = some g ∧
        (s.wind.gate = .clear ∨ s.wind.gate = .reduced →
          n.gate = (if g ≤ w.ws then .clear else if g < w.wt then .reduced else .tripped) ∧
          n.kw = (if g ≤ w.ws then 100 else if g < w.wt
            then 100 - (100 - w.kmin) * (g - w.ws) / (w.wt - w.ws) else 0)) ∧
        (s.wind.gate = .blind → n.gate = .tripped ∧ n.kw = 0 ∧ n.dwellT = none) ∧
        (s.wind.gate = .tripped → n.gate = .tripped ∧ n.kw = 0 ∧
          (w.wt ≤ g + w.h → n.dwellT = none) ∧
          (g + w.h < w.wt → n.dwellT = match s.wind.dwellT with | some v => some v | none => some (w.tdw * 1000)))) ∧
      (maxOption n.an1.gust n.an2.gust = none ∨ w.wt ≤ w.ws + w.h ∨ w.h = 0 →
        n.gate = .blind ∧ n.gust = none ∧ n.kw = 0 ∧ n.dwellT = none) ∧
      (∀ (a other b : Anemometer), (a = s.wind.an1 ∧ other = n.an2 ∧ b = n.an1) ∨ (a = s.wind.an2 ∧ other = n.an1 ∧ b = n.an2) →
        (a.status = .valid → b.latest = some 0 →
          (other.status = .valid ∨ other.status = .suspect) → (∃ v, other.latest = some v ∧ 50 ≤ v) →
          b.zeroRun = a.zeroRun + 1 ∧
          (b.zeroRun = 120 → b.status = .suspect ∧ b.recovery = 0) ∧ (b.zeroRun ≠ 120 → b.status = .valid)) ∧
        (a.status = .valid → (∃ v, b.latest = some v ∧ v ≠ 0) ∨ other.status = .disabled ∨
            (∃ v, other.latest = some v ∧ v < 50) → b.status = .valid ∧ b.zeroRun = 0) ∧
        (a.status = .suspect → b.latest = some 0 → b.status = .suspect ∧ b.recovery = 0) ∧
        (a.status = .suspect → (∃ v, b.latest = some v ∧ v ≠ 0) →
          b.recovery = a.recovery + 1 ∧ (b.recovery = 8 → b.status = .valid ∧ b.zeroRun = 0) ∧
          (b.recovery ≠ 8 → b.status = .suspect))) ∧
      (n.gate.shut = false ∨ s.wind.gate.shut = true →
        q.out = (statusReports s.time .an1 s.wind.an1 n.an1 ++ statusReports s.time .an2 s.wind.an2 n.an2 ++
          (if n.gate = s.wind.gate then [] else [Report.wind (.gate s.wind.gate n.gate n.gust n.kw) s.time])).foldl
            ReportQueue.push s.plant.out) ∧
      (n.gate.shut = false ∨ s.wind.gate.shut = true → q.spans = s.plant.spans) ∧
      (n.gate.shut = true → s.wind.gate.shut = false → ∀ i : Slot, (s.plant.span i).state = .moving → (s.plant.span i).v ≠ 0 →
        (q.span i).state = .stopping ∧ (q.span i).windHold = true ∧ (q.span i).v = (s.plant.span i).v ∧
        (q.span i).stop = some { kind := .controlled, endState := .holding }) ∧
      (n.gate.shut = true → s.wind.gate.shut = false → ∀ i : Slot,
        ((s.plant.span i).state = .moving → (s.plant.span i).v = 0 → noTestOwed s i →
          (q.span i).state = .holding ∧ (q.span i).windHold = true ∧ (q.span i).v = 0 ∧ (q.span i).dwellT = none ∧
          (q.span i).jog = none ∧ (q.span i).holdT = some ((s.env.span i).tHold * 1000)) ∧
        ((s.plant.span i).state = .starting → noTestOwed s i →
          restsIn .resting (q.span i) ∧ (q.span i).windHold = true ∧
          (q.span i).posted.map (fun set => set.mode) = some .braked) ∧
        ((s.plant.span i).state ≠ .moving → (s.plant.span i).state ≠ .starting → q.span i = s.plant.span i))) ∧
  (∀ (s : State), s.resetPin = false → s.cfg.wind = none →
    ∃ (n : WindGate) (q : Plant), exec .windSample s = .next (settle { s with wind := n, plant := q }) ∧
      n.gate = .blind ∧ n.gust = none ∧ n.kw = 0 ∧ n.dwellT = none ∧ n.sampleT = 250)

/-- TRIP_DWELL_EXPIRY and ZONE_WAIT_TIMEOUT (R135, R147, R149). The gate leaves TRIPPED for CLEAR or REDUCED by its last gust; every
wind hold flag is cleared, and in READY a HOLDING span whose flag was set and that is configured to resume moves again
when the conditions of START hold. A wait that lasts T_zw is reported with its holder and start, and keeps its flag. At a span's
period each entry that names it is judged as R132 to R136 give, with the reports RELEASED and GRANTED (a SAFE stop's end is left to
the statement of its timers). The model's choices: the limits are those of the last sample (log entry 27), and an expiry acts
whenever its timer runs (log entry 32). -/
def Obligations.DwellEndsTheTripAndWaitsAreReported : Prop :=
  (∀ (s : State) (w : WindRecord) (g : Nat), s.resetPin = false → s.wind.gate = .tripped → s.wind.dwellT.isSome = true →
    s.wind.limits = some w → s.wind.gust = some g →
    ∃ q : Plant, exec .tripDwellExpiry s = .next (settle { s with
        plant := q,
        wind := { s.wind with
          gate := if g ≤ w.ws then .clear else .reduced, dwellT := none,
          kw := if g ≤ w.ws then 100 else 100 - (100 - w.kmin) * (g - w.ws) / (w.wt - w.ws) } }) ∧
      q.zones = s.plant.zones ∧
      ∀ i : Slot,
        ((s.plant.span i).windHold = false ∨ (s.env.span i).autoResume = false ∨ s.sup.mode ≠ .ready →
          q.span i = { s.plant.span i with windHold := false }) ∧
        (s.sup.mode = .ready → (s.plant.span i).windHold = true → (s.env.span i).autoResume = true →
          (s.plant.span i).state = .holding → (s.plant.span i).plan ≠ [] → s.station.key.val = false →
          (s.plant.span i).proof.owed ≠ 8 → (s.plant.span i).proof.unproven = false →
          (s.plant.span i).skew ≤ (s.env.span i).sStop →
          (q.span i).state = .moving ∧ (q.span i).starved = false ∧ (q.span i).windHold = false ∧ (q.span i).holdT = none)) ∧
  (∀ s : State, s.resetPin = false → s.wind.gate ≠ .tripped → exec .tripDwellExpiry s = .next (settle s)) ∧
  (∀ (s : State) (e : Fin 16) (d : Side) (z : ZoneEntry) (pre post : List ZoneEntry), s.resetPin = false →
    s.plant.zones = pre ++ z :: post → z.entry = e.val → (∀ y ∈ pre ++ post, y.entry ≠ e.val) →
    ((z.part d).timer.isSome = true → exec (.zoneWaitTimeout e d) s = .next (settle { s with
      plant := { s.plant with
        zones := pre ++ z.withPart d { z.part d with timer := none } :: post,
        out := s.plant.out.push (.zone z.entry (z.slot d) (.waitTimeout z.holder (z.part d).since) s.time) } })) ∧
    ((z.part d).timer = none → exec (.zoneWaitTimeout e d) s = .next (settle s))) ∧
  (∀ (s : State) (i : Slot), s.resetPin = false → (s.plant.span i).state ≠ .unconfigured → (s.plant.span i).inSafeStop = false →
    (s.plant.span i).raised = [] →
    ∃ q : Plant, exec (.spanPeriod i) s = .next (settle { s with plant := q }) ∧ q.zones.length = s.plant.zones.length ∧
      (∀ (k : Nat) (z w : ZoneEntry), s.plant.zones[k]? = some z → q.zones[k]? = some w →
        (z.sideOf i = none → w = z) ∧ ∀ d, z.sideOf i = some d → claimJudged s.time d (q.span i) z w) ∧
      ((s.plant.span i).skewArmed = false → noTestOwed s i →
        (s.plant.span i).state = .resting ∨ (s.plant.span i).state = .holding ∨ (s.plant.span i).state = .locked ∨
          (s.plant.span i).state = .faulted →
        q.out = (s.plant.zones.flatMap (fun z => match z.sideOf i with
          | none => []
          | some d => claimReports s.time d (q.span i) z)).foldl ReportQueue.push s.plant.out))

/-- STATION_PIN_CHANGE (R152, R154): a pin that leaves its validated level starts its press timer at t_min, and one that returns
stops it, with no other effect; ESTOP asserted and a jog input released act at that edge as their own commands do (R153, R157),
ESTOP also where its validated level is still asserted (log entry 17). A HOLD press starts the HOLD timer at t_max at its first edge,
and a release before the press is validated stops it without effect. A release of a validated press, and a bounce back to it,
leave the HOLD timer running (log entry 16). A level the pin already has is no change. -/
def Obligations.StationPinsFollowed : Prop :=
  ∀ (s : State) (input : StationInput) (level : Bool), s.resetPin = false →
    ((s.station.get input).pin = level → exec (.stationPinChange input level) s = .next (settle s)) ∧
    ((s.station.get input).pin ≠ level →
      (input = .key ∨ input = .sel0 ∨ input = .sel1 ∨ (input = .estop ∧ level = false) ∨
          ((input = .jogFwd ∨ input = .jogRev) ∧ level = true) ∨ (input = .hold ∧ s.station.hold.val = true) →
        exec (.stationPinChange input level) s = .next (settle (s.setInput input
          { pin := level, val := (s.station.get input).val,
            press := if level = (s.station.get input).val then none else some s.cfg.dev.tmin }))) ∧
      (input = .hold → level = true → s.station.hold.val = false →
        exec (.stationPinChange input level) s = .next (settle { s with station := { s.station with
          hold := { pin := true, val := false, press := some s.cfg.dev.tmin }, holdT := some (s.cfg.dev.tmax * 1000) } })) ∧
      (input = .hold → level = false → s.station.hold.val = false →
        exec (.stationPinChange input level) s = .next (settle { s with station := { s.station with
          hold := { pin := false, val := false, press := none }, holdT := none } })) ∧
      (input = .hold → level = true → s.station.hold.val = true →
        exec (.stationPinChange input level) s = .next (settle { s with station := { s.station with
          hold := { pin := true, val := true, press := none } } })) ∧
      (input = .estop → level = true → exec (.stationPinChange input level) s = exec .estopAsserted s) ∧
      (input = .jogFwd → level = false → exec (.stationPinChange input level) s = exec (.jogRelease .pos) s) ∧
      (input = .jogRev → level = false → exec (.stationPinChange input level) s = exec (.jogRelease .neg) s) ∧
      (input = .hold → level = false → s.station.hold.val = true →
        exec (.stationPinChange input level) s = .next (settle { s with station := { s.station with
          hold := { pin := false, val := true, press := some s.cfg.dev.tmin } } })))

/-- STATION_PRESS_TIMER_EXPIRY (R73, R152 to R158): the pin's level becomes the validated level and its action is taken. A HOLD press
stops every span moving CONTROLLED to HOLDING, a span at v = 0 at once; the key to LOCAL those that move or start by plan, one
STARTING aborting to RESTING; a HOLD release stops the HOLD timer and is reported, also that of a button held through a reset (log
entry 45); a select change with no jog in progress is reported, without a slot (log entry 24); an ESTOP release is reported and
changes nothing else. A select change, the key to REMOTE and a press of the other jog input end the jog of a span moving at speed by
a CONTROLLED stop to HOLDING, and of one STARTING by its abort to RESTING, reported JOG_ENDED. An expiry acts whenever the press timer
runs, whatever time is left: the model's choice (log entry 32). A jog press with the other input released sets the selected span in motion under the jog context,
through STARTING from RESTING, when the conditions of a jog hold, and is otherwise refused JOG_REFUSED with the first
condition of R156's table; with the other input asserted it is refused CONDITION. -/
def Obligations.StationPressesAct : Prop :=
  ∀ (s : State) (input : StationInput), s.resetPin = false →
    ((s.station.get input).press = none → exec (.stationPressTimerExpiry input) s = .next (settle s)) ∧
    ((s.station.get input).press.isSome = true →
      (input = .estop → (s.station.get input).pin = false → exec (.stationPressTimerExpiry input) s =
        .next (settle { s with
          station := s.station.set .estop { pin := false, val := false, press := none },
          plant := s.plant.report (.station .estopReleased s.time) })) ∧
      (input = .hold → (s.station.get input).pin = false → exec (.stationPressTimerExpiry input) s =
        .next (settle { s with
          station := { s.station with hold := { pin := false, val := false, press := none }, holdT := none },
          plant := s.plant.report (.station .holdReleased s.time) })) ∧
      (input = .sel0 ∨ input = .sel1 → s.plant.jogSlot = none → exec (.stationPressTimerExpiry input) s =
        .next (settle { s with
          station := s.station.set input { pin := (s.station.get input).pin, val := (s.station.get input).pin, press := none },
          plant := s.plant.report (.station .selectChanged s.time) })) ∧
      (∀ (i : Slot) (j : JogContext) (why : JogEnd), s.plant.jogSlot = some i → (s.plant.span i).jog = some j →
        (s.plant.span i).state = .moving → (s.plant.span i).v ≠ 0 →
        ((input = .sel0 ∨ input = .sel1) ∧ why = .selection) ∨
          (input = .key ∧ (s.station.get input).pin = false ∧ why = .keyRemote) ∨
          (∃ d, input = jogInput d ∧ (s.station.get input).pin = true ∧
            (s.station.get (jogInput (dirFlip d))).val = true ∧ why = .otherInput) →
        ∃ q : Plant, exec (.stationPressTimerExpiry input) s = .next (settle { s with
            station := s.station.set input { pin := (s.station.get input).pin, val := (s.station.get input).pin, press := none },
            plant := q }) ∧
          (∀ m : Slot, m ≠ i → q.span m = s.plant.span m) ∧ (q.span i).state = .stopping ∧
          (q.span i).v = (s.plant.span i).v ∧ (q.span i).jog = some j ∧
          (q.span i).stop = some { kind := .controlled, endState := .holding } ∧
          ((∀ e ∈ s.plant.link.params, s.plant.link.isWriteOf i e = false) →
            q.out = ((match input with
                | .key => [Report.station .keyRemote s.time]
                | .jogFwd => [.station (.jogRefused s.station.selected .pos (.condition none)) s.time]
                | .jogRev => [.station (.jogRefused s.station.selected .neg (.condition none)) s.time]
                | _ => []) ++
              [Report.station (.jogEnded i why) s.time,
               .spanState i .moving .stopping (some { kind := .controlled, endState := .holding })]).foldl
                ReportQueue.push s.plant.out)) ∧
      (∀ (i : Slot), s.plant.jogSlot = some i → (s.plant.span i).state = .starting → noTestOwed s i →
        (input = .sel0 ∨ input = .sel1) ∨ (input = .key ∧ (s.station.get input).pin = false) ∨
          (∃ d, input = jogInput d ∧ (s.station.get input).pin = true ∧ (s.station.get (jogInput (dirFlip d))).val = true) →
        ∃ q : Plant, exec (.stationPressTimerExpiry input) s = .next (settle { s with
            station := s.station.set input { pin := (s.station.get input).pin, val := (s.station.get input).pin, press := none },
            plant := q }) ∧ q.zones = s.plant.zones ∧ q.link = s.plant.link ∧
          (∀ m : Slot, m ≠ i → q.span m = s.plant.span m) ∧ restsIn .resting (q.span i) ∧
          sameJourney (s.plant.span i) (q.span i)) ∧
      (input = .key → (s.station.get input).pin = false → s.plant.jogSlot = none →
        exec (.stationPressTimerExpiry input) s = .next (settle { s with
          station := s.station.set .key { pin := false, val := false, press := none },
          plant := s.plant.report (.station .keyRemote s.time) })) ∧
      (∀ (d : Dir) (i : Slot) (why : Reason), input = jogInput d → (s.station.get input).pin = true →
        i = s.station.selected →
        ((s.station.get (jogInput (dirFlip d))).val = true ∧ s.plant.jogSlot = none ∧ why = .condition none) ∨
          ((s.station.get (jogInput (dirFlip d))).val = false ∧
            ((s.sup.mode ≠ .ready ∧ why = .mode) ∨
             (s.sup.mode = .ready ∧ s.station.key.val = false ∧ why = .condition none) ∨
             (s.sup.mode = .ready ∧ s.station.key.val = true ∧
              (((s.plant.span i).state ≠ .resting ∧ (s.plant.span i).state ≠ .holding ∧ why = .state) ∨
               (((s.plant.span i).state = .resting ∨ (s.plant.span i).state = .holding) ∧
                ((s.wind.gate.shut = true ∧ why = .wind) ∨
                 (s.wind.gate.shut = false ∧
                  (((s.plant.span i).proof.owed = 8 ∧ why = .proofOwed) ∨
                   ((s.plant.span i).proof.owed ≠ 8 ∧
                    (((s.plant.span i).proof.unproven = true ∧ why = .proofRequired) ∨
                     ((s.plant.span i).proof.unproven = false ∧ (s.env.span i).sStop < (s.plant.span i).skew ∧
                      why = .skew)))))))))))→
        exec (.stationPressTimerExpiry input) s = .next (settle { s with
          station := s.station.set input { pin := true, val := true, press := none },
          plant := s.plant.report (.station (.jogRefused i d why) s.time) })) ∧
      (input = .hold ∨ input = .key → (s.station.get input).pin = true →
        ∃ q : Plant, exec (.stationPressTimerExpiry input) s = .next (settle { s with
            station := s.station.set input { pin := true, val := true, press := none }, plant := q }) ∧
          ∀ i : Slot,
            ((s.plant.span i).state = .moving → (s.plant.span i).v ≠ 0 → input = .hold ∨ (s.plant.span i).jog = none →
              (q.span i).state = .stopping ∧ (q.span i).v = (s.plant.span i).v ∧
              (q.span i).stop = some { kind := .controlled, endState := .holding }) ∧
            ((s.plant.span i).state = .moving → (s.plant.span i).v = 0 → input = .hold ∨ (s.plant.span i).jog = none →
              noTestOwed s i → (q.span i).state = .holding ∧ (q.span i).v = 0 ∧ (q.span i).dwellT = none ∧
              (q.span i).holdT = some ((s.env.span i).tHold * 1000)) ∧
            ((s.plant.span i).state = .starting → input = .key → (s.plant.span i).jog = none →
              restsIn .resting (q.span i) ∧ sameJourney (s.plant.span i) (q.span i) ∧
              (q.span i).posted.map (fun set => set.mode) = some .braked) ∧
            ((s.plant.span i).state = .starting → input = .hold → q.span i = s.plant.span i) ∧
            ((s.plant.span i).jog.isSome = true → input = .key → q.span i = s.plant.span i) ∧
            ((s.plant.span i).state ≠ .moving → (s.plant.span i).state ≠ .starting → q.span i = s.plant.span i)) ∧
      (∀ (i : Slot) (d : Dir), input = jogInput d → (s.station.get input).pin = true →
        (s.station.get (jogInput (dirFlip d))).val = false → i = s.station.selected → s.sup.mode = .ready →
        s.station.key.val = true → (s.plant.span i).state = .holding ∨ (s.plant.span i).state = .resting →
        s.wind.gate.shut = false →
        (s.plant.span i).proof.owed ≠ 8 → (s.plant.span i).proof.unproven = false →
        (s.plant.span i).skew ≤ (s.env.span i).sStop →
        ∃ q : Plant, exec (.stationPressTimerExpiry input) s = .next (settle { s with
            station := s.station.set input { pin := true, val := true, press := none }, plant := q }) ∧
          (∀ j : Slot, j ≠ i → q.span j = s.plant.span j) ∧ (q.span i).dir = d ∧
          ((s.plant.span i).state = .holding → (q.span i).state = .moving) ∧
          ((s.plant.span i).state = .resting → (q.span i).state = .starting ∧ (q.span i).v = 0 ∧
            (q.span i).releaseT = some ((s.env.span i).tRel * 100) ∧ (q.span i).setpointMode = some .energize) ∧
          (q.span i).plan = (s.plant.span i).plan ∧ (q.span i).x = (s.plant.span i).x ∧ (q.span i).holdT = none ∧
          (q.span i).jog = some { dir := d, cruise := (s.env.span i).jog, accel := (s.env.span i).ad,
                                  target := match d with | .pos => (s.env.span i).xmax | .neg => (s.env.span i).xmin }))

/-- ESTOP_ASSERTED, HOLD_STUCK and JOG_RELEASE (R153, R154, R157, R164, R165). ESTOP acts at its first edge in every mode: FAILSAFE for
OPERATOR_STOP with every span stopped SAFE to RESTING (log entry 17), or, in FAILSAFE already, the reason joined to the later ones. HOLD held
to t_max does the same for STATION_FAULT, with QUICK stops; it acts whenever the HOLD timer runs, whatever time is left, the model's
choice (log entry 32). A jog input's release ends the jog it holds, of a span MOVING by a CONTROLLED stop to HOLDING and of one STARTING
by its abort to RESTING, and otherwise only releases the input. -/
def Obligations.EstopHoldStuckAndJogRelease : Prop :=
  (∀ (s : State), s.resetPin = false → s.sup.mode ≠ .failsafe →
    ∃ q : Plant, exec .estopAsserted s = .next (settle { s with
        station := { s.station with estop := { pin := true, val := true, press := none } }, plant := q,
        sup := { s.sup with
          mode := .failsafe, acqT := none, stableT := none, g := 0, f := min (s.sup.f + 1) 255,
          window := if s.sup.mode = .ready then s.sup.window else some 0,
          lockout := s.sup.lockout || (s.cfg.dev.fmax != 0 && decide (s.cfg.dev.fmax < min (s.sup.f + 1) 255)),
          record := some { reason := .operatorStop, time := s.time, toReady := s.sup.mode == .ready, later := [] } } }) ∧
      ∀ i : Slot, safeStopped (s.plant.span i) (q.span i)) ∧
  (∀ (s : State) (k : FailsafeRecord), s.resetPin = false → s.sup.mode = .failsafe → s.sup.record = some k →
    ∃ q : Plant, exec .estopAsserted s = .next (settle { s with
        station := { s.station with estop := { pin := true, val := true, press := none } }, plant := q,
        sup := { s.sup with record := some { k with
          later := if k.reason = .operatorStop ∨ .operatorStop ∈ k.later then k.later else k.later ++ [.operatorStop] } } }) ∧
      ∀ i : Slot, safeStopped (s.plant.span i) (q.span i)) ∧
  (∀ (s : State), s.resetPin = false → s.sup.mode ≠ .failsafe → s.station.holdT.isSome = true →
    ∃ q : Plant, exec .holdStuck s = .next (settle { s with
        station := { s.station with holdT := none }, plant := q,
        sup := { s.sup with
          mode := .failsafe, acqT := none, stableT := none, g := 0, f := min (s.sup.f + 1) 255,
          window := if s.sup.mode = .ready then s.sup.window else some 0,
          lockout := s.sup.lockout || (s.cfg.dev.fmax != 0 && decide (s.cfg.dev.fmax < min (s.sup.f + 1) 255)),
          record := some { reason := .stationFault, time := s.time, toReady := s.sup.mode == .ready, later := [] } } }) ∧
      ∀ i : Slot, quickStopped (s.plant.span i) (q.span i)) ∧
  (∀ (s : State) (k : FailsafeRecord), s.resetPin = false → s.sup.mode = .failsafe → s.sup.record = some k →
      s.station.holdT.isSome = true →
    ∃ q : Plant, exec .holdStuck s = .next (settle { s with
        station := { s.station with holdT := none }, plant := q,
        sup := { s.sup with record := some { k with
          later := if k.reason = .stationFault ∨ .stationFault ∈ k.later then k.later else k.later ++ [.stationFault] } } }) ∧
      ∀ i : Slot, quickStopped (s.plant.span i) (q.span i)) ∧
  (∀ (s : State), s.resetPin = false → s.station.holdT = none → exec .holdStuck s = .next (settle s)) ∧
  (∀ (s : State) (d : Dir), s.resetPin = false → s.plant.jogSlot = none →
    exec (.jogRelease d) s = .next (settle { s with
      station := s.station.set (jogInput d) { pin := false, val := false, press := none } })) ∧
  (∀ (s : State) (d : Dir) (i : Slot) (j : JogContext), s.resetPin = false → s.plant.jogSlot = some i →
    (s.plant.span i).jog = some j → j.dir = d → (s.plant.span i).state = .moving → (s.plant.span i).v ≠ 0 →
    ∃ q : Plant, exec (.jogRelease d) s = .next (settle { s with
        station := s.station.set (jogInput d) { pin := false, val := false, press := none }, plant := q }) ∧
      (∀ m : Slot, m ≠ i → q.span m = s.plant.span m) ∧ (q.span i).state = .stopping ∧ (q.span i).v = (s.plant.span i).v ∧
      (q.span i).jog = some j ∧ (q.span i).stop = some { kind := .controlled, endState := .holding }) ∧
  (∀ (s : State) (d : Dir) (i : Slot) (j : JogContext), s.resetPin = false → s.plant.jogSlot = some i →
    (s.plant.span i).jog = some j → j.dir = d → (s.plant.span i).state = .starting → noTestOwed s i →
    ∃ q : Plant, exec (.jogRelease d) s = .next (settle { s with
        station := s.station.set (jogInput d) { pin := false, val := false, press := none }, plant := q }) ∧
      onlySpan i s.plant q ∧ restsIn .resting (q.span i) ∧ sameJourney (s.plant.span i) (q.span i)) ∧
  (∀ (s : State) (d : Dir) (i : Slot) (j : JogContext), s.resetPin = false → s.plant.jogSlot = some i →
    (s.plant.span i).jog = some j → j.dir ≠ d →
    exec (.jogRelease d) s = .next (settle { s with
      station := s.station.set (jogInput d) { pin := false, val := false, press := none } }))

/-! ### What every step keeps -/

/-- Every span is UNCONFIGURED with its reset values outside READY and FAILSAFE and while its slot is not in use: every step keeps it
(R17, R35). -/
def Obligations.UnconfiguredSpansStayBlank : Prop :=
  ∀ s t : State, unconfiguredHolds s → step s = .next t → unconfiguredHolds t

/-- The reference of every span that has left UNCONFIGURED stays within its envelope and its Vmax: every step keeps it, in states
that also keep the statement above (R12, R56). -/
def Obligations.ReferenceStaysWithinItsLimits : Prop :=
  ∀ s t : State, unconfiguredHolds s → referenceHolds s → step s = .next t → referenceHolds t

/-- No span is STARTING or MOVING while the gate is TRIPPED or BLIND: every step keeps it (R28, R148, R156). -/
def Obligations.NoMotionUnderAShutGate : Prop :=
  ∀ s t : State, windHolds s → step s = .next t → windHolds t

/-- v is zero outside MOVING and STOPPING and under a SAFE stop, every owed count lies between -8 and 8, and the queues hold no more
than the manual gives them: every step keeps it (R16, R20, R36, R116, R175, R179). -/
def Obligations.SpeedsCountsAndQueuesStayInBounds : Prop :=
  ∀ s t : State, speedHolds s ∧ owedHolds s ∧ queuesHold s → step s = .next t → speedHolds t ∧ owedHolds t ∧ queuesHold t

/-- STOP-REQ is asserted exactly outside READY and while a span performs a SAFE stop: every step keeps it (R168). -/
def Obligations.StopReqKeepsItsLevel : Prop :=
  ∀ s t : State, stopReqHolds s → step s = .next t → stopReqHolds t

/-- What every step keeps holds after reset. -/
def Obligations.ResetMeetsTheInvariants : Prop :=
  unconfiguredHolds State.reset ∧ referenceHolds State.reset ∧ windHolds State.reset ∧ speedHolds State.reset ∧
  owedHolds State.reset ∧ queuesHold State.reset ∧ stopReqHolds State.reset
end

