-- ==== Sys2Proof/Laws/State.lean ====
section
/-! SUPPORT. What each field of the state reads as after each named update: the four-fold container, the spans of the
plant, and the reports. -/

namespace Sys2Proof

/-! ### The four-fold container -/

@[simp] theorem Quad.get_set {α : Type} (q : Quad α) (i : Fin 4) (a : α) : (q.set i a).get i = a := by
  match i with
  | 0 => rfl
  | 1 => rfl
  | 2 => rfl
  | 3 => rfl

theorem Quad.get_set_ne {α : Type} (q : Quad α) {i j : Fin 4} (h : j ≠ i) (a : α) : (q.set i a).get j = q.get j := by
  match i, j with
  | 0, 0 | 1, 1 | 2, 2 | 3, 3 => exact absurd rfl h
  | 0, 1 | 0, 2 | 0, 3 | 1, 0 | 1, 2 | 1, 3 | 2, 0 | 2, 1 | 2, 3 | 3, 0 | 3, 1 | 3, 2 => rfl

@[simp] theorem Quad.get_fill {α : Type} (a : α) (i : Fin 4) : (Quad.fill a).get i = a := by
  match i with
  | 0 => rfl
  | 1 => rfl
  | 2 => rfl
  | 3 => rfl

@[simp] theorem Quad.get_ofFn {α : Type} (f : Fin 4 → α) (i : Fin 4) : (Quad.ofFn f).get i = f i := by
  match i with
  | 0 => rfl
  | 1 => rfl
  | 2 => rfl
  | 3 => rfl

@[simp] theorem Quad.get_map {α β : Type} (f : α → β) (q : Quad α) (i : Fin 4) : (q.map f).get i = f (q.get i) := by
  match i with
  | 0 => rfl
  | 1 => rfl
  | 2 => rfl
  | 3 => rfl

/-- Two of the containers are equal when they agree at every index. -/
theorem Quad.ext_get {α : Type} {p q : Quad α} (h : ∀ i, p.get i = q.get i) : p = q := by
  obtain ⟨a, b, c, d⟩ := p
  obtain ⟨a', b', c', d'⟩ := q
  have h0 : a = a' := h 0
  have h1 : b = b' := h 1
  have h2 : c = c' := h 2
  have h3 : d = d' := h 3
  rw [h0, h1, h2, h3]

/-- A container with what it already holds put back is as it was. -/
@[simp] theorem Quad.set_get {α : Type} (q : Quad α) (i : Fin 4) : q.set i (q.get i) = q :=
  Quad.ext_get fun j => by
    by_cases h : j = i
    · subst h; simp
    · rw [Quad.get_set_ne q h]

@[simp] theorem Quad.set_set {α : Type} (q : Quad α) (i : Fin 4) (a b : α) : (q.set i a).set i b = q.set i b :=
  Quad.ext_get fun j => by
    by_cases h : j = i
    · subst h; simp
    · rw [Quad.get_set_ne _ h, Quad.get_set_ne _ h, Quad.get_set_ne _ h]

/-- A property of every member of the container's list is a property of the thing at every index. -/
theorem Quad.any_toList {α : Type} (q : Quad α) (f : α → Bool) : q.toList.any f = true ↔ ∃ i, f (q.get i) = true := by
  constructor
  · intro h
    simp only [Quad.toList, List.any_cons, List.any_nil, Bool.or_false, Bool.or_eq_true] at h
    rcases h with h | h | h | h
    · exact ⟨0, h⟩
    · exact ⟨1, h⟩
    · exact ⟨2, h⟩
    · exact ⟨3, h⟩
  · rintro ⟨i, h⟩
    simp only [Quad.toList, List.any_cons, List.any_nil, Bool.or_false, Bool.or_eq_true]
    match i, h with
    | 0, h => exact .inl h
    | 1, h => exact .inr (.inl h)
    | 2, h => exact .inr (.inr (.inl h))
    | 3, h => exact .inr (.inr (.inr h))

namespace Machine

/-! ### Spans of the plant -/

@[simp] theorem Plant.span_setSpan (p : Plant) (i : Slot) (sp : Span) : (p.setSpan i sp).span i = sp := by
  simp [Plant.setSpan, Plant.span]

theorem Plant.span_setSpan_ne (p : Plant) {i j : Slot} (h : j ≠ i) (sp : Span) : (p.setSpan i sp).span j = p.span j := by
  simp [Plant.setSpan, Plant.span, Quad.get_set_ne _ h]

@[simp] theorem Plant.setSpan_zones (p : Plant) (i : Slot) (sp : Span) : (p.setSpan i sp).zones = p.zones := rfl
@[simp] theorem Plant.setSpan_link (p : Plant) (i : Slot) (sp : Span) : (p.setSpan i sp).link = p.link := rfl
@[simp] theorem Plant.setSpan_out (p : Plant) (i : Slot) (sp : Span) : (p.setSpan i sp).out = p.out := rfl
@[simp] theorem Plant.setSpan_self (p : Plant) (i : Slot) : p.setSpan i (p.span i) = p := by
  simp [Plant.setSpan, Plant.span]
@[simp] theorem Plant.setSpan_setSpan (p : Plant) (i : Slot) (a b : Span) :
    (p.setSpan i a).setSpan i b = p.setSpan i b := by
  simp [Plant.setSpan]

/-! ### Reports -/

@[simp] theorem Plant.report_spans (p : Plant) (r : Report) : (p.report r).spans = p.spans := rfl
@[simp] theorem Plant.report_zones (p : Plant) (r : Report) : (p.report r).zones = p.zones := rfl
@[simp] theorem Plant.report_link (p : Plant) (r : Report) : (p.report r).link = p.link := rfl
@[simp] theorem Plant.report_span (p : Plant) (r : Report) (i : Slot) : (p.report r).span i = p.span i := rfl
@[simp] theorem Plant.report_out (p : Plant) (r : Report) : (p.report r).out = p.out.push r := rfl

@[simp] theorem Plant.reports_nil (p : Plant) : p.reports [] = p := rfl
@[simp] theorem Plant.reports_cons (p : Plant) (r : Report) (rs : List Report) :
    p.reports (r :: rs) = (p.report r).reports rs := rfl
@[simp] theorem Plant.reports_spans (p : Plant) (rs : List Report) : (p.reports rs).spans = p.spans := by
  induction rs generalizing p with
  | nil => rfl
  | cons r rs ih => simp [ih]
@[simp] theorem Plant.reports_zones (p : Plant) (rs : List Report) : (p.reports rs).zones = p.zones := by
  induction rs generalizing p with
  | nil => rfl
  | cons r rs ih => simp [ih]
@[simp] theorem Plant.reports_link (p : Plant) (rs : List Report) : (p.reports rs).link = p.link := by
  induction rs generalizing p with
  | nil => rfl
  | cons r rs ih => simp [ih]
@[simp] theorem Plant.reports_span (p : Plant) (rs : List Report) (i : Slot) : (p.reports rs).span i = p.span i := by
  simp [Plant.span]
@[simp] theorem Plant.reports_out (p : Plant) (rs : List Report) :
    (p.reports rs).out = rs.foldl ReportQueue.push p.out := by
  induction rs generalizing p with
  | nil => rfl
  | cons r rs ih => simp [ih]

/-- A report leaves at most the queue's sixteen places taken (R179). -/
theorem ReportQueue.push_length {q : ReportQueue} (h : q.queue.length ≤ Config.reportsMax) (r : Report) :
    (q.push r).queue.length ≤ Config.reportsMax := by
  unfold ReportQueue.push
  split
  · split
    · simp; omega
    · exact h
  · exact h

@[simp] theorem ReportQueue.push_mask (q : ReportQueue) (r : Report) : (q.push r).mask = q.mask := by
  unfold ReportQueue.push
  split
  · split <;> rfl
  · rfl

/-! ### Every slot in turn -/

/-- What holds of the plant and is kept by an operation on each slot holds after the operation on every slot. -/
theorem eachSlot_keeps {P : Plant → Prop} {f : Slot → Plant → Plant} (hf : ∀ i p, P p → P (f i p)) {p : Plant} (h : P p) :
    P (eachSlot f p) := hf 3 _ (hf 2 _ (hf 1 _ (hf 0 _ h)))

/-! ### Span timers' run -/

@[simp] theorem TimerRun.enter_stopped (new : SpanState) : TimerRun.stopped.enter new = .stopped := rfl

end Machine
end Sys2Proof
end

