-- ==== Sys2Proof/Laws/Ops.lean ====
section
/-! SUPPORT. What each shared operation on the plant can do, said once: posting a set, registering a fault, withdrawing
writes, broadcasts, the change of a span's state, and retirement. -/

namespace Sys2Proof.Machine

/-! ### Posting a set -/

/-- A posted set changes the mailbox of its span and nothing else. -/
theorem postSet_cases (env : Env) (i : Slot) (p : Plant) :
    postSet env i p = p ∨ ∃ set, postSet env i p = p.setSpan i { p.span i with posted := some set } := by
  simp only [postSet]
  split
  · exact .inl rfl
  · exact .inr ⟨_, rfl⟩

@[simp] theorem postSet_zones (env : Env) (i : Slot) (p : Plant) : (postSet env i p).zones = p.zones := by
  obtain h | ⟨_, h⟩ := postSet_cases env i p <;> rw [h] <;> rfl
@[simp] theorem postSet_link (env : Env) (i : Slot) (p : Plant) : (postSet env i p).link = p.link := by
  obtain h | ⟨_, h⟩ := postSet_cases env i p <;> rw [h] <;> rfl
@[simp] theorem postSet_out (env : Env) (i : Slot) (p : Plant) : (postSet env i p).out = p.out := by
  obtain h | ⟨_, h⟩ := postSet_cases env i p <;> rw [h] <;> rfl
theorem postSet_span_ne (env : Env) {i j : Slot} (hj : j ≠ i) (p : Plant) : (postSet env i p).span j = p.span j := by
  obtain h | ⟨_, h⟩ := postSet_cases env i p <;> rw [h]
  exact Plant.span_setSpan_ne p hj _
theorem postSet_span (env : Env) (i : Slot) (p : Plant) :
    (postSet env i p).span i = { p.span i with posted := ((postSet env i p).span i).posted } := by
  obtain h | ⟨_, h⟩ := postSet_cases env i p <;> rw [h] <;> simp

/-! ### The fault record -/

/-- A cause registered changes the fault record of its span, with at most one report. -/
theorem registerFault_cases (env : Env) (i : Slot) (c : FaultCause) (p : Plant) :
    registerFault env i c p = p ∨
    ∃ f first, registerFault env i c p = (p.setSpan i { p.span i with fault := some f }).report (.spanFault i c first) := by
  simp only [registerFault]
  split
  · exact .inr ⟨_, _, rfl⟩
  · split
    · exact .inl rfl
    · exact .inr ⟨_, _, rfl⟩

@[simp] theorem registerFault_zones (env : Env) (i : Slot) (c : FaultCause) (p : Plant) :
    (registerFault env i c p).zones = p.zones := by
  obtain h | ⟨_, _, h⟩ := registerFault_cases env i c p <;> rw [h] <;> rfl
@[simp] theorem registerFault_link (env : Env) (i : Slot) (c : FaultCause) (p : Plant) :
    (registerFault env i c p).link = p.link := by
  obtain h | ⟨_, _, h⟩ := registerFault_cases env i c p <;> rw [h] <;> rfl
theorem registerFault_span_ne (env : Env) {i j : Slot} (hj : j ≠ i) (c : FaultCause) (p : Plant) :
    (registerFault env i c p).span j = p.span j := by
  obtain h | ⟨_, _, h⟩ := registerFault_cases env i c p <;> rw [h]
  simp [Plant.span_setSpan_ne p hj]
theorem registerFault_span (env : Env) (i : Slot) (c : FaultCause) (p : Plant) :
    (registerFault env i c p).span i = { p.span i with fault := ((registerFault env i c p).span i).fault } := by
  obtain h | ⟨_, _, h⟩ := registerFault_cases env i c p <;> rw [h] <;> simp

/-! ### Writes withdrawn, lock commands dropped, broadcasts requested -/

@[simp] theorem withdrawWrites_spans (env : Env) (i : Slot) (p : Plant) : (withdrawWrites env i p).spans = p.spans := by
  simp [withdrawWrites]
@[simp] theorem withdrawWrites_span (env : Env) (i j : Slot) (p : Plant) : (withdrawWrites env i p).span j = p.span j := by
  simp [Plant.span]
@[simp] theorem withdrawWrites_zones (env : Env) (i : Slot) (p : Plant) : (withdrawWrites env i p).zones = p.zones := by
  simp [withdrawWrites]
@[simp] theorem withdrawWrites_addrs (env : Env) (i : Slot) (p : Plant) :
    (withdrawWrites env i p).link.addrs = p.link.addrs := by
  simp [withdrawWrites]
/-- Where the queue holds no write of the span's addresses, nothing is withdrawn. -/
theorem withdrawWrites_none (env : Env) (i : Slot) (p : Plant) (h : ∀ e ∈ p.link.params, p.link.isWriteOf i e = false) :
    withdrawWrites env i p = p := by
  have h1 : p.link.params.filter (p.link.isWriteOf i) = [] :=
    List.filter_eq_nil_iff.2 fun e he => by simp [h e he]
  have h2 : p.link.params.filter (fun e => !p.link.isWriteOf i e) = p.link.params :=
    List.filter_eq_self.2 fun e he => by simp [h e he]
  simp only [withdrawWrites, h1, h2, List.flatMap_nil, Plant.reports_nil]

@[simp] theorem dropLockCommand_spans (i : Slot) (p : Plant) : (dropLockCommand i p).spans = p.spans := rfl
@[simp] theorem dropLockCommand_span (i j : Slot) (p : Plant) : (dropLockCommand i p).span j = p.span j := rfl
@[simp] theorem dropLockCommand_zones (i : Slot) (p : Plant) : (dropLockCommand i p).zones = p.zones := rfl
@[simp] theorem dropLockCommand_out (i : Slot) (p : Plant) : (dropLockCommand i p).out = p.out := rfl
@[simp] theorem dropLockCommand_addrs (i : Slot) (p : Plant) : (dropLockCommand i p).link.addrs = p.link.addrs := rfl

@[simp] theorem brakeSpan_spans (env : Env) (i : Slot) (p : Plant) : (brakeSpan env i p).spans = p.spans := rfl
@[simp] theorem brakeSpan_span (env : Env) (i j : Slot) (p : Plant) : (brakeSpan env i p).span j = p.span j := rfl
@[simp] theorem brakeSpan_zones (env : Env) (i : Slot) (p : Plant) : (brakeSpan env i p).zones = p.zones := rfl
@[simp] theorem brakeSpan_out (env : Env) (i : Slot) (p : Plant) : (brakeSpan env i p).out = p.out := rfl
/-- A broadcast requested leaves one pending for its span (R99). -/
theorem brakeSpan_pending (env : Env) (i : Slot) (p : Plant) :
    (brakeSpan env i p).link.bcasts.any (fun b => b.slot == i) = true := by
  simp only [brakeSpan, BogieLink.requestBroadcast]
  split
  · assumption
  · simp

/-! ### The change of a span's state -/

section
variable (env : Env) (i : Slot) (new : SpanState) (rec : Option StopRecord) (p : Plant)

/-- The span after a change of state is the span entered into the state, with the set it posts. -/
theorem changeState_span : (changeState env i new rec p).span i =
    { (p.span i).enter (env.span i) new rec with posted := ((changeState env i new rec p).span i).posted } := by
  simp only [changeState]
  split <;> split <;> split <;>
    first
    | (rw [postSet_span]; simp)
    | simp

theorem changeState_span_ne {j : Slot} (h : j ≠ i) : (changeState env i new rec p).span j = p.span j := by
  simp only [changeState]
  split <;> split <;> split <;> simp [postSet_span_ne env h, Plant.span_setSpan_ne p h]

@[simp] theorem changeState_zones : (changeState env i new rec p).zones = p.zones := by
  simp only [changeState]
  split <;> split <;> split <;> simp

@[simp] theorem changeState_addrs : (changeState env i new rec p).link.addrs = p.link.addrs := by
  simp only [changeState]
  split <;> split <;> split <;> simp

/-- A change of state that neither enters an energised state nor ends a lock operation leaves the link alone. -/
theorem changeState_link (h : new.energised = false) (h1 : (p.span i).state ≠ .locking) (h2 : (p.span i).state ≠ .unlocking) :
    (changeState env i new rec p).link = p.link := by
  simp only [changeState, h, Bool.false_eq_true, if_false]
  have : ((p.span i).state == .locking || (p.span i).state == .unlocking) = false := by simp [h1, h2]
  simp only [this, Bool.false_eq_true, if_false]
  split <;> simp

/-- A change of state that enters no energised state queues its SPAN_STATE report and no other. -/
theorem changeState_out (h : new.energised = false) : (changeState env i new rec p).out =
    p.out.push (.spanState i (p.span i).state new ((p.span i).enter (env.span i) new rec).stop) := by
  simp only [changeState, h, Bool.false_eq_true, if_false]
  split <;> split <;> simp

@[simp] theorem changeState_state : ((changeState env i new rec p).span i).state = new := by
  rw [changeState_span]; rfl

end

/-! ### Entry into an end state -/

/-- Where no test is due or wanted, an entry into an end state is the change of state alone (R22, R118). -/
theorem enterEnd_plain (env : Env) (i : Slot) (e : EndState) (p : Plant) (h1 : (p.span i).proof.due = false)
    (h2 : (env.span i).autoProof = false) : enterEnd env i e p = changeState env i (endSpanState e) none p := by
  have h : ((changeState env i (endSpanState e) none p).span i).proof.due = false := by
    rw [changeState_span]; exact h1
  simp only [enterEnd, tryTest, h, autoTestWanted, h2, Bool.false_and, Bool.or_self, Bool.false_eq_true, if_false]

/-- Entering FAULTED starts no test. -/
theorem enterEnd_faulted (env : Env) (i : Slot) (p : Plant) :
    enterEnd env i .faulted p = changeState env i .faulted none p := by
  simp [enterEnd, tryTest, testAllowed, endSpanState]

/-! ### Retirement -/

section
variable (env : Env) (i : Slot) (gone segs : List Segment) (endsRun : Bool) (p : Plant)

/-- The reports of retired heads change the report queue alone. -/
@[simp] theorem reportRetired_span (j : Slot) : (reportRetired env i segs p).span j = p.span j := by simp [reportRetired]
@[simp] theorem reportRetired_zones : (reportRetired env i segs p).zones = p.zones := by simp [reportRetired]
@[simp] theorem reportRetired_link : (reportRetired env i segs p).link = p.link := by simp [reportRetired]
@[simp] theorem reportRetired_nil : reportRetired env i [] p = p := by
  simp [reportRetired, retireReports, retirementReports]

/-- A retirement changes the plan and what is remembered of its last segment, in its own span (R43). -/
@[simp] theorem retire_span : (retire env i gone segs endsRun p).span i = (p.span i).retired segs endsRun := by
  simp [retire]
theorem retire_span_ne {j : Slot} (h : j ≠ i) : (retire env i gone segs endsRun p).span j = p.span j := by
  simp [retire, Plant.span_setSpan_ne p h]
@[simp] theorem retire_zones : (retire env i gone segs endsRun p).zones = p.zones := by simp [retire]
@[simp] theorem retire_link : (retire env i gone segs endsRun p).link = p.link := by simp [retire]

/-- With no head retired by the advance, the period reports those of the run's start alone. -/
@[simp] theorem retire_nil : retire env i gone [] endsRun p = reportRetired env i gone p := by
  simp [retire, Span.retired]

end

/-- The heads retired lead the plan when the run's chain does, so retirement drops exactly them. -/
theorem retiredHeads_isPrefix (dir : Dir) (x : Int) {chain plan : List Segment} (h : chain <+: plan) :
    retiredHeads dir x chain plan <+: plan := by
  simp only [retiredHeads]
  have hr : chain.takeWhile (reached dir x) <+: plan := (List.takeWhile_prefix _).trans h
  split
  · exact hr
  · obtain ⟨rest, hrest⟩ := hr
    rw [← hrest, List.drop_left]
    exact (List.prefix_append_right_inj _).2 (List.takeWhile_prefix _)

/-- A broadcast inserted into a cycle joins its transactions and takes none away (R99). -/
theorem insertBroadcast_perm (b : Broadcast) (ts : List Txn) :
    (insertBroadcast b ts).Perm (.broadcast b true :: ts) := by
  induction ts with
  | nil => exact .refl _
  | cons t rest ih =>
    simp only [insertBroadcast]
    split
    · exact (ih.cons t).trans (.swap _ _ _)
    · exact .refl _

end Sys2Proof.Machine
end

