-- ==== Sys2Proof/Laws/CommandLink.lean ====
section
/-! SUPPORT. The command link: fields written and read back, the length of every request's payload, and what a request
taken at its arrival leaves. -/

namespace Sys2Proof

/-! ### Fields written and read back -/

/-- A two-byte field written and read back. -/
theorem wordAt_enc16 (a : BitVec 16) : (a.extractLsb' 8 8 ++ a.extractLsb' 0 8 : BitVec 16) = a := by
  apply BitVec.eq_of_getElem_eq
  intro k hk
  simp only [BitVec.getElem_append, BitVec.getElem_extractLsb']
  split
  · simp [← BitVec.getLsbD_eq_getElem]
  · rw [BitVec.getLsbD_eq_getElem (by omega)]
    congr 1; omega

/-- A four-byte field written and read back. -/
theorem longAt_enc32 (a : BitVec 32) :
    (a.extractLsb' 24 8 ++ a.extractLsb' 16 8 ++ a.extractLsb' 8 8 ++ a.extractLsb' 0 8 : BitVec 32) = a := by
  apply BitVec.eq_of_getLsbD_eq
  intro k hk
  simp only [BitVec.getLsbD_append, BitVec.getLsbD_extractLsb']
  split
  · simp_all
  · split
    · have : k - 8 < 8 := by omega
      simp [this]; congr 1; omega
    · split
      · have : k - 8 - 8 < 8 := by omega
        simp [this]; congr 1; omega
      · have : k - 8 - 8 - 8 < 8 := by omega
        simp [this]; congr 1; omega

theorem enc8_length (a : Byte) : (enc8 a).length = 1 := by simp [enc8]
theorem enc16_length (a : BitVec 16) : (enc16 a).length = 2 := by simp [enc16]
theorem enc32_length (a : BitVec 32) : (enc32 a).length = 4 := by simp [enc32]

/-- The payload of CONFIGURE SPAN has its 92 bytes. -/
theorem SpanFields.write_length (slot inUse : Byte) (f : SpanFields) : (SpanFields.write slot inUse f).length = 92 := by
  unfold SpanFields.write
  simp only [List.flatten_cons, List.flatten_nil, List.length_append, List.length_nil]
  simp only [enc8_length, enc16_length, enc32_length]

/-- Every request's payload has the length of its code (12.3). -/
theorem Request.payload_length (r : Request) : requestLength r.code = some r.payload.length := by
  cases r
  case configureSpan => simp only [Request.payload, SpanFields.write_length]; rfl
  all_goals rfl

/-- The KIND of the reply to a request (R183). -/
theorem Request.replyKind_code (r : Request) : replyKind r.code = r.code + 0x80 := by
  unfold replyKind
  rw [Request.payload_length]
  rfl

/-- No request's payload is longer than a frame can carry. -/
theorem Request.payload_fits (r : Request) : r.payload.length ≤ Config.payloadMax := by
  cases r
  case configureSpan => simp only [Request.payload, SpanFields.write_length]; decide
  all_goals exact Nat.le_of_ble_eq_true rfl

namespace Machine
open Safety

/-! ### A reply placed, and the end of its event -/

/-- A reply placed in the buffer and the event ended: the state is the answered one. -/
theorem settle_placeReply (kind tag : Byte) (d : Done) :
    settle (placeReply kind tag d) = answered d.state (replyKind kind) tag d.result d.onSent := by
  unfold settle startFrame placeReply answered sending State.send
  rcases h : d.state.cmd.tx with _ | f
  · rcases h2 : d.state.cmd.busy with _ | b <;>
      simp [h2, State.stopReqLevel, Result.bytes, num8, Reason.code, Reason.detail]
  · simp [h, State.stopReqLevel]

/-- A request sent to a device at which nothing waits is performed and answered at once (R175). -/
theorem request_answered (r : Request) (tag : Byte) {s : State} (h : free s) :
    runEvent (requestArrives r tag) s =
      .next (answered (perform r s).state (r.code + 0x80) tag (perform r s).result (perform r s).onSent) := by
  obtain ⟨h1, h2, h3⟩ := h
  simp only [runEvent, h1, Bool.false_eq_true, if_false, requestArrives, h2, h3, settle_placeReply, Request.replyKind_code]

/-- A request that is acted on and leaves a state is answered with it. -/
theorem request_done {r : Request} {s : State} (tag : Byte) (h : free s) {d : Done} (hd : perform r s = d) :
    runEvent (requestArrives r tag) s = .next (answered d.state (r.code + 0x80) tag d.result d.onSent) := by
  rw [request_answered r tag h, hd]

end Machine
end Sys2Proof
end

