-- ==== Sys2Proof/Tests/Slice0.lean ====
section
/-! SUPPORT. Tests: the ill-formed terms `wellFormed` refuses, frames and words written out from chapter 12, the manual's
worked examples, and for every statement with hypotheses a state that meets them. -/

namespace Sys2Proof.Tests
open Machine Safety
set_option Elab.async false

/-! ### Ill-formed terms -/

theorem test_long_payload_is_ill_formed : (Instr.frameReceived 0 0 (List.replicate 241 0) 0).wellFormed = false := by decide +kernel
theorem test_longest_payload_is_well_formed : (Instr.frameReceived 0 0 (List.replicate 240 0) 0).wellFormed = true := by decide +kernel
theorem test_address_without_role_is_ill_formed :
    (Instr.configureAddress 0 { addr := 1, role := 0, slot := 0, rail := 0, branch := 0, offset := 0 }).wellFormed = false := by decide +kernel
theorem test_faulted_stop_without_cause_is_ill_formed :
    (Instr.stopTaken 0 { kind := .safe, endState := .faulted, cause := none }).wellFormed = false := by decide +kernel
theorem test_resting_stop_with_cause_is_ill_formed :
    (Instr.stopTaken 0 { kind := .safe, endState := .resting, cause := some .skewTrip }).wellFormed = false := by decide +kernel

/-! ### Helpers -/

/-- The state a command leaves. -/
def after (c : Instr) (s : State) : State :=
  match exec c s with
  | .next t => t
  | _ => s

/-- The north leaf of the example installation (chapter 1), with the values the manual's examples leave open chosen. -/
def leaf : SpanConfig :=
  { rails := 2, xmin := 0, xmax := 120000000, vmax := 200000, vb := 220000, ad := 5000, aq := 10000, c := 2000,
    jog := 20000, kp := 800, tmax := 2000, kl := 50, lmax := 1000, kdeg := 80, sWarn := 20000, sStop := 40000,
    sTrip := 80000, fLim := 50000, tHold := 120, tRel := 50, g := 0, m := 0, lock1 := 0, lock2 := 120000000,
    lockTol := 5000, tLock := 20, tProof := 6, proofTorque := 80, proofHold := 10, creepLimit := 200, autoProof := false,
    autoResume := true }

/-- A bogie that has answered its last poll. -/
def bogie (addr : Nat) (rail : Rail) (offset pos torque : Int) : AddrRec :=
  { addr := addr, role := .bogie, slot := 0, rail := rail, branch := 0, offset := offset, link := .present,
    last := some { pos := pos, speed := 0, torque := torque, ready := true, released := true, fault := false }, age := 0,
    miss := 0, good := 0, valid := true, loadTrim := 0, command := 0 }

/-- The lock unit of slot 0, its pins as given. -/
def lockUnit (engaged : Bool) : AddrRec :=
  { bogie 3 0 0 0 0 with
    role := .lockUnit,
    last := some { pos := 0, speed := 0, torque := 0, ready := engaged, released := !engaged, fault := false } }

/-- A proven span in a state, at x = 50,000,000. -/
def leafIn (st : SpanState) : Span :=
  { Span.powerOn with
      state := st, x := 50000000, lastM := some 50000000,
      meas := { Measures.blank with nValid := ⟨1, 1, 0, 0⟩, m := some 50000000 },
      proof := { ProofState.hardReset with unproven := false, relock := false, run := .running, intervalMs := 1000 } }

/-- A device in a mode with one span in slot 0, two bogies and a lock unit, an open gate and a remote key. -/
def device (mode : Mode) (sp : Span) : State :=
  { State.reset with
      cfg := { ConfigStore.powerOn with branches := Quad.fill (some 2), spans := ⟨some leaf, none, none, none⟩,
                                        rails := ⟨⟨some ⟨1, 1⟩, some ⟨1, 1⟩, none, none⟩, Quad.fill none, Quad.fill none, Quad.fill none⟩ },
      sup := { Supervision.powerOn with mode := mode, window := some 600, stopReq := mode != .ready },
      wind := { WindGate.powerOn with gate := .clear, kw := 100 },
      plant := { Plant.powerOn with
        spans := ⟨sp, Span.powerOn, Span.powerOn, Span.powerOn⟩,
        link := { BogieLink.powerOn with addrs := [bogie 1 0 0 50000000 0, bogie 2 1 0 50000000 0, lockUnit false] } },
      cmd := CommandLink.powerOn }

/-- The device in READY. -/
def ready (sp : Span) : State := device .ready sp

/-- A segment to a target. -/
def seg (tag : BitVec 16) (target : Int) (stop report : Bool) : Segment :=
  { tag := tag, target := target, cruise := 100000, accel := 1000, stop := stop, report := report, dwell := 0 }

/-- The reports waiting, with the one being sent aside. -/
def waiting (s : State) : List Report := s.plant.out.queue

/-! ### Frames and words written out from chapter 12 -/

/-- The two polynomials' published check values over the ASCII digits 1 to 9. -/
theorem test_crc_check_values :
    crc8 (crcPoly false) [0x31, 0x32, 0x33, 0x34, 0x35, 0x36, 0x37, 0x38, 0x39] = 0xF4 ∧
    crc8 (crcPoly true) [0x31, 0x32, 0x33, 0x34, 0x35, 0x36, 0x37, 0x38, 0x39] = 0xA2 := by decide +kernel

/-- KEEPALIVE is KIND 0x14 with LEN 0; its CRC over 00 14 07 is 0x16 under selection 0, by hand. In READY, 600 ms into
a window that opens at 500 ms, it is good: outcome 1, e 0, g 1. -/
theorem test_keepalive_bytes_are_answered :
    (([0x5A, 0x00, 0x14, 0x07, 0x16] : List Byte).foldl (fun s b => after (.frameByteReceived b) s)
        (ready (leafIn .resting))).cmd.reply
      = some { kind := 0x94, tag := 7, result := .ok [1, 0, 1], onSent := .nothing } := by decide +kernel

/-- APPEND SEGMENT 102 of chapter 3, byte by byte from 12.2: target 60,000,000, cruise 250,000, accel 2,050. -/
theorem test_segment_payload_reads :
    parseFrame { kind := 0x20, tag := 1, payload := [0x00, 0x00, 0x66, 0x03, 0x93, 0x87, 0x00, 0x00, 0x03, 0xD0, 0x90,
                                                     0x00, 0x00, 0x08, 0x02, 0x00, 0x00, 0x00] } =
      .request (.appendSegment { slot := 0, tag := 102, target := 60000000, cruise := 250000, accel := 2050, flags := 0,
                                 dwell := 0 }) := by decide +kernel

/-- CONFIGURE ADDRESS for address 2 of the example, offset -15,000,000, and WRITE PARAMETER 20, index 12. -/
theorem test_address_and_write_payloads_read :
    parseFrame { kind := 0x05, tag := 0, payload := [2, 1, 0, 0, 0, 0xFF, 0x1B, 0x1E, 0x40] } =
      .request (.configureAddress { addr := 2, role := 1, slot := 0, rail := 0, branch := 0, offset := BitVec.ofInt 32 (-15000000) }) ∧
    parseFrame { kind := 0x2B, tag := 0, payload := [20, 12, 0x12, 0x34] } = .request (.writeParameter 20 12 0x1234) ∧
    parseFrame { kind := 0x2B, tag := 0, payload := [20, 12, 0x12] } = .badLength ∧
    parseFrame { kind := 0x2E, tag := 0, payload := [] } = .unknownKind := by decide +kernel

/-- POLL of address 40: transaction 2 in bits 31-28, 40 in bits 27-21; CRC 0x83 by hand. A setpoint word in RUN with
102,100 and with -16. -/
theorem test_link_words :
    (Txn.poll 40 0 2 true).words = [0x25000083] ∧ setpointWord .run 102100 = 0x818ED422 ∧
    setpointWord .run (-16) = 0xBFFFF0A4 := by decide +kernel

/-! ### Worked examples -/

/-- Configuring the example installation: A_q = 10,050 is stored as 10,000 and answered OK_CLAMPED. -/
theorem test_acceleration_is_rounded : round100 10050 = 10000 ∧ round100 50099 = 50000 ∧ accelFits 100 50000 99 = false := by decide +kernel

/-- A two-way plan: the run of 101 to 104 ends at 103; with 105 appended, the run from 104 is 104, 105. -/
theorem test_two_way_plan_runs :
    runChain .pos [seg 101 30000000 false true, seg 102 60000000 false false, seg 103 90000000 true true, seg 104 40000000 false true]
      = [seg 101 30000000 false true, seg 102 60000000 false false, seg 103 90000000 true true] ∧
    runChain .neg [seg 104 40000000 false true, seg 105 10000000 true true]
      = [seg 104 40000000 false true, seg 105 10000000 true true] := by decide +kernel

/-- A plan after a pause and a jog: from x = 55,000,000 the run is 201 alone, dir -1. -/
theorem test_run_after_a_jog :
    runChain .neg [seg 201 50000000 false false, seg 202 80000000 true false] = [seg 201 50000000 false false] := by decide +kernel

/-- APPEND 102 of the two-way plan: cruise and accel clamped, OK_CLAMPED with the stored values and count 1 here. -/
theorem test_append_is_clamped :
    ((after (.appendSegment 9 { slot := 0, tag := 102, target := 60000000, cruise := 250000, accel := 2050, flags := 0, dwell := 0 })
      (ready (leafIn .resting))).plant.spans.q0.plan
        = [{ tag := 102, target := 60000000, cruise := 200000, accel := 2000, stop := false, report := false, dwell := 0 }]) := by decide +kernel

/-- A full queue: the seventeenth segment is refused QUEUE_FULL and sets the overflow flag. -/
theorem test_full_queue_overflows :
    let s := after (.appendSegment 9 { slot := 0, tag := 417, target := 60000000, cruise := 1, accel := 100, flags := 0, dwell := 0 })
      (ready { leafIn .holding with plan := List.replicate 16 (seg 1 1000 false false) })
    s.plant.spans.q0.overflow = true ∧ s.plant.spans.q0.plan.length = 16 ∧
    s.cmd.reply = some { kind := 0xA0, tag := 9, result := .refused .queueFull, onSent := .nothing } := by decide +kernel

/-- One period on the north leaf, rail 0: m_0 = 49,997,000, t_0 = 2,000, mean torque 40, and the commands of addresses
1, 2 and 8. -/
theorem test_one_period_on_the_north_leaf :
    let rail := [bogie 1 0 0 49997010 38, bogie 2 0 (-15000000) 64997020 46, bogie 3 0 (-30000000) 79996990 41,
                 bogie 4 0 (-45000000) 94997000 39, bogie 5 0 (-60000000) 109996980 36, bogie 6 0 (-75000000) 124997005 44,
                 bogie 7 0 (-90000000) 139996995 36]
    railPosition rail = some 49997000 ∧ railTrim leaf (some 3000) = 2000 ∧ railTrim leaf (some (-1500)) = -1200 ∧
    meanTorque rail = 40 ∧
    bogieCommand leaf .pos 100000 2000 (bogieTrim leaf 40 (bogie 1 0 0 49997010 38)) = 102100 ∧
    bogieCommand leaf .pos 100000 2000 (bogieTrim leaf 40 (bogie 2 0 0 49997020 46)) = 101700 ∧
    spanPosition leaf ⟨some 49997000, some 50001500, none, none⟩ = some 49999250 ∧
    skewOf leaf ⟨some 49997000, some 50001500, none, none⟩ = some (4500, 1, 0) := by decide +kernel

/-- Rounding below zero and clamping at Vb, on the gate span. -/
theorem test_rounding_below_zero :
    let gate := { leaf with kp := 2000, tmax := 1500, kl := 20, lmax := 500, vb := 5000 }
    let rail := [bogie 60 0 0 (-3) (-41), bogie 61 0 0 0 (-44)]
    railPosition rail = some (-2) ∧ meanTorque rail = -42 ∧ railTrim gate (some 2) = 4 ∧
    bogieCommand gate .pos 0 4 (bogieTrim gate (-42) (bogie 60 0 0 (-3) (-41))) = -16 ∧
    bogieCommand gate .pos 0 4 (bogieTrim gate (-42) (bogie 61 0 0 0 (-44))) = 44 ∧
    bogieCommand gate .pos 4000 1500 300 = 5000 ∧ bogieCommand gate .pos 4000 1500 (-300) = 5000 := by decide +kernel

/-- Losing and recovering a bogie: two misses, a good reply, three misses, four good replies while energised, a fifth, and
one at rest. -/
theorem test_losing_and_recovering_a_bogie :
    let a := bogie 49 2 0 0 0
    let lost := (a.missed.missed.heard true).missed.missed.missed
    let held := ((((lost.heard true).heard true).heard true).heard true).heard true
    a.missed.missed.link = .present ∧ lost.link = .lost ∧ lost.miss = 3 ∧ held.link = .lost ∧ held.good = 4 ∧
    (held.heard false).link = .present ∧ (held.heard false).good = 0 := by decide +kernel

/-- The parameter queue: ENGAGE for span 3 goes ahead of three host writes. -/
theorem test_lock_goes_ahead_of_writes :
    insertLock (.lock 3 .engage) [.host 20 12 0, .host 21 12 0, .host 22 12 0] =
      [.lock 3 .engage, .host 20 12 0, .host 21 12 0, .host 22 12 0] := by decide +kernel

/-- START withdraws the span's queued writes, reported in queue order behind SPAN_STATE. -/
theorem test_start_withdraws_writes :
    let s := ready { leafIn .resting with plan := [seg 1 60000000 true true] }
    let s := after (.start 4 0) { s with plant := { s.plant with link := { s.plant.link with params := [.host 1 12 7, .host 2 12 7] } } }
    s.plant.link.params = [] ∧ waiting s = [.spanState 0 .resting .starting none, .paramDone 1 12 7 .withdrawn 0, .paramDone 2 12 7 .withdrawn 0] := by
  decide +kernel

/-- A failed test on the gate span: address 62 crept 230. -/
theorem test_creep_of_a_bogie :
    TestRecord.creepOf { phase := .hold, timer := 0, dir := .neg, starts := [(60, 1000500), (62, 1000495)] } (bogie 62 1 0 1000265 0)
      = (230, 62) ∧ largestCreep [(12, 60), (41, 61), (230, 62), (8, 63)] = some (230, 62) := by decide +kernel

/-- The tray and the gate opening: the near edge of the gate's interval is 49,999 ahead of x = 8,000,000. -/
theorem test_near_edge_of_the_gate :
    let z : ZoneEntry := { entry := 3, spanA := 2, a1 := 45000000, a2 := 60000000, spanB := 3, b1 := 0, b2 := 7950000, tzw := 120,
                           claim := .heldA, sideA := ZoneSide.clear, sideB := ZoneSide.clear }
    zoneEdge 3 8000000 .neg (some 0) z = some 49999 ∧ zoneEdge 2 30000000 .pos (some 80000000) { z with claim := .heldB } = some 14999999 ∧
    z.insideAt .b 7950300 ⟨some 7950500, some 7949700, none, none⟩ = true := by decide +kernel

/-- The gate's period clears the interval while the tray waits: RELEASED, then GRANTED, in one event. -/
theorem test_release_passes_the_claim :
    let z : ZoneEntry := { entry := 3, spanA := 2, a1 := 45000000, a2 := 60000000, spanB := 3, b1 := 0, b2 := 7950000, tzw := 120,
                           claim := .heldB, sideA := { ZoneSide.clear with wait := true }, sideB := { ZoneSide.clear with inside := true } }
    let r := ({ z with sideB := ZoneSide.clear }).release 5 .b false ReportQueue.powerOn
    r.1.claim = .heldA ∧ r.1.sideA.wait = false ∧ r.2.queue = [.zone 3 3 .released 5, .zone 3 2 .granted 5] := by decide +kernel

/-- A gust on the roof line: the samples 150 and 220, the factor 70, and TRIPPED at 220. -/
theorem test_gust_on_the_roof_line :
    let w : WindRecord := { en1 := true, k1 := 125, en2 := true, k2 := 125, ws := 120, wt := 180, h := 20, kmin := 40, tdw := 300 }
    sampleOf 30 125 = 150 ∧ sampleOf 44 125 = 220 ∧ sampleOf 33 125 = 165 ∧ reducedFactor w 150 = 70 ∧ gateFor w 150 = .reduced ∧
    gateFor w 220 = .tripped ∧ dwellAt w 155 none = some 300000 ∧ dwellAt w 165 (some 200000) = none := by decide +kernel

/-- Stops meeting stops on the pitch tray: a wind stop, a host STOP, a skew stop and ESTOP merge to SAFE ending FAULTED. -/
theorem test_stops_meet_stops :
    let s := ready { leafIn .moving with v := 120000, running := true, plan := [seg 1 90000000 true true] }
    let s := after (.stopTaken 0 controlledHold) s
    let s := after (.stop 1 0) s
    let s := after (.stopTaken 0 (faultStop .controlled .skewStop)) s
    let t := after .estopAsserted s
    s.plant.spans.q0.stop = some { kind := .quick, endState := .faulted } ∧
    t.plant.spans.q0.stop = some { kind := .safe, endState := .faulted } ∧ t.plant.spans.q0.v = 0 ∧
    t.plant.spans.q0.safeT = some 5000 ∧ t.plant.link.bcasts.length = 1 ∧ t.sup.mode = .failsafe ∧ t.sup.stopReq = true ∧
    t.plant.spans.q0.fault.map (fun f => (f.first, f.later)) = some (.skewStop, []) := by decide +kernel

/-- A paused leaf at the end of its hold: RESTING with the plan and x as they were. -/
theorem test_end_of_a_hold :
    let sp := { leafIn .holding with holdT := some 0, plan := [seg 1 60000000 false false, seg 2 90000000 true false] }
    let t := (after (.holdTimerExpiry 0) (ready sp)).plant.spans.q0
    t.state = .resting ∧ t.plan.length = 2 ∧ t.x = 50000000 ∧ t.holdT = none := by decide +kernel

/-- A jog under the key: the press of the other input is refused CONDITION and ends the jog, in the order of the table. -/
theorem test_other_jog_input_ends_the_jog :
    let s := ready { leafIn .moving with v := 5000, dir := .neg, jog := some (jogContext leaf .neg) }
    let s := { s with station := { s.station with key := InputLevel.atOnce true, jogRev := InputLevel.atOnce true,
                                                  jogFwd := { pin := true, val := false, press := some 0 } } }
    let t := after (.stationPressTimerExpiry .jogFwd) { s with cmd := { s.cmd with tx := State.reset.cmd.tx } }
    waiting t = [.station (.jogRefused 0 .pos (.condition none)) 0, .station (.jogEnded 0 .otherInput) 0,
                 .spanState 0 .moving .stopping (some { kind := .controlled, endState := .holding })] := by decide +kernel

/-- A burst of requests while a report is being sent: tag 1 is taken, tags 2 to 5 wait, tag 6 is refused BUSY and its reply
goes first. -/
theorem test_burst_of_requests :
    let s := ready { leafIn .resting with plan := [seg 1 60000000 true true] }
    let s := { s with cmd := { s.cmd with tx := State.reset.cmd.tx } }
    let s := [.getSpanStatus 1 0, .setLowWater 2 0 3, .setOverride 3 0 50, .start 4 0, .keepalive 5, .getDeviceStatus 6].foldl
      (fun s c => after c s) s
    let t := after .frameSent (after .frameSent (after .frameSent s))
    s.cmd.requests.map ReqFrame.tag = [2, 3, 4, 5] ∧ s.cmd.busy = some { kind := 0x90, tag := 6 } ∧
    (after .frameSent s).cmd.tx.map TxFrame.tag = some 6 ∧ t.cmd.requests.map ReqFrame.tag = [3, 4, 5] ∧
    t.cmd.tx.map TxFrame.tag = some 2 ∧ t.plant.spans.q0.lw = 3 := by decide +kernel

/-- The addresses of a rail of the example installation. -/
def exampleRail (slot : Slot) (rail : Rail) (branch : Branch) (first n : Nat) : List AddrRec :=
  (List.range n).map (fun k => { bogie (first + k) rail 0 0 0 with slot := slot, branch := branch })

/-- A lock unit of the example installation. -/
def exampleLock (slot : Slot) (branch : Branch) (addr : Nat) : List AddrRec :=
  [{ lockUnit false with addr := addr, slot := slot, branch := branch }]

/-- The sixty-four addresses of the example installation (chapter 1). -/
def exampleAddrs : List AddrRec :=
  exampleRail 0 0 0 1 8 ++ exampleRail 0 1 0 9 8 ++ exampleLock 0 0 17 ++
  exampleRail 1 0 1 18 8 ++ exampleRail 1 1 1 26 8 ++ exampleLock 1 1 34 ++
  exampleRail 2 0 2 35 6 ++ exampleRail 2 1 2 41 6 ++ exampleRail 2 2 2 47 6 ++ exampleRail 2 3 2 53 6 ++ exampleLock 2 2 59 ++
  exampleRail 3 0 3 60 2 ++ exampleRail 3 1 3 62 2 ++ exampleLock 3 3 64

/-- Rail records of a span with n bogies on each of some rails. -/
def exampleRails (n : Nat) (four : Bool) : Quad (Option RailConfig) :=
  ⟨some ⟨n, 1⟩, some ⟨n, 1⟩, if four then some ⟨n, 1⟩ else none, if four then some ⟨n, 1⟩ else none⟩

/-- The example installation as its blocks read it, with a stale limit and a budget. -/
def exampleEnv (stale budget : Nat) : Env :=
  { (ready (leafIn .resting)).env with
    cfg := { dev := { DeviceSettings.powerOn with stale := stale, budget := budget }, branches := ⟨some 2, some 2, some 3, some 1⟩,
             spans := ⟨some leaf, some leaf, some { leaf with rails := 4 }, some leaf⟩,
             rails := ⟨exampleRails 8 false, exampleRails 8 false, exampleRails 6 true, exampleRails 2 false⟩, wind := none } }

/-- The example installation's plant with every span RESTING and a BRAKED set posted for each, and some addresses. -/
def examplePlant (addrs : List AddrRec) : Plant :=
  { Plant.powerOn with
    spans := Quad.fill { leafIn .resting with posted := some { mode := .braked, cmds := [] } },
    link := { BogieLink.powerOn with addrs := addrs, params := [.host 20 1 1], cursor := 30 } }

/-- The link budget of the example installation: S_max 288, W 9, Q 33; a stale limit of 2, or a budget of 320 with Q = 2, is
refused. -/
theorem test_link_budget :
    sMax (exampleEnv 4 600) (examplePlant exampleAddrs) = 288 ∧ writeWorst (exampleEnv 4 600) = 9 ∧
    pollsCertain (exampleEnv 4 600) (examplePlant exampleAddrs) = 33 ∧
    budgetCheck (exampleEnv 4 600) (examplePlant exampleAddrs) = none ∧
    budgetCheck (exampleEnv 2 600) (examplePlant exampleAddrs) = some (.budget 288 9 33) ∧
    budgetCheck (exampleEnv 20 320) (examplePlant exampleAddrs) = some (.budget 288 9 2) := by decide +kernel

/-- One composed cycle: 42 polls, 597 slots, and the cursor at address 8. -/
theorem test_one_composed_cycle :
    let q := startCycle (exampleEnv 4 600) none (examplePlant exampleAddrs)
    q.link.cursor = 8 ∧ (q.link.cycle.foldl Draft.add { txns := [], used := 0, prev := none }).used = 597 ∧
    (q.link.cycle.filter (fun t => t.pollAddr != 0)).length = 42 ∧ q.link.params = [] := by decide +kernel

/-- A refused GO READY: without address 44, condition G6 of slot 2. -/
theorem test_refused_go_ready :
    geometryCheck (exampleEnv 4 600) (examplePlant (exampleAddrs.filter (fun a => a.addr != 44))) = some (.fields 1 6 2 0) ∧
    geometryCheck (exampleEnv 4 600) (examplePlant exampleAddrs) = none := by decide +kernel

/-! ### Witnesses: a state that meets the hypotheses of each clause of each statement -/

/-- A report waiting to be sent. -/
def aReport : Report := .station .estopReleased 0

/-- A frame of a source being sent. -/
def sendingOf (source : TxSource) : Option TxFrame := some { source := source, kind := 0x90, tag := 1, payload := [0], crcAlt := false }

/-- A reply in the buffer, with what it leaves to be done. -/
def aReply (o : OnSent) : Option Reply := some { kind := 0x90, tag := 1, result := .ok [], onSent := o }

/-- The device with its command link changed. -/
def linked (f : CommandLink → CommandLink) (s : State) : State := { s with cmd := f s.cmd }

/-- The device with its plant's link changed. -/
def onLink (f : BogieLink → BogieLink) (s : State) : State := { s with plant := { s.plant with link := f s.plant.link } }

/-- The device with the key LOCAL. -/
def local_ (s : State) : State := { s with station := { s.station with key := InputLevel.atOnce true } }

/-- The device with its gate in a state. -/
def gated (g : GateState) (s : State) : State := { s with wind := { s.wind with gate := g } }

/-- A span of a plan. -/
def planned (sp : Span) : Span := { sp with plan := [seg 1 60000000 true true] }

theorem met_StepRunsTheFrontCommand :
    ({ State.reset with pending := [.powerOn, .keepalive 1] } : State).pending = .powerOn :: [.keepalive 1] ∧ State.reset.pending = [] := by
  decide +kernel

theorem met_EndOfEveryEvent :
    State.reset.cmd.tx.isSome = true ∧ (ready (leafIn .resting)).cmd.tx = none ∧
    (linked (fun c => { c with busy := some { kind := 0x90, tag := 6 } }) (ready (leafIn .resting))).cmd.busy.isSome = true ∧
    (linked (fun c => { c with reply := aReply .nothing }) (ready (leafIn .resting))).cmd.reply.isSome = true ∧
    (ready (leafIn .resting)).cmd.busy = none ∧ (ready (leafIn .resting)).cmd.reply = none ∧
    (ready (leafIn .resting)).plant.out.queue = [] ∧
    ((ready (leafIn .resting)).plant.report aReport).out.queue = aReport :: [] := by decide +kernel

theorem met_HeldInResetNothingHappens :
    (after .resetPinAssert (ready (leafIn .moving))).resetPin = true ∧ Instr.keepalive 1 ≠ .powerOn ∧ Instr.keepalive 1 ≠ .estopAsserted := by
  decide +kernel

theorem met_PowerOnAndResetPin :
    State.reset.resetPin = false ∧ State.reset.station.estop.pin = false ∧
    ({ State.reset with resetPin := true } : State).resetPin = true ∧
    (State.reset.setInput .estop (InputLevel.atOnce true)).station.estop.pin = true := by decide +kernel

/-- Power-on while the RESET pin holds the device: nothing is sent, and the report waits. -/
theorem met_PowerOnAndResetPin_held :
    ({ State.reset with resetPin := true } : State).resetPin = true ∧
    (after .powerOn { State.reset with resetPin := true }).cmd.tx = none ∧
    waiting (after .powerOn { State.reset with resetPin := true }) = [.mode .init (.cause .powerOn) 0] := by decide +kernel

theorem met_ByteStreamDeliversTheFrame :
    State.reset.cmd.rx = .hunting ∧ ([] : List Byte).length ≤ 240 ∧ (List.replicate 240 (0 : Byte)).length ≤ 240 := by decide +kernel

theorem met_ReceiverBytesAndGaps :
    State.reset.resetPin = false ∧ State.reset.cmd.rx = .hunting ∧
    (State.reset.setRx (.collecting true [])).cmd.rx = .collecting true [] ∧
    (State.reset.setRx (.collecting false [240])).cmd.rx = .collecting false (240 :: []) ∧ (240 : Byte).toNat ≤ 240 ∧
    ([] : List Byte).length + 2 ≠ (240 : Byte).toNat + 4 := by decide +kernel

theorem met_ReceivedFramesQueueOrAreBusy :
    let f : ReqFrame := { kind := 0x14, tag := 1, payload := [] }
    let s := linked (fun c => { c with reply := aReply .nothing, requests := [f, f, f] }) (ready (leafIn .resting))
    let t := linked (fun c => { c with reply := aReply .nothing, requests := [f, f, f, f] }) (ready (leafIn .resting))
    let u := linked (fun c => { c with busy := some { kind := 0x94, tag := 6 } }) t
    s.resetPin = false ∧ (0x16 : Byte) = frameCrc s.cmd.settings.crcAlt 0x14 7 [] ∧ (0x17 : Byte) ≠ frameCrc s.cmd.settings.crcAlt 0x14 7 [] ∧
    s.cmd.reply.isSome = true ∧ s.cmd.requests.length < 4 ∧ 4 ≤ t.cmd.requests.length ∧ t.cmd.busy = none ∧ u.cmd.busy.isSome = true := by
  decide +kernel

theorem met_ReceivedRequestIsPerformed :
    free State.reset ∧ State.reset.cmd.rx = .hunting ∧ requestLength 0x2E = none ∧ requestLength 0x14 = some 0 ∧
    ([0] : List Byte).length ≠ 0 := ⟨⟨rfl, rfl, rfl⟩, by decide +kernel⟩

theorem met_RequestTakenFromTheQueue :
    let f := (Request.start 0).frame 4
    let s := linked (fun c => { c with requests := [f] }) (ready (leafIn .resting))
    s.resetPin = false ∧ s.cmd.reply = none ∧ s.cmd.requests = f :: [] ∧ State.reset.cmd.requests = [] := by decide +kernel

theorem met_FrameSentFreesItsSource :
    let s := ready (leafIn .resting)
    let t (source : TxSource) (o : OnSent) := linked (fun c => { c with tx := sendingOf source, reply := aReply o }) s
    s.resetPin = false ∧ s.cmd.tx = none ∧ (t .report .nothing).cmd.tx.map TxFrame.source = some .report ∧
    (t .busy .nothing).cmd.tx.map TxFrame.source = some .busy ∧ (t .reply .nothing).cmd.reply.map Reply.onSent = some .nothing ∧
    (t .reply .hardReset).cmd.reply.map Reply.onSent = some .hardReset ∧ (t .reply .hardReset).station.estop.pin = false ∧
    (t .reply (.settings { fast := true, crcAlt := true })).cmd.reply.map Reply.onSent = some (.settings { fast := true, crcAlt := true }) := by
  decide +kernel

/-- ESTOP asserted when the reply of a HARD RESET has been sent. -/
theorem met_FrameSentFreesItsSource_estop :
    let s := linked (fun c => { c with tx := sendingOf .reply, reply := aReply .hardReset })
      ((ready (leafIn .resting)).setInput .estop (InputLevel.atOnce true))
    s.station.estop.pin = true ∧ (after .frameSent s).sup.mode = .failsafe := by decide +kernel

/-- The fields of CONFIGURE SPAN for the leaf, with A_q supplied as 10,050. -/
def leafFields : SpanFields :=
  { rails := 2, xmin := 0, xmax := 120000000, vmax := 200000, vb := 220000, ad := 5000, aq := 10050, c := 2000, jog := 20000,
    kp := 800, tmax := 2000, kl := 50, lmax := 1000, kdeg := 80, sWarn := 20000, sStop := 40000, sTrip := 80000, fLim := 50000,
    tHold := 120, tRel := 50, g := 0, m := 0, lock1 := 0, lock2 := 120000000, lockTol := 5000, tLock := 20, tProof := 6,
    proofTorque := 80, proofHold := 10, creepLimit := 200, autoProof := 0, autoResume := 1 }

theorem met_BranchRailAndDeviceConfigured :
    free (device .init Span.powerOn) ∧ (device .init Span.powerOn).sup.mode = .init ∧ slotOf 3 = some 3 ∧ slotOf 4 = none ∧
    (1 : Byte).toNat = 1 ∧ (7 : Byte).toNat = 7 ∧ (8 : Byte).toNat = 8 ∧ (device .init Span.powerOn).cfg.spans.get 0 = some leaf ∧
    (1 : Rail).val < leaf.rails ∧ (device .init Span.powerOn).cfg.spans.get 3 = none ∧
    ({ budget := 300, stale := 2, wo := 50, wc := 51, eth := 1, tmin := 20, tmax := 1, fmax := 0 } : DeviceFields).inRange = true ∧
    ({ budget := 600, stale := 20, wo := 9999, wc := 10000, eth := 15, tmin := 500, tmax := 30, fmax := 255 } : DeviceFields).inRange = true ∧
    ({ budget := 300, stale := 2, wo := 50, wc := 50, eth := 1, tmin := 20, tmax := 1, fmax := 0 } : DeviceFields).inRange = false ∧
    (ready (leafIn .resting)).sup.mode ≠ .init := ⟨⟨rfl, rfl, rfl⟩, by decide +kernel⟩

theorem met_BranchRailAndDeviceConfigured_refused :
    leaf.rails ≤ (2 : Byte).toNat ∧ (0 : Byte).toNat = 0 ∧ 8 < (9 : Byte).toNat ∧ (3 : Byte).toNat < (4 : Byte).toNat ∧
    (299 : BitVec 16).toNat < 300 ∧ 600 < (601 : BitVec 16).toNat ∧ slotOf 4 = none := by decide +kernel

theorem met_SpanSlotConfiguredAndRemoved :
    free (device .init Span.powerOn) ∧ (device .init Span.powerOn).sup.mode = .init ∧ slotOf 0 = some 0 ∧ slotOf 3 = some 3 ∧
    leafFields.inRange = true ∧ leafFields.stored ≠ leafFields ∧ leafFields.stored.stored = leafFields.stored ∧ leafFields.record = leaf ∧
    ({ leafFields with rails := 5 } : SpanFields).inRange = false ∧ slotOf 4 = none ∧
    ((device .init Span.powerOn).cfg.spans.get 0).isSome = true ∧ (device .init Span.powerOn).cfg.spans.get 3 = none := by
  refine ⟨⟨rfl, rfl, rfl⟩, ?_⟩
  decide +kernel

theorem met_AddressConfiguredAndRemoved :
    free (device .init Span.powerOn) ∧ (device .init Span.powerOn).sup.mode = .init ∧ (1 : Byte).toNat = 1 ∧ (64 : Byte).toNat = 64 ∧
    slotOf 0 = some 0 ∧ slotOf 3 = some 3 ∧ -2000000000 ≤ (BitVec.ofInt 32 (-2000000000)).toInt ∧
    (2000000000 : BitVec 32).toInt ≤ 2000000000 ∧ (device .init Span.powerOn).plant.link.find 64 = none ∧
    ((device .init Span.powerOn).plant.link.find 1).isSome = true ∧ (0 : Byte).toNat = 0 ∧ 64 < (65 : Byte).toNat := by
  refine ⟨⟨rfl, rfl, rfl⟩, ?_⟩
  decide +kernel

/-- Each field of an address past its range, and role NONE, after which nothing more is judged. -/
theorem met_AddressConfiguredAndRemoved_refused :
    2 < (3 : Byte).toNat ∧ slotOf 4 = none ∧ (1 : Byte) ≠ 0 ∧ (BitVec.ofInt 32 (-2000000001)).toInt < -2000000000 ∧
    2000000000 < (BitVec.ofInt 32 2000000001).toInt ∧
    (after (.configureAddress 7 { addr := 1, role := 2, slot := 0, rail := 4, branch := 3, offset := 2000000001 })
      (device .init Span.powerOn)).cmd.reply.map Reply.result = some (.ok []) ∧
    (after (.configureAddress 7 { addr := 1, role := 1, slot := 0, rail := 4, branch := 3, offset := 0 })
      (device .init Span.powerOn)).cmd.reply.map Reply.result = some (.refused .range) ∧
    (after (.configureAddress 7 { addr := 64, role := 0, slot := 9, rail := 9, branch := 9, offset := 2000000001 })
      (device .init Span.powerOn)).cmd.reply.map Reply.result = some (.ok []) := by decide +kernel

/-- Zone and wind fields one past a bound of their range. -/
theorem met_ZoneAndWindConfigured_refused :
    15 < (16 : Byte).toNat ∧ 1 < (2 : Byte).toNat ∧ slotOf 4 = none ∧ (9 : BitVec 16).toNat < 10 ∧ 600 < (601 : BitVec 16).toNat ∧
    2000 < (2001 : BitVec 16).toNat ∧ (0 : BitVec 16).toNat = 0 ∧ 1000 < (1001 : BitVec 16).toNat ∧ 100 < (101 : Byte).toNat ∧
    (59 : BitVec 16).toNat < 60 ∧ 1800 < (1801 : BitVec 16).toNat ∧ 2000000000 < (BitVec.ofInt 32 2000000001).toInt ∧
    (slotOf 0).isSome = true ∧ (slotOf 3).isSome = true ∧ 10 ≤ (10 : BitVec 16).toNat ∧ (600 : BitVec 16).toNat ≤ 600 := by
  decide +kernel

theorem met_ZoneAndWindConfigured :
    free (device .init Span.powerOn) ∧ (device .init Span.powerOn).sup.mode = .init ∧
    ({ entry := 15, inUse := 1, spanA := 0, a1 := 0, a2 := 0, spanB := 1, b1 := 0, b2 := 0, tzw := 10 } : ZoneFields).inRange = true ∧
    (15 : Byte).toNat ≤ 15 ∧
    ({ en1 := 1, k1 := 10, en2 := 0, k2 := 0, ws := 0, wt := 1, h := 0, kmin := 10, tdw := 60 } : WindFields).inRange = true ∧
    ({ en1 := 0, k1 := 0, en2 := 1, k2 := 2000, ws := 2000, wt := 2000, h := 1000, kmin := 100, tdw := 1800 } : WindFields).inRange = true ∧
    State.reset.wind.an1.status = .disabled ∧ (State.reset.wind.an1.enableTo true).status ≠ .disabled := by
  refine ⟨⟨rfl, rfl, rfl⟩, ?_⟩
  decide +kernel

/-- The device in INIT with the leaf fully configured: four branches, two bogies a rail apart, a lock unit and a wind record. -/
def configured : State :=
  let s := device .init Span.powerOn
  { s with cfg := { s.cfg with wind := some { en1 := true, k1 := 100, en2 := false, k2 := 0, ws := 100, wt := 200, h := 20, kmin := 20, tdw := 60 } } }

theorem met_GoReadyEntersAcquiring :
    free configured ∧ configured.sup.mode = .init ∧ geometryCheck configured.env configured.plant = none ∧
    groupCheck configured.env configured.plant = none ∧ budgetCheck configured.env configured.plant = none ∧
    zoneCheck configured.env configured.plant = none ∧ windCheck configured.env = none ∧
    geometryCheck State.reset.env State.reset.plant = some (.fields 1 1 255 0) ∧
    windCheck (device .init Span.powerOn).env = some (.fields 5 1 255 0) ∧
    geometryCheck (device .init Span.powerOn).env (device .init Span.powerOn).plant = none ∧
    groupCheck (device .init Span.powerOn).env (device .init Span.powerOn).plant = none ∧
    budgetCheck (device .init Span.powerOn).env (device .init Span.powerOn).plant = none ∧
    zoneCheck (device .init Span.powerOn).env (device .init Span.powerOn).plant = none ∧ (ready (leafIn .resting)).sup.mode ≠ .init := by
  refine ⟨⟨rfl, rfl, rfl⟩, ?_⟩
  decide +kernel

/-- The first unmet requirement of each check, on the configured device with one setting changed. -/
theorem met_GoReadyEntersAcquiring_unmet :
    let e := configured.env
    let with_ (sc : SpanConfig) : Env := { e with cfg := { e.cfg with spans := ⟨some sc, none, none, none⟩ } }
    let zoned_ (zs : List ZoneEntry) : Plant := { configured.plant with zones := zs }
    let z : ZoneEntry := { entry := 2, spanA := 0, a1 := 0, a2 := 10, spanB := 1, b1 := 0, b2 := 10, tzw := 10, claim := .free,
                           sideA := ZoneSide.clear, sideB := ZoneSide.clear }
    let windy_ (w : WindRecord) : Env := { e with cfg := { e.cfg with wind := some w } }
    let w : WindRecord := { en1 := true, k1 := 1, en2 := false, k2 := 0, ws := 100, wt := 121, h := 20, kmin := 20, tdw := 60 }
    geometryCheck (with_ { leaf with sStop := 80000 }) configured.plant = some (.fields 1 13 0 0) ∧
    groupCheck (with_ { leaf with m := 1, g := 1 }) configured.plant = some (.fields 2 0 0 2) ∧
    groupCheck (with_ { leaf with m := 4, g := 0 }) configured.plant = none ∧
    zoneCheck e (zoned_ [{ z with spanB := 0 }]) = some (.fields 4 1 2 0) ∧ zoneCheck e (zoned_ [z]) = some (.fields 4 2 2 0) ∧
    windCheck (windy_ w) = none ∧ windCheck (windy_ { w with wt := 120 }) = some (.fields 5 3 255 0) ∧
    windCheck (windy_ { w with en1 := false }) = some (.fields 5 2 255 0) ∧
    windCheck (windy_ { w with h := 0 }) = some (.fields 5 4 255 0) ∧
    slotsMost e configured.plant = 14 := by decide +kernel

theorem met_StatusRequestsAnswered :
    free (ready (leafIn .moving)) ∧ slotOf 3 = some 3 ∧ slotOf 4 = none ∧ (1 : Byte).toNat = 1 ∧ (64 : Byte).toNat = 64 ∧
    64 < (65 : Byte).toNat ∧ (15 : Byte).toNat = 15 ∧ 15 < (16 : Byte).toNat ∧ (deviceStatus (ready (leafIn .moving))).length = 60 ∧
    (spanStatus (ready (leafIn .moving)).env 0 (ready (leafIn .moving)).plant).length = 138 ∧
    (addressStatus 1 (ready (leafIn .moving)).plant).length = 31 ∧ (zoneStatus 0 (ready (leafIn .moving)).plant).length = 41 := by
  refine ⟨⟨rfl, rfl, rfl⟩, ?_⟩
  decide +kernel

theorem met_KeepaliveJudged :
    free (device .failsafe (leafIn .resting)) ∧ free State.reset ∧ State.reset.sup.mode = .init ∧
    (device .failsafe (leafIn .resting)).sup.window = some 600 ∧ (device .failsafe (leafIn .resting)).cfg.dev.wo ≤ 600 ∧
    ({ (ready (leafIn .resting)) with sup := { (ready (leafIn .resting)).sup with window := some 499 } } : State).sup.window = some 499 ∧
    499 < (ready (leafIn .resting)).cfg.dev.wo ∧ (ready (leafIn .resting)).sup.e + 1 < (ready (leafIn .resting)).cfg.dev.eth := by
  refine ⟨⟨rfl, rfl, rfl⟩, ⟨rfl, rfl, rfl⟩, ?_⟩
  decide +kernel

/-- A device whose next error reaches E_th, its window open for too short a time. -/
def oneErrorShort (mode : Mode) : State :=
  let s := device mode (leafIn .moving)
  { s with sup := { s.sup with e := 2, window := some 499,
                               record := if mode = .failsafe then some { reason := .hostRequest, time := 0, toReady := true, later := [] } else none } }

theorem met_KeepaliveJudged_early :
    free (oneErrorShort .ready) ∧ free (oneErrorShort .failsafe) ∧ (oneErrorShort .ready).sup.mode = .ready ∧
    499 < (oneErrorShort .ready).cfg.dev.wo ∧ (oneErrorShort .ready).cfg.dev.eth ≤ (oneErrorShort .ready).sup.e + 1 ∧
    (oneErrorShort .failsafe).sup.mode = .failsafe ∧ (oneErrorShort .failsafe).sup.record.map FailsafeRecord.later = some [] ∧
    (oneErrorShort .failsafe).sup.window.isSome = true ∧
    (after (.keepalive 1) (oneErrorShort .ready)).sup.mode = .failsafe ∧
    (after (.keepalive 1) (oneErrorShort .failsafe)).sup.record.map FailsafeRecord.later = some [.hostSupervision] := by
  refine ⟨⟨rfl, rfl, rfl⟩, ⟨rfl, rfl, rfl⟩, ?_⟩
  decide +kernel

theorem met_SupervisionTimersExpire :
    let s := ready (leafIn .moving)
    let t : State := { s with sup := { s.sup with e := 2, stableT := some 0 } }
    s.resetPin = false ∧ s.sup.window.isSome = true ∧ s.sup.e + 1 < s.cfg.dev.eth ∧ t.sup.mode = .ready ∧ t.sup.window.isSome = true ∧
    t.cfg.dev.eth ≤ t.sup.e + 1 ∧ t.sup.stableT.isSome = true ∧ State.reset.sup.window = none ∧ State.reset.sup.stableT = none := by
  decide +kernel

theorem met_LinkMaskAndHardResetRequests :
    free State.reset ∧ (1 : Byte).toNat ≤ 1 ∧ 1 < (2 : Byte).toNat := ⟨⟨rfl, rfl, rfl⟩, by decide +kernel⟩

theorem met_SoftResetReturnsToInit :
    free (ready (leafIn .locked)) ∧ (ready (leafIn .locked)).sup.mode = .ready ∧
    (∀ i : Slot, ((ready (leafIn .locked)).plant.span i).state = .locked ∨ ((ready (leafIn .locked)).plant.span i).state = .unconfigured) ∧
    ((ready (leafIn .holding)).plant.span 0).state = .holding ∧ (device .failsafe (leafIn .resting)).sup.mode = .failsafe := by
  refine ⟨⟨rfl, rfl, rfl⟩, ?_⟩
  decide +kernel

theorem met_SegmentAppendedAtTheTail :
    free (device .failsafe (leafIn .moving)) ∧ (device .failsafe (leafIn .moving)).cfg.spans.get 0 = some leaf ∧
    (device .failsafe (leafIn .moving)).sup.mode = .failsafe ∧ ((device .failsafe (leafIn .moving)).plant.span 0).state ≠ .unconfigured ∧
    leaf.xmin ≤ (120000000 : BitVec 32).toInt ∧ (120000000 : BitVec 32).toInt ≤ leaf.xmax ∧ (1 : BitVec 32).toNat ≠ 0 ∧
    100 ≤ (199 : BitVec 32).toNat / 100 * 100 ∧ ((device .failsafe (leafIn .moving)).plant.span 0).plan.length < 16 ∧
    (List.replicate 16 (seg 1 0 true true)).length = 16 ∧ (BitVec.ofInt 32 (-1)).toInt < leaf.xmin ∧
    ((ready (leafIn .resting)).plant.span 1).state = .unconfigured ∧ slotOf 1 = some 1 ∧ slotOf 4 = none := by
  refine ⟨⟨rfl, rfl, rfl⟩, ?_⟩
  decide +kernel

theorem met_PlanFlushed :
    free (ready (planned (leafIn .locked))) ∧ (ready (planned (leafIn .locked))).sup.mode = .ready ∧
    ((ready (planned (leafIn .locked))).plant.span 0).state = .locked ∧ ((ready (leafIn .moving)).plant.span 0).state = .moving ∧
    (device .failsafe (leafIn .resting)).sup.mode ≠ .ready ∧ slotOf 0 = some 0 ∧ slotOf 255 = none := by
  refine ⟨⟨rfl, rfl, rfl⟩, ?_⟩
  decide +kernel

theorem met_OverrideAndLowWaterStored :
    free (ready (leafIn .faulted)) ∧ slotOf 0 = some 0 ∧ (ready (leafIn .faulted)).sup.mode = .ready ∧
    ((ready (leafIn .faulted)).plant.span 0).state ≠ .unconfigured ∧ ((ready (leafIn .faulted)).plant.span 1).state = .unconfigured ∧
    (100 : Byte).toNat ≤ 100 ∧ 100 < (101 : Byte).toNat ∧ (15 : Byte).toNat ≤ 15 ∧ 15 < (16 : Byte).toNat := by
  refine ⟨⟨rfl, rfl, rfl⟩, ?_⟩
  decide +kernel

theorem met_StartSetsTheSpanInMotion :
    let s := ready (planned { leafIn .resting with skew := 40000, proof := { (leafIn .resting).proof with owed := 7 } })
    let t := ready (planned (leafIn .holding))
    (free s ∧ free t) ∧ s.sup.mode = .ready ∧ (s.plant.span 0).plan ≠ [] ∧ s.wind.gate.shut = false ∧ s.station.key.val = false ∧
    (s.plant.span 0).proof.owed ≠ 8 ∧ (s.plant.span 0).proof.unproven = false ∧ (s.plant.span 0).skew ≤ (s.env.span 0).sStop ∧
    (s.plant.span 0).state = .resting ∧ (t.plant.span 0).state = .holding ∧ (t.plant.span 0).plan ≠ [] ∧
    (t.plant.span 0).skew ≤ (t.env.span 0).sStop := by
  refine ⟨⟨⟨rfl, rfl, rfl⟩, ⟨rfl, rfl, rfl⟩⟩, ?_⟩
  decide +kernel

theorem met_StartRefusedInOrder :
    let s := ready (planned { leafIn .holding with skew := 40001 })
    let t := ready (planned { leafIn .resting with proof := ProofState.hardReset })
    let u := ready (planned { leafIn .resting with proof := { ProofState.hardReset with owed := 8 } })
    free s ∧ slotOf 0 = some 0 ∧ s.sup.mode = .ready ∧ (s.plant.span 0).state = .holding ∧ (s.env.span 0).sStop < (s.plant.span 0).skew ∧
    (s.plant.span 0).proof.unproven = false ∧ (t.plant.span 0).proof.unproven = true ∧ (t.plant.span 0).proof.owed ≠ 8 ∧
    (u.plant.span 0).proof.owed = 8 ∧ (local_ s).station.key.val = true ∧ (gated .blind s).wind.gate = .blind ∧
    ((ready (leafIn .resting)).plant.span 0).plan = [] ∧ ((ready (leafIn .locked)).plant.span 0).state ≠ .resting ∧
    State.reset.sup.mode ≠ .ready := by
  refine ⟨⟨rfl, rfl, rfl⟩, ?_⟩
  decide +kernel

theorem met_PauseAndStopTaken :
    let s := ready { planned (leafIn .moving) with v := 1, running := true }
    free s ∧ free State.reset ∧ (s.plant.span 0).state = .moving ∧ (s.plant.span 0).v ≠ 0 ∧ (s.plant.span 0).jog = none ∧
    ((ready (leafIn .holding)).plant.span 0).state = .holding ∧ ((ready (leafIn .starting)).plant.span 0).state = .starting ∧
    (s.plant.span 0).proof.due = false ∧ (s.env.span 0).autoProof = false ∧ ((ready (leafIn .locked)).plant.span 0).state = .locked ∧
    State.reset.sup.mode = .init := by
  refine ⟨⟨rfl, rfl, rfl⟩, ⟨rfl, rfl, rfl⟩, ?_⟩
  decide +kernel

theorem met_PauseAndStopTaken_more :
    let j := ready { leafIn .moving with v := 5, jog := some (jogContext leaf .pos) }
    let z := ready { leafIn .moving with v := 0, jog := some (jogContext leaf .pos) }
    let a := ready { leafIn .starting with jog := some (jogContext leaf .pos) }
    let t := ready { leafIn .proving with test := some { phase := .hold, timer := 5, dir := .neg, starts := [] } }
    let u := ready { leafIn .stopping with v := 100, stop := some { kind := .controlled, endState := .holding } }
    (free j ∧ free z ∧ free a ∧ free t ∧ free u) ∧ (j.plant.span 0).v ≠ 0 ∧ (z.plant.span 0).v = 0 ∧
    (a.plant.span 0).jog.isSome = true ∧ (t.plant.span 0).test.isSome = true ∧ (u.plant.span 0).state = .stopping ∧
    (j.plant.span 0).proof.due = false ∧ (j.env.span 0).autoProof = false ∧
    ((after (.stop 1 0) t).plant.span 0).proof.last = some .abandoned ∧
    ((after (.stop 1 0) u).plant.span 0).stop = some { kind := .quick, endState := .resting } ∧
    ((after (.pause 1 0) z).plant.span 0).state = .holding := by
  refine ⟨⟨⟨rfl, rfl, rfl⟩, ⟨rfl, rfl, rfl⟩, ⟨rfl, rfl, rfl⟩, ⟨rfl, rfl, rfl⟩, ⟨rfl, rfl, rfl⟩⟩, ?_⟩
  decide +kernel

/-- A clearance entry that names slot 0, with a claim. -/
def zoneOf (c : Claim) : ZoneEntry :=
  { entry := 3, spanA := 0, a1 := 40000000, a2 := 60000000, spanB := 1, b1 := 0, b2 := 1000, tzw := 120, claim := c,
    sideA := { ZoneSide.clear with inside := true }, sideB := { ZoneSide.clear with wait := true, since := 7, timer := some 0 } }

/-- The device with one clearance entry. -/
def zoned (c : Claim) (s : State) : State := { s with plant := { s.plant with zones := [zoneOf c] } }

theorem met_FaultClearedToResting :
    let sp := { leafIn .faulted with fault := some { first := .following, pos := 0, time := 0, later := [] } }
    let s := zoned .heldA (ready sp)
    free s ∧ slotOf 0 = some 0 ∧ s.sup.mode = .ready ∧ (s.plant.span 0).state = .faulted ∧ clearRefusal s.env 0 s.plant = none ∧
    (zoneOf .heldA).claim = sideClaim .a ∧ (zoneOf .heldA).sideOf 0 = some .a ∧ (zoneOf .heldB).claim ≠ sideClaim .a ∧
    (zoneOf .heldB).claim ≠ .free ∧ (zoneOf .heldB).lo .a ≤ 50000000 ∧ 50000000 ≤ (zoneOf .heldB).hi .a ∧
    clearRefusal (ready sp).env 0 (ready { sp with meas := Measures.blank }).plant = some .bogieLoss ∧ slotOf 4 = none ∧
    (device .failsafe sp).sup.mode ≠ .ready ∧ ((ready (leafIn .resting)).plant.span 0).state ≠ .faulted := by
  refine ⟨⟨rfl, rfl, rfl⟩, ?_⟩
  decide +kernel

/-- A FAULTED leaf of a cause, refused by each condition of R32 in turn, and at the boundary of the last by none. -/
theorem met_FaultClearedToResting_conditions :
    let sp (c : FaultCause) := { leafIn .faulted with fault := some { first := c, pos := 0, time := 0, later := [] } }
    let refusal (sp : Span) := clearRefusal (ready sp).env 0 (ready sp).plant
    let wide : ZoneEntry := { zoneOf .free with sideB := { ZoneSide.clear with inside := true } }
    let zs : Plant := { (ready (sp .zoneConflict)).plant with zones := [wide] }
    let two : Env := { (ready (sp .bogieLoss)).env with cfg := { (ready (sp .bogieLoss)).cfg with rails := Quad.fill (Quad.fill (some ⟨2, 2⟩)) } }
    refusal { sp .following with meas := { Measures.blank with nValid := ⟨1, 0, 0, 0⟩ } } = some .bogieLoss ∧
    clearRefusal two 0 (ready (sp .bogieLoss)).plant = some .bogieLoss ∧ clearRefusal two 0 (ready (sp .following)).plant = none ∧
    clearRefusal (ready (sp .following)).env 0 zs = some .zoneConflict ∧
    refusal { sp .envelope with meas := { (leafIn .faulted).meas with m := some (-1) } } = some .envelope ∧
    refusal { sp .envelope with meas := { (leafIn .faulted).meas with m := some 0 } } = none ∧
    refusal { sp .skewTrip with skew := 40001 } = some .skewTrip ∧ refusal { sp .skewStop with skew := 40001 } = some .skewStop ∧
    refusal { sp .skewStop with skew := 40000 } = none := by decide +kernel

theorem met_ProofRequestStartsATest :
    let s := ready (leafIn .holding)
    free s ∧ (s.plant.span 0).state = .holding ∧ s.station.key.val = false ∧
    (∀ a ∈ s.plant.bogies 0, a.isValid s.cfg.dev.stale = true) ∧ (s.plant.bogies 0).length = 2 ∧
    (∃ a ∈ (onLink (fun l => { l with addrs := l.addrs.map (fun a => { a with age := 5 }) }) s).plant.bogies 0, a.isValid s.cfg.dev.stale = false) ∧
    (local_ s).station.key.val = true ∧ ((ready (leafIn .moving)).plant.span 0).state ≠ .resting := by
  refine ⟨⟨rfl, rfl, rfl⟩, ?_⟩
  decide +kernel

theorem met_LockAndUnlockQueued :
    let s := ready { leafIn .resting with lastM := some 5000 }
    let t := ready (leafIn .locked)
    (free s ∧ free t) ∧ (s.plant.span 0).state = .resting ∧ (s.plant.lockUnit 0).isSome = true ∧ (s.plant.span 0).proof.unproven = false ∧
    (s.plant.span 0).proof.relock = false ∧ (s.plant.span 0).lastM = some 5000 ∧
    (5000 - (s.env.span 0).lock1).natAbs ≤ (s.env.span 0).lockTol ∧ (t.plant.span 0).state = .locked ∧ s.station.key.val = false := by
  refine ⟨⟨⟨rfl, rfl, rfl⟩, ⟨rfl, rfl, rfl⟩⟩, ?_⟩
  decide +kernel

theorem met_LockRefusedInOrder :
    let s := ready { leafIn .resting with lastM := none }
    let t := ready { leafIn .resting with proof := ProofState.hardReset }
    free s ∧ (s.plant.span 0).state = .resting ∧ (s.plant.lockUnit 0).isSome = true ∧ (s.plant.span 0).lastM = none ∧
    (s.plant.span 0).proof.unproven = false ∧ (t.plant.span 0).proof.relock = true ∧
    (onLink (fun l => { l with addrs := [] }) s).plant.lockUnit 0 = none ∧ (local_ s).station.key.val = true ∧
    ((local_ (ready (leafIn .locked))).plant.span 0).state = .locked ∧ slotOf 4 = none ∧
    (device .failsafe (leafIn .resting)).sup.mode ≠ .ready ∧ ((ready (leafIn .moving)).plant.span 0).state ≠ .resting ∧
    (let u := ready { leafIn .resting with lastM := some 5001 }
     (u.plant.span 0).lastM = some 5001 ∧ (u.env.span 0).lockTol < (5001 - (u.env.span 0).lock1).natAbs ∧
      (u.env.span 0).lockTol < (5001 - (u.env.span 0).lock2).natAbs) := by
  refine ⟨⟨rfl, rfl, rfl⟩, ?_⟩
  decide +kernel

theorem met_ParameterWriteQueued :
    let s := ready (leafIn .resting)
    free s ∧ (1 : Byte).toNat = 1 ∧ s.sup.mode = .ready ∧ (s.plant.link.find 1).isSome = true ∧
    (s.plant.span 0).state.energised = false ∧ s.plant.link.params.length < 8 ∧ (List.replicate 8 (ParamEntry.host 1 1 1)).length = 8 ∧
    (((ready (leafIn .holding)).plant.span 0).state.energised = true) ∧ s.plant.link.find 64 = none ∧ (0 : Byte).toNat = 0 ∧
    64 < (65 : Byte).toNat ∧ State.reset.sup.mode ≠ .ready := by
  refine ⟨⟨rfl, rfl, rfl⟩, ?_⟩
  decide +kernel

theorem met_StopAllEntersFailsafe :
    free (ready (leafIn .moving)) ∧ (ready (leafIn .moving)).sup.mode = .ready ∧ State.reset.sup.mode ≠ .ready := by
  refine ⟨⟨rfl, rfl, rfl⟩, ?_⟩
  decide +kernel

/-- The device in FAILSAFE with three good keep-alives and a record. -/
def failsafe (toReady : Bool) (st : SpanState) : State :=
  let s := device .failsafe (leafIn st)
  { s with sup := { s.sup with g := 3, f := 1, record := some { reason := .hostRequest, time := 0, toReady := toReady, later := [] } } }

theorem met_FailsafeClearedToItsReturnMode :
    (free (failsafe true .holding) ∧ free (failsafe false .resting)) ∧ (failsafe true .holding).sup.lockout = false ∧
    3 ≤ (failsafe true .holding).sup.g ∧ (failsafe true .holding).station.estop.val = false ∧
    (∀ i : Slot, ((failsafe true .holding).plant.span i).state.inMotion = false) ∧
    (failsafe true .holding).sup.record.map FailsafeRecord.toReady = some true ∧
    (failsafe false .resting).sup.record.map FailsafeRecord.toReady = some false ∧
    ((failsafe true .stopping).plant.span 0).state = .stopping ∧ (device .failsafe (leafIn .resting)).sup.g < 3 ∧
    ({ (failsafe true .resting).sup with lockout := true } : Supervision).lockout = true := by
  refine ⟨⟨⟨rfl, rfl, rfl⟩, ⟨rfl, rfl, rfl⟩⟩, ?_⟩
  decide +kernel

theorem met_SpanPeriodPostsASet :
    State.reset.resetPin = false ∧ (State.reset.plant.span 0).state = .unconfigured ∧
    ((ready (leafIn .resting)).plant.span 0).state ≠ .unconfigured := by decide +kernel

/-- A period of the moving leaf with a rail error of 3,000 on rail 0 and none on rail 1: the trim 2,000, the commands, the skew,
and a following error only above F_lim. -/
theorem met_SpanPeriodPostsASet_measured :
    let at_ (p : Int) : State := onLink (fun l => { l with addrs := [bogie 1 0 0 p 0, bogie 2 1 0 50000000 0, lockUnit false] })
      (ready { leafIn .holding with skewArmed := false })
    let b (p : Int) := (after (.spanPeriod 0) (at_ p)).plant.span 0
    (at_ 49997000).resetPin = false ∧ ((at_ 49997000).plant.span 0).raised = [] ∧ 0 < ((at_ 49997000).env.span 0).rails ∧
    (b 49997000).meas.tr.get 0 = 2000 ∧ (b 49997000).skew = 3000 ∧ (b 49997000).leading = some 1 ∧ (b 49997000).lagging = some 0 ∧
    (b 49997000).posted.map SetpointSet.cmds = some [(1, 2000), (2, 0)] ∧ (b 49997000).raised = [] ∧ (b 49997000).skewArmed = true ∧
    (b 49949999).raised = [faultStop .quick .following, faultStop .controlled .skewStop] ∧
    (b 49950000).raised = [faultStop .controlled .skewStop] ∧ (b 49997000).degraded = false ∧
    ((ready (leafIn .locked)).plant.span 0).state = .locked ∧ (ready (leafIn .locked)).plant.zones = [] := by decide +kernel

/-- The device with the leaf moving by plan towards 60,000,000 from a position. -/
def movingFrom (x : Int) (v : Nat) : State := ready { planned (leafIn .moving) with x := x, v := v, running := true }

theorem met_PeriodInMovingAdvancesOrSnaps :
    let s := movingFrom 50000000 1000
    let t := movingFrom 59999999 1000
    s.resetPin = false ∧ (s.plant.span 0).state = .moving ∧ (s.plant.span 0).dwellT = none ∧ (s.plant.span 0).raised = [] ∧
    (s.plant.span 0).running = true ∧ ((s.plant.span 0).travel 100).isSome = true ∧ ((t.plant.span 0).travel 100).map Travel.stopAt = some 1 ∧
    ((after (.spanPeriod 0) s).plant.span 0).x = 50000020 ∧ ((after (.spanPeriod 0) t).plant.span 0).x = 60000000 := by decide +kernel

/-- The leaf 1 short of a stop point that its segments share, with the low-water mark at 2. -/
def sharing (plan : List Segment) : State :=
  ready { leafIn .moving with x := 59999999, v := 1000, running := true, lw := 2, skewArmed := false, plan := plan }

/-- Three segments that share a target and end the run: every SEGMENT_DONE, then PLAN_LOW, PLAN_STARVED and SPAN_STATE
(log entry 38). A segment of another target behind them, and PLAN_LOW stands behind the crossing retirement. -/
theorem test_reports_of_shared_targets :
    let a := after (.spanPeriod 0) (sharing [seg 1 60000000 true true, seg 2 60000000 true true, seg 3 60000000 false true])
    let b := after (.spanPeriod 0) (sharing [seg 1 60000000 true true, seg 2 60000000 true true, seg 3 70000000 false true])
    (a.cmd.tx.map TxFrame.kind = some 0x42 ∧ waiting a =
      [.segmentDone 0 2 60000000 0 1, .segmentDone 0 3 60000000 0 0, .planLow 0 2 2, .planStarved 0 3 60000000 0,
       .spanState 0 .moving .holding none]) ∧
    waiting b = [.planLow 0 2 2, .segmentDone 0 2 60000000 0 1] ∧ (b.plant.span 0).state = .moving ∧
    (b.plant.span 0).plan = [seg 3 70000000 false true] := by decide +kernel

/-- A first period that retires a head at x and ends the run at the next: both SEGMENT_DONEs before PLAN_LOW (R46, R47), also where
the first of them crosses the mark. With a segment left behind the run, PLAN_LOW stands behind the crossing one (R51). -/
theorem test_reports_of_a_run_begun_and_ended :
    let first (plan : List Segment) : State :=
      ready { leafIn .moving with x := 59999999, lw := 1, skewArmed := false, plan := plan }
    let a := after (.spanPeriod 0) (first [seg 1 59999999 true true, seg 2 60000000 false true])
    let b := after (.spanPeriod 0) (first [seg 1 59999999 true true, seg 2 60000000 true true, seg 3 50000000 true true])
    (a.cmd.tx.map TxFrame.kind = some 0x42 ∧ waiting a =
      [.segmentDone 0 2 60000000 0 0, .planLow 0 1 1, .planStarved 0 2 60000000 0, .spanState 0 .moving .holding none]) ∧
    waiting b = [.segmentDone 0 2 60000000 0 1, .planLow 0 1 1] ∧ (b.plant.span 0).plan = [seg 3 50000000 true true] := by
  decide +kernel

theorem met_PeriodInMovingAdvancesOrSnaps_more :
    let d := ready { leafIn .moving with dwellT := some 5, plan := [seg 1 60000000 true true] }
    let f := ready { leafIn .moving with plan := [seg 1 50000000 false true, seg 2 50000000 true true, seg 3 40000000 true true] }
    let g := ready { leafIn .moving with plan := [seg 1 50000000 false true] }
    let j := ready { leafIn .moving with x := 119999999, v := 1000, jog := some (jogContext leaf .pos) }
    let z : State := { movingFrom 59000000 1000 with plant := { (movingFrom 59000000 1000).plant with
      zones := [{ zoneOf .heldB with a1 := 59000001, sideA := ZoneSide.clear }] } }
    d.resetPin = false ∧ (d.plant.span 0).dwellT = some 5 ∧ (d.plant.span 0).raised = [] ∧ (f.plant.span 0).dwellT = none ∧
    (f.plant.span 0).running = false ∧ (f.plant.span 0).jog = none ∧ (j.plant.span 0).jog.isSome = true ∧
    ((after (.spanPeriod 0) d).plant.span 0).x = 50000000 ∧ ((after (.spanPeriod 0) f).plant.span 0).dir = .neg ∧
    ((after (.spanPeriod 0) f).plant.span 0).plan = [seg 3 40000000 true true] ∧
    ((after (.spanPeriod 0) g).plant.span 0).state = .holding ∧ ((after (.spanPeriod 0) g).plant.span 0).starved = true ∧
    ((after (.spanPeriod 0) j).plant.span 0).x = 120000000 ∧ ((after (.spanPeriod 0) j).plant.span 0).state = .holding ∧
    ((after (.spanPeriod 0) z).plant.span 0).x = 59000000 ∧ ((after (.spanPeriod 0) z).plant.span 0).zoneWait = true ∧
    retiredHeads .pos 60 [seg 1 50 false true, seg 2 60 true true] [seg 1 50 false true, seg 2 60 true true, seg 3 60 true true, seg 4 55 true true]
      = [seg 1 50 false true, seg 2 60 true true, seg 3 60 true true] := by decide +kernel

theorem met_ChosenSpeedKeepsItsLimits :
    let s (v : Nat) := ready { planned (leafIn .stopping) with x := 59000000, v := v, running := true, stop := some { kind := .controlled, endState := .resting } }
    (s 1000).resetPin = false ∧ ((s 1000).plant.span 0).state = .stopping ∧ ((s 1000).plant.span 0).raised = [] ∧
    (((s 1000).plant.span 0).travel 100).isSome = true ∧ ((s 1000).plant.span 0).proof.due = false ∧ ((s 1000).env.span 0).autoProof = false ∧
    ((after (.spanPeriod 0) (s 1000)).plant.span 0).v = 950 ∧ ((after (.spanPeriod 0) (s 1000)).plant.span 0).x = 59000009 ∧
    ((after (.spanPeriod 0) (s 50)).plant.span 0).state = .resting ∧ ((after (.spanPeriod 0) (s 51)).plant.span 0).state = .stopping := by
  decide +kernel

/-- A CONTROLLED stop whose snap retires three segments of one target: PLAN_LOW behind the one that crosses the mark (R51), where a
run that ends in MOVING has it behind all. -/
theorem test_reports_of_a_stop_that_empties_the_plan :
    let s := ready { leafIn .stopping with
      x := 59999999, v := 1000, running := true, lw := 2, skewArmed := false, stop := some { kind := .controlled, endState := .holding },
      plan := [seg 1 60000000 true true, seg 2 60000000 true true, seg 3 60000000 false true] }
    waiting (after (.spanPeriod 0) s) =
      [.planLow 0 2 2, .segmentDone 0 2 60000000 0 1, .segmentDone 0 3 60000000 0 0, .spanState 0 .stopping .holding none] := by
  decide +kernel

theorem met_StopTakenByState :
    let s := ready { leafIn .moving with v := 0 }
    s.resetPin = false ∧ safeRest.causeFits = true ∧ (faultStop .quick .following).causeFits = true ∧
    ((ready (leafIn .locking)).plant.span 0).state = .locking ∧ ((ready (leafIn .holding)).plant.span 0).state = .holding ∧
    ((ready (leafIn .holding)).plant.span 0).fault = none ∧ (s.plant.span 0).state = .moving ∧ safeRest.kind = .safe ∧
    safeRest.endState ≠ .faulted ∧ (s.plant.span 0).v = 0 ∧ quickRest.kind ≠ .safe ∧ quickRest.endState = .resting ∧
    (s.plant.span 0).proof.due = false ∧ (s.env.span 0).autoProof = false := by decide +kernel

/-- A span stopping under a record. -/
def stoppingUnder (kind : StopKind) (e : EndState) : Span :=
  { leafIn .stopping with v := if kind = .safe then 0 else 100, stop := some { kind := kind, endState := e },
                          safeT := if kind = .safe then some 0 else none }

theorem met_StopsMergeInEitherOrder :
    ((ready (stoppingUnder .quick .holding)).plant.span 0).state = .stopping ∧
    ((ready (stoppingUnder .quick .holding)).plant.span 0).stop = some { kind := .quick, endState := .holding } := by decide +kernel

theorem met_HoldAndReleaseTimersExpire :
    let s := ready { leafIn .holding with holdT := some 0 }
    let t := ready { leafIn .starting with releaseT := some 0 }
    s.resetPin = false ∧ (s.plant.span 0).state = .holding ∧ (s.plant.span 0).holdT.isSome = true ∧ (s.plant.span 0).proof.due = false ∧
    (s.env.span 0).autoProof = false ∧ (t.plant.span 0).state = .starting ∧ (t.plant.span 0).releaseT.isSome = true ∧
    (t.plant.span 0).fault = none ∧ (t.plant.span 0).jog = none ∧ (s.plant.span 0).state ≠ .starting ∧ (t.plant.span 0).state ≠ .holding := by
  decide +kernel

/-- The starting leaf with its bogies' last replies changed. -/
def startingWith (f : AddrRec → AddrRec) : State := onLink (fun l => { l with addrs := l.addrs.map f }) (ready { leafIn .starting with releaseT := some 9 })

theorem met_HoldAndReleaseTimersExpire_handshake :
    let s := startingWith (fun a => a)
    let u := startingWith (fun a => { a with last := a.last.map (fun r => { r with released := a.addr == 2 }) })
    let n := startingWith (fun a => { a with link := .lost })
    s.resetPin = false ∧ (s.plant.span 0).state = .starting ∧ (s.plant.span 0).raised = [] ∧
    (s.plant.bogies 0).all (fun a => a.isValid s.cfg.dev.stale) = true ∧ (n.plant.bogies 0).all (fun a => a.isValid n.cfg.dev.stale) = false ∧
    ((after (.spanPeriod 0) s).plant.span 0).state = .moving ∧ ((after (.spanPeriod 0) u).plant.span 0).state = .starting ∧
    ((after (.spanPeriod 0) n).plant.span 0).state = .starting := by decide +kernel

theorem met_DwellAndSafeStopTimersExpire :
    let s := ready (stoppingUnder .safe .holding)
    s.resetPin = false ∧ (s.plant.span 0).state = .stopping ∧ (s.plant.span 0).stop = some { kind := .safe, endState := .holding } ∧
    (s.plant.span 0).safeT.isSome = true ∧ s.plant.zones = [] ∧ (s.plant.span 0).proof.due = false ∧ (s.env.span 0).autoProof = false ∧
    ((ready (leafIn .moving)).plant.span 0).state ≠ .stopping := by decide +kernel

/-- The leaf in a SAFE stop with its bogies at rest 100 behind x: the stop is over with x from m, or, where the clearance entry
is the other span's, in a conflict; a bogie still moving keeps the stop. -/
theorem met_DwellAndSafeStopTimersExpire_halted :
    let s := onLink (fun l => { l with addrs := [bogie 1 0 0 49999900 0, bogie 2 1 0 49999900 0] }) (ready (stoppingUnder .safe .holding))
    let m := onLink (fun l => { l with addrs := l.addrs.map (fun a => { a with last := a.last.map (fun r => { r with speed := 10 }) }) }) s
    (s.plant.span 0).raised = [] ∧ ((after (.spanPeriod 0) s).plant.span 0).state = .resting ∧
    ((after (.spanPeriod 0) s).plant.span 0).x = 49999900 ∧ ((after (.spanPeriod 0) m).plant.span 0).state = .stopping ∧
    ((after (.spanPeriod 0) (zoned .heldB s)).plant.span 0).state = .faulted ∧
    ((after (.spanPeriod 0) (zoned .heldA s)).plant.span 0).state = .resting := by decide +kernel

theorem met_ProofIntervalExpires :
    let at_ (owed : Int) (st : SpanState) : State := ready { leafIn st with v := 5, proof := { (leafIn st).proof with owed := owed } }
    State.reset.resetPin = false ∧ ((at_ 7 .moving).plant.span 0).proof.run = .running ∧ ((at_ 7 .moving).plant.span 0).proof.owed < 8 ∧
    ((at_ 8 .moving).plant.span 0).proof.owed = 8 ∧ ((at_ 8 .moving).plant.span 0).v ≠ 0 ∧ ((at_ 8 .locked).plant.span 0).state = .locked ∧
    (State.reset.plant.span 0).proof.run ≠ .running := by decide +kernel

/-- A span in a test, its bogies having crept from their start positions by some micrometres. -/
def testing (phase : TestPhase) (creep : Int) : State :=
  ready { leafIn .proving with
          test := some { phase := phase, timer := 0, dir := .pos, starts := [(1, 50000000 - creep), (2, 50000000)] } }

/-- Each state a stop may find, with a stop that has an effect there. -/
theorem met_StopTakenByState_states :
    let bad : StopRequest := faultStop .safe .following
    let at_ (st : SpanState) : State := ready { leafIn st with jog := none }
    let known : Span := { leafIn .faulted with fault := some { first := .envelope, pos := 1, time := 2, later := [] } }
    let run (v : Nat) : State := ready { leafIn .moving with v := v, raised := [quickRest] }
    bad.causeFits = true ∧ controlledHold.causeFits = true ∧
    ((after (.stopTaken 0 bad) (at_ .resting)).plant.span 0).state = .faulted ∧
    ((after (.stopTaken 0 bad) (at_ .resting)).plant.link.bcasts = []) ∧
    ((after (.stopTaken 0 controlledHold) (at_ .starting)).plant.span 0).state = .resting ∧
    ((after (.stopTaken 0 bad) (at_ .starting)).plant.link.bcasts.map Broadcast.slot = [0]) ∧
    ((after (.stopTaken 0 quickRest) (at_ .holding)).plant.span 0).state = .resting ∧
    ((after (.stopTaken 0 bad) (testing .hold 0)).plant.span 0).state = .faulted ∧
    ((after (.stopTaken 0 bad) (testing .hold 0)).plant.span 0).proof.last = some .abandoned ∧
    ((after (.stopTaken 0 bad) (ready known)).plant.span 0).fault =
      some { first := .envelope, pos := 1, time := 2, later := [.following] } ∧
    ((after (.stopTaken 0 (faultStop .quick .envelope)) (ready known)).plant.span 0).fault = known.fault ∧
    ((after (.stopTaken 0 quickRest) (run 100)).plant.span 0).state = .stopping ∧
    ((after (.stopTaken 0 quickRest) (run 100)).plant.span 0).raised = [] ∧
    ((after (.stopTaken 0 bad) (run 100)).plant.span 0).stop = some { kind := .safe, endState := .faulted } ∧
    ((after (.stopTaken 0 controlledHold) (run 0)).plant.span 0).state = .holding := by decide +kernel

theorem met_TestAndLockTimersExpire :
    let l : State := ready { leafIn .locking with lock := some { cmd := .engage, sent := true, replied := false, timer := 0 } }
    (testing .brakeSet 0).resetPin = false ∧ ((testing .brakeSet 0).plant.span 0).state = .proving ∧
    ((testing .brakeSet 0).plant.span 0).test.map TestRecord.phase = some .brakeSet ∧
    ((testing .hold 200).plant.span 0).test.map TestRecord.phase = some .hold ∧
    (∀ a ∈ (testing .hold 200).plant.bogies 0, a.isValid (testing .hold 200).cfg.dev.stale = true) ∧
    ((testing .hold 200).plant.bogies 0).all (fun a => decide (((testing .hold 200).plant.span 0).test.all (fun t => decide ((t.creepOf a).1 ≤ 200)))) = true ∧
    ((testing .hold 201).plant.bogies 0).any (fun a => ((testing .hold 201).plant.span 0).test.any (fun t => decide (200 < (t.creepOf a).1))) = true ∧
    ((testing .hold 200).env.span 0).creepLimit = 200 ∧ ((testing .hold 201).plant.span 0).fault = none ∧
    (l.plant.span 0).state = .locking ∧ (l.plant.span 0).lock.isSome = true ∧ (l.plant.span 0).fault = none ∧
    (l.plant.span 0).state ≠ .proving ∧ ((testing .hold 0).plant.span 0).state ≠ .locking := by decide +kernel

/-- Periods of a test and of a lock operation: brakes found set, a bogie gone invalid, a creep past the limit, and pins that have
engaged or retracted. -/
theorem met_TestAndLockTimersExpire_periods :
    let rel (r : Bool) (s : State) := onLink (fun l => { l with addrs := l.addrs.map (fun a => { a with last := a.last.map (fun p => { p with released := r }) }) }) s
    let old (s : State) := onLink (fun l => { l with addrs := l.addrs.map (fun a => { a with age := 5 }) }) s
    let lk (st : SpanState) (engaged replied : Bool) : State :=
      onLink (fun l => { l with addrs := [bogie 1 0 0 50000000 0, bogie 2 1 0 50000000 0, lockUnit engaged] })
        (ready { leafIn st with lock := some { cmd := .engage, sent := true, replied := replied, timer := 9 } })
    let b (s : State) := (after (.spanPeriod 0) s).plant.span 0
    (b (rel false (testing .brakeSet 0))).test.map TestRecord.phase = some .hold ∧
    (b (rel true (testing .brakeSet 0))).test.map TestRecord.phase = some .brakeSet ∧
    (b (old (testing .hold 0))).proof.last = some .abandoned ∧ (b (testing .hold 200)).state = .proving ∧
    (b (testing .hold 201)).state = .faulted ∧ (b (lk .locking true true)).state = .locked ∧ (b (lk .locking true false)).state = .locking ∧
    (b (lk .locking false true)).state = .locking ∧ (b (lk .unlocking false true)).state = .resting ∧
    (b (lk .unlocking false true)).proof.relock = true ∧ ((lk .locking true true).plant.lockUnit 0).isSome = true := by decide +kernel

theorem met_LinkCycleComposed :
    let s := ready { leafIn .resting with posted := some { mode := .braked, cmds := [] } }
    let t := after .linkCycleStart s
    s.resetPin = false ∧ s.plant.link.cycle = [] ∧ s.plant.link.held = false ∧ t.plant.link.cycle ≠ [] := by decide +kernel

/-- A write to an address that has left the configuration is withdrawn at the head of the queue; the write behind it is sent; a
held start keeps the timer; a budget of 30 is filled to its last slot by the write and two polls, and one of 12 holds neither. -/
theorem met_LinkCycleComposed_more :
    let s := onLink (fun l => { l with params := [.host 50 1 2, .host 1 3 4], cycleT := 7 }) (ready { leafIn .resting with posted := some { mode := .braked, cmds := [] } })
    let h := onLink (fun l => { l with held := true, prev := some { branch := 1, isPoll := true } }) s
    let small : State := { s with cfg := { s.cfg with dev := { s.cfg.dev with budget := 30 } } }
    (after .linkCycleStart s).plant.link.params = [] ∧ (after .linkCycleStart s).cmd.tx.map TxFrame.kind = some 0x4A ∧
    (after .linkCycleStart s).plant.link.cycle.length = 6 ∧ (after .linkCycleStart s).plant.link.cycleT = 10 ∧
    (after .linkCycleStart h).plant.link.cycleT = 7 ∧ h.plant.link.held = true ∧
    (after .linkCycleStart small).plant.link.cycle.length = 5 ∧ (after .linkCycleStart small).plant.link.cursor = 3 ∧
    (after .linkCycleStart { small with cfg := { small.cfg with dev := { small.cfg.dev with budget := 12 } } }).plant.link.params = [.host 1 3 4] := by
  decide +kernel

theorem met_BroadcastAndWritesEnd :
    let s := ready { leafIn .locking with lock := some { cmd := .engage, sent := false, replied := false, timer := 5 } }
    let at_ (t : Txn) := onLink (fun l => { l with cycle := [t] }) s
    s.resetPin = false ∧ (at_ (.broadcast { slot := 0, g := 0, m := 0 } false)).plant.link.cycle = [.broadcast { slot := 0, g := 0, m := 0 } false] ∧
    (at_ (.param 1 2 3 0 2 true)).plant.link.cycle = [.param 1 2 3 0 2 true] ∧
    (at_ (.lock 0 3 .engage 0 2 true)).plant.link.cycle = [.lock 0 3 .engage 0 2 true] ∧
    (s.plant.span 0).lock = some { cmd := .engage, sent := false, replied := false, timer := 5 } ∧ s.plant.link.cycle = [] := by decide +kernel

/-- Two requests during a cycle whose own broadcast is yet to be sent: behind the transaction in progress, in the order asked,
before the composed broadcast. -/
theorem met_BroadcastAndWritesEnd_asked :
    let b (i : Slot) : Broadcast := { slot := i, g := 0, m := 0 }
    let l := { BogieLink.powerOn with cycle := [.poll 1 0 2 true, .broadcast (b 2) true, .broadcast (b 1) false], bcasts := [b 1, b 2] }
    l.bcasts.any (fun c => c.slot == (b 3).slot) = false ∧
    (l.requestBroadcast (b 3)).cycle = [.poll 1 0 2 true, .broadcast (b 2) true, .broadcast (b 3) true, .broadcast (b 1) false] ∧
    (l.requestBroadcast (b 1)) = l := by decide +kernel

/-- A device polling address 1, its record in a link state with its streaks. -/
def polling (st : LinkState) (miss good : Nat) (span : SpanState) : State :=
  onLink (fun l => { l with addrs := [{ bogie 1 0 0 0 0 with link := st, miss := miss, good := good }], cycle := [.poll 1 0 2 true] })
    (ready (leafIn span))

theorem met_ReplyWindowsJudged :
    let b (s : State) := onLink (fun l => { l with cycle := [.burst 0 0 0 2 1 1 .run [{ addr := 1, command := 0, live := true }]] }) s
    let w := linkWord 0
    (polling .unknown 0 0 .resting).resetPin = false ∧ (polling .unknown 0 0 .resting).sup.mode ≠ .acquiring ∧
    (polling .unknown 0 0 .resting).plant.link.cycle = [.poll 1 0 2 true] ∧
    ((polling .unknown 0 0 .resting).plant.link.find 1).map AddrRec.link = some .unknown ∧
    ((polling .present 2 0 .resting).plant.link.find 1).map AddrRec.miss = some 2 ∧
    ((polling .lost 3 3 .resting).plant.link.find 1).map AddrRec.good = some 3 ∧
    ((polling .lost 3 3 .resting).plant.span 0).state.energised = false ∧
    ((polling .lost 3 2 .moving).plant.link.find 1).map AddrRec.good = some 2 ∧ wordGood 1 (some w) = true ∧
    wordGood 2 (some w) = false ∧ wordGood 1 (some (w + 1)) = false ∧
    (b (polling .present 0 0 .moving)).plant.link.cycle = [.burst 0 0 0 2 1 1 .run [{ addr := 1, command := 0, live := true }]] := by
  decide +kernel

/-- The configured device in ACQUIRING polling its last UNKNOWN address, and with another one UNKNOWN besides. -/
def lastUnknown (other : LinkState) : State :=
  onLink (fun l => { l with addrs := [{ bogie 1 0 0 0 0 with link := .unknown }, { bogie 2 1 0 0 0 with link := other }], cycle := [.poll 1 0 2 true] })
    { configured with sup := { configured.sup with mode := .acquiring, acqT := some 5 } }

theorem met_ReplyWindowsJudged_acquiring :
    let w := some (linkWord 0)
    let t (other : LinkState) := after (.pollReply w w w w) (lastUnknown other)
    (lastUnknown .lost).sup.mode = .acquiring ∧ (lastUnknown .lost).plant.link.cycle = [.poll 1 0 2 true] ∧
    ((lastUnknown .lost).plant.link.find 2).map AddrRec.link = some .lost ∧ wordGood 1 w = true ∧
    (t .lost).sup.mode = .ready ∧ ((t .lost).plant.span 0).state = .faulted ∧ (t .unknown).sup.mode = .acquiring ∧
    ((after (.pollReply w w none w) (lastUnknown .lost)).plant.link.find 1).map AddrRec.miss = some 1 ∧
    (after (.pollReply w w none w) (lastUnknown .lost)).sup.mode = .acquiring := by decide +kernel

/-- The configured device in ACQUIRING, its lock unit's pins as given. -/
def acquiring (engaged : Bool) : State :=
  let s := { configured with sup := { configured.sup with mode := .acquiring, acqT := some 0 } }
  onLink (fun l => { l with addrs := [bogie 1 0 0 50000000 0, bogie 2 1 0 50000000 0, lockUnit engaged] }) s

theorem met_AcquisitionEndsInReady :
    (acquiring true).resetPin = false ∧ (acquiring true).sup.mode = .acquiring ∧ (acquiring true).sup.acqT.isSome = true ∧
    (acquiring true).cfg.spans.get 0 = some leaf ∧ pinsEngaged 0 (acquiring true).plant = true ∧ (acquiring true).plant.zones = [] ∧
    (acquiring true).cfg.spans.get 1 = none ∧ ((acquiring true).plant.span 1).state = .unconfigured ∧
    ((after .acquisitionTimerExpiry (acquiring true)).plant.span 0).state = .locked ∧
    ((after .acquisitionTimerExpiry (acquiring false)).plant.span 0).state = .resting ∧ State.reset.sup.mode ≠ .acquiring := by decide +kernel

/-- First states: no valid bogie on a rail leaves no m, x at 0 and BOGIE_LOSS; a position past the margin ENVELOPE; both spans of an
entry inside ZONE_CONFLICT, and one inside the claim. -/
theorem met_AcquisitionEndsInReady_first_states :
    let s (p : Int) (n : LinkState) := onLink (fun l => { l with addrs := [bogie 1 0 0 p 0, { bogie 2 1 0 p 0 with link := n }] }) (acquiring false)
    let z (s : State) : State := { zoned .free s with cfg := { s.cfg with spans := ⟨some leaf, some leaf, none, none⟩ } }
    let b (s : State) := (after .acquisitionTimerExpiry s).plant.span 0
    let cause (s : State) := (b s).fault.map (fun f => (f.first, f.later))
    (s 5 .unknown).sup.mode = .acquiring ∧ (s 5 .unknown).sup.acqT.isSome = true ∧ ((s 5 .unknown).plant.span 0).fault = none ∧
    (b (s 5 .unknown)).meas.m = none ∧ (b (s 5 .unknown)).x = 0 ∧ cause (s 5 .unknown) = some (.bogieLoss, []) ∧
    (b (s (-50000) .present)).state = .resting ∧ cause (s (-50001) .present) = some (.envelope, []) ∧
    cause (z (s 50000000 .present)) = some (.zoneConflict, []) ∧
    (after .acquisitionTimerExpiry (z (s 50000000 .present))).plant.zones.map ZoneEntry.claim = [.free] ∧
    (after .acquisitionTimerExpiry (zoned .free (s 50000000 .present))).plant.zones.map ZoneEntry.claim = [.heldA] := by decide +kernel

/-- The wind record of the gust on the roof line. -/
def roof : WindRecord := { en1 := true, k1 := 125, en2 := true, k2 := 125, ws := 120, wt := 180, h := 20, kmin := 40, tdw := 300 }

/-- The moving leaf under a gate, with AN1 VALID and some pulses counted. -/
def windy (gate : GateState) (pulses : Nat) : State :=
  let s := movingFrom 50000000 1000
  { s with cfg := { s.cfg with wind := some roof },
           wind := { s.wind with gate := gate, an1 := { Anemometer.disabled with status := .valid, count := pulses }, limits := some roof,
                                 gust := some 150, dwellT := some 0 } }

theorem met_WindSampledAndGated :
    (windy .clear 30).resetPin = false ∧ (windy .clear 30).cfg.wind = some roof ∧ roof.ws + roof.h < roof.wt ∧ 1 ≤ roof.h ∧
    (windy .clear 44).wind.an1.status ≠ .disabled ∧ (windy .clear 44).wind.gate.shut = false ∧
    ((windy .clear 44).plant.span 0).state = .moving ∧ ((windy .clear 44).plant.span 0).v ≠ 0 ∧
    (after .windSample (windy .clear 30)).wind.gate = .reduced ∧ (after .windSample (windy .clear 30)).wind.kw = 70 ∧
    (after .windSample (windy .clear 44)).wind.gate = .tripped ∧ (after .windSample (windy .tripped 33)).wind.dwellT = none ∧
    (after .windSample (windy .blind 30)).wind.gate = .tripped ∧ State.reset.wind.an1.status = .disabled := by decide +kernel

/-- A zero run reaching 120 against a windy AN2, a recovery reaching 8, and a record that fails its relations. -/
theorem met_WindSampledAndGated_suspect :
    let an (st : AnemometerStatus) (count zeroRun recovery : Nat) : Anemometer := { count := count, status := st, ring := [], zeroRun := zeroRun, recovery := recovery }
    let s (a b : Anemometer) : State := { windy .clear 0 with wind := { (windy .clear 0).wind with an1 := a, an2 := b } }
    let t (a b : Anemometer) := (after .windSample (s a b)).wind
    let bad : State := { windy .clear 30 with cfg := { (windy .clear 30).cfg with wind := some { roof with h := 60 } } }
    (t (an .valid 0 119 0) (an .valid 10 0 0)).an1.status = .suspect ∧ (t (an .valid 0 118 0) (an .valid 10 0 0)).an1.zeroRun = 119 ∧
    (t (an .valid 0 119 0) (an .valid 9 0 0)).an1.zeroRun = 0 ∧ (t (an .suspect 1 0 7) (an .valid 10 0 0)).an1.status = .valid ∧
    (t (an .suspect 1 0 6) (an .valid 10 0 0)).an1.recovery = 7 ∧ (t (an .suspect 0 0 7) (an .valid 10 0 0)).an1.recovery = 0 ∧
    roof.wt ≤ roof.ws + 60 ∧ (after .windSample bad).wind.gate = .blind ∧
    (after .windSample { bad with cfg := { bad.cfg with wind := none } }).wind.gate = .blind := by decide +kernel

/-- The trip of a span at v = 0 and of one STARTING. -/
theorem met_WindSampledAndGated_atRest :
    let s (sp : Span) : State := { windy .clear 44 with plant := (windy .clear 44).plant.setSpan 0 sp }
    let b (sp : Span) : Span := (after .windSample (s sp)).plant.span 0
    (b { leafIn .moving with v := 0, dwellT := some 7 }).state = .holding ∧ (b { leafIn .starting with releaseT := some 7 }).state = .resting ∧
    (b { leafIn .starting with releaseT := some 7 }).windHold = true ∧ (b (leafIn .stopping)).windHold = false := by decide +kernel

theorem met_DwellEndsTheTripAndWaitsAreReported :
    let s := { windy .tripped 0 with plant := (ready (planned { leafIn .holding with windHold := true })).plant }
    let z := zoned .heldA (ready (leafIn .moving))
    s.resetPin = false ∧ s.wind.gate = .tripped ∧ s.wind.dwellT.isSome = true ∧ s.wind.limits = some roof ∧ s.wind.gust = some 150 ∧
    (s.plant.span 0).windHold = true ∧ (s.env.span 0).autoResume = true ∧ (s.plant.span 0).state = .holding ∧
    (s.plant.span 0).plan ≠ [] ∧ s.station.key.val = false ∧ (s.plant.span 1).windHold = false ∧ z.plant.zones = [zoneOf .heldA] ∧
    (zoneOf .heldA).entry = (3 : Fin 16).val ∧ ((zoneOf .heldA).part .b).timer.isSome = true ∧ ((zoneOf .heldA).part .a).timer = none ∧
    ((after .tripDwellExpiry s).plant.span 0).state = .moving := by decide +kernel

/-- A period outside the interval releases the claim to the span that waits; one inside a FREE interval takes it, and one inside
the other's waits. -/
theorem met_DwellEndsTheTripAndWaitsAreReported_claims :
    let s := ready { leafIn .resting with skewArmed := false }
    let far := onLink (fun l => { l with addrs := [] }) (ready { leafIn .resting with x := 0, skewArmed := false })
    let zs (s : State) := (after (.spanPeriod 0) s).plant.zones
    (s.plant.span 0).state ≠ .unconfigured ∧ (s.plant.span 0).inSafeStop = false ∧ (s.plant.span 0).raised = [] ∧
    (zs (zoned .heldA far)).map ZoneEntry.claim = [.heldB] ∧ (zs (zoned .free s)).map ZoneEntry.claim = [.heldA] ∧
    (zs (zoned .heldB s)).map (fun z => z.sideA) = [{ inside := true, wait := true, since := 0, timer := some 120000 }] ∧
    (zs (zoned .heldA s)).map ZoneEntry.claim = [.heldA] := by decide +kernel

theorem met_StationPinsFollowed :
    let held (s : State) := s.setInput .hold (InputLevel.atOnce true)
    State.reset.resetPin = false ∧ (State.reset.station.get .key).pin = false ∧ (State.reset.station.get .key).pin ≠ true ∧
    State.reset.station.hold.val = false ∧ (held State.reset).station.hold.val = true ∧ ((held State.reset).station.get .hold).pin ≠ false := by
  decide +kernel

/-- A HOLD press given up before it is validated, a bounce back to a validated one, and the two inputs that act at their edge. -/
theorem met_StationPinsFollowed_hold :
    let early : State := { State.reset with station := { State.reset.station with
      hold := { pin := true, val := false, press := some 9 }, holdT := some 9000 } }
    let back : State := { State.reset with station := { State.reset.station with
      hold := { pin := false, val := true, press := some 9 }, holdT := some 4000 } }
    (early.station.get .hold).pin ≠ false ∧ early.station.hold.val = false ∧
    (after (.stationPinChange .hold false) early).station.holdT = none ∧ waiting (after (.stationPinChange .hold false) early) = [] ∧
    (back.station.get .hold).pin ≠ true ∧ back.station.hold.val = true ∧
    (after (.stationPinChange .hold true) back).station.holdT = some 4000 ∧ waiting (after (.stationPinChange .hold true) back) = [] ∧
    (after (.stationPressTimerExpiry .hold) back).station.holdT = none ∧
    waiting (after (.stationPressTimerExpiry .hold) back) = [.station .holdReleased 0] ∧ (State.reset.station.get .estop).pin ≠ true ∧
    (after (.stationPinChange .estop true) State.reset).sup.mode = .failsafe ∧
    ((State.reset.setInput .jogFwd (InputLevel.atOnce true)).station.get .jogFwd).pin ≠ false := by decide +kernel

theorem met_StationPressesAct :
    let press (i : StationInput) (level : Bool) (s : State) := s.setInput i { pin := level, val := !level, press := some 0 }
    let s := press .hold true (ready { leafIn .moving with v := 5 })
    let j := press .jogFwd true (local_ (ready (leafIn .holding)))
    (State.reset.station.get .hold).press = none ∧ ((press .estop false State.reset).station.get .estop).press.isSome = true ∧
    ((press .sel0 true State.reset).station.get .sel0).press.isSome = true ∧ State.reset.plant.jogSlot = none ∧
    (s.station.get .hold).press.isSome = true ∧ (s.plant.span 0).state = .moving ∧ (s.plant.span 0).v ≠ 0 ∧
    (j.station.get (jogInput .pos)).press.isSome = true ∧ (j.station.get (jogInput (dirFlip .pos))).val = false ∧
    j.station.selected = 0 ∧ j.sup.mode = .ready ∧ j.station.key.val = true ∧ (j.plant.span 0).state = .holding ∧
    j.wind.gate.shut = false ∧ (j.plant.span 0).proof.owed ≠ 8 ∧ (j.plant.span 0).proof.unproven = false ∧
    ((after (.stationPressTimerExpiry .jogFwd) j).plant.span 0).state = .moving := by decide +kernel

/-- Jogs ended by a select change, by the key and by the other input; presses refused for each reason of R156; and a jog from
RESTING. -/
theorem met_StationPressesAct_jogs :
    let press (i : StationInput) (level : Bool) (s : State) := s.setInput i { pin := level, val := !level, press := some 0 }
    let run := local_ (ready { leafIn .moving with v := 5, jog := some (jogContext leaf .neg) })
    let ends (i : StationInput) (level : Bool) (s : State) := ((after (.stationPressTimerExpiry i) (press i level s)).plant.span 0).state
    let said (s : State) := waiting (after (.stationPressTimerExpiry .jogFwd) (press .jogFwd true { s with cmd := { s.cmd with tx := State.reset.cmd.tx } }))
    let no (why : Reason) : List Report := [.station (.jogRefused 0 .pos why) 0]
    let rest (sp : Span) := local_ (ready sp)
    run.plant.jogSlot = some 0 ∧ (run.plant.span 0).v ≠ 0 ∧ run.plant.link.params = [] ∧
    ends .sel0 true run = .stopping ∧ ends .sel1 true run = .stopping ∧ ends .key false run = .stopping ∧
    ends .jogFwd true (run.setInput .jogRev (InputLevel.atOnce true)) = .stopping ∧
    said (State.setInput (rest (leafIn .resting)) .jogRev (InputLevel.atOnce true)) = no (.condition none) ∧
    said (local_ (device .failsafe (leafIn .resting))) = no .mode ∧ said (ready (leafIn .resting)) = no (.condition none) ∧
    said (rest (leafIn .locked)) = no .state ∧ said (gated .blind (rest (leafIn .resting))) = no .wind ∧
    said (rest { leafIn .resting with proof := { (leafIn .resting).proof with owed := 8 } }) = no .proofOwed ∧
    said (rest { leafIn .resting with proof := ProofState.hardReset }) = no .proofRequired ∧
    said (rest { leafIn .resting with skew := 40001 }) = no .skew ∧
    ends .jogFwd true (rest { leafIn .resting with skew := 40000 }) = .starting := by decide +kernel

theorem met_EstopHoldStuckAndJogRelease :
    let s := ready (leafIn .moving)
    let h : State := { s with station := { s.station with holdT := some 0 } }
    let j := ready { leafIn .moving with v := 5, jog := some (jogContext leaf .pos) }
    s.resetPin = false ∧ s.sup.mode ≠ .failsafe ∧ (failsafe true .resting).sup.mode = .failsafe ∧
    (failsafe true .resting).sup.record.isSome = true ∧ h.sup.mode = .ready ∧ h.station.holdT.isSome = true ∧ s.station.holdT = none ∧
    s.plant.jogSlot = none ∧ j.plant.jogSlot = some 0 ∧ (j.plant.span 0).jog.map JogContext.dir = some .pos ∧
    (j.plant.span 0).state = .moving ∧ (j.plant.span 0).v ≠ 0 := by decide +kernel

/-- HOLD_STUCK outside READY and in FAILSAFE, and the release of a jog held through STARTING. -/
theorem met_EstopHoldStuckAndJogRelease_modes :
    let stuck (s : State) : State := after .holdStuck { s with station := { s.station with holdT := some 0 } }
    let j := ready { leafIn .starting with releaseT := some 9, jog := some (jogContext leaf .pos) }
    (stuck (device .acquiring Span.powerOn)).sup.record.map FailsafeRecord.toReady = some false ∧
    (stuck (failsafe true .resting)).sup.record.map FailsafeRecord.later = some [.stationFault] ∧
    j.plant.jogSlot = some 0 ∧ (j.plant.span 0).state = .starting ∧ ((after (.jogRelease .pos) j).plant.span 0).state = .resting ∧
    ((after (.jogRelease .neg) j).plant.span 0).state = .starting := by decide +kernel

/-- The key turned to LOCAL: a span STARTING by plan aborts, one at v = 0 holds; the key turned back ends a jog held through
STARTING. -/
theorem met_StationPressesAct_starting :
    let press (level : Bool) (s : State) := s.setInput .key { pin := level, val := !level, press := some 0 }
    let b (level : Bool) (sp : Span) : Span := (after (.stationPressTimerExpiry .key) (press level (ready sp))).plant.span 0
    let st : Span := { leafIn .starting with releaseT := some 9 }
    (b true st).state = .resting ∧ (b true { leafIn .moving with v := 0 }).state = .holding ∧
    (b true { st with jog := some (jogContext leaf .pos) }).state = .starting ∧
    (b false { st with jog := some (jogContext leaf .pos) }).state = .resting := by decide +kernel

/-- A resting device meets what every step keeps, its command link's level with it. -/
theorem met_WhatEveryStepKeeps :
    stopReqHolds (ready (leafIn .resting)) ∧ (gated .tripped (ready (leafIn .resting))).wind.gate.shut = true ∧
    (∃ t, step { (ready (leafIn .resting)) with pending := [.spanPeriod 0] } = .next t) ∧
    referenceWithin leaf (leafIn .resting) ∧ boundsReference leaf := by
  refine ⟨?_, by decide +kernel, ⟨_, rfl⟩, ⟨by decide, by decide, by decide, by decide, ?_, ?_⟩, ?_⟩
  · show (ready (leafIn .resting)).sup.stopReq = (ready (leafIn .resting)).stopReqLevel
    decide +kernel
  · intro g hg
    cases hg
  · intro j hj
    cases hj
  · unfold boundsReference
    decide

end Sys2Proof.Tests
end

