-- ==== Sys2Proof/Proofs/ParameterWrite.lean ====
section
/-! PROOFS. WRITE PARAMETER (R106): the refusal each row of the rule's table gives, what the request comes to when it is
refused and when it is not, and the obligation assembled from them. -/

namespace Sys2Proof.Machine
open Safety

theorem fits_eq_true_iff {w : Nat} (lo hi : Nat) (a : BitVec w) : fits lo hi a = true ↔ lo ≤ a.toNat ∧ a.toNat ≤ hi := by
  simp [fits]

/-! ### The rows of the table, in its order -/

section
variable {addr : Byte} {s : State} {a : AddrRec}

/-- The first row: an address outside 1 to 64. -/
theorem writeRefusal_of_addrOutside (h : addr.toNat = 0 ∨ 64 < addr.toNat) : writeRefusal addr s = some .range := by
  have hfits : fits 1 64 addr = false := by
    rw [Bool.eq_false_iff, ne_eq, fits_eq_true_iff]
    omega
  simp [writeRefusal, hfits]

/-- The second row: a mode other than READY. -/
theorem writeRefusal_of_notReady (h : 1 ≤ addr.toNat ∧ addr.toNat ≤ 64) (hmode : s.sup.mode ≠ .ready) :
    writeRefusal addr s = some .mode := by
  simp [writeRefusal, (fits_eq_true_iff 1 64 addr).2 h, hmode]

/-- The third row: an address that is not configured. -/
theorem writeRefusal_of_unconfigured (h : 1 ≤ addr.toNat ∧ addr.toNat ≤ 64) (hmode : s.sup.mode = .ready)
    (hfind : s.plant.link.find addr.toNat = none) : writeRefusal addr s = some .range := by
  simp [writeRefusal, (fits_eq_true_iff 1 64 addr).2 h, hmode, hfind]

/-- The fourth row: a configured address whose span is energised. -/
theorem writeRefusal_of_energised (h : 1 ≤ addr.toNat ∧ addr.toNat ≤ 64) (hmode : s.sup.mode = .ready)
    (hfind : s.plant.link.find addr.toNat = some a) (hspan : (s.plant.span a.slot).state.energised = true) :
    writeRefusal addr s = some .state := by
  simp [writeRefusal, (fits_eq_true_iff 1 64 addr).2 h, hmode, hfind, hspan]

/-- The fifth row: a full queue. -/
theorem writeRefusal_of_full (h : 1 ≤ addr.toNat ∧ addr.toNat ≤ 64) (hmode : s.sup.mode = .ready)
    (hfind : s.plant.link.find addr.toNat = some a) (hspan : (s.plant.span a.slot).state.energised = false)
    (hfull : Config.paramsMax ≤ s.plant.link.params.length) : writeRefusal addr s = some .busy := by
  simp [writeRefusal, (fits_eq_true_iff 1 64 addr).2 h, hmode, hfind, hspan, hfull]

/-- No row is left for a queue with room. -/
theorem writeRefusal_of_room (h : 1 ≤ addr.toNat ∧ addr.toNat ≤ 64) (hmode : s.sup.mode = .ready)
    (hfind : s.plant.link.find addr.toNat = some a) (hspan : (s.plant.span a.slot).state.energised = false)
    (hroom : s.plant.link.params.length < Config.paramsMax) : writeRefusal addr s = none := by
  simp [writeRefusal, (fits_eq_true_iff 1 64 addr).2 h, hmode, hfind, hspan, Nat.not_le.2 hroom]

end

/-! ### The request refused and the request queued -/

section
variable {s : State} {addr : Byte} (tag index : Byte) (value : BitVec 16)

/-- A write that some row of the table refuses is answered with that row's reason and has no other effect. -/
theorem exec_writeParameter_refused (hfree : free s) {why : Reason} (hwhy : writeRefusal addr s = some why) :
    exec (.writeParameter tag addr index value) s = .next (refusedWith s 0xAB tag why) := by
  have hdone : perform (.writeParameter addr index value) s = refuse s why := by
    simp only [perform, doWriteParameter, hwhy]
  exact request_done tag hfree hdone

/-- A write that no row refuses joins the tail of the queue, and its answer carries the entries then held. -/
theorem exec_writeParameter_queued (hfree : free s) (hnone : writeRefusal addr s = none) :
    exec (.writeParameter tag addr index value) s = .next (answered { s with
        plant := { s.plant with link := { s.plant.link with
          params := s.plant.link.params ++ [.host addr.toNat index value] } } } 0xAB tag
      (.ok (num8 (s.plant.link.params.length + 1))) .nothing) := by
  have hdone : perform (.writeParameter addr index value) s = acceptWith { s with
      plant := { s.plant with link := { s.plant.link with
        params := s.plant.link.params ++ [.host addr.toNat index value] } } }
      (num8 (s.plant.link.params.length + 1)) := by
    simp only [perform, doWriteParameter, hnone, List.length_append, List.length_singleton]
  exact request_done tag hfree hdone

end

/-- Settles O34: the rows of R106's table in their order, and the write no row refuses. -/
theorem parameterWriteQueued : Obligations.ParameterWriteQueued := by
  intro s tag addr index value hfree
  have refused {why : Reason} := exec_writeParameter_refused (why := why) (addr := addr) tag index value hfree
  refine ⟨fun hout => refused (writeRefusal_of_addrOutside hout), fun hlo hhi =>
    have haddr : 1 ≤ addr.toNat ∧ addr.toNat ≤ 64 := ⟨hlo, hhi⟩
    ⟨fun hmode => ?notReady, fun hmode hfind => ?unconfigured, fun a hmode hfind => ⟨fun hspan => ?energised,
      fun hspan hfull => ?full, fun hspan hroom => ?room⟩⟩⟩
  case notReady => exact refused (writeRefusal_of_notReady haddr hmode)
  case unconfigured => exact refused (writeRefusal_of_unconfigured haddr hmode hfind)
  case energised => exact refused (writeRefusal_of_energised haddr hmode hfind hspan)
  case full => exact refused (writeRefusal_of_full haddr hmode hfind hspan hfull)
  case room =>
    exact exec_writeParameter_queued tag index value hfree (writeRefusal_of_room haddr hmode hfind hspan hroom)

end Sys2Proof.Machine
end

