-- ==== Sys2Proof/Proofs/StopAll.lean ====
section
/-! PROOFS. STOP ALL (R164, R166): what taking a stop leaves alone, what a QUICK stop to RESTING makes of a span outside READY,
the entry into FAILSAFE for a reason that raises this stop, and the obligation assembled from them. -/

namespace Sys2Proof.Machine
open Safety

/-! ### Entry into an end state -/

/-- No test starts outside READY (R118). -/
theorem tryTest_outside_ready {env : Env} (hmode : env.mode ≠ .ready) (i : Slot) (p : Plant) : tryTest env i p = p := by
  simp [tryTest, testAllowed, hmode]

/-- Outside READY an entry into an end state is the change of state alone. -/
theorem enterEnd_outside_ready {env : Env} (hmode : env.mode ≠ .ready) (i : Slot) (e : EndState) (p : Plant) :
    enterEnd env i e p = changeState env i (endSpanState e) none p :=
  tryTest_outside_ready hmode i _

/-- A span that enters RESTING outside READY stays there: no test takes it to PROVING. -/
theorem enterEnd_resting_state {env : Env} (hmode : env.mode ≠ .ready) (i : Slot) (p : Plant) :
    ((enterEnd env i .resting p).span i).state = .resting := by
  rw [enterEnd_outside_ready hmode]
  exact changeState_state env i _ none p

/-! ### What the parts of a stop leave alone -/

section
variable {i j : Slot} (h : j ≠ i) (env : Env) (e : EndState) (req : StopRequest) (why : JogEnd) (cause : AbandonCause)
  (p : Plant)

@[simp] theorem endJog_span (k : Slot) : (endJog env i why p).span k = p.span k := by
  unfold endJog
  split
  · exact Plant.report_span p _ k
  · rfl

@[simp] theorem brakeIfSafe_span (k : Slot) : (brakeIfSafe env i req p).span k = p.span k := by
  unfold brakeIfSafe
  split
  · exact brakeSpan_span env i k p
  · rfl

/-- A stop's cause registered changes the fault record of its span and nothing else of it. -/
theorem registerStop_span : (registerStop env i req p).span i =
    { p.span i with fault := ((registerStop env i req p).span i).fault } := by
  unfold registerStop
  split
  · exact registerFault_span env i _ p
  · rfl

include h

theorem registerStop_span_ne : (registerStop env i req p).span j = p.span j := by
  unfold registerStop
  split
  · exact registerFault_span_ne env h _ p
  · rfl

theorem abandonTest_span_ne : (abandonTest env i cause p).span j = p.span j := by
  simp [abandonTest, Plant.span_setSpan_ne p h]

theorem startTest_span_ne : (startTest env i p).span j = p.span j := by
  rw [startTest, changeState_span_ne env i _ _ _ h, Plant.span_setSpan_ne p h]

theorem enterEnd_span_ne : (enterEnd env i e p).span j = p.span j := by
  unfold enterEnd tryTest
  split
  · rw [startTest_span_ne h, changeState_span_ne env i _ _ p h]
  · exact changeState_span_ne env i _ _ p h

theorem stopResting_span_ne : (stopResting env i req p).span j = p.span j := by
  unfold stopResting
  split
  · rw [enterEnd_span_ne h, registerStop_span_ne h]
  · rfl

theorem stopStarting_span_ne : (stopStarting env i req why p).span j = p.span j := by
  rw [stopStarting, enterEnd_span_ne h, registerStop_span_ne h, brakeIfSafe_span, endJog_span]

theorem stopMoving_span_ne : (stopMoving env i req why p).span j = p.span j := by
  have hreg : (registerStop env i req (brakeIfSafe env i req (endJog env i why p))).span j = p.span j := by
    rw [registerStop_span_ne h, brakeIfSafe_span, endJog_span]
  simp only [stopMoving]
  split
  · rw [enterEnd_span_ne h, hreg]
  · rw [changeState_span_ne env i _ _ _ h, hreg]

theorem stopHolding_span_ne : (stopHolding env i req p).span j = p.span j := by
  unfold stopHolding
  split
  · rfl
  · rw [enterEnd_span_ne h, registerStop_span_ne h, brakeIfSafe_span]

theorem stopStopping_span_ne : (stopStopping env i req p).span j = p.span j := by
  have hreg := registerStop_span_ne h env req p
  simp only [stopStopping]
  split
  · exact hreg
  · split
    · exact hreg
    · rw [changeState_span_ne env i _ _ _ h]
      split <;> simp [hreg]

theorem stopProving_span_ne : (stopProving env i req p).span j = p.span j := by
  rw [stopProving, enterEnd_span_ne h, registerStop_span_ne h, brakeIfSafe_span, abandonTest_span_ne h]

/-- A stop taken by a span leaves every other span as it was. -/
theorem takeStop_span_ne : (takeStop env i req why p).span j = p.span j := by
  unfold takeStop
  cases (p.span i).state with
  | resting => exact stopResting_span_ne h env req p
  | starting => exact stopStarting_span_ne h env req why p
  | moving => exact stopMoving_span_ne h env req why p
  | holding => exact stopHolding_span_ne h env req p
  | stopping => exact stopStopping_span_ne h env req p
  | proving => exact stopProving_span_ne h env req p
  | faulted => exact registerStop_span_ne h env req p
  | unconfigured | locking | locked | unlocking => rfl

end

/-! ### A span that enters STOPPING, and a stop merged into the one in progress -/

section
variable (env : Env) (i : Slot) (p : Plant)

/-- A span that enters STOPPING holds the record of its stop. -/
theorem changeState_stopping_stop (r : StopRecord) :
    ((changeState env i .stopping (some r) p).span i).stop = some r := by
  rw [changeState_span]
  rfl

/-- A span that enters STOPPING under a stop other than SAFE keeps its speed (R56). -/
theorem changeState_stopping_v {r : StopRecord} (hkind : r.kind ≠ .safe) :
    ((changeState env i .stopping (some r) p).span i).v = (p.span i).v := by
  have hgen : generatorRuns .stopping (some r) = true := by simp [generatorRuns, StopRecord.isSafe, hkind]
  rw [changeState_span, Span.enter, hgen]
  rfl

/-- A stop taken in STOPPING is merged into the record of the stop in progress (R21). -/
theorem stopStopping_merged (req : StopRequest) (hstate : (p.span i).state = .stopping) :
    let b := (stopStopping env i req p).span i
    b.state = .stopping ∧ b.stop = (p.span i).stop.map
      (fun r => { kind := kindMax r.kind req.kind, endState := endMax r.endState req.endState }) := by
  have hkeeps := registerStop_span (i := i) env req p
  have hstate' : ((registerStop env i req p).span i).state = .stopping := by rw [hkeeps]; exact hstate
  have hstop' : ((registerStop env i req p).span i).stop = (p.span i).stop := by rw [hkeeps]
  cases hstop : (p.span i).stop with
  | none => simp [stopStopping, hstop, hstate', hstop']
  | some r =>
    simp only [stopStopping, hstop, Option.map_some]
    split
    case isTrue hsame => exact ⟨hstate', by rw [hstop', hstop, hsame]⟩
    case isFalse => exact ⟨changeState_state .., changeState_stopping_stop ..⟩

end

/-! ### A QUICK stop to RESTING outside READY, by the state it finds -/

/-- In MOVING the stop is over at once at v = 0 and is a STOPPING that keeps v otherwise (R19, R20). -/
theorem stopMoving_quickRest {env : Env} (hmode : env.mode ≠ .ready) (i : Slot) (why : JogEnd) (p : Plant) :
    let b := (stopMoving env i quickRest why p).span i
    if (p.span i).v = 0 then b.state = .resting
    else b.state = .stopping ∧ b.v = (p.span i).v ∧ b.stop = some { kind := .quick, endState := .resting } := by
  have hform : stopMoving env i quickRest why p =
      if (p.span i).v = 0 then enterEnd env i .resting (endJog env i why p)
      else changeState env i .stopping (some { kind := .quick, endState := .resting }) (endJog env i why p) := by
    simp [stopMoving, registerStop, brakeIfSafe, quickRest]
  rw [hform]
  by_cases hv : (p.span i).v = 0
  · simp only [hv, if_true]
    exact enterEnd_resting_state hmode i _
  · simp only [hv, if_false]
    refine ⟨changeState_state .., ?_, changeState_stopping_stop ..⟩
    rw [changeState_stopping_v env i _ (by decide), endJog_span]

/-- A QUICK stop to RESTING taken outside READY, by the state it finds (R18 to R25). -/
theorem takeStop_quickRest {env : Env} (hmode : env.mode ≠ .ready) (i : Slot) (why : JogEnd) (p : Plant) :
    quickStopped (p.span i) ((takeStop env i quickRest why p).span i) := by
  unfold quickStopped takeStop
  cases hstate : (p.span i).state with
  | starting | holding | proving => exact enterEnd_resting_state hmode i _
  | moving => exact stopMoving_quickRest hmode i why p
  | stopping => exact stopStopping_merged env i p quickRest hstate
  | resting | unconfigured | locking | locked | unlocking | faulted => exact hstate

/-! ### Every span in turn -/

/-- An operation on each slot that leaves the other spans alone does to every span what it does to its own. -/
theorem eachSlot_span {R : Span → Span → Prop} {f : Slot → Plant → Plant}
    (hne : ∀ {i j : Slot} (p : Plant), j ≠ i → (f i p).span j = p.span j)
    (hself : ∀ (i : Slot) (p : Plant), R (p.span i) ((f i p).span i)) (p : Plant) (i : Slot) :
    R (p.span i) ((eachSlot f p).span i) := by
  unfold eachSlot
  match i with
  | 0 => simpa (disch := decide) only [hne] using hself 0 p
  | 1 => simpa (disch := decide) only [hne] using hself 1 (f 0 p)
  | 2 => simpa (disch := decide) only [hne] using hself 2 (f 1 (f 0 p))
  | 3 => simpa (disch := decide) only [hne] using hself 3 (f 2 (f 1 (f 0 p)))

/-- The wind hold flags cleared leave all else of a span as it was. -/
theorem eachSlot_clearWindHold_span (p : Plant) (i : Slot) :
    (eachSlot clearWindHold p).span i = { p.span i with windHold := false } :=
  eachSlot_span (R := fun a b => b = { a with windHold := false })
    (fun p h => Plant.span_setSpan_ne p h _) (fun i p => Plant.span_setSpan p i _) p i

/-! ### The entry into FAILSAFE -/

/-- A reason that raises QUICK to RESTING stops every span so, outside READY. -/
theorem stopEverySpan_quickStopped {r : FailsafeReason} (hr : failsafeStop r = quickRest) {env : Env}
    (hmode : env.mode ≠ .ready) (p : Plant) (i : Slot) : quickStopped (p.span i) ((stopEverySpan r env p).span i) := by
  rw [stopEverySpan, hr]
  exact eachSlot_span (R := quickStopped) (f := fun i p => takeStop env i quickRest .otherStop p)
    (fun p h => takeStop_span_ne h env quickRest .otherStop p)
    (fun i p => takeStop_quickRest hmode i .otherStop p) p i

/-- The plant of an entry into FAILSAFE: the MODE report, the wind hold flags cleared, and the reason's stop on every span
of a device that is in FAILSAFE already (R164). -/
theorem enterFailsafe_plant (r : FailsafeReason) (s : State) : (enterFailsafe r s).plant =
    stopEverySpan r { s.env with mode := .failsafe }
      (eachSlot clearWindHold (s.plant.report (.mode .failsafe (.reason r) s.time))) := rfl

/-- An entry into FAILSAFE changes the plant and the Supervision Unit. -/
theorem enterFailsafe_eq (r : FailsafeReason) (s : State) : enterFailsafe r s =
    { s with plant := (enterFailsafe r s).plant, sup := s.sup.enterFailsafe s.cfg.dev.fmax r s.time } := rfl

/-- An entry into FAILSAFE for a reason that raises QUICK to RESTING stops every span so; the wind hold flags, cleared first,
have no part in it. -/
theorem enterFailsafe_quickStopped {r : FailsafeReason} (hr : failsafeStop r = quickRest) (s : State) (i : Slot) :
    quickStopped (s.plant.span i) ((enterFailsafe r s).plant.span i) := by
  have hmode : ({ s.env with mode := .failsafe } : Env).mode ≠ .ready := by simp
  have hstop := stopEverySpan_quickStopped hr hmode
    (eachSlot clearWindHold (s.plant.report (.mode .failsafe (.reason r) s.time))) i
  rw [eachSlot_clearWindHold_span, Plant.report_span, ← enterFailsafe_plant] at hstop
  exact hstop

/-- The Supervision Unit after an entry from READY: the return mode is READY and the keep-alive window runs on (R164). -/
theorem Supervision.enterFailsafe_of_ready {u : Supervision} (hmode : u.mode = .ready) (fmax : Nat) (r : FailsafeReason)
    (time : Time) : u.enterFailsafe fmax r time = { u with
      mode := .failsafe, acqT := none, stableT := none, g := 0, f := min (u.f + 1) 255,
      lockout := u.lockout || (fmax != 0 && decide (fmax < min (u.f + 1) 255)),
      record := some { reason := r, time := time, toReady := true, later := [] } } := by
  simp [Supervision.enterFailsafe, hmode]

/-! ### The request -/

section
variable {s : State} (tag : Byte)

/-- STOP ALL in a mode other than READY is refused and has no other effect (R166). -/
theorem exec_stopAll_refused (hfree : free s) (hmode : s.sup.mode ≠ .ready) :
    exec (.stopAll tag) s = .next (refusedWith s 0xAC tag .mode) := by
  have hdone : perform .stopAll s = refuse s .mode := by simp [perform, doStopAll, hmode]
  exact request_done tag hfree hdone

/-- STOP ALL in READY is answered OK after the entry into FAILSAFE (R166). -/
theorem exec_stopAll_ready (hfree : free s) (hmode : s.sup.mode = .ready) :
    exec (.stopAll tag) s = .next (accepted (enterFailsafe .hostRequest s) 0xAC tag) := by
  have hdone : perform .stopAll s = accept (enterFailsafe .hostRequest s) := by
    simp [perform, doStopAll, raiseFailsafe, hmode]
  exact request_done tag hfree hdone

end

/-- Settles O35: refused outside READY; in READY the entry into FAILSAFE, whose plant has every span quick stopped. -/
theorem stopAllEntersFailsafe : Obligations.StopAllEntersFailsafe := by
  intro s tag hfree
  refine ⟨exec_stopAll_refused tag hfree, fun hmode => ⟨(enterFailsafe .hostRequest s).plant, ?_, ?_⟩⟩
  · rw [exec_stopAll_ready tag hfree hmode, ← Supervision.enterFailsafe_of_ready hmode, ← enterFailsafe_eq]
  · exact enterFailsafe_quickStopped rfl s

end Sys2Proof.Machine
end

