-- ==== Sys2Proof/Proofs/SpanKeeps.lean ====
section
/-! PROOFS. What a change of one span keeps: the relation between a span before and after an operation that carries every
invariant of a span from the one to the other, and the changes of a span it holds of. -/

namespace Sys2Proof.Machine
open Safety

/-! ### The invariants of one span -/

/-- A span in neither of the states the gate stops (R148). -/
def Span.still (sp : Span) : Prop := sp.state ≠ .starting ∧ sp.state ≠ .moving

/-- v is zero outside MOVING and STOPPING and under a SAFE stop (R16, R20). -/
def Span.speedRests (sp : Span) : Prop :=
  sp.state ≠ .moving → (sp.state ≠ .stopping ∨ sp.inSafeStop = true) → sp.v = 0

/-- The owed count within its bounds (R116, R123). -/
def Span.owedInBounds (sp : Span) : Prop := Config.owedMin ≤ sp.proof.owed ∧ sp.proof.owed ≤ Config.owedMax

/-- What an operation that neither configures a span nor takes its configuration away keeps of it. -/
structure SpanKeeps (env : Env) (i : Slot) (a b : Span) : Prop where
  configured : b.state = .unconfigured ↔ a.state = .unconfigured
  blank : a.state = .unconfigured → blankSpan a → blankSpan b
  still : env.gate.shut = true → a.still → b.still
  speed : a.speedRests → b.speedRests
  owed : a.owedInBounds → b.owedInBounds
  plan : a.plan.length ≤ Config.planMax → b.plan.length ≤ Config.planMax
  within : boundsReference (env.span i) → a.state ≠ .unconfigured → referenceWithin (env.span i) a →
    referenceWithin (env.span i) b

/-- The fields of a span its invariants read. -/
def Span.essence (sp : Span) : SpanState × Int × Nat × Option StopRecord × Nat × List Segment × Option JogContext × Int :=
  (sp.state, sp.x, sp.v, sp.stop, sp.override, sp.plan, sp.jog, sp.proof.owed)

section
variable {env : Env} {i : Slot} {a b c : Span}

theorem SpanKeeps.refl (a : Span) : SpanKeeps env i a a :=
  ⟨.rfl, fun _ h => h, fun _ h => h, id, id, id, fun _ _ h => h⟩

theorem SpanKeeps.trans (h : SpanKeeps env i a b) (k : SpanKeeps env i b c) : SpanKeeps env i a c where
  configured := k.configured.trans h.configured
  blank hu hb := k.blank (h.configured.2 hu) (h.blank hu hb)
  still hg hs := k.still hg (h.still hg hs)
  speed hs := k.speed (h.speed hs)
  owed ho := k.owed (h.owed ho)
  plan hp := k.plan (h.plan hp)
  within hb hu hw := k.within hb (fun hc => hu (h.configured.1 hc)) (h.within hb hu hw)

/-- A change of none of the fields the invariants read, of a span that stays blank where it was. -/
theorem SpanKeeps.of_essence (he : b.essence = a.essence) (hblank : a.state = .unconfigured → blankSpan a → blankSpan b) :
    SpanKeeps env i a b := by
  simp only [Span.essence, Prod.mk.injEq] at he
  obtain ⟨hstate, hx, hv, hstop, hover, hplan, hjog, howed⟩ := he
  refine ⟨by rw [hstate], hblank, ?_, ?_, ?_, by rw [hplan]; exact id, ?_⟩
  · simp only [Span.still, hstate]; exact fun _ h => h
  · simp only [Span.speedRests, Span.inSafeStop, hstate, hv, hstop]; exact id
  · simp only [Span.owedInBounds, howed]; exact id
  · simp only [referenceWithin, hx, hv, hover, hplan, hjog]; exact fun _ _ h => h

/-- A change of none of the fields the invariants read, of a span that has left UNCONFIGURED. -/
theorem SpanKeeps.of_configured (hc : a.state ≠ .unconfigured) (he : b.essence = a.essence) :
    SpanKeeps env i a b :=
  .of_essence he fun hu => absurd hu hc

/-- A change of the proof state that keeps the owed count within its bounds. -/
theorem SpanKeeps.proof {ps : ProofState}
    (h : a.owedInBounds → Config.owedMin ≤ ps.owed ∧ ps.owed ≤ Config.owedMax) :
    SpanKeeps env i a { a with proof := ps } where
  configured := .rfl
  blank _ hb := by rw [blankSpan] at hb ⊢; rw [hb]
  still _ hs := hs
  speed := id
  owed := h
  plan := id
  within _ _ hw := hw

/-- A change of the reference or the plan, in the same state. -/
theorem SpanKeeps.reference (hc : a.state ≠ .unconfigured)
    (hwithin : boundsReference (env.span i) → referenceWithin (env.span i) a → referenceWithin (env.span i) b)
    (hspeed : a.speedRests → b.speedRests)
    (hplan : a.plan.length ≤ Config.planMax → b.plan.length ≤ Config.planMax)
    (hsame : (b.state, b.proof.owed) = (a.state, a.proof.owed)) :
    SpanKeeps env i a b := by
  obtain ⟨hstate, howed⟩ := Prod.mk.inj hsame
  refine ⟨by rw [hstate], fun hu => absurd hu hc, fun _ hs => ?_, hspeed, fun ho => ?_, hplan, fun hb _ hw => hwithin hb hw⟩
  · simpa only [Span.still, hstate] using hs
  · simpa only [Span.owedInBounds, howed] using ho

/-- A span that enters a state, under a shut gate one of motion only from one of motion. -/
theorem SpanKeeps.enter (sc : SpanConfig) {new : SpanState} (rec : Option StopRecord) (hc : a.state ≠ .unconfigured)
    (hnew : new ≠ .unconfigured) (hgate : env.gate.shut = true → a.still → new ≠ .starting ∧ new ≠ .moving) :
    SpanKeeps env i a (a.enter sc new rec) where
  configured := ⟨fun h => absurd h hnew, fun h => absurd h hc⟩
  blank hu := absurd hu hc
  still := hgate
  speed _ hm hs := by
    have hgen : generatorRuns new rec = false := by
      cases new with
      | moving => exact absurd rfl hm
      | stopping =>
        cases rec with
        | none => simp [Span.enter, Span.inSafeStop] at hs
        | some r => simpa [Span.enter, Span.inSafeStop, generatorRuns, StopRecord.isSafe] using hs
      | _ => rfl
    simp [Span.enter, hgen]
  owed ho := ho
  plan := id
  within _ _ := by
    rintro ⟨hlo, hhi, hv, hover, hplan, hjog⟩
    refine ⟨hlo, hhi, ?_, hover, hplan, fun j hj => ?_⟩
    · show (if _ then _ else _) ≤ _
      split
      · exact hv
      · exact Nat.zero_le _
    · have hj' : (if generatorRuns new rec || new == .starting then a.jog else none) = some j := hj
      split at hj'
      · exact hjog j hj'
      · cases hj'

end

end Sys2Proof.Machine
end

