-- ==== Sys2Proof/Proofs/PlantKeeps.lean ====
section
/-! PROOFS. What every operation on the plant keeps of the spans and of the report queue: the shared operations, the brake
test, stops and starts, the alignment step, the profile generator, the period, and the bogie link. -/

namespace Sys2Proof.Machine
open Safety

/-- What an operation on the plant keeps: every span's invariants, and the bound of the report queue (R179). -/
structure PlantKeeps (env : Env) (p q : Plant) : Prop where
  span : ∀ i, SpanKeeps env i (p.span i) (q.span i)
  out : p.out.queue.length ≤ Config.reportsMax → q.out.queue.length ≤ Config.reportsMax

section
variable {env : Env} {p q r : Plant} {i : Slot}

theorem PlantKeeps.refl (p : Plant) : PlantKeeps env p p := ⟨fun _ => .refl _, id⟩

theorem PlantKeeps.trans (h : PlantKeeps env p q) (k : PlantKeeps env q r) : PlantKeeps env p r :=
  ⟨fun i => (h.span i).trans (k.span i), fun ho => k.out (h.out ho)⟩

/-- A span that has left UNCONFIGURED has not returned to it. -/
theorem PlantKeeps.configured (h : PlantKeeps env p q) (hc : (p.span i).state ≠ .unconfigured) :
    (q.span i).state ≠ .unconfigured := fun hu => hc ((h.span i).configured.1 hu)

/-- A change of the clearance entries or the link alone. -/
theorem PlantKeeps.of_spans (h : (q.spans, q.out) = (p.spans, p.out)) : PlantKeeps env p q := by
  obtain ⟨hs, ho⟩ := Prod.mk.inj h
  refine ⟨fun i => ?_, by rw [ho]; exact id⟩
  rw [Plant.span, Plant.span, hs]
  exact .refl _

/-- An operation on a span that has left UNCONFIGURED after what has been kept. -/
theorem PlantKeeps.then (h : PlantKeeps env p q) (hc : (p.span i).state ≠ .unconfigured)
    (hr : (q.span i).state ≠ .unconfigured → PlantKeeps env q r) : PlantKeeps env p r := h.trans (hr (h.configured hc))

theorem PlantKeeps.setSpan {sp : Span} (h : SpanKeeps env i (p.span i) sp) : PlantKeeps env p (p.setSpan i sp) := by
  refine ⟨fun j => ?_, id⟩
  by_cases hj : j = i
  · subst hj; rw [Plant.span_setSpan]; exact h
  · rw [Plant.span_setSpan_ne p hj]; exact .refl _

/-- A change of one span and of the link. -/
theorem PlantKeeps.setSpanLink {sp : Span} (h : SpanKeeps env i (p.span i) sp) (l : BogieLink) :
    PlantKeeps env p { p.setSpan i sp with link := l } := (PlantKeeps.setSpan h).trans (.of_spans rfl)

theorem PlantKeeps.report (rep : Report) : PlantKeeps env p (p.report rep) :=
  ⟨fun _ => .refl _, fun ho => ReportQueue.push_length ho rep⟩

theorem PlantKeeps.reports (rs : List Report) : PlantKeeps env p (p.reports rs) := by
  induction rs generalizing p with
  | nil => exact .refl p
  | cons rep rs ih => exact (PlantKeeps.report rep).trans ih

/-! A further step after what has been kept. -/

theorem PlantKeeps.thenReport (h : PlantKeeps env p q) (rep : Report) : PlantKeeps env p (q.report rep) :=
  h.trans (.report rep)

theorem PlantKeeps.thenReports (h : PlantKeeps env p q) (rs : List Report) : PlantKeeps env p (q.reports rs) :=
  h.trans (.reports rs)

theorem PlantKeeps.thenSet (h : PlantKeeps env p q) {sp : Span} (hs : SpanKeeps env i (q.span i) sp) :
    PlantKeeps env p (q.setSpan i sp) := h.trans (.setSpan hs)

theorem PlantKeeps.ite {c : Prop} [Decidable c] (hq : PlantKeeps env p q) (hr : PlantKeeps env p r) :
    PlantKeeps env p (if c then q else r) := by
  split
  · exact hq
  · exact hr

/-- A step taken under a condition. -/
theorem PlantKeeps.thenIf (h : PlantKeeps env p q) {c : Prop} [Decidable c] (hr : PlantKeeps env q r) :
    PlantKeeps env p (if c then r else q) := by
  split
  · exact h.trans hr
  · exact h

theorem PlantKeeps.eachSlot {f : Slot → Plant → Plant} (hf : ∀ i p, PlantKeeps env p (f i p)) (p : Plant) :
    PlantKeeps env p (eachSlot f p) := eachSlot_keeps (fun i _ h => h.trans (hf i _)) (.refl p)

end

/-! ### The shared operations -/

section
variable {env : Env} {i : Slot} {p : Plant}

theorem postSet_keeps (hc : (p.span i).state ≠ .unconfigured) : PlantKeeps env p (postSet env i p) := by
  obtain h | ⟨set, h⟩ := postSet_cases env i p <;> rw [h]
  · exact .refl p
  · exact .setSpan (.of_configured hc (by rfl))

theorem registerFault_keeps (c : FaultCause) (hc : (p.span i).state ≠ .unconfigured) :
    PlantKeeps env p (registerFault env i c p) := by
  obtain h | ⟨f, first, h⟩ := registerFault_cases env i c p <;> rw [h]
  · exact .refl p
  · exact PlantKeeps.thenReport (.setSpan (.of_configured hc (by rfl))) _

theorem registerStop_keeps (req : StopRequest) (hc : (p.span i).state ≠ .unconfigured) :
    PlantKeeps env p (registerStop env i req p) := by
  unfold registerStop
  split
  · exact registerFault_keeps _ hc
  · exact .refl p

theorem withdrawWrites_keeps (i : Slot) (p : Plant) : PlantKeeps env p (withdrawWrites env i p) := by
  unfold withdrawWrites
  exact .thenReports (.of_spans (by rfl)) _

theorem dropLockCommand_keeps (i : Slot) (p : Plant) : PlantKeeps env p (dropLockCommand i p) := .of_spans (by rfl)

theorem brakeIfSafe_keeps (i : Slot) (p : Plant) (req : StopRequest) : PlantKeeps env p (brakeIfSafe env i req p) := by
  unfold brakeIfSafe
  split
  · exact .of_spans (by rfl)
  · exact .refl p

theorem endJog_keeps (i : Slot) (p : Plant) (why : JogEnd) : PlantKeeps env p (endJog env i why p) := by
  unfold endJog
  split
  · exact .report _
  · exact .refl p

/-- A change of state keeps what a span's entry into the state keeps. -/
theorem changeState_keeps {new : SpanState} (rec : Option StopRecord) (hc : (p.span i).state ≠ .unconfigured)
    (hnew : new ≠ .unconfigured)
    (hgate : env.gate.shut = true → (p.span i).still → new ≠ .starting ∧ new ≠ .moving) :
    PlantKeeps env p (changeState env i new rec p) := by
  have henter : PlantKeeps env p (p.setSpan i ((p.span i).enter (env.span i) new rec)) :=
    .setSpan (.enter _ rec hc hnew hgate)
  simp only [changeState]
  refine .thenIf (.thenIf (.thenIf (henter.thenReport _) (withdrawWrites_keeps i _)) (dropLockCommand_keeps i _)) ?_
  exact postSet_keeps (PlantKeeps.configured (.thenIf (.thenIf (henter.thenReport _) (withdrawWrites_keeps i _))
    (dropLockCommand_keeps i _)) hc)

/-- A change into a state that is not one of motion. -/
theorem changeState_keeps_still {new : SpanState} (rec : Option StopRecord) (hc : (p.span i).state ≠ .unconfigured)
    (hnew : new ≠ .unconfigured ∧ new ≠ .starting ∧ new ≠ .moving) :
    PlantKeeps env p (changeState env i new rec p) := changeState_keeps rec hc hnew.1 fun _ _ => hnew.2

/-! ### The brake test and the entry into an end state -/

theorem startTest_keeps (hc : (p.span i).state ≠ .unconfigured) : PlantKeeps env p (startTest env i p) := by
  unfold startTest
  refine .trans (.setSpan (.of_configured hc (by rfl))) (changeState_keeps_still none ?_ (by decide))
  rw [Plant.span_setSpan]
  exact hc

theorem tryTest_keeps (hc : (p.span i).state ≠ .unconfigured) : PlantKeeps env p (tryTest env i p) := by
  unfold tryTest
  split
  · exact startTest_keeps hc
  · exact .refl p

theorem tryForced_keeps (hc : (p.span i).state ≠ .unconfigured) : PlantKeeps env p (tryForced env i p) := by
  unfold tryForced
  split
  · exact startTest_keeps hc
  · exact .refl p

/-- An end state is neither UNCONFIGURED nor one of motion. -/
theorem endSpanState_rests (e : EndState) :
    endSpanState e ≠ .unconfigured ∧ endSpanState e ≠ .starting ∧ endSpanState e ≠ .moving := by
  cases e <;> decide

theorem enterEnd_keeps (e : EndState) (hc : (p.span i).state ≠ .unconfigured) : PlantKeeps env p (enterEnd env i e p) := by
  have hchange := changeState_keeps_still (env := env) none hc (endSpanState_rests e)
  exact hchange.trans (tryTest_keeps (hchange.configured hc))

/-- A change of state after what has been kept of a span that has left UNCONFIGURED. -/
theorem PlantKeeps.thenFaulted {q : Plant} (h : PlantKeeps env p q) (hc : (p.span i).state ≠ .unconfigured) :
    PlantKeeps env p (changeState env i .faulted none q) :=
  h.trans (changeState_keeps_still none (h.configured hc) (by decide))

theorem PlantKeeps.thenEnd {q : Plant} (h : PlantKeeps env p q) (e : EndState) (hc : (p.span i).state ≠ .unconfigured) :
    PlantKeeps env p (enterEnd env i e q) := h.trans (enterEnd_keeps e (h.configured hc))

theorem PlantKeeps.thenFault {q : Plant} (h : PlantKeeps env p q) (c : FaultCause) (hc : (p.span i).state ≠ .unconfigured) :
    PlantKeeps env p (registerFault env i c q) := h.trans (registerFault_keeps c (h.configured hc))

theorem PlantKeeps.thenStopCause {q : Plant} (h : PlantKeeps env p q) (req : StopRequest)
    (hc : (p.span i).state ≠ .unconfigured) : PlantKeeps env p (registerStop env i req q) :=
  h.trans (registerStop_keeps req (h.configured hc))

theorem passTest_keeps (creep : Option (Nat × Nat)) (hc : (p.span i).state ≠ .unconfigured) :
    PlantKeeps env p (passTest env i creep p) := by
  simp only [passTest]
  refine PlantKeeps.thenEnd (.thenReport (.setSpan (.proof fun ⟨hlo, hhi⟩ => ?_)) _) _ hc
  simp only [ProofState.passed, Config.owedMin, Config.owedMax] at *
  omega

theorem failTest_keeps (creep : Option (Nat × Nat)) (hc : (p.span i).state ≠ .unconfigured) :
    PlantKeeps env p (failTest env i creep p) := by
  simp only [failTest]
  exact PlantKeeps.thenFaulted (.thenFault (.thenReport (.setSpan (.proof (by exact id))) _) _ hc) hc

theorem abandonTest_keeps (i : Slot) (p : Plant) (why : AbandonCause) : PlantKeeps env p (abandonTest env i why p) := by
  simp only [abandonTest]
  exact .thenReport (.setSpan (.proof (by exact id))) _

theorem beginHold_keeps (t : TestRecord) (hc : (p.span i).state ≠ .unconfigured) :
    PlantKeeps env p (beginHold env i t p) := by
  simp only [beginHold]
  refine .trans (.setSpan (.of_configured hc (by rfl))) (postSet_keeps ?_)
  rw [Plant.span_setSpan]
  exact hc

theorem holdPeriod_keeps (t : TestRecord) (hc : (p.span i).state ≠ .unconfigured) :
    PlantKeeps env p (holdPeriod env i t p) := by
  unfold holdPeriod
  split
  · exact (abandonTest_keeps i p _).thenEnd _ hc
  · split
    · exact failTest_keeps _ hc
    · exact .refl p

theorem holdEnd_keeps (t : TestRecord) (hc : (p.span i).state ≠ .unconfigured) : PlantKeeps env p (holdEnd env i t p) := by
  simp only [holdEnd]
  exact .ite ((abandonTest_keeps i p _).thenEnd _ hc) (.ite (failTest_keeps _ hc) (passTest_keeps _ hc))

theorem testPeriod_keeps (hc : (p.span i).state ≠ .unconfigured) : PlantKeeps env p (testPeriod env i p) := by
  unfold testPeriod
  split
  · exact .refl p
  · split
    · split
      · exact beginHold_keeps _ hc
      · exact .refl p
    · exact holdPeriod_keeps _ hc

/-! ### Stops -/

theorem takeStop_keeps (req : StopRequest) (why : JogEnd) : PlantKeeps env p (takeStop env i req why p) := by
  unfold takeStop
  split
  case h_1 | h_8 | h_9 | h_10 => exact .refl p
  all_goals
    rename_i hstate
    have hc : (p.span i).state ≠ .unconfigured := by rw [hstate]; decide
  case h_2 =>
    unfold stopResting
    split
    · exact (registerStop_keeps req hc).thenEnd _ hc
    · exact .refl p
  case h_3 => exact (((endJog_keeps i p why).trans (brakeIfSafe_keeps i _ req)).thenStopCause req hc).thenEnd _ hc
  case h_4 =>
    have hreg := ((endJog_keeps (env := env) i p why).trans (brakeIfSafe_keeps i _ req)).thenStopCause req hc
    simp only [stopMoving]
    split
    · exact hreg.thenEnd _ hc
    · exact hreg.trans (changeState_keeps_still _ (hreg.configured hc) (by decide))
  case h_5 =>
    unfold stopHolding
    split
    · exact .refl p
    · exact ((brakeIfSafe_keeps i _ req).thenStopCause req hc).thenEnd _ hc
  case h_6 =>
    have hreg := registerStop_keeps (env := env) req hc
    have hbrake : ∀ b : Bool, PlantKeeps env p (if b = true then brakeSpan env i (registerStop env i req p)
        else registerStop env i req p) := by
      intro b
      split
      · exact hreg.trans (.of_spans (by rfl))
      · exact hreg
    simp only [stopStopping]
    split
    · exact hreg
    · split
      · exact hreg
      · exact (hbrake _).trans
          (changeState_keeps_still _ ((hbrake _).configured hc) (by decide))
  case h_7 => exact (((abandonTest_keeps i p .stop).trans (brakeIfSafe_keeps i _ req)).thenStopCause req hc).thenEnd _ hc
  case h_11 => exact registerStop_keeps req hc

/-- Stops taken in order. -/
theorem takeStops_keeps (stops : List StopRequest) (why : JogEnd) (p : Plant) :
    PlantKeeps env p (stops.foldl (fun p r => takeStop env i r why p) p) := by
  induction stops generalizing p with
  | nil => exact .refl p
  | cons r rs ih => exact (takeStop_keeps r why).trans (ih _)

/-- The reports of the clearance entries taken in turn keep the queue's bound. -/
theorem zoneSweep_out {f : ZoneEntry → ReportQueue → ZoneEntry × ReportQueue}
    (hf : ∀ z q, q.queue.length ≤ Config.reportsMax → (f z q).2.queue.length ≤ Config.reportsMax)
    (zs : List ZoneEntry) {q : ReportQueue} (h : q.queue.length ≤ Config.reportsMax) :
    (zoneSweep f zs q).2.queue.length ≤ Config.reportsMax := by
  induction zs generalizing q with
  | nil => exact h
  | cons z zs ih => exact ih (hf z q h)

theorem zoneEvaluate_keeps (i : Slot) (p : Plant) : PlantKeeps env p (zoneEvaluate env i p) := by
  refine ⟨fun j => .refl _, fun h => zoneSweep_out (fun z q hq => ?_) _ h⟩
  unfold zoneEvalTurn
  split
  · exact hq
  · split
    · exact ReportQueue.push_length hq _
    · exact hq

/-- A position clamped to an envelope lies in it. -/
theorem SpanConfig.clampX_within {sc : SpanConfig} (h : sc.xmin < sc.xmax) (v : Int) :
    sc.xmin ≤ sc.clampX v ∧ sc.clampX v ≤ sc.xmax := by
  simp only [SpanConfig.clampX, clampInt]; omega

/-- x taken from the measured position, where there is one, lies in the envelope. -/
theorem x_from_measured_within {sc : SpanConfig} (hb : boundsReference sc) (m : Option Int) {x : Int} (hlo : sc.xmin ≤ x)
    (hhi : x ≤ sc.xmax) :
    sc.xmin ≤ (match m with | some m => sc.clampX m | none => x) ∧
      (match m with | some m => sc.clampX m | none => x) ≤ sc.xmax := by
  cases m with
  | none => exact ⟨hlo, hhi⟩
  | some m => exact SpanConfig.clampX_within hb.1 m

theorem endSafeStop_keeps (hc : (p.span i).state ≠ .unconfigured) : PlantKeeps env p (endSafeStop env i p) := by
  have hx : PlantKeeps env p (p.setSpan i { p.span i with
      x := (match (p.span i).meas.m with | some m => (env.span i).clampX m | none => (p.span i).x), r := 0 }) :=
    .setSpan (.reference hc (fun hb ⟨hlo, hhi, hrest⟩ =>
      ⟨(x_from_measured_within hb _ hlo hhi).1, (x_from_measured_within hb _ hlo hhi).2, hrest⟩)
      (by exact id) (by exact id) (by rfl))
  have heval := hx.trans (zoneEvaluate_keeps i _)
  simp only [endSafeStop]
  exact .ite ((heval.thenFault _ hc).thenEnd _ hc) (heval.thenEnd _ hc)

/-! ### Starts, jogs and CLEAR FAULT -/

/-- A span set in motion under an open gate. -/
theorem enterMotion_keeps (hc : (p.span i).state ≠ .unconfigured) (hgate : env.gate.shut = false) :
    PlantKeeps env p (enterMotion env i p) := by
  unfold enterMotion
  split
  all_goals exact changeState_keeps none hc (by decide) (by simp [hgate])

/-- Motion is refused under a shut gate (R28, R156). -/
theorem gate_open_of_motionRefusal {key : Option Reason} {sp : Span} (h : motionRefusal env i key sp = none) :
    env.gate.shut = false := by
  unfold motionRefusal at h
  split at h
  · cases h
  · simpa using ‹¬env.gate.shut = true›

/-- A START that no condition refuses finds the span RESTING or HOLDING and the gate open (R28). -/
theorem startRefusal_none (h : startRefusal env i p = none) :
    ((p.span i).state = .resting ∨ (p.span i).state = .holding) ∧ env.gate.shut = false := by
  simp only [startRefusal] at h
  split at h
  · cases h
  · rename_i hstate
    split at h
    · cases h
    · refine ⟨?_, gate_open_of_motionRefusal h⟩
      simp only [Bool.and_eq_true, bne_iff_ne, ne_eq, not_and, Decidable.not_not] at hstate
      by_cases hr : (p.span i).state = .resting
      · exact .inl hr
      · exact .inr (hstate hr)

/-- A jog that no condition refuses finds the span RESTING or HOLDING and the gate open (R156). -/
theorem jogRefusal_none (h : jogRefusal env i p = none) :
    ((p.span i).state = .resting ∨ (p.span i).state = .holding) ∧ env.gate.shut = false := by
  simp only [jogRefusal] at h
  split at h
  · cases h
  split at h
  · cases h
  split at h
  · cases h
  · rename_i hstate
    refine ⟨?_, gate_open_of_motionRefusal h⟩
    simp only [Bool.and_eq_true, bne_iff_ne, ne_eq, not_and, Decidable.not_not] at hstate
    by_cases hr : (p.span i).state = .resting
    · exact .inl hr
    · exact .inr (hstate hr)

/-- A span RESTING or HOLDING has left UNCONFIGURED. -/
theorem configured_of_atRest {st : SpanState} (h : st = .resting ∨ st = .holding) : st ≠ .unconfigured := by
  rcases h with h | h <;> rw [h] <;> decide

theorem startSpan_keeps (h : startRefusal env i p = none) : PlantKeeps env p (startSpan env i p) := by
  obtain ⟨hstate, hgate⟩ := startRefusal_none h
  have hc := configured_of_atRest hstate
  refine PlantKeeps.trans (.setSpan (.of_configured hc (by rfl))) (enterMotion_keeps (i := i) ?_ hgate)
  rw [Plant.span_setSpan]
  exact hc

theorem autoResume_keeps : PlantKeeps env p (autoResume env i p) := by
  unfold autoResume
  split
  · exact .refl p
  · exact startSpan_keeps ‹_›

/-- A jog's context lies within the span's limits (G9, G12). -/
theorem jogContext_within {sc : SpanConfig} (hb : boundsReference sc) (d : Dir) :
    sc.xmin ≤ (jogContext sc d).target ∧ (jogContext sc d).target ≤ sc.xmax ∧ (jogContext sc d).cruise ≤ sc.vmax := by
  obtain ⟨hx, hv⟩ := hb
  cases d
  · exact ⟨Int.le_of_lt hx, Int.le_refl _, hv⟩
  · exact ⟨Int.le_refl _, Int.le_of_lt hx, hv⟩

theorem requestJog_keeps (d : Dir) : PlantKeeps env p (requestJog env i d p) := by
  simp only [requestJog]
  split
  · exact .report _
  · rename_i hnone
    obtain ⟨hstate, hgate⟩ := jogRefusal_none hnone
    have hc := configured_of_atRest hstate
    have hjog : SpanKeeps env i (p.span i) { p.span i with jog := some (jogContext (env.span i) d), dir := d } :=
      .reference hc (fun hb ⟨hlo, hhi, hv, hover, hplan, _⟩ =>
        ⟨hlo, hhi, hv, hover, hplan, fun j hj => by cases hj; exact jogContext_within hb d⟩)
        (by exact id) (by exact id) (by rfl)
    have hset : PlantKeeps env p ((p.report (.station (.jogStarted i d) env.time)).setSpan i
        { p.span i with jog := some (jogContext (env.span i) d), dir := d }) :=
      (PlantKeeps.report _).trans (.setSpan hjog)
    exact hset.trans (enterMotion_keeps (hset.configured hc) hgate)

theorem clearFault_keeps (hc : (p.span i).state ≠ .unconfigured) : PlantKeeps env p (clearFault env i p) := by
  have hx : PlantKeeps env p (p.setSpan i { p.span i with
      x := (match (p.span i).meas.m with | some m => (env.span i).clampX m | none => (p.span i).x), r := 0,
      fault := none }) :=
    .setSpan (.reference hc (fun hb ⟨hlo, hhi, hrest⟩ =>
      ⟨(x_from_measured_within hb _ hlo hhi).1, (x_from_measured_within hb _ hlo hhi).2, hrest⟩)
      (by exact id) (by exact id) (by rfl))
  have heval := (hx.trans (changeState_keeps_still (new := .resting) none (hx.configured hc) (by decide))).trans (zoneEvaluate_keeps i _)
  simp only [clearFault]
  exact .ite ((heval.thenFault _ hc).thenFaulted hc) (heval.trans (tryTest_keeps (heval.configured hc)))

end

end Sys2Proof.Machine
end

