-- ==== Sys2Proof/Proofs/PeriodKeeps.lean ====
section
/-! PROOFS. What a span's period keeps: the alignment step, the profile generator's choice of speed and its advance, the
retirements, the end of a run, the state machine, the Clearance Table's turn, and the stops raised. -/

namespace Sys2Proof.Machine
open Safety

section
variable {env : Env} {i : Slot} {p : Plant}

/-! ### The alignment step -/

theorem measureSpan_keeps (hc : (p.span i).state ≠ .unconfigured) : PlantKeeps env p (measureSpan env i p) :=
  .setSpanLink (.of_configured hc (by rfl)) _

theorem skewStep_keeps (hc : (p.span i).state ≠ .unconfigured) : PlantKeeps env p (skewStep env i p) := by
  simp only [skewStep]
  split
  · exact .refl p
  · exact .thenIf (.setSpan (.of_configured hc (by rfl))) (.report _)

theorem alignSpan_keeps (hc : (p.span i).state ≠ .unconfigured) : PlantKeeps env p (alignSpan env i p) := by
  simp only [alignSpan]
  refine PlantKeeps.then (i := i) ?_ hc skewStep_keeps
  exact .setSpanLink (.of_configured hc (by rfl)) _

/-! ### The chosen speed -/

/-- The factor of a period is at most the override (R57). -/
theorem speedFactor_le_override (sc : SpanConfig) (sp : Span) : speedFactor env sc sp ≤ sp.override := by
  unfold speedFactor; omega

/-- An effective limit under a factor of at most 100 is at most the cruise speed (R59). -/
theorem effLimit_le {k : Nat} (hk : k ≤ 100) (cruise : Nat) : effLimit k cruise ≤ cruise := by
  unfold effLimit
  have : cruise * k ≤ cruise * 100 := Nat.mul_le_mul_left _ hk
  omega

/-- The checked speed is above neither the limit nor the present speed (R64, R65). -/
theorem checkedSpeed_le (ad dacc l0 v r : Nat) (bs : List Boundary) : checkedSpeed ad dacc l0 v r bs ≤ max v l0 := by
  simp only [checkedSpeed]
  split
  · omega
  · split
    · omega
    · split <;> omega

/-- The creep floor raises a speed to no more than the limit (R66). -/
theorem creepFloor_le (c l0 room u : Nat) : creepFloor c l0 room u ≤ max u l0 := by
  simp only [creepFloor]
  split <;> omega

/-! ### What a span travels towards -/

/-- A run is a leading part of the plan (R40). -/
theorem runChain_isPrefix (dir : Dir) (plan : List Segment) : runChain dir plan <+: plan := by
  induction plan with
  | nil => exact List.prefix_rfl
  | cons s rest ih =>
    cases rest with
    | nil => exact List.prefix_rfl
    | cons t rest =>
      simp only [runChain]
      split
      · exact ⟨t :: rest, rfl⟩
      · exact (List.prefix_cons_inj s).2 ih

theorem Span.run_isPrefix (sp : Span) : sp.run <+: sp.plan := by
  unfold Span.run
  split
  · exact runChain_isPrefix _ _
  · exact List.nil_prefix

/-- What a span travels towards: the end of its path lies in the envelope, at a cruise within Vmax. -/
theorem travel_within {sc : SpanConfig} {sp : Span} (hw : referenceWithin sc sp) {k : Nat} {t : Travel}
    (ht : sp.travel k = some t) :
    ∃ target, t.stopAt = ahead sp.dir sp.x target ∧ sc.xmin ≤ target ∧ target ≤ sc.xmax ∧ t.cruise ≤ sc.vmax := by
  obtain ⟨_, _, _, _, hplan, hjog⟩ := hw
  unfold Span.travel at ht
  split at ht
  · rename_i j hj
    cases ht
    exact ⟨j.target, rfl, hjog j hj⟩
  · split at ht
    · cases ht
    · rename_i h rest hrun
      cases ht
      have hmem : ∀ g ∈ h :: rest, g ∈ sp.plan := fun g hg => sp.run_isPrefix.subset (hrun ▸ hg)
      have hlast : (h :: rest).getLastD h ∈ h :: rest := by
        rw [List.getLastD_eq_getLast?, List.getLast?_eq_some_getLast (List.cons_ne_nil h rest)]
        exact List.getLast_mem _
      obtain ⟨hlo, hhi, _⟩ := hplan _ (hmem _ hlast)
      obtain ⟨_, _, hcruise⟩ := hplan _ (hmem h List.mem_cons_self)
      exact ⟨_, rfl, hlo, hhi, hcruise⟩

theorem Travel.room_le (t : Travel) (edges : List Nat) : t.room edges ≤ t.stopAt := by
  unfold Travel.room
  split
  · exact Nat.le_refl _
  · exact Nat.min_le_right _ _

/-! ### The advance -/

/-- An advance moves x by no more than the room ahead. -/
theorem advance_x (sp : Span) (u room : Nat) :
    ∃ d : Nat, d ≤ room ∧ (advance sp u room).1.x = sp.x + dirInt sp.dir * d := by
  simp only [advance]
  split
  · exact ⟨_, Nat.le_of_lt ‹_›, rfl⟩
  · exact ⟨_, Nat.le_refl _, rfl⟩

/-- A move of no more than the distance ahead of a target in the envelope stays in the envelope. -/
theorem moved_within {lo hi x t : Int} {dir : Dir} {d : Nat} (hx : lo ≤ x ∧ x ≤ hi) (ht : lo ≤ t ∧ t ≤ hi)
    (hd : d ≤ ahead dir x t) : lo ≤ x + dirInt dir * d ∧ x + dirInt dir * d ≤ hi := by
  cases dir <;> simp only [ahead, dirInt] at * <;> omega

/-- An advance changes x, v and r alone, v to the speed chosen or, where it snaps, to 0. -/
theorem advance_eq (sp : Span) (u room : Nat) : (advance sp u room).1 =
    { sp with x := (advance sp u room).1.x, v := (advance sp u room).1.v, r := (advance sp u room).1.r } := by
  simp only [advance]
  split <;> rfl

theorem advance_v_le (sp : Span) (u room : Nat) : (advance sp u room).1.v ≤ u := by
  simp only [advance]
  split
  · exact Nat.le_refl _
  · exact Nat.zero_le _

/-- The reference stays within its limits over an advance towards a target in the envelope at a speed within Vmax. -/
theorem advance_within {sc : SpanConfig} {sp : Span} (hw : referenceWithin sc sp) {u room : Nat} (hu : u ≤ sc.vmax)
    {target : Int} (ht : sc.xmin ≤ target ∧ target ≤ sc.xmax) (hroom : room ≤ ahead sp.dir sp.x target) :
    referenceWithin sc (advance sp u room).1 := by
  obtain ⟨hlo, hhi, _, hrest⟩ := hw
  obtain ⟨d, hd, hx⟩ := advance_x sp u room
  have hin := moved_within ⟨hlo, hhi⟩ ht (Nat.le_trans hd hroom)
  rw [← hx] at hin
  rw [advance_eq]
  exact ⟨hin.1, hin.2, Nat.le_trans (advance_v_le sp u room) hu, hrest⟩

/-! ### Retirements and the ends of runs -/

theorem SpanKeeps.retired {a : Span} (hc : a.state ≠ .unconfigured) (segs : List Segment) (endsRun : Bool) :
    SpanKeeps env i a (a.retired segs endsRun) := by
  unfold Span.retired
  split
  · exact .refl a
  · refine .reference hc (fun _ ⟨hlo, hhi, hv, hover, hplan, hjog⟩ =>
      ⟨hlo, hhi, hv, hover, fun g hg => hplan g (List.mem_of_mem_drop hg), hjog⟩) (by exact id) (fun h => ?_) (by rfl)
    simp only [List.length_drop]
    omega

theorem reportRetired_keeps (i : Slot) (segs : List Segment) (p : Plant) :
    PlantKeeps env p (reportRetired env i segs p) := .reports _

theorem retireReached_keeps (hc : (p.span i).state ≠ .unconfigured) (chain gone : List Segment) :
    PlantKeeps env p (retireReached env i chain gone p).1 := by
  simp only [retireReached, retire]
  exact (PlantKeeps.setSpan (.retired hc _ _)).trans (reportRetired_keeps i _ _)

theorem starve_keeps (hc : (p.span i).state ≠ .unconfigured) : PlantKeeps env p (starve env i p) := by
  simp only [starve]
  exact .thenReport (.setSpan (.of_configured hc (by rfl))) _

theorem endRun_keeps (hc : (p.span i).state ≠ .unconfigured) (last : Segment) :
    PlantKeeps env p (endRun env i last p) := by
  simp only [endRun]
  refine .ite (PlantKeeps.thenEnd (.ite (.refl p) (starve_keeps hc)) _ hc) (.setSpan ?_)
  exact .reference hc (fun _ ⟨hlo, hhi, _, hrest⟩ => ⟨hlo, hhi, Nat.zero_le _, hrest⟩) (fun _ _ _ => rfl)
    (by exact id) (by rfl)

theorem retireEqual_keeps (hc : (p.span i).state ≠ .unconfigured) : PlantKeeps env p (retireEqual i p) :=
  .setSpan (.retired hc _ _)

theorem startRun_keeps (hc : (p.span i).state ≠ .unconfigured) : PlantKeeps env p (startRun env i p) := by
  have hretire := retireEqual_keeps (env := env) hc
  have hc' := hretire.configured hc
  simp only [startRun]
  split
  · have hreport := hretire.trans (reportRetired_keeps i (p.span i).headsAtX _)
    exact hreport.trans (endRun_keeps (hreport.configured hc) _)
  · exact hretire
  · exact hretire.thenSet (.of_configured hc' (by rfl))

/-- A test started leaves no run in progress. -/
theorem tryTest_running (h : (p.span i).running = false) : ((tryTest env i p).span i).running = false := by
  unfold tryTest startTest
  split
  · rw [changeState_span]
    simp [Span.enter, generatorRuns]
  · exact h

/-- An entry into an end state leaves no run in progress. -/
theorem enterEnd_running (e : EndState) : ((enterEnd env i e p).span i).running = false := by
  refine tryTest_running ?_
  rw [changeState_span]
  cases e <;> simp [Span.enter, generatorRuns, endSpanState]

theorem endRun_running (last : Segment) : ((endRun env i last p).span i).running = false := by
  simp only [endRun]
  split
  · exact enterEnd_running _
  · rw [Plant.span_setSpan]
    rfl

theorem retired_state (sp : Span) (segs : List Segment) (endsRun : Bool) : (sp.retired segs endsRun).state = sp.state := by
  unfold Span.retired
  split <;> rfl

/-- A span in MOVING in which a run is in progress after the start of one is MOVING still (R42). -/
theorem startRun_moving (hstate : (p.span i).state = .moving) (hrun : ((startRun env i p).span i).running = true) :
    ((startRun env i p).span i).state = .moving := by
  have hretire : ((retireEqual i p).span i).state = .moving := by
    simp only [retireEqual, Plant.span_setSpan, retired_state, hstate]
  simp only [startRun] at hrun ⊢
  split at hrun
  · rw [endRun_running] at hrun
    cases hrun
  · simp only [hretire]
  · simp only [Plant.span_setSpan, hretire]

/-! ### The generator's step -/

theorem afterAdvance_keeps (hc : (p.span i).state ≠ .unconfigured) (chain gone : List Segment) (atStop : Bool) :
    PlantKeeps env p (afterAdvance env i chain gone atStop p) := by
  have hretire := retireReached_keeps (env := env) hc chain gone
  simp only [afterAdvance]
  refine .ite (.ite (takeStop_keeps _ _) (.refl p)) ?_
  split
  · exact hretire.trans (endRun_keeps (hretire.configured hc) _)
  · exact hretire

theorem travelStep_keeps (hstate : (p.span i).state = .moving) (gone : List Segment) :
    PlantKeeps env p (travelStep env i gone p) := by
  have hc : (p.span i).state ≠ .unconfigured := by rw [hstate]; decide
  simp only [travelStep]
  split
  · exact reportRetired_keeps i gone p
  · rename_i t ht
    refine PlantKeeps.trans (.setSpan ?_) (afterAdvance_keeps ?_ _ _ _)
    · refine .reference hc (fun _ hw => ?_) (fun _ hm => absurd ?_ hm) ?_ ?_
      · obtain ⟨target, hstop, hlo, hhi, hcruise⟩ := travel_within hw ht
        have hk : speedFactor env (env.span i) (p.span i) ≤ 100 := Nat.le_trans (speedFactor_le_override _ _) hw.2.2.2.1
        refine advance_within hw ?_ ⟨hlo, hhi⟩ (Nat.le_trans (Travel.room_le t _) (Nat.le_of_eq hstop))
        refine Nat.le_trans (creepFloor_le _ _ _ _) (Nat.max_le.2 ⟨Nat.le_trans (checkedSpeed_le _ _ _ _ _ _) (Nat.max_le.2 ⟨?_, ?_⟩), ?_⟩)
        · exact hw.2.2.1
        all_goals exact Nat.le_trans (effLimit_le hk _) hcruise
      · show (advance _ _ _).1.state = _
        rw [advance_eq]
        exact hstate
      · rw [advance_eq]
        exact id
      · rw [advance_eq]
    · rw [Plant.span_setSpan, advance_eq]
      exact hc

theorem movingStep_keeps (hstate : (p.span i).state = .moving) : PlantKeeps env p (movingStep env i p) := by
  have hc : (p.span i).state ≠ .unconfigured := by rw [hstate]; decide
  have hstart := startRun_keeps (env := env) hc
  simp only [movingStep]
  refine .ite (.refl p) (.ite (travelStep_keeps hstate _) ?_)
  split
  · exact hstart.trans (travelStep_keeps (startRun_moving hstate ‹_›) _)
  · exact hstart

/-- A stop other than SAFE leaves v free. -/
theorem speedRests_of_ramp {sp : Span} {r : StopRecord} (hstate : sp.state = .stopping) (hstop : sp.stop = some r)
    (hr : r.isSafe = false) : sp.speedRests := by
  rintro - (h | h)
  · exact absurd hstate h
  · have hkind : (r.kind == .safe) = false := hr
    simp [Span.inSafeStop, hstop, hkind] at h

/-- An advance of a ramp at no more than the present speed, towards some target in the envelope. -/
theorem SpanKeeps.ramped {sp : Span} {r : StopRecord} (hstate : sp.state = .stopping) (hstop : sp.stop = some r)
    (hr : r.isSafe = false) {u room : Nat} (hu : u ≤ sp.v) (hroom : referenceWithin (env.span i) sp → ∃ target,
      (env.span i).xmin ≤ target ∧ target ≤ (env.span i).xmax ∧ room ≤ ahead sp.dir sp.x target) :
    SpanKeeps env i sp (advance sp u room).1 := by
  have hc : sp.state ≠ .unconfigured := by rw [hstate]; decide
  refine .reference hc (fun _ hw => ?_) (fun _ => speedRests_of_ramp (r := r) ?_ ?_ hr) ?_ ?_
  · obtain ⟨target, hlo, hhi, hle⟩ := hroom hw
    exact advance_within hw (Nat.le_trans hu hw.2.2.1) ⟨hlo, hhi⟩ hle
  · rw [advance_eq]; exact hstate
  · rw [advance_eq]; exact hstop
  · rw [advance_eq]; exact id
  · rw [advance_eq]

theorem rampStep_keeps {r : StopRecord} (hstate : (p.span i).state = .stopping) (hstop : (p.span i).stop = some r)
    (hr : r.isSafe = false) : PlantKeeps env p (rampStep env i r p) := by
  have hc : (p.span i).state ≠ .unconfigured := by rw [hstate]; decide
  have hadvance : ∀ {u room}, u ≤ (p.span i).v → (referenceWithin (env.span i) (p.span i) → ∃ target,
      (env.span i).xmin ≤ target ∧ target ≤ (env.span i).xmax ∧
        room ≤ ahead (p.span i).dir (p.span i).x target) →
      PlantKeeps env p (p.setSpan i (advance (p.span i) u room).1) :=
    fun hu hroom => .setSpan (.ramped hstate hstop hr hu hroom)
  simp only [rampStep]
  refine .ite (PlantKeeps.thenEnd ?retired _ hc) ?retired
  refine .ite ?advanced (PlantKeeps.then ?advanced hc fun hq => retireReached_keeps hq _ _)
  refine hadvance (Nat.sub_le _ _) fun hw => ?_
  split
  · exact ⟨(p.span i).x, hw.1, hw.2.1, Nat.zero_le _⟩
  · obtain ⟨target, hstopAt, hlo, hhi, _⟩ := travel_within hw ‹_›
    exact ⟨target, hlo, hhi, Nat.le_trans (Travel.room_le _ _) (Nat.le_of_eq hstopAt)⟩

/-! ### The state machine -/

theorem lockingPeriod_keeps (hc : (p.span i).state ≠ .unconfigured) : PlantKeeps env p (lockingPeriod env i p) := by
  unfold lockingPeriod
  split
  · exact .ite (changeState_keeps_still none hc (by decide)) (.refl p)
  · exact .refl p

theorem unlockingPeriod_keeps (hc : (p.span i).state ≠ .unconfigured) : PlantKeeps env p (unlockingPeriod env i p) := by
  unfold unlockingPeriod
  split
  · exact .ite (PlantKeeps.thenEnd (.setSpan (.proof (by exact id))) _ hc) (.refl p)
  · exact .refl p

theorem spanStep_keeps (i : Slot) (p : Plant) : PlantKeeps env p (spanStep env i p) := by
  simp only [spanStep]
  split
  case h_1 | h_9 | h_11 => exact .refl p
  all_goals
    rename_i hstate
    have hc : (p.span i).state ≠ .unconfigured := by rw [hstate]; decide
  case h_2 | h_5 => exact tryTest_keeps hc
  case h_3 =>
    exact .ite (changeState_keeps none hc (by decide) fun _ hstill => absurd hstate hstill.1) (.refl p)
  case h_4 => exact movingStep_keeps hstate
  case h_6 =>
    split
    · exact .refl p
    · split
      · exact .ite (endSafeStop_keeps hc) (.refl p)
      · exact rampStep_keeps hstate ‹_› (Bool.eq_false_iff.2 ‹_›)
  case h_7 => exact testPeriod_keeps hc
  case h_8 => exact lockingPeriod_keeps hc
  case h_10 => exact unlockingPeriod_keeps hc

/-! ### The Clearance Table's turn and the whole of a period -/

theorem zonePeriod_keeps (i : Slot) (p : Plant) : PlantKeeps env p (zonePeriod env i p) := by
  have hgrant : ∀ (d : Side) (z : ZoneEntry) {q : ReportQueue}, q.queue.length ≤ Config.reportsMax →
      (z.grant env.time d q).2.queue.length ≤ Config.reportsMax := fun _ _ _ h => ReportQueue.push_length h _
  refine ⟨fun _ => .refl _, zoneSweep_out (fun z q hq => ?_) _⟩
  simp only [zoneTurn]
  split
  · exact hq
  · rename_i d _
    have hrelease : ∀ (b : Bool) (w : ZoneEntry), (w.release env.time d b q).2.queue.length ≤ Config.reportsMax := by
      intro b w
      simp only [ZoneEntry.release]
      split
      · split
        · exact hgrant _ _ (ReportQueue.push_length hq _)
        · exact ReportQueue.push_length hq _
      · exact hq
    simp only [ZoneEntry.request]
    split
    · exact hrelease _ _
    · split
      · split
        · exact hgrant _ _ (hrelease _ _)
        · exact hrelease _ _
      · exact hrelease _ _

theorem raiseStops_keeps (hc : (p.span i).state ≠ .unconfigured) : PlantKeeps env p (raiseStops env i p) :=
  .setSpan (.of_configured hc (by rfl))

theorem periodOf_keeps (hc : (p.span i).state ≠ .unconfigured) : PlantKeeps env p (periodOf env i p) := by
  have hstep := (measureSpan_keeps (env := env) hc).trans (spanStep_keeps i _)
  have hset := (hstep.then hc alignSpan_keeps).then hc (postSet_keeps (env := env))
  exact (hset.trans (zonePeriod_keeps i _)).then hc raiseStops_keeps

theorem takeRaised_keeps (hc : (p.span i).state ≠ .unconfigured) : PlantKeeps env p (takeRaised env i p) := by
  simp only [takeRaised]
  exact .trans (.setSpan (.of_configured hc (by rfl))) (takeStops_keeps _ _ _)

/-- A change of the period timer. -/
theorem SpanKeeps.periodTimer (a : Span) (t : Nat) : SpanKeeps env i a { a with periodT := t } :=
  .of_essence rfl fun _ hb => by rw [blankSpan] at hb ⊢; rw [hb]

theorem spanPeriodOf_keeps (i : Slot) (p : Plant) : PlantKeeps env p (spanPeriodOf env i p) := by
  have htimer : PlantKeeps env p (p.setSpan i { p.span i with periodT := Config.periodMs }) :=
    .setSpan (.periodTimer _ _)
  simp only [spanPeriodOf]
  split
  · exact htimer
  · rename_i hstate
    have hc : (p.span i).state ≠ .unconfigured := by simpa using hstate
    exact (htimer.then hc takeRaised_keeps).then hc periodOf_keeps

end

end Sys2Proof.Machine
end

