-- ==== Sys2Proof/Proofs/EventsKeep.lean ====
section
/-! PROOFS. What the events of the plant keep: timer expiries, the bogie link's transactions, the operator station's stops,
and the gate's. -/

namespace Sys2Proof.Machine
open Safety

section
variable {env : Env} {i : Slot} {p : Plant}

/-! ### Changes that leave a blank span blank -/

/-- A blank span with a field set to the value it holds is blank. -/
theorem SpanKeeps.of_blank {a b : Span} (he : b.essence = a.essence) (h : blankSpan a → b = a) : SpanKeeps env i a b :=
  .of_essence he fun _ hb => (h hb).symm ▸ hb

theorem clearWindHold_keeps (i : Slot) (p : Plant) : PlantKeeps env p (clearWindHold i p) := by
  refine .setSpan (.of_blank (by rfl) fun hb => ?_)
  rw [blankSpan] at hb
  rw [hb]
  rfl

/-- A span's lock record is part of a lock operation. -/
theorem SpanKeeps.lock {a : Span} {l m : LockRecord} (hl : a.lock = some l) :
    SpanKeeps env i a { a with lock := some m } := by
  refine .of_blank (by rfl) fun hb => ?_
  rw [blankSpan] at hb
  rw [hb] at hl
  cases hl

theorem resetOverrides_keeps (p : Plant) : PlantKeeps env p (resetOverrides p) := by
  refine ⟨fun i => ?_, id⟩
  have hspan : (resetOverrides p).span i = { p.span i with override := 100 } := by
    simp [resetOverrides, Plant.span]
  rw [hspan]
  refine ⟨.rfl, fun _ hb => ?_, fun _ h => h, id, id, id, fun _ _ ⟨hlo, hhi, hv, _, hrest⟩ => ⟨hlo, hhi, hv, Nat.le_refl _, hrest⟩⟩
  rw [blankSpan] at hb ⊢
  rw [hb]
  rfl

/-! ### Timer expiries and stops -/

theorem stopTakenBy_keeps (i : Slot) (req : StopRequest) (p : Plant) : PlantKeeps env p (stopTakenBy env i req p) := by
  unfold stopTakenBy
  refine .trans (.setSpan (.of_blank (by rfl) fun hb => ?_)) (takeStop_keeps _ _)
  rw [blankSpan] at hb
  rw [hb]
  rfl

theorem dwellExpired_keeps (i : Slot) (p : Plant) : PlantKeeps env p (dwellExpired i p) := by
  refine .setSpan (.of_blank (by rfl) fun hb => ?_)
  rw [blankSpan] at hb
  rw [hb]
  rfl

/-- A state that a comparison has found is not UNCONFIGURED. -/
theorem configured_of_beq {st st' : SpanState} (h : (st == st') = true) (hne : st' ≠ .unconfigured) :
    st ≠ .unconfigured := by
  rw [beq_iff_eq] at h
  rw [h]
  exact hne

theorem holdExpired_keeps (i : Slot) (p : Plant) : PlantKeeps env p (holdExpired env i p) := by
  unfold holdExpired
  split
  · rename_i h
    rw [Bool.and_eq_true] at h
    exact enterEnd_keeps _ (configured_of_beq h.1 (by decide))
  · exact .refl p

theorem releaseExpired_keeps (i : Slot) (p : Plant) : PlantKeeps env p (releaseExpired env i p) := by
  unfold releaseExpired
  split
  · rename_i h
    rw [Bool.and_eq_true] at h
    have hc := configured_of_beq h.1 (by decide)
    exact ((endJog_keeps i p _).thenFault _ hc).thenFaulted hc
  · exact .refl p

theorem safeExpired_keeps (i : Slot) (p : Plant) : PlantKeeps env p (safeExpired env i p) := by
  unfold safeExpired
  split
  · rename_i h
    simp only [Bool.and_eq_true, Span.inSafeStop] at h
    exact endSafeStop_keeps (configured_of_beq h.1.1 (by decide))
  · exact .refl p

theorem forceProof_keeps (i : Slot) (p : Plant) : PlantKeeps env p (forceProof env i p) := by
  unfold forceProof
  split
  case h_5 => exact .refl p
  all_goals
    rename_i hstate
    have hc : (p.span i).state ≠ .unconfigured := by rw [hstate]; decide
  case h_4 => exact tryForced_keeps hc
  all_goals exact (takeStop_keeps _ _).then hc tryForced_keeps

theorem intervalExpired_keeps (i : Slot) (p : Plant) : PlantKeeps env p (intervalExpired env i p) := by
  have hexpire : PlantKeeps env p
      (p.setSpan i { p.span i with proof := (p.span i).proof.expire (env.span i).tProof }) := by
    refine .setSpan (.proof fun ⟨hlo, hhi⟩ => ?_)
    unfold ProofState.expire
    split
    · simp only [Config.owedMin, Config.owedMax] at *; omega
    · exact ⟨hlo, hhi⟩
  simp only [intervalExpired]
  exact .ite (.ite hexpire (hexpire.trans (forceProof_keeps i _))) (.refl p)

theorem brakeSetExpired_keeps (i : Slot) (p : Plant) : PlantKeeps env p (brakeSetExpired env i p) := by
  unfold brakeSetExpired
  split
  · rename_i hstate _
    have hc : (p.span i).state ≠ .unconfigured := by rw [hstate]; decide
    split
    · exact (abandonTest_keeps i p _).thenEnd _ hc
    · exact .refl p
  · exact .refl p

theorem holdPhaseExpired_keeps (i : Slot) (p : Plant) : PlantKeeps env p (holdPhaseExpired env i p) := by
  unfold holdPhaseExpired
  split
  · rename_i hstate _
    have hc : (p.span i).state ≠ .unconfigured := by rw [hstate]; decide
    split
    · exact .refl p
    · exact holdEnd_keeps _ hc
  · exact .refl p

theorem lockTimeout_keeps (i : Slot) (p : Plant) : PlantKeeps env p (lockTimeout env i p) := by
  simp only [lockTimeout]
  split
  · rename_i h
    rw [Bool.and_eq_true, Bool.or_eq_true] at h
    have hc : (p.span i).state ≠ .unconfigured := h.1.elim (configured_of_beq · (by decide)) (configured_of_beq · (by decide))
    exact (registerFault_keeps _ hc).thenFaulted hc
  · exact .refl p

theorem waitExpired_keeps (entry : Nat) (d : Side) (p : Plant) : PlantKeeps env p (waitExpired env entry d p) := by
  refine ⟨fun _ => .refl _, zoneSweep_out (fun z q hq => ?_) _⟩
  simp only [ZoneEntry.waitExpired]
  split
  · split
    · exact ReportQueue.push_length hq _
    · exact hq
  · exact hq

/-! ### The bogie link -/

theorem popTxn_keeps (p : Plant) : PlantKeeps env p (popTxn p) := .of_spans (by rfl)

theorem broadcastEnd_keeps (p : Plant) : PlantKeeps env p (broadcastEnd p) := by
  unfold broadcastEnd
  split
  · exact .of_spans (by rfl)
  · exact .refl p

theorem writeEnd_keeps (w : Option LinkWord) (p : Plant) : PlantKeeps env p (writeEnd env w p) := by
  simp only [writeEnd]
  split
  · exact PlantKeeps.trans (.ite (.report _) (.refl p)) (popTxn_keeps _)
  · exact .refl p

theorem markSent_keeps (i : Slot) (cmd : LockCmd) (p : Plant) : PlantKeeps env p (markSent i cmd p) := by
  simp only [markSent]
  split
  · exact .ite (.setSpan (.lock ‹_›)) (.refl p)
  · exact .refl p

theorem lockEnd_keeps (p : Plant) : PlantKeeps env p (lockEnd p) := by
  unfold lockEnd
  split
  · exact PlantKeeps.trans (.ite (markSent_keeps _ _ p) (.refl p)) (popTxn_keeps _)
  · exact .refl p

theorem judgeWindow_keeps (addr : Nat) (good : Bool) (p : Plant) : PlantKeeps env p (judgeWindow env addr good p) := by
  simp only [judgeWindow]
  split
  · exact .refl p
  · exact PlantKeeps.trans (.of_spans (by rfl)) (.reports _)

theorem storeReply_keeps (addr : Nat) (r : LastReply) (p : Plant) : PlantKeeps env p (storeReply addr r p) := by
  simp only [storeReply]
  split
  · exact .refl p
  · split
    · exact .thenIf (.of_spans (by rfl)) (.setSpan (.lock ‹_›))
    · exact .of_spans (by rfl)

theorem pollEnd_keeps (w0 w1 w2 w3 : Option LinkWord) (p : Plant) : PlantKeeps env p (pollEnd env w0 w1 w2 w3 p) := by
  unfold pollEnd pollClosed
  split
  · refine PlantKeeps.trans (.ite ?_ (.refl p)) (popTxn_keeps _)
    split
    · exact .refl p
    · split
      · exact (storeReply_keeps _ _ p).trans (judgeWindow_keeps _ _ _)
      · exact judgeWindow_keeps _ _ p
  · exact .refl p

theorem ackEnd_keeps (w : Option LinkWord) (p : Plant) : PlantKeeps env p (ackEnd env w p) := by
  simp only [ackEnd]
  split
  · have hwindow : ∀ (c : Bool) (addr : Nat) (good : Bool),
        PlantKeeps env p (if c = true then judgeWindow env addr good p else p) :=
      fun _ _ _ => .ite (judgeWindow_keeps _ _ p) (.refl p)
    split
    · exact (hwindow _ _ _).trans (popTxn_keeps _)
    · exact (hwindow _ _ _).trans (.of_spans (by rfl))
  · exact .refl p

/-- A set taken from the mailbox of a span that has left UNCONFIGURED (R97). -/
theorem SpanKeeps.takeSet (a : Span) : SpanKeeps env i a a.takeSet := by
  unfold Span.takeSet
  split
  · split
    · exact .refl a
    · exact .of_configured (by simpa using ‹¬(a.state == .unconfigured) = true›) (by rfl)
  · exact .refl a

theorem startCycle_keeps (prev : Option TxnMark) (p : Plant) : PlantKeeps env p (startCycle env prev p) := by
  simp only [startCycle]
  refine PlantKeeps.trans (PlantKeeps.trans (.of_spans (by rfl)) (.reports _)) ⟨fun i => ?_, id⟩
  rw [Plant.span, Plant.span, Quad.get_map]
  exact .takeSet _

theorem cycleStart_keeps (p : Plant) : PlantKeeps env p (cycleStart env p) := by
  unfold cycleStart
  split
  · exact .ite (startCycle_keeps _ p) (PlantKeeps.trans (.of_spans (by rfl)) (startCycle_keeps _ _))
  · exact .of_spans (by rfl)

/-! ### Lock operations -/

theorem queueLock_keeps (i : Slot) (cmd : LockCmd) (p : Plant) : PlantKeeps env p (queueLock env i cmd p) := by
  simp only [queueLock]
  split
  · exact .of_spans (by rfl)
  · exact PlantKeeps.trans (.of_spans (by rfl)) (.reports _)

theorem startLock_keeps (cmd : LockCmd) {new : SpanState} (hc : (p.span i).state ≠ .unconfigured)
    (hnew : new = .locking ∨ new = .unlocking) : PlantKeeps env p (startLock env i cmd new p) := by
  have hchange : PlantKeeps env p (changeState env i new none p) := by
    rcases hnew with rfl | rfl <;> exact changeState_keeps_still none hc (by decide)
  simp only [startLock]
  exact (hchange.then hc fun hc' => .setSpan (.of_configured hc' (by rfl))).trans (queueLock_keeps i cmd _)

/-! ### The operator station, FAILSAFE and the gate -/

theorem stopJog_keeps (why : JogEnd) (p : Plant) : PlantKeeps env p (stopJog why env p) := by
  unfold stopJog
  split
  · exact takeStop_keeps _ _
  · exact .refl p

theorem holdSpan_keeps (i : Slot) (p : Plant) : PlantKeeps env p (holdSpan env i p) :=
  .ite (takeStop_keeps _ _) (.refl p)

theorem localSpan_keeps (i : Slot) (p : Plant) : PlantKeeps env p (localSpan env i p) :=
  .ite (takeStop_keeps _ _) (.refl p)

theorem stopEverySpan_keeps (r : FailsafeReason) (p : Plant) : PlantKeeps env p (stopEverySpan r env p) :=
  .eachSlot (fun _ _ => takeStop_keeps _ _) p

theorem resumeSpans_keeps (p : Plant) : PlantKeeps env p (resumeSpans env p) := by
  simp only [resumeSpans]
  refine PlantKeeps.trans (.eachSlot (fun i p => clearWindHold_keeps i p) p) (.eachSlot (fun i p => ?_) _)
  exact .ite autoResume_keeps (.refl p)

theorem holdForWind_keeps (i : Slot) (p : Plant) : PlantKeeps env p (holdForWind env i p) := by
  simp only [holdForWind]
  split
  · rename_i h
    rw [Bool.or_eq_true] at h
    have hc : (p.span i).state ≠ .unconfigured := h.elim (configured_of_beq · (by decide)) (configured_of_beq · (by decide))
    exact .trans (.setSpan (.of_configured hc (by rfl))) (takeStop_keeps _ _)
  · exact .refl p

/-- A test started leaves no span in motion. -/
theorem tryTest_still (h : (p.span i).still) : ((tryTest env i p).span i).still := by
  unfold tryTest startTest
  split
  · rw [Span.still, changeState_state]
    decide
  · exact h

/-- An entry into an end state leaves no span in motion. -/
theorem enterEnd_still (e : EndState) : ((enterEnd env i e p).span i).still := by
  refine tryTest_still ?_
  rw [Span.still, changeState_state]
  exact (endSpanState_rests e).2

/-- A span the wind holds is in no state of motion (R148). -/
theorem holdForWind_still (env : Env) (i : Slot) (p : Plant) : ((holdForWind env i p).span i).still := by
  simp only [holdForWind]
  split
  · rename_i h
    rw [Bool.or_eq_true, beq_iff_eq, beq_iff_eq] at h
    simp only [takeStop, Plant.span_setSpan]
    rcases h with h | h
    · rw [h]
      exact enterEnd_still _
    · rw [h]
      simp only [stopMoving]
      split
      · exact enterEnd_still _
      · rw [Span.still, changeState_state]
        decide
  · rename_i h
    simpa [Span.still] using h

theorem holdForWind_span_ne (env : Env) {i j : Slot} (h : j ≠ i) (p : Plant) :
    (holdForWind env i p).span j = p.span j := by
  simp only [holdForWind]
  split
  · rw [takeStop_span_ne h, Plant.span_setSpan_ne p h]
  · rfl

/-- After the gate's stops no span is in a state of motion (R148). -/
theorem eachSlot_holdForWind_still (env : Env) (p : Plant) (i : Slot) :
    ((eachSlot (holdForWind env) p).span i).still :=
  eachSlot_span (R := fun _ b => b.still) (fun p h => holdForWind_span_ne env h p) (fun i p => holdForWind_still env i p) p i

end

end Sys2Proof.Machine
end

