-- ==== Sys2Proof/Proofs/StateKeeps.lean ====
section
/-! PROOFS. What a change of the device keeps: the relation between two states that carries every invariant from the one to
the other, its cases for a change of the plant, for spans that become UNCONFIGURED, and for the end of acquisition. -/

namespace Sys2Proof.Machine
open Safety

/-- What every step keeps: the five invariants. -/
structure Keeps (s t : State) : Prop where
  unconfigured : unconfiguredHolds s → unconfiguredHolds t
  reference : unconfiguredHolds s → referenceHolds s → referenceHolds t
  wind : windHolds s → windHolds t
  speed : speedHolds s → speedHolds t
  owed : owedHolds s → owedHolds t
  queues : queuesHold s → queuesHold t

theorem Keeps.refl (s : State) : Keeps s s := ⟨id, fun _ h => h, id, id, id, id⟩

theorem Keeps.trans {s t u : State} (h : Keeps s t) (k : Keeps t u) : Keeps s u where
  unconfigured hs := k.unconfigured (h.unconfigured hs)
  reference hu hs := k.reference (h.unconfigured hu) (h.reference hu hs)
  wind hs := k.wind (h.wind hs)
  speed hs := k.speed (h.speed hs)
  owed hs := k.owed (h.owed hs)
  queues hs := k.queues (h.queues hs)

/-- The span settings of a slot in use. -/
theorem Env.span_of_some {env : Env} {i : Slot} {sc : SpanConfig} (h : env.cfg.spans.get i = some sc) : env.span i = sc := by
  simp [Env.span, h]

/-! ### A change of the plant -/

/-- A change of the plant that keeps its spans, with the gate's invariant kept by itself. -/
theorem Keeps.of_plant_wind {s t : State} {env : Env} (hplant : PlantKeeps env s.plant t.plant)
    (hwind : windHolds s → windHolds t) (hcfg : (env.cfg.spans, t.cfg.spans) = (s.cfg.spans, s.cfg.spans))
    (hmode : t.sup.mode = .init ∨ t.sup.mode = .acquiring → t.sup.mode = s.sup.mode)
    (hreq : s.cmd.requests.length ≤ Config.requestsMax → t.cmd.requests.length ≤ Config.requestsMax) : Keeps s t := by
  obtain ⟨henv, hcfg⟩ := Prod.mk.inj hcfg
  constructor
  case unconfigured =>
    intro hs i
    obtain ⟨hunconf, hblank⟩ := hs i
    refine ⟨fun h => (hplant.span i).configured.2 (hunconf ?_), fun h => ?_⟩
    · rcases h with h | h | h
      · exact .inl (hmode (.inl h) ▸ h)
      · exact .inr (.inl (hmode (.inr h) ▸ h))
      · exact .inr (.inr (hcfg ▸ h))
    · have hu := (hplant.span i).configured.1 h
      exact (hplant.span i).blank hu (hblank hu)
  case reference =>
    intro _ hs i sc hsc
    rw [hcfg] at hsc
    obtain ⟨hbounds, hwithin⟩ := hs i sc hsc
    have hspan : env.span i = sc := Env.span_of_some (henv ▸ hsc)
    have hconf : (t.plant.span i).state ≠ .unconfigured → (s.plant.span i).state ≠ .unconfigured :=
      fun h hu => h ((hplant.span i).configured.2 hu)
    refine ⟨fun h => hbounds (h.imp (fun h => hmode (.inr h) ▸ h) hconf), fun h => ?_⟩
    have hw := (hplant.span i).within (hspan.symm ▸ hbounds (.inr (hconf h))) (hconf h)
    rw [hspan] at hw
    exact hw (hwithin (hconf h))
  case wind => exact hwind
  case speed => exact fun hs i => (hplant.span i).speed (hs i)
  case owed => exact fun hs i => (hplant.span i).owed (hs i)
  case queues => exact fun hs => ⟨hreq hs.1, hplant.out hs.2.1, fun i => (hplant.span i).plan (hs.2.2 i)⟩

/-- What the invariants read of a state beside its plant. -/
def State.beside (s : State) : Quad (Option SpanConfig) × GateState × Mode × List ReqFrame :=
  (s.cfg.spans, s.wind.gate, s.sup.mode, s.cmd.requests)

/-- A change of the plant that keeps its spans. -/
theorem Keeps.of_plant {s t : State} (hplant : PlantKeeps s.env s.plant t.plant) (hsame : t.beside = s.beside) :
    Keeps s t := by
  simp only [State.beside, Prod.mk.injEq] at hsame
  obtain ⟨hcfg, hgate, hmode, hreq⟩ := hsame
  refine .of_plant_wind hplant (fun hs hshut i => ?_) (by rw [hcfg]; rfl) (fun _ => hmode) (hreq ▸ id)
  rw [hgate] at hshut
  exact (hplant.span i).still hshut (hs hshut i)

/-- A change of none of what the invariants read. -/
theorem Keeps.of_same {s t : State} (h : (t.plant, t.beside) = (s.plant, s.beside)) : Keeps s t := by
  obtain ⟨hplant, hsame⟩ := Prod.mk.inj h
  exact .of_plant (hplant ▸ .refl _) hsame

theorem Keeps.report (r : Report) (s : State) : Keeps s (s.report r) := .of_plant (.report r) (by rfl)

theorem Keeps.onPlant {s : State} {f : Env → Plant → Plant} (h : PlantKeeps s.env s.plant (f s.env s.plant)) :
    Keeps s (s.onPlant f) := .of_plant h (by rfl)

/-! ### Spans that become UNCONFIGURED -/

/-- Every span blank in UNCONFIGURED, in a mode other than ACQUIRING. -/
theorem Keeps.of_unconfigured {s t : State} (hspan : ∀ i, (t.plant.span i).state = .unconfigured ∧ blankSpan (t.plant.span i))
    (howed : ∀ i, (s.plant.span i).owedInBounds → (t.plant.span i).owedInBounds) (hmode : t.sup.mode ≠ .acquiring)
    (hout : s.plant.out.queue.length ≤ Config.reportsMax → t.plant.out.queue.length ≤ Config.reportsMax)
    (hreq : s.cmd.requests.length ≤ Config.requestsMax → t.cmd.requests.length ≤ Config.requestsMax) : Keeps s t where
  unconfigured _ i := ⟨fun _ => (hspan i).1, fun _ => (hspan i).2⟩
  reference _ _ i _ _ := ⟨fun h => h.elim (absurd · hmode) (absurd (hspan i).1), absurd (hspan i).1⟩
  wind _ _ i := by rw [(hspan i).1]; decide
  speed _ i _ _ := by
    have hb := (hspan i).2
    rw [blankSpan] at hb
    rw [hb]
    rfl
  owed hs i := howed i (hs i)
  queues hs := ⟨hreq hs.1, hout hs.2.1, fun i => by
    have hb := (hspan i).2
    rw [blankSpan] at hb
    rw [hb]
    exact Nat.zero_le _⟩

theorem unconfigureSpan_span_ne {i j : Slot} (p : Plant) (h : j ≠ i) : (unconfigureSpan i p).span j = p.span j :=
  Plant.span_setSpan_ne _ h _

theorem unconfigureSpan_span (i : Slot) (p : Plant) : (unconfigureSpan i p).span i = (p.span i).unconfigured :=
  Plant.span_setSpan _ _ _

/-- Every span taken into UNCONFIGURED. -/
theorem eachSlot_unconfigureSpan_span (p : Plant) (i : Slot) :
    (eachSlot unconfigureSpan p).span i = (p.span i).unconfigured :=
  eachSlot_span (R := fun a b => b = a.unconfigured) unconfigureSpan_span_ne unconfigureSpan_span p i

theorem eachSlot_unconfigureSpan_out (p : Plant) : (eachSlot unconfigureSpan p).out = p.out := rfl

/-- A span taken into UNCONFIGURED holds its reset values. -/
theorem Span.unconfigured_blank (sp : Span) : blankSpan sp.unconfigured := rfl

theorem softReset_keeps (s : State) : Keeps s (softReset s) := by
  have hspan : ∀ i, (softReset s).plant.span i = (s.plant.span i).unconfigured :=
    fun i => eachSlot_unconfigureSpan_span s.plant i
  refine .of_unconfigured (fun i => ?_) (fun i h => ?_) (fun h => nomatch h)
    (fun _ => ReportQueue.push_length (Nat.zero_le _) _) id
  · rw [hspan]; exact ⟨rfl, Span.unconfigured_blank _⟩
  · rw [hspan]; exact h

theorem hardReset_keeps (cause : InitCause) (s : State) : Keeps s (hardReset cause s) := by
  have hspan : ∀ i, (hardReset cause s).plant.span i = Span.powerOn := fun i => by
    simp [hardReset, State.report, Plant.powerOn, Plant.span]
  refine .of_unconfigured (fun i => ?_) (fun i _ => ?_) (fun h => nomatch h)
    (fun _ => ReportQueue.push_length (Nat.zero_le _) _) (fun _ => Nat.zero_le _)
  · rw [hspan]; exact ⟨rfl, rfl⟩
  · rw [hspan]; exact ⟨by decide, by decide⟩

/-! ### FAILSAFE, READY and INIT -/

theorem enterFailsafe_keeps (r : FailsafeReason) (s : State) : Keeps s (enterFailsafe r s) := by
  have hplant : PlantKeeps { s.env with mode := .failsafe } s.plant (enterFailsafe r s).plant := by
    rw [enterFailsafe_plant]
    exact (PlantKeeps.trans (.report _) (.eachSlot (fun i p => clearWindHold_keeps i p) _)).trans (stopEverySpan_keeps r _)
  exact .of_plant_wind hplant (fun hs hshut i => (hplant.span i).still hshut (hs hshut i)) rfl (fun h => nomatch h) id

theorem joinFailsafe_keeps (r : FailsafeReason) (s : State) : Keeps s (joinFailsafe r s) := by
  simp only [joinFailsafe]
  split
  · split
    · exact (Keeps.of_plant (.report _) (by rfl)).trans (.onPlant (stopEverySpan_keeps r _))
    · exact .onPlant (stopEverySpan_keeps r _)
  · exact .onPlant (stopEverySpan_keeps r _)

theorem raiseFailsafe_keeps (r : FailsafeReason) (s : State) : Keeps s (raiseFailsafe r s) := by
  unfold raiseFailsafe
  split
  · exact joinFailsafe_keeps r s
  · exact enterFailsafe_keeps r s

theorem estopAction_keeps (s : State) : Keeps s (estopAction s) := (Keeps.report _ s).trans (raiseFailsafe_keeps _ _)

theorem estopAtReset_keeps (s : State) : Keeps s (estopAtReset s) := by
  unfold estopAtReset
  split
  · exact estopAction_keeps s
  · exact .refl s

theorem badKeepalive_keeps (s : State) : Keeps s (badKeepalive s) := by
  simp only [badKeepalive, countError]
  split
  · exact Keeps.trans (.of_same (by rfl)) (raiseFailsafe_keeps _ _)
  · exact .of_same (by rfl)

theorem enterReady_keeps (s : State) : Keeps s (enterReady s) :=
  .of_plant_wind (env := s.env) ((resetOverrides_keeps s.plant).thenReport _)
    (fun hs hshut i => (((resetOverrides_keeps (env := s.env) s.plant).thenReport _).span i).still hshut (hs hshut i)) rfl
    (fun h => nomatch h) id

theorem returnFromFailsafe_keeps (s : State) : Keeps s (returnFromFailsafe s) := by
  have hinit : ∀ u : State, u.plant = s.plant → u.cmd = s.cmd →
      Keeps s (State.report (.mode .init (.cause .clearFailsafe) u.time)
        { u with sup := u.sup.toInit, plant := eachSlot unconfigureSpan u.plant }) := by
    intro u hu hcmd
    have hspan : ∀ i, (eachSlot unconfigureSpan u.plant).span i = (s.plant.span i).unconfigured :=
      fun i => by rw [eachSlot_unconfigureSpan_span, hu]
    refine .of_unconfigured (fun i => ?_) (fun i h => ?_) (fun h => nomatch h) (fun h => ?_) ?_
    · show (Plant.span (eachSlot unconfigureSpan u.plant) i).state = _ ∧ blankSpan (Plant.span (eachSlot unconfigureSpan u.plant) i)
      rw [hspan]; exact ⟨rfl, Span.unconfigured_blank _⟩
    · show (Plant.span (eachSlot unconfigureSpan u.plant) i).owedInBounds
      rw [hspan]; exact h
    · refine ReportQueue.push_length ?_ _
      rw [eachSlot_unconfigureSpan_out, hu]; exact h
    · show _ → u.cmd.requests.length ≤ _
      rw [hcmd]; exact id
  simp only [returnFromFailsafe]
  have hready := Keeps.trans (s := s) (.of_same (by rfl)) (enterReady_keeps { s with sup := { s.sup with record := none } })
  have hinit := hinit { s with sup := { s.sup with record := none } } rfl rfl
  split
  · split
    · exact hready
    · exact hinit
  · exact hinit

/-! ### The end of acquisition -/

/-- What the end of acquisition keeps of a span: it may take a span in use out of UNCONFIGURED, with its reference within its
limits. -/
structure SpanBegins (env : Env) (i : Slot) (a b : Span) : Prop where
  absent : env.cfg.spans.get i = none → a.state = .unconfigured → b.state = .unconfigured
  blank : (a.state = .unconfigured → blankSpan a) → b.state = .unconfigured → blankSpan b
  still : env.gate.shut = true → a.still → b.still
  speed : a.speedRests → b.speedRests
  owed : a.owedInBounds → b.owedInBounds
  plan : a.plan.length ≤ Config.planMax → b.plan.length ≤ Config.planMax
  within : boundsReference (env.span i) → (a.state = .unconfigured → blankSpan a) →
    (a.state ≠ .unconfigured → referenceWithin (env.span i) a) → b.state ≠ .unconfigured → referenceWithin (env.span i) b

/-- The end of acquisition on the plant. -/
structure PlantBegins (env : Env) (p q : Plant) : Prop where
  span : ∀ i, SpanBegins env i (p.span i) (q.span i)
  out : p.out.queue.length ≤ Config.reportsMax → q.out.queue.length ≤ Config.reportsMax

section
variable {env : Env} {i : Slot} {a b c : Span} {p q r : Plant}

theorem SpanBegins.trans (h : SpanBegins env i a b) (k : SpanBegins env i b c) : SpanBegins env i a c where
  absent hn hu := k.absent hn (h.absent hn hu)
  blank hb := k.blank (h.blank hb)
  still hg hs := k.still hg (h.still hg hs)
  speed hs := k.speed (h.speed hs)
  owed ho := k.owed (h.owed ho)
  plan hp := k.plan (h.plan hp)
  within hb hblank hw := k.within hb (h.blank hblank) (h.within hb hblank hw)

theorem SpanKeeps.begins (h : SpanKeeps env i a b) : SpanBegins env i a b where
  absent _ := h.configured.2
  blank hb hu := h.blank (h.configured.1 hu) (hb (h.configured.1 hu))
  still := h.still
  speed := h.speed
  owed := h.owed
  plan := h.plan
  within hb _ hw hc := by
    have hc' : a.state ≠ .unconfigured := fun hu => hc (h.configured.2 hu)
    exact h.within hb hc' (hw hc')

theorem PlantBegins.trans (h : PlantBegins env p q) (k : PlantBegins env q r) : PlantBegins env p r :=
  ⟨fun i => (h.span i).trans (k.span i), fun ho => k.out (h.out ho)⟩

theorem PlantKeeps.begins (h : PlantKeeps env p q) : PlantBegins env p q := ⟨fun i => (h.span i).begins, h.out⟩

theorem PlantBegins.setSpan {sp : Span} (h : SpanBegins env i (p.span i) sp) : PlantBegins env p (p.setSpan i sp) := by
  refine ⟨fun j => ?_, id⟩
  by_cases hj : j = i
  · subst hj; rw [Plant.span_setSpan]; exact h
  · rw [Plant.span_setSpan_ne p hj]; exact (SpanKeeps.refl _).begins

theorem PlantBegins.eachSlot {f : Slot → Plant → Plant} (hf : ∀ i p, PlantBegins env p (f i p)) (p : Plant) :
    PlantBegins env p (eachSlot f p) := eachSlot_keeps (fun i _ h => h.trans (hf i _)) (PlantKeeps.refl p).begins

/-- The states a span in use may begin in (R162). -/
def firstStates : List SpanState := [.resting, .locked, .faulted]

/-- A span that begins at rest in one of its first states, with x in the envelope unless it has left UNCONFIGURED. -/
theorem SpanBegins.of_first (hin : (env.cfg.spans.get i).isSome = true ∨ a.state ≠ .unconfigured)
    (hnew : b.state ∈ firstStates) (hv : b.v = 0)
    (hx : boundsReference (env.span i) → (a.state ≠ .unconfigured → referenceWithin (env.span i) a) →
      (env.span i).xmin ≤ b.x ∧ b.x ≤ (env.span i).xmax)
    (hsame : (b.override, b.plan, b.jog, b.proof.owed) = (a.override, a.plan, a.jog, a.proof.owed)) :
    SpanBegins env i a b := by
  simp only [Prod.mk.injEq] at hsame
  obtain ⟨hover, hplan, hjog, howed⟩ := hsame
  have hb : b.state ≠ .unconfigured ∧ b.still := by
    simp only [firstStates, List.mem_cons, List.not_mem_nil, or_false] at hnew
    rcases hnew with h | h | h <;> simp [h, Span.still]
  refine ⟨fun hn hu => ?_, fun _ hu => absurd hu hb.1, fun _ _ => hb.2, fun _ _ _ => hv, ?_, by rw [hplan]; exact id,
    fun hbounds hblank hw _ => ?_⟩
  · rcases hin with h | h
    · rw [hn] at h; cases h
    · exact absurd hu h
  · simp only [Span.owedInBounds, howed]; exact id
  · obtain ⟨hlo, hhi⟩ := hx hbounds hw
    rw [referenceWithin, hv, hover, hplan, hjog]
    by_cases hu : a.state = .unconfigured
    · have hblank := hblank hu
      rw [blankSpan] at hblank
      rw [hblank]
      exact ⟨hlo, hhi, Nat.zero_le _, Nat.le_refl _, List.forall_mem_nil _, fun _ h => by cases h⟩
    · exact ⟨hlo, hhi, Nat.zero_le _, (hw hu).2.2.2⟩

/-- A cause noted in a span's fault record changes nothing else of it. -/
theorem Span.note_eq (time : Time) (c : FaultCause) (sp : Span) : sp.note time c = { sp with fault := (sp.note time c).fault } := by
  unfold Span.note
  split
  · rfl
  · split <;> rfl

/-- A cause noted under a condition. -/
theorem Span.noteIf_eq (time : Time) (c : FaultCause) (b : Bool) (sp : Span) :
    (if b = true then sp.note time c else sp) =
      { sp with fault := (if b = true then sp.note time c else sp).fault } := by
  split
  · exact Span.note_eq time c sp
  · rfl

/-- What the first state of a span makes of it, but for its fault record and measurement (R162). -/
theorem firstState_shape (i : Slot) (p : Plant) : ∃ new ∈ firstStates, ∃ m meas lastM fault,
    firstState env i p = p.setSpan i { p.span i with
      state := new, x := (env.span i).clampX m, v := 0, r := 0, dir := .pos, meas := meas, lastM := lastM,
      fault := fault, proof := { (p.span i).proof with run := (p.span i).proof.run.enter new } } := by
  obtain ⟨meas, lastM, hpos⟩ : ∃ meas lastM,
      formPositions env i p = p.setSpan i { p.span i with meas := meas, lastM := lastM } := ⟨_, _, rfl⟩
  simp only [firstState, hpos, Plant.span_setSpan, Plant.setSpan_setSpan]
  split
  · exact ⟨.locked, by decide, _, _, _, _, rfl⟩
  · rw [Span.noteIf_eq, Span.noteIf_eq]
    refine ⟨_, ?_, _, _, _, _, rfl⟩
    split <;> decide

theorem firstState_begins (i : Slot) (p : Plant) : PlantBegins env p (ifInUse env (firstState env) i p) := by
  unfold ifInUse
  split
  · rename_i hin
    obtain ⟨new, hnew, m, meas, lastM, fault, h⟩ := firstState_shape (env := env) i p
    rw [h]
    exact .setSpan (.of_first (.inl hin) hnew rfl (fun hb _ => SpanConfig.clampX_within hb.1 m) rfl)
  · exact (PlantKeeps.refl p).begins

theorem conflictSpan_begins (hc : (p.span i).state ≠ .unconfigured) :
    PlantBegins env p (conflictSpan env i p) ∧ ∀ j, (p.span j).state ≠ .unconfigured →
      ((conflictSpan env i p).span j).state ≠ .unconfigured := by
  constructor
  · refine .setSpan (.of_first (.inr hc) (by decide : SpanState.faulted ∈ firstStates) rfl (fun _ hw => ?_) ?_)
    · rw [Span.note_eq]
      exact ⟨(hw hc).1, (hw hc).2.1⟩
    · rw [Span.note_eq]
      rfl
  · intro j hj
    unfold conflictSpan
    by_cases h : j = i
    · subst h; rw [Plant.span_setSpan]; exact (by decide : SpanState.faulted ≠ .unconfigured)
    · rw [Plant.span_setSpan_ne p h]; exact hj

/-- Two spans found inside an entry have left UNCONFIGURED. -/
theorem ZoneEntry.assign_both {z : ZoneEntry} (h : (z.assign p).2 = true) :
    (p.span z.spanA).state ≠ .unconfigured ∧ (p.span z.spanB).state ≠ .unconfigured := by
  simp only [ZoneEntry.assign, Bool.and_eq_true, bne_iff_ne, ne_eq] at h
  exact ⟨h.1.2, h.2.2⟩

theorem assignZones_begins (zs : List ZoneEntry) (p : Plant) : PlantBegins env p (assignZones env zs p).2 := by
  induction zs generalizing p with
  | nil => exact (PlantKeeps.refl p).begins
  | cons z zs ih =>
    simp only [assignZones]
    refine PlantBegins.trans ?_ (ih _)
    split
    · obtain ⟨hA, hB⟩ := ZoneEntry.assign_both ‹_›
      obtain ⟨hbegins, hkeep⟩ := conflictSpan_begins (env := env) hA
      exact hbegins.trans (conflictSpan_begins (hkeep _ hB)).1
    · exact (PlantKeeps.refl p).begins

/-- The reports of the first states, with the set each span posts. -/
theorem firstReports_begins (i : Slot) (p : Plant) :
    PlantBegins env p (ifInUse env (fun i p => (postSet env i p).reports (firstReports i (p.span i))) i p) := by
  unfold ifInUse
  split
  · by_cases hc : (p.span i).state = .unconfigured
    · have hpost : postSet env i p = p := by simp [postSet, Span.setpointMode, hc]
      simp only [hpost]
      exact (PlantKeeps.reports _).begins
    · exact ((postSet_keeps hc).thenReports _).begins
  · exact (PlantKeeps.refl p).begins

theorem acquirePlant_begins (p : Plant) : PlantBegins env p (acquirePlant env p) := by
  have hlost : PlantBegins env p (Plant.reports { p with link := { p.link with addrs := p.link.addrs.map AddrRec.lostAtEnd } }
      (lostReports env.time p.link.addrs)) := (PlantKeeps.thenReports (.of_spans (by rfl)) _).begins
  have hfirst := hlost.trans (.eachSlot firstState_begins _)
  have hassign := fun zs => hfirst.trans (assignZones_begins zs _)
  refine PlantBegins.trans ?_ (.eachSlot firstReports_begins _)
  exact (hassign _).trans (PlantKeeps.of_spans (by rfl)).begins

end

/-- The end of acquisition, in ACQUIRING: every span in use gets its first state (R162). -/
theorem endAcquisition_keeps {s : State} (hmode : s.sup.mode = .acquiring) : Keeps s (endAcquisition s) := by
  have hplant : PlantBegins s.env s.plant (endAcquisition s).plant :=
    (acquirePlant_begins s.plant).trans ((resetOverrides_keeps _).thenReport _).begins
  have hready : (endAcquisition s).sup.mode = .ready := rfl
  constructor
  case unconfigured =>
    intro hs i
    refine ⟨fun h => ?_, (hplant.span i).blank (hs i).2⟩
    rw [hready] at h
    rcases h with h | h | h
    · cases h
    · cases h
    · exact (hplant.span i).absent h ((hs i).1 (.inr (.inl hmode)))
  case reference =>
    intro hu hs i sc hsc
    obtain ⟨hbounds, hwithin⟩ := hs i sc hsc
    have hb := hbounds (.inl hmode)
    have hspan : s.env.span i = sc := Env.span_of_some hsc
    have hw := (hplant.span i).within
    rw [hspan] at hw
    exact ⟨fun _ => hb, hw hb (hu i).2 hwithin⟩
  case wind => exact fun hs hshut i => (hplant.span i).still hshut (hs hshut i)
  case speed => exact fun hs i => (hplant.span i).speed (hs i)
  case owed => exact fun hs i => (hplant.span i).owed (hs i)
  case queues => exact fun hs => ⟨hs.1, hplant.out hs.2.1, fun i => (hplant.span i).plan (hs.2.2 i)⟩

end Sys2Proof.Machine
end

