-- ==== Sys2Proof/Proofs/Invariants.lean ====
section
/-! PROOFS. What every step keeps (R12, R16, R17, R20, R28, R35, R36, R56, R116, R148, R156, R168, R175, R179): requests, the
events of the command link and of the device, the idle device, and the obligations assembled from them. -/

namespace Sys2Proof.Machine
open Safety

/-! ### Checks that answer nothing -/

theorem firstSome_eq_none {α β : Type} {f : α → Option β} {as : List α} :
    firstSome f as = none ↔ ∀ a ∈ as, f a = none := by
  induction as with
  | nil => simp [firstSome]
  | cons a as ih =>
    simp only [firstSome, List.forall_mem_cons]
    cases f a <;> simp [ih]

theorem firstOf_eq_none {β : Type} {os : List (Option β)} : firstOf os = none ↔ ∀ o ∈ os, o = none :=
  firstSome_eq_none

theorem unmet_eq_none {check cond slot addr : Nat} {bad : Bool} : unmet check cond slot addr bad = none ↔ bad = false := by
  cases bad <;> simp [unmet]

/-- The slots in use are those whose record is present. -/
theorem mem_slotsInUse {env : Env} {i : Slot} {sc : SpanConfig} :
    (i, sc) ∈ slotsInUse env ↔ env.cfg.spans.get i = some sc := by
  simp only [slotsInUse, List.mem_filterMap, Option.map_eq_some_iff, Prod.mk.injEq]
  constructor
  · rintro ⟨j, -, sc', h, rfl, rfl⟩
    exact h
  · intro h
    exact ⟨i, by clear h; revert i; decide, sc, h, rfl, rfl⟩

theorem eachInUse_eq_none {env : Env} {f : Slot → SpanConfig → Option ConfigDetail} :
    eachInUse env f = none ↔ ∀ i sc, env.cfg.spans.get i = some sc → f i sc = none := by
  rw [eachInUse, firstSome_eq_none]
  exact ⟨fun h i sc hsc => h (i, sc) (mem_slotsInUse.2 hsc), fun h e he => h e.1 e.2 (mem_slotsInUse.1 he)⟩

/-- A store that passes the geometry check bounds the reference (G9, G12). -/
theorem boundsReference_of_geometry {env : Env} {p : Plant} (h : geometryCheck env p = none) {i : Slot} {sc : SpanConfig}
    (hsc : env.cfg.spans.get i = some sc) : boundsReference sc := by
  have hall := firstOf_eq_none.1 h
  simp only [List.forall_mem_cons, eachInUse_eq_none] at hall
  obtain ⟨-, -, -, -, -, -, -, -, hg9, -, -, hg12, -⟩ := hall
  have h9 := unmet_eq_none.1 (hg9 i sc hsc)
  have h12 := unmet_eq_none.1 (hg12 i sc hsc)
  simp only [decide_eq_false_iff_not, Bool.not_eq_false', Bool.and_eq_true, decide_eq_true_eq] at h9 h12
  exact ⟨Int.not_le.1 h9, h12.1.1.2⟩

/-- Checks that all pass include the geometry check. -/
theorem geometry_of_readyChecks {env : Env} {p : Plant} (h : readyChecks env p = none) : geometryCheck env p = none :=
  firstOf_eq_none.1 h _ List.mem_cons_self

/-! ### Requests -/

theorem configRequest_keeps {s : State} {ok : Bool} {act : State → Done} (h : ok = true → s.sup.mode = .init → Keeps s (act s).state) :
    Keeps s (configRequest s ok act).state := by
  unfold configRequest
  split
  · exact .refl s
  · split
    · exact h ‹_› (by simpa using ‹¬(s.sup.mode != .init) = true›)
    · exact .refl s

/-- A change of a slot's settings and proof state in INIT, where its span is blank. -/
theorem Keeps.of_slot {s t : State} {i : Slot} {ps : ProofState} (hinit : s.sup.mode = .init)
    (hplant : t.plant = s.plant.setSpan i { s.plant.span i with proof := ps })
    (howed : (s.plant.span i).owedInBounds → Config.owedMin ≤ ps.owed ∧ ps.owed ≤ Config.owedMax)
    (hsame : (t.sup, t.wind, t.cmd) = (s.sup, s.wind, s.cmd)) : Keeps s t := by
  simp only [Prod.mk.injEq] at hsame
  obtain ⟨hsup, hwind, hcmd⟩ := hsame
  have hkeep : PlantKeeps s.env s.plant t.plant := by
    rw [hplant]
    exact .setSpan (.proof howed)
  have hunconf : unconfiguredHolds s → ∀ j, (t.plant.span j).state = .unconfigured :=
    fun hu j => (hkeep.span j).configured.2 ((hu j).1 (.inl hinit))
  constructor
  case unconfigured =>
    exact fun hu j => ⟨fun _ => hunconf hu j, fun _ => (hkeep.span j).blank ((hu j).1 (.inl hinit)) ((hu j).2 ((hu j).1 (.inl hinit)))⟩
  case reference =>
    intro hu _ j sc _
    refine ⟨fun h => ?_, fun h => absurd (hunconf hu j) h⟩
    rcases h with h | h
    · rw [hsup, hinit] at h; cases h
    · exact absurd (hunconf hu j) h
  case wind =>
    intro hs hshut j
    rw [hwind] at hshut
    exact (hkeep.span j).still hshut (hs hshut j)
  case speed => exact fun hs j => (hkeep.span j).speed (hs j)
  case owed => exact fun hs j => (hkeep.span j).owed (hs j)
  case queues =>
    exact fun hs => ⟨hcmd ▸ hs.1, hkeep.out hs.2.1, fun j => (hkeep.span j).plan (hs.2.2 j)⟩

theorem storeSpan_keeps {s : State} (hinit : s.sup.mode = .init) (i : Slot) (sc : SpanConfig) : Keeps s (storeSpan i sc s) := by
  refine .of_slot (i := i) hinit rfl (fun h => ?_) rfl
  split
  · exact h
  · exact (by decide : Config.owedMin ≤ 0 ∧ 0 ≤ Config.owedMax)

theorem removeSpan_keeps {s : State} (hinit : s.sup.mode = .init) (i : Slot) : Keeps s (removeSpan i s) := by
  unfold removeSpan
  split
  · exact .of_slot (i := i) hinit rfl (fun _ => ⟨by decide, by decide⟩) rfl
  · exact .refl s

theorem onSlot_keeps {slot : Byte} {s : State} {act : Slot → Done} (h : ∀ i, Keeps s (act i).state) :
    Keeps s (onSlot slot s act).state := by
  unfold onSlot
  split
  · exact .refl s
  · exact h _

theorem inReady_keeps {slot : Byte} {s : State} {act : Slot → Done} (h : ∀ i, Keeps s (act i).state) :
    Keeps s (inReady slot s act).state := by
  refine onSlot_keeps fun i => ?_
  split
  · exact .refl s
  · exact h i

/-- A request that is refused or changes one span. -/
theorem Keeps.setSpan {s : State} {i : Slot} {sp : Span} (h : SpanKeeps s.env i (s.plant.span i) sp) :
    Keeps s { s with plant := s.plant.setSpan i sp } := .of_plant (.setSpan h) (by rfl)

theorem doGoReady_keeps (s : State) : Keeps s (doGoReady s).state := by
  unfold doGoReady
  split
  · exact .refl s
  · rename_i hmode
    have hinit : s.sup.mode = .init := by simpa using hmode
    split
    · exact .refl s
    · rename_i hchecks
      have hbounds := fun i sc => boundsReference_of_geometry (geometry_of_readyChecks hchecks) (i := i) (sc := sc)
      have hplant : PlantKeeps s.env s.plant (s.plant.report (.mode .acquiring .none s.time)) := .report _
      constructor
      case unconfigured => exact fun hs i => ⟨fun _ => (hs i).1 (.inl hinit), (hs i).2⟩
      case reference => exact fun _ hs i sc hsc => ⟨fun _ => hbounds i sc hsc, (hs i sc hsc).2⟩
      case wind | speed | owed => exact id
      case queues => exact fun hs => ⟨hs.1, hplant.out hs.2.1, hs.2.2⟩

theorem appendRefusal_none {f : SegmentFields} {i : Slot} {s : State} (h : appendRefusal f i s = none) :
    (s.plant.span i).state ≠ .unconfigured ∧ (s.env.span i).xmin ≤ f.target.toInt ∧ f.target.toInt ≤ (s.env.span i).xmax ∧
      (s.plant.span i).plan.length < Config.planMax := by
  simp only [appendRefusal] at h
  split at h
  · cases h
  split at h
  · cases h
  split at h
  · cases h
  split at h
  · cases h
  split at h
  · cases h
  split at h
  · cases h
  · rename_i hstate hrange _ _ hfull
    simp only [inRange, beq_iff_eq, Bool.not_eq_eq_eq_not, Bool.not_true, Bool.not_eq_false, Bool.and_eq_true,
      decide_eq_true_eq] at hstate hrange hfull
    exact ⟨hstate, hrange.1, hrange.2, Nat.not_le.1 hfull⟩

/-- A segment refused for a full queue is refused to a span that has left UNCONFIGURED. -/
theorem configured_of_queueFull {f : SegmentFields} {i : Slot} {s : State} (h : appendRefusal f i s = some .queueFull) :
    (s.plant.span i).state ≠ .unconfigured := by
  intro hu
  simp only [appendRefusal, hu, beq_self_eq_true, if_true] at h
  split at h <;> cases h

theorem doAppendSegment_keeps (f : SegmentFields) (s : State) : Keeps s (doAppendSegment f s).state := by
  refine onSlot_keeps fun i => ?_
  simp only
  split
  · exact .setSpan (.of_configured (configured_of_queueFull ‹_›) (by rfl))
  · exact .refl s
  · obtain ⟨hc, hlo, hhi, hroom⟩ := appendRefusal_none ‹_›
    have hjoin : SpanKeeps s.env i (s.plant.span i)
        { s.plant.span i with plan := (s.plant.span i).plan ++ [f.segment (s.env.span i).vmax] } := by
      refine .reference hc (fun _ ⟨h1, h2, h3, h4, hplan, hjog⟩ => ⟨h1, h2, h3, h4, ?_, hjog⟩) (by exact id)
        (fun _ => ?_) (by rfl)
      · intro g hg
        rcases List.mem_append.1 hg with hg | hg
        · exact hplan g hg
        · rw [List.mem_singleton.1 hg]
          exact ⟨hlo, hhi, Nat.min_le_right _ _⟩
      · rw [List.length_append]
        exact hroom
    split <;> exact .setSpan hjoin

theorem flushPlanOf_keeps {env : Env} {i : Slot} {p : Plant} (hc : (p.span i).state ≠ .unconfigured) :
    PlantKeeps env p (flushPlanOf i p) := by
  simp only [flushPlanOf]
  refine .thenReports (.setSpan (.reference hc (fun _ ⟨h1, h2, h3, h4, _, hjog⟩ => ⟨h1, h2, h3, h4, ?_, hjog⟩)
    (by exact id) (fun _ => Nat.zero_le _) (by rfl))) _
  exact List.forall_mem_nil _

theorem stopRequest_keeps (slot : Byte) (req : StopRequest) (s : State) : Keeps s (stopRequest slot req s).state := by
  refine onSlot_keeps fun i => ?_
  split
  · exact .refl s
  · exact .of_plant ((clearWindHold_keeps i _).trans (takeStop_keeps _ _)) (by rfl)

theorem doConfigureSpan_keeps (slot inUse : Byte) (f : SpanFields) (s : State) :
    Keeps s (doConfigureSpan slot inUse f s).state := by
  refine configRequest_keeps fun _ hinit => ?_
  simp only
  split
  · exact removeSpan_keeps hinit _
  · split <;> exact storeSpan_keeps hinit _ _

theorem doKeepalive_keeps (s : State) : Keeps s (doKeepalive s).state := by
  show Keeps s (judgeKeepalive s).1
  unfold judgeKeepalive
  split
  · split
    · exact badKeepalive_keeps s
    · exact .of_same (by rfl)
  · split
    · exact badKeepalive_keeps s
    · exact .of_same (by rfl)
  · exact .refl s

theorem flushable_configured {st : SpanState} (h : st.flushable = true) : st ≠ .unconfigured := by
  rintro rfl
  cases h

theorem lockRefusal_none {env : Env} {i : Slot} {p : Plant} (h : lockRefusal env i p = none) : (p.span i).state = .resting := by
  simp only [lockRefusal] at h
  split at h
  · cases h
  · rename_i hstate
    simpa using hstate

/-- A request keeps the invariants. -/
theorem perform_keeps (r : Request) (s : State) : Keeps s (perform r s).state := by
  cases r with
  | configureDevice f => exact configRequest_keeps fun _ _ => .of_same (by rfl)
  | configureBranch b w => exact configRequest_keeps fun _ _ => .of_same (by rfl)
  | configureSpan slot inUse f => exact doConfigureSpan_keeps slot inUse f s
  | configureRail slot rail n m => exact configRequest_keeps fun _ _ => .of_same (by rfl)
  | configureAddress f => exact configRequest_keeps fun _ _ => .of_plant (.of_spans (by rfl)) (by rfl)
  | configureZone f => exact configRequest_keeps fun _ _ => .of_plant (.of_spans (by rfl)) (by rfl)
  | configureWind f => exact configRequest_keeps fun _ _ => .of_same (by rfl)
  | goReady => exact doGoReady_keeps s
  | getDeviceStatus => exact .of_plant ⟨fun _ => .refl _, id⟩ (by rfl)
  | getSpanStatus slot =>
    refine onSlot_keeps fun i => .setSpan (.of_blank (by rfl) fun hb => ?_)
    rw [blankSpan] at hb
    rw [hb]
    rfl
  | getAddressStatus addr => simp only [perform, doGetAddressStatus]; split <;> exact .refl s
  | getZoneStatus entry => simp only [perform, doGetZoneStatus]; split <;> exact .refl s
  | keepalive => exact doKeepalive_keeps s
  | setLink baud crc => simp only [perform, doSetLink]; split <;> exact .refl s
  | setReportMask mask => exact .of_plant ⟨fun _ => .refl _, id⟩ (by rfl)
  | hardReset => exact .refl s
  | softReset =>
    simp only [perform, doSoftReset]
    split
    · exact .refl s
    · exact softReset_keeps s
  | appendSegment f => exact doAppendSegment_keeps f s
  | flushPlan slot =>
    refine inReady_keeps fun i => ?_
    split
    · exact .of_plant (flushPlanOf_keeps (flushable_configured ‹_›)) (by rfl)
    · exact .refl s
  | start slot =>
    refine inReady_keeps fun i => ?_
    split
    · exact .refl s
    · exact .of_plant (startSpan_keeps ‹_›) (by rfl)
  | pause slot => exact stopRequest_keeps slot _ s
  | stop slot => exact stopRequest_keeps slot _ s
  | setOverride slot value =>
    refine inReady_keeps fun i => ?_
    simp only
    split
    · exact .refl s
    · rename_i hstate
      have hset : SpanKeeps s.env i (s.plant.span i) { s.plant.span i with override := min value.toNat 100 } :=
        .reference (by simpa using hstate) (fun _ ⟨h1, h2, h3, _, hrest⟩ => ⟨h1, h2, h3, Nat.min_le_right _ _, hrest⟩)
          (by exact id) (by exact id) (by rfl)
      split <;> exact .setSpan hset
  | setLowWater slot value =>
    refine inReady_keeps fun i => ?_
    simp only
    split
    · exact .refl s
    · rename_i hstate
      have hset : SpanKeeps s.env i (s.plant.span i) { s.plant.span i with lw := min value.toNat 15 } :=
        .of_configured (by simpa using hstate) (by rfl)
      split <;> exact .setSpan hset
  | clearFault slot =>
    refine inReady_keeps fun i => ?_
    split
    · exact .refl s
    · rename_i hstate
      have hc : (s.plant.span i).state = .faulted := by simpa using hstate
      split
      · exact .refl s
      · exact .of_plant (clearFault_keeps (by rw [hc]; decide)) (by rfl)
  | proof slot =>
    refine inReady_keeps fun i => ?_
    simp only
    split
    · exact .refl s
    · rename_i hstate
      split
      · exact .refl s
      · split
        · exact .refl s
        · refine .of_plant (startTest_keeps fun hu => ?_) (by rfl)
          simp [hu] at hstate
  | lock slot =>
    refine inReady_keeps fun i => ?_
    split
    · exact .refl s
    · exact .of_plant (startLock_keeps _ (by rw [lockRefusal_none ‹_›]; decide) (.inl rfl)) (by rfl)
  | unlock slot =>
    refine inReady_keeps fun i => ?_
    split
    · exact .refl s
    · rename_i hstate
      have hc : (s.plant.span i).state = .locked := by simpa using hstate
      split
      · exact .refl s
      · exact .of_plant (startLock_keeps _ (by rw [hc]; decide) (.inr rfl)) (by rfl)
  | writeParameter addr index value =>
    simp only [perform, doWriteParameter]
    split
    · exact .refl s
    · exact .of_plant (.of_spans (by rfl)) (by rfl)
  | stopAll =>
    simp only [perform, doStopAll]
    split
    · exact .refl s
    · exact raiseFailsafe_keeps _ s
  | clearFailsafe =>
    simp only [perform, doClearFailsafe]
    split
    · exact .refl s
    · exact returnFromFailsafe_keeps s

/-! ### The command link -/

theorem judgeFrame_keeps (f : ReqFrame) (s : State) : Keeps s (judgeFrame f s).state := by
  unfold judgeFrame
  split
  · exact .refl s
  · exact .refl s
  · exact perform_keeps _ s

theorem takeRequest_keeps (s : State) : Keeps s (takeRequest s) := by
  unfold takeRequest
  split
  · rename_i f rest _ hreq
    have hshort : Keeps s { s with cmd := { s.cmd with requests := rest } } := by
      refine .of_plant_wind (env := s.env) (.refl _) id rfl (fun _ => rfl) fun h => ?_
      rw [hreq, List.length_cons] at h
      exact Nat.le_of_succ_le h
    exact (hshort.trans (judgeFrame_keeps f _)).trans (.of_same (by rfl))
  · exact .refl s

theorem enqueue_keeps (f : ReqFrame) (s : State) : Keeps s { s with cmd := enqueue f s.cmd } := by
  refine .of_plant_wind (env := s.env) (.refl _) id rfl (fun _ => rfl) fun h => ?_
  show (enqueue f s.cmd).requests.length ≤ _
  unfold enqueue
  split
  · rw [List.length_append]
    exact ‹s.cmd.requests.length < Config.requestsMax›
  · split <;> exact h

theorem frameArrives_keeps (f : ReqFrame) (s : State) : Keeps s (frameArrives f s) :=
  (enqueue_keeps f s).trans (takeRequest_keeps _)

theorem requestArrives_keeps (r : Request) (tag : Byte) (s : State) : Keeps s (requestArrives r tag s) := by
  unfold requestArrives
  split
  · exact (perform_keeps r s).trans (.of_same (by rfl))
  · exact frameArrives_keeps _ s

theorem setRx_keeps (r : Receiver) (s : State) : Keeps s (s.setRx r) := .of_same (by rfl)

theorem receiveFrame_keeps (kind tag : Byte) (payload : List Byte) (crc : Byte) (s : State) :
    Keeps s (receiveFrame kind tag payload crc s) := by
  unfold receiveFrame
  split
  · exact (setRx_keeps _ s).trans (frameArrives_keeps _ _)
  · exact setRx_keeps _ s

theorem receiveByte_keeps (b : Byte) (s : State) : Keeps s (receiveByte b s) := by
  unfold receiveByte
  split
  · exact setRx_keeps _ s
  · rename_i alt bytes _
    simp only [collectByte]
    split
    · exact .refl s
    · split
      · exact setRx_keeps _ s
      · split
        · simp only [frameWhole]
          split
          · split
            · exact (setRx_keeps _ s).trans (frameArrives_keeps _ _)
            · exact setRx_keeps _ s
          · exact setRx_keeps _ s
        · exact setRx_keeps _ s

theorem afterReply_keeps (o : OnSent) (s : State) : Keeps s (afterReply o s) := by
  cases o with
  | nothing => exact .refl s
  | hardReset => exact (hardReset_keeps _ s).trans (estopAtReset_keeps _)
  | settings l => exact .of_same (by rfl)

theorem frameEnds_keeps (s : State) : Keeps s (frameEnds s) := by
  unfold frameEnds
  split
  · exact .refl s
  · simp only
    split
    · exact .of_same (by rfl)
    · exact .of_same (by rfl)
    · split
      · exact .of_same (by rfl)
      · exact Keeps.trans (.trans (.of_same (by rfl)) (afterReply_keeps _ { s with cmd := { s.cmd with tx := none, reply := none } }))
          (takeRequest_keeps _)

theorem startFrame_keeps (s : State) : Keeps s (startFrame s) := by
  unfold startFrame
  split
  · exact .refl s
  · split
    · exact .of_same (by rfl)
    · split
      · exact .of_same (by rfl)
      · split
        · exact .refl s
        · rename_i r rest hqueue
          refine .of_plant ⟨fun _ => .refl _, fun h => ?_⟩ (by rfl)
          rw [hqueue, List.length_cons] at h
          exact Nat.le_of_succ_le h

theorem settle_keeps (s : State) : Keeps s (settle s) :=
  Keeps.trans (t := { s with sup := { s.sup with stopReq := s.stopReqLevel } }) (.of_same (by rfl)) (startFrame_keeps _)

theorem runEvent_keeps {f : State → State} {s : State} (h : Keeps s (f s)) :
    ∀ t, runEvent f s = .next t → Keeps s t := by
  rintro t ht
  cases ht
  split
  · exact .refl s
  · exact h.trans (settle_keeps _)

/-! ### Events of the device -/

theorem afterGoodReply_keeps (good : Bool) (s : State) : Keeps s (afterGoodReply good s) := by
  unfold afterGoodReply
  split
  · rename_i h
    simp only [State.allKnown, Bool.and_eq_true, beq_iff_eq] at h
    exact endAcquisition_keeps h.2.1
  · exact .refl s

theorem acquisitionExpired_keeps (s : State) : Keeps s (acquisitionExpired s) := by
  unfold acquisitionExpired
  split
  · rename_i h
    simp only [Bool.and_eq_true, beq_iff_eq] at h
    exact endAcquisition_keeps h.1
  · exact .refl s

/-- A change of the gate with reports, and what the open gate or the stops of a shut one do to the spans. -/
theorem gate_keeps {s : State} {g : WindGate} {rs : List Report} {p : Plant}
    (hplant : PlantKeeps { s.env with gate := g.gate, kw := g.kw } (s.plant.reports rs) p)
    (hwind : g.gate.shut = true → windHolds s → ∀ i, (p.span i).still) : Keeps s { s with wind := g, plant := p } :=
  .of_plant_wind ((PlantKeeps.reports rs).trans hplant) (fun hs hshut => hwind hshut hs) rfl (fun _ => rfl) id

theorem windSample_keeps (s : State) : Keeps s (windSample s) := by
  simp only [windSample]
  split
  · exact gate_keeps (.eachSlot (fun i p => holdForWind_keeps i p) _) fun _ _ => eachSlot_holdForWind_still _ _
  · rename_i hstays
    refine gate_keeps (.refl _) fun hshut hs i => ?_
    simp only [Bool.and_eq_true, Bool.not_eq_true', not_and, Bool.not_eq_false] at hstays
    rw [Plant.reports_span]
    exact hs (hstays hshut) i

theorem tripDwell_keeps (s : State) : Keeps s (tripDwell s) := by
  simp only [tripDwell]
  split
  · rename_i hrun
    simp only [Bool.and_eq_true, beq_iff_eq] at hrun
    split
    · refine gate_keeps (.refl _) fun _ hs i => ?_
      rw [Plant.reports_span]
      exact hs (by rw [hrun.1]; rfl) i
    · rename_i hopen
      exact gate_keeps (resumeSpans_keeps _) fun hshut => absurd hshut hopen
  · exact .refl s

theorem setInput_keeps (i : StationInput) (l : InputLevel) (s : State) : Keeps s (s.setInput i l) := .of_same (by rfl)

theorem releaseJog_keeps (d : Dir) (s : State) : Keeps s (releaseJog d s) := by
  simp only [releaseJog]
  split
  · exact (setInput_keeps _ _ s).trans (.onPlant (stopJog_keeps _ _))
  · exact setInput_keeps _ _ s

theorem assertEstop_keeps (s : State) : Keeps s (assertEstop s) := (setInput_keeps _ _ s).trans (estopAction_keeps _)

theorem pinChange_keeps (i : StationInput) (level : Bool) (s : State) : Keeps s (pinChange i level s) := by
  unfold pinChange
  split
  · exact .refl s
  · split
    · exact assertEstop_keeps s
    · exact releaseJog_keeps _ s
    · exact releaseJog_keeps _ s
    · simp only [holdEdge]
      split
      · exact .of_same (by rfl)
      · exact .of_same (by rfl)
    · exact setInput_keeps _ _ s

theorem selectAction_keeps (s : State) : Keeps s (selectAction s) := by
  unfold selectAction
  split
  · exact .onPlant (stopJog_keeps _ _)
  · exact .report _ s

theorem jogPress_keeps (d : Dir) (s : State) : Keeps s (jogPress d s) := by
  simp only [jogPress]
  split
  · exact (Keeps.report _ s).trans (.onPlant (stopJog_keeps _ _))
  · exact .onPlant (requestJog_keeps d)

theorem inputAction_keeps (i : StationInput) (level : Bool) (s : State) : Keeps s (inputAction i level s) := by
  unfold inputAction
  split
  · exact .refl s
  · exact .report _ s
  · exact (Keeps.report _ s).trans (.onPlant (.eachSlot (fun i p => holdSpan_keeps i p) _))
  · exact Keeps.trans (t := { s with station := { s.station with holdT := none } }) (.of_same (by rfl)) (.report _ _)
  · exact (Keeps.report _ s).trans (.onPlant (.eachSlot (fun i p => localSpan_keeps i p) _))
  · exact (Keeps.report _ s).trans (.onPlant (stopJog_keeps _ _))
  · exact jogPress_keeps _ s
  · exact .refl s
  · exact jogPress_keeps _ s
  · exact .refl s
  · exact selectAction_keeps s
  · exact selectAction_keeps s

theorem pressExpired_keeps (i : StationInput) (s : State) : Keeps s (pressExpired i s) := by
  simp only [pressExpired]
  split
  · exact (setInput_keeps _ _ s).trans (inputAction_keeps _ _ _)
  · exact .refl s

theorem holdStuckAction_keeps (s : State) : Keeps s (holdStuckAction s) := by
  unfold holdStuckAction
  split
  · exact Keeps.trans (.trans (t := { s with station := { s.station with holdT := none } }) (.of_same (by rfl)) (.report _ _))
      (raiseFailsafe_keeps _ _)
  · exact .refl s

/-! ### Every command, and the idle device -/

theorem pinOnly_keeps (i : StationInput) (level : Bool) (s : State) : Keeps s (pinOnly i level s) := setInput_keeps _ _ s

/-- The pins followed in reset, or an event. -/
theorem pinOrEvent_keeps {f : State → State} {s : State} (i : StationInput) (level : Bool) (h : Keeps s (f s)) {t : State}
    (ht : (if s.resetPin then .next (pinOnly i level s) else runEvent f s) = .next t) : Keeps s t := by
  split at ht
  · cases ht
    exact pinOnly_keeps i level s
  · exact runEvent_keeps h t ht

theorem execPowerOn_keeps {s t : State} (h : execPowerOn s = .next t) : Keeps s t := by
  cases h
  have hreset := hardReset_keeps .powerOn s
  split
  · exact hreset
  · exact (hreset.trans (estopAtReset_keeps _)).trans (settle_keeps _)

theorem execResetPinAssert_keeps {s t : State} (h : execResetPinAssert s = .next t) : Keeps s t := by
  cases h
  exact (hardReset_keeps .resetPin s).trans (.of_same (by rfl))

theorem execResetPinRelease_keeps {s t : State} (h : execResetPinRelease s = .next t) : Keeps s t := by
  unfold execResetPinRelease at h
  split at h
  · cases h
    exact (Keeps.trans (t := { s with resetPin := false, station := s.station.atReset }) (.of_same (by rfl))
      (estopAtReset_keeps _)).trans (settle_keeps _)
  · cases h
    exact .refl s

/-- A request of the host keeps the invariants. -/
theorem request_keeps (r : Request) (tag : Byte) (s : State) : ∀ t, runEvent (requestArrives r tag) s = .next t → Keeps s t :=
  runEvent_keeps (requestArrives_keeps r tag s)

/-- An event of the plant that keeps it. -/
theorem plantEvent_keeps {f : Env → Plant → Plant} {s : State} (h : PlantKeeps s.env s.plant (f s.env s.plant)) :
    ∀ t, runEvent (State.onPlant f) s = .next t → Keeps s t := runEvent_keeps (.onPlant h)

/-- Every command keeps the invariants. -/
theorem exec_keeps (c : Instr) (s : State) : ∀ t, exec c s = .next t → Keeps s t := by
  cases c with
  | powerOn => exact fun _ => execPowerOn_keeps
  | resetPinAssert => exact fun _ => execResetPinAssert_keeps
  | resetPinRelease => exact fun _ => execResetPinRelease_keeps
  | frameReceived kind tag payload crc => exact runEvent_keeps (receiveFrame_keeps kind tag payload crc s)
  | frameGapTimeout byte => exact runEvent_keeps (setRx_keeps _ s)
  | requestTaken => exact runEvent_keeps (takeRequest_keeps s)
  | frameSent => exact runEvent_keeps (frameEnds_keeps s)
  | frameByteReceived byte => exact runEvent_keeps (receiveByte_keeps byte s)
  | spanPeriod slot => exact plantEvent_keeps (spanPeriodOf_keeps slot _)
  | stopTaken slot req => exact plantEvent_keeps (stopTakenBy_keeps slot req _)
  | groupBroadcast => exact plantEvent_keeps (broadcastEnd_keeps _)
  | holdTimerExpiry slot => exact plantEvent_keeps (holdExpired_keeps slot _)
  | releaseTimerExpiry slot => exact plantEvent_keeps (releaseExpired_keeps slot _)
  | dwellTimerExpiry slot => exact plantEvent_keeps (dwellExpired_keeps slot _)
  | safeStopTimerExpiry slot => exact plantEvent_keeps (safeExpired_keeps slot _)
  | proofIntervalExpiry slot => exact plantEvent_keeps (intervalExpired_keeps slot _)
  | brakeSetPhaseExpiry slot => exact plantEvent_keeps (brakeSetExpired_keeps slot _)
  | holdPhaseExpiry slot => exact plantEvent_keeps (holdPhaseExpired_keeps slot _)
  | lockTimerExpiry slot => exact plantEvent_keeps (lockTimeout_keeps slot _)
  | linkCycleStart => exact plantEvent_keeps (cycleStart_keeps _)
  | pollReply w0 w1 w2 w3 =>
    exact runEvent_keeps ((Keeps.onPlant (pollEnd_keeps w0 w1 w2 w3 _)).trans (afterGoodReply_keeps _ _))
  | setpointAck w => exact runEvent_keeps ((Keeps.onPlant (ackEnd_keeps w _)).trans (afterGoodReply_keeps _ _))
  | parameterWriteEnd w => exact plantEvent_keeps (writeEnd_keeps w _)
  | lockWriteEnd w => exact plantEvent_keeps (lockEnd_keeps _)
  | acquisitionTimerExpiry => exact runEvent_keeps (acquisitionExpired_keeps s)
  | keepaliveWindowExpiry =>
    refine runEvent_keeps ?_
    unfold windowExpired
    split
    · exact badKeepalive_keeps s
    · exact .refl s
  | stableReadyExpiry =>
    refine runEvent_keeps ?_
    unfold stableExpired
    split
    · exact .of_same (by rfl)
    · exact .refl s
  | windSample => exact runEvent_keeps (windSample_keeps s)
  | tripDwellExpiry => exact runEvent_keeps (tripDwell_keeps s)
  | zoneWaitTimeout entry side => exact plantEvent_keeps (waitExpired_keeps _ _ _)
  | stationPinChange input level => exact fun _ => pinOrEvent_keeps _ _ (pinChange_keeps input level s)
  | stationPressTimerExpiry input => exact runEvent_keeps (pressExpired_keeps input s)
  | estopAsserted => exact fun _ => pinOrEvent_keeps _ _ (assertEstop_keeps s)
  | jogRelease dir => exact fun _ => pinOrEvent_keeps _ _ (releaseJog_keeps dir s)
  | holdStuck => exact runEvent_keeps (holdStuckAction_keeps s)
  | anemometerPulse which => exact runEvent_keeps (by cases which <;> exact .of_same (by rfl))
  | _ => exact request_keeps _ _ s

/-- A millisecond of a span's timers. -/
theorem SpanKeeps.tick {env : Env} {i : Slot} (a : Span) : SpanKeeps env i a a.tick := by
  have howed : a.proof.tick.owed = a.proof.owed := by
    unfold ProofState.tick
    split <;> rfl
  refine .of_essence ?_ fun _ hb => ?_
  · simp only [Span.essence, Span.tick, howed]
  · rw [blankSpan] at hb ⊢
    rw [hb]
    rfl

theorem tick_keeps (s : State) : Keeps s s.tick := by
  refine .of_plant ⟨fun i => ?_, id⟩ (by rfl)
  rw [show s.tick.plant.span i = (s.plant.span i).tick from Quad.get_map _ _ _]
  exact .tick _

theorem idle_keeps (s : State) : Keeps s (idle s) := by
  unfold idle
  split
  · exact .refl s
  · split
    · exact .of_same (by rfl)
    · split
      · exact .of_same (by rfl)
      · exact (tick_keeps s).trans (.of_same (by rfl))

/-- Every step keeps the invariants. -/
theorem step_keeps {s t : State} (h : step s = .next t) : Keeps s t := by
  unfold step at h
  split at h
  · cases h
    exact idle_keeps s
  · rename_i c rest _
    exact Keeps.trans (t := { s with pending := rest }) (.of_same (by rfl)) (exec_keeps c _ t h)

/-! ### STOP-REQ -/

/-- An event ends with STOP-REQ at its level: the frame that may start reads none of what the level is formed from. -/
theorem settle_stopReq (s : State) : stopReqHolds (settle s) := by
  unfold settle startFrame stopReqHolds
  split
  · rfl
  · split
    · rfl
    · split
      · rfl
      · split <;> rfl

theorem runEvent_stopReq {f : State → State} {s t : State} (hs : stopReqHolds s) (h : runEvent f s = .next t) :
    stopReqHolds t := by
  cases h
  split
  · exact hs
  · exact settle_stopReq _

/-- A hard reset leaves STOP-REQ asserted in INIT. -/
theorem hardReset_stopReq (cause : InitCause) (s : State) : stopReqHolds (hardReset cause s) := rfl

theorem pinOrEvent_stopReq {f : State → State} {s t : State} {i : StationInput} {level : Bool} (hs : stopReqHolds s)
    (ht : (if s.resetPin then .next (pinOnly i level s) else runEvent f s) = .next t) : stopReqHolds t := by
  split at ht
  · cases ht
    exact hs
  · exact runEvent_stopReq hs ht

theorem exec_stopReq (c : Instr) {s : State} (hs : stopReqHolds s) : ∀ t, exec c s = .next t → stopReqHolds t := by
  cases c with
  | powerOn =>
    rintro t h
    cases h
    split
    · exact hardReset_stopReq .powerOn s
    · exact settle_stopReq _
  | resetPinAssert =>
    rintro t h
    cases h
    exact hardReset_stopReq .resetPin s
  | resetPinRelease =>
    intro t h
    simp only [exec, execResetPinRelease] at h
    split at h
    · cases h
      exact settle_stopReq _
    · cases h
      exact hs
  | stationPinChange | estopAsserted | jogRelease => exact fun _ => pinOrEvent_stopReq hs
  | _ => exact fun _ => runEvent_stopReq hs

/-- A millisecond of every timer leaves the level of STOP-REQ as it was. -/
theorem tick_stopReq {s : State} (hs : stopReqHolds s) : stopReqHolds s.tick := hs

/-! ### The obligations -/

/-- Settles O55: every step keeps the invariants, the blank spans' among them. -/
theorem unconfiguredSpansStayBlank : Obligations.UnconfiguredSpansStayBlank :=
  fun _ _ hs h => (step_keeps h).unconfigured hs

/-- Settles O56: every step keeps the invariants, the reference's among them in states that keep the blank spans'. -/
theorem referenceStaysWithinItsLimits : Obligations.ReferenceStaysWithinItsLimits :=
  fun _ _ hu hs h => (step_keeps h).reference hu hs

/-- Settles O57: every step keeps the invariants, the gate's among them. -/
theorem noMotionUnderAShutGate : Obligations.NoMotionUnderAShutGate :=
  fun _ _ hs h => (step_keeps h).wind hs

/-- Settles O58: every step keeps the invariants, those of v, the owed counts and the queues among them. -/
theorem speedsCountsAndQueuesStayInBounds : Obligations.SpeedsCountsAndQueuesStayInBounds :=
  fun _ _ ⟨hspeed, howed, hqueues⟩ h =>
    ⟨(step_keeps h).speed hspeed, (step_keeps h).owed howed, (step_keeps h).queues hqueues⟩

/-- Settles O59: every event ends with STOP-REQ at its level, and the idle device changes nothing the level is formed from. -/
theorem stopReqKeepsItsLevel : Obligations.StopReqKeepsItsLevel := by
  intro s t hs h
  unfold step at h
  split at h
  · cases h
    unfold idle
    split
    · exact hs
    · split
      · exact hs
      · split
        · exact hs
        · exact tick_stopReq hs
  · rename_i c rest _
    exact exec_stopReq c (s := { s with pending := rest }) hs t h

/-- Every span is blank after reset. -/
theorem reset_span (i : Slot) : State.reset.plant.span i = Span.powerOn := Quad.get_fill _ _

/-- Settles O60: after reset every span holds its reset values, the mode is INIT, and the queues are empty. -/
theorem resetMeetsTheInvariants : Obligations.ResetMeetsTheInvariants := by
  refine ⟨fun i => ?_, fun i sc h => ?_, fun _ i => ?_, fun i _ _ => ?_, fun i => ?_, ⟨by decide, by decide, fun i => ?_⟩, rfl⟩
  case refine_2 =>
    rw [show State.reset.cfg.spans.get i = none from Quad.get_fill _ _] at h
    cases h
  all_goals rw [reset_span]
  · exact ⟨fun _ => rfl, fun _ => rfl⟩
  · decide
  · rfl
  · decide
  · decide

end Sys2Proof.Machine
end

