-- ==== Sys2Proof/Proofs/EveryCommand.lean ====
section
/-! PROOFS. The machine's own statements: a step runs the front command, every command answers and leaves the waiting commands
as they were, the end of every event, the device held in reset, and the values after a reset. -/

namespace Sys2Proof.Machine
open Safety

/-- Settles O1: by the definition of a step. -/
theorem stepRunsTheFrontCommand : Obligations.StepRunsTheFrontCommand := by
  constructor
  · intro c rest s h
    simp [step, h]
  · intro s h
    simp [step, h]

/-! ### The waiting commands stay as they were

No operation writes the queue of waiting commands; the lemmas follow the definitions. -/

theorem raiseFailsafe_pending (r : FailsafeReason) (s : State) : (raiseFailsafe r s).pending = s.pending := by
  have hjoin : (joinFailsafe r s).pending = s.pending := by
    simp only [joinFailsafe, State.onPlant]
    split
    · split <;> rfl
    · rfl
  unfold raiseFailsafe
  split
  · exact hjoin
  · rfl

theorem estopAction_pending (s : State) : (estopAction s).pending = s.pending := raiseFailsafe_pending ..

theorem estopAtReset_pending (s : State) : (estopAtReset s).pending = s.pending := by
  unfold estopAtReset
  split
  · exact estopAction_pending s
  · rfl

theorem badKeepalive_pending (s : State) : (badKeepalive s).pending = s.pending := by
  simp only [badKeepalive, countError]
  split
  · exact raiseFailsafe_pending ..
  · rfl

theorem judgeKeepalive_pending (s : State) : (judgeKeepalive s).1.pending = s.pending := by
  have hjudged : ∀ t, (if t < s.cfg.dev.wo then (badKeepalive s, 2) else (goodKeepalive s, 1)).1.pending = s.pending := by
    intro t
    split
    · exact badKeepalive_pending s
    · rfl
  unfold judgeKeepalive
  split
  · exact hjudged _
  · exact hjudged _
  · rfl

theorem returnFromFailsafe_pending (s : State) : (returnFromFailsafe s).pending = s.pending := by
  simp only [returnFromFailsafe]
  split
  · split <;> rfl
  · rfl

section
variable {s : State}

theorem configRequest_pending {ok : Bool} {act : State → Done} (h : (act s).state.pending = s.pending) :
    (configRequest s ok act).state.pending = s.pending := by
  unfold configRequest
  split
  · rfl
  · split
    · exact h
    · rfl

theorem onSlot_pending {slot : Byte} {act : Slot → Done} (h : ∀ i, (act i).state.pending = s.pending) :
    (onSlot slot s act).state.pending = s.pending := by
  unfold onSlot
  split
  · rfl
  · exact h _

theorem inReady_pending {slot : Byte} {act : Slot → Done} (h : ∀ i, (act i).state.pending = s.pending) :
    (inReady slot s act).state.pending = s.pending := by
  refine onSlot_pending fun i => ?_
  split
  · rfl
  · exact h i

end

theorem doConfigureSpan_pending (slot inUse : Byte) (f : SpanFields) (s : State) :
    (doConfigureSpan slot inUse f s).state.pending = s.pending := by
  refine configRequest_pending ?_
  simp only [removeSpan]
  split
  · simp only [accept]
    split <;> rfl
  · split <;> rfl

theorem doAppendSegment_pending (f : SegmentFields) (s : State) : (doAppendSegment f s).state.pending = s.pending := by
  refine onSlot_pending fun i => ?_
  simp only
  split
  · rfl
  · rfl
  · split <;> rfl

theorem stopRequest_pending (slot : Byte) (req : StopRequest) (s : State) :
    (stopRequest slot req s).state.pending = s.pending := by
  refine onSlot_pending fun i => ?_
  split <;> rfl

theorem perform_pending (r : Request) (s : State) : (perform r s).state.pending = s.pending := by
  cases r with
  | configureDevice | configureBranch | configureRail | configureAddress | configureZone | configureWind =>
    exact configRequest_pending rfl
  | configureSpan slot inUse f => exact doConfigureSpan_pending slot inUse f s
  | goReady =>
    simp only [perform, doGoReady]
    split
    · rfl
    · split <;> rfl
  | getDeviceStatus | setReportMask | hardReset => rfl
  | getSpanStatus slot => exact onSlot_pending fun i => rfl
  | getAddressStatus addr => simp only [perform, doGetAddressStatus]; split <;> rfl
  | getZoneStatus entry => simp only [perform, doGetZoneStatus]; split <;> rfl
  | keepalive => exact judgeKeepalive_pending s
  | setLink baud crc => simp only [perform, doSetLink]; split <;> rfl
  | softReset => simp only [perform, doSoftReset]; split <;> rfl
  | appendSegment f => exact doAppendSegment_pending f s
  | flushPlan slot => exact inReady_pending fun i => by split <;> rfl
  | start slot => exact inReady_pending fun i => by split <;> rfl
  | pause slot => exact stopRequest_pending slot _ s
  | stop slot => exact stopRequest_pending slot _ s
  | setOverride slot value | setLowWater slot value =>
    refine inReady_pending fun i => ?_
    simp only
    split
    · rfl
    · split <;> rfl
  | clearFault slot =>
    refine inReady_pending fun i => ?_
    split
    · rfl
    · split <;> rfl
  | proof slot =>
    refine inReady_pending fun i => ?_
    simp only
    split
    · rfl
    · split
      · rfl
      · split <;> rfl
  | lock slot => exact inReady_pending fun i => by split <;> rfl
  | unlock slot =>
    refine inReady_pending fun i => ?_
    split
    · rfl
    · split <;> rfl
  | writeParameter addr index value => simp only [perform, doWriteParameter]; split <;> rfl
  | stopAll =>
    simp only [perform, doStopAll]
    split
    · rfl
    · exact raiseFailsafe_pending ..
  | clearFailsafe =>
    simp only [perform, doClearFailsafe]
    split
    · rfl
    · exact returnFromFailsafe_pending s

theorem takeRequest_pending (s : State) : (takeRequest s).pending = s.pending := by
  unfold takeRequest
  split
  · simp only [placeReply, judgeFrame]
    split
    · rfl
    · rfl
    · exact perform_pending ..
  · rfl

theorem frameArrives_pending (f : ReqFrame) (s : State) : (frameArrives f s).pending = s.pending := takeRequest_pending _

theorem requestArrives_pending (r : Request) (tag : Byte) (s : State) : (requestArrives r tag s).pending = s.pending := by
  unfold requestArrives
  split
  · exact perform_pending r s
  · exact frameArrives_pending ..

theorem receiveFrame_pending (kind tag : Byte) (payload : List Byte) (crc : Byte) (s : State) :
    (receiveFrame kind tag payload crc s).pending = s.pending := by
  unfold receiveFrame
  split
  · exact frameArrives_pending ..
  · rfl

theorem frameWhole_pending (alt : Bool) (bs : List Byte) (s : State) : (frameWhole alt bs s).pending = s.pending := by
  simp only [frameWhole]
  split
  · split
    · exact frameArrives_pending ..
    · rfl
  · rfl

theorem receiveByte_pending (b : Byte) (s : State) : (receiveByte b s).pending = s.pending := by
  unfold receiveByte
  split
  · rfl
  · simp only [collectByte]
    split
    · rfl
    · split
      · rfl
      · split
        · exact frameWhole_pending ..
        · rfl

theorem frameEnds_pending (s : State) : (frameEnds s).pending = s.pending := by
  have hafter : ∀ o u, (afterReply o u).pending = u.pending := fun o u => by
    cases o with
    | nothing | settings => rfl
    | hardReset => exact estopAtReset_pending _
  unfold frameEnds
  split
  · rfl
  · simp only
    split
    · rfl
    · rfl
    · split
      · rfl
      · rw [takeRequest_pending, hafter]

theorem settle_pending (s : State) : (settle s).pending = s.pending := by
  simp only [settle, startFrame]
  split
  · rfl
  · split
    · rfl
    · split
      · rfl
      · split <;> rfl

theorem releaseJog_pending (d : Dir) (s : State) : (releaseJog d s).pending = s.pending := by
  simp only [releaseJog]
  split <;> rfl

theorem pinChange_pending (i : StationInput) (level : Bool) (s : State) : (pinChange i level s).pending = s.pending := by
  unfold pinChange
  split
  · rfl
  · split
    · exact estopAction_pending _
    · exact releaseJog_pending ..
    · exact releaseJog_pending ..
    · simp only [holdEdge]
      split <;> rfl
    · rfl

theorem inputAction_pending (i : StationInput) (level : Bool) (s : State) : (inputAction i level s).pending = s.pending := by
  have hjog : ∀ d, (jogPress d s).pending = s.pending := fun d => by
    simp only [jogPress]
    split <;> rfl
  have hselect : (selectAction s).pending = s.pending := by
    unfold selectAction
    split <;> rfl
  cases i with
  | sel0 | sel1 => cases level <;> exact hselect
  | jogFwd | jogRev =>
    cases level
    · rfl
    · exact hjog _
  | estop | hold | key => cases level <;> rfl

theorem windSample_pending (s : State) : (windSample s).pending = s.pending := by
  simp only [windSample]
  split <;> rfl

theorem tripDwell_pending (s : State) : (tripDwell s).pending = s.pending := by
  simp only [tripDwell]
  split
  · split <;> rfl
  · rfl

theorem afterGoodReply_pending (good : Bool) (s : State) : (afterGoodReply good s).pending = s.pending := by
  unfold afterGoodReply
  split <;> rfl

/-! ### Every command answers -/

/-- An event answers, and keeps the waiting commands where its operation does. -/
theorem runEvent_answers {f : State → State} {s : State} (h : (f s).pending = s.pending) :
    ∃ t, runEvent f s = .next t ∧ t.pending = s.pending := by
  refine ⟨_, rfl, ?_⟩
  split
  · rfl
  · rw [settle_pending, h]

theorem pinOrEvent_answers {f : State → State} {s : State} (i : StationInput) (level : Bool) (h : (f s).pending = s.pending) :
    ∃ t, (if s.resetPin then .next (pinOnly i level s) else runEvent f s) = .next t ∧ t.pending = s.pending := by
  split
  · exact ⟨_, rfl, rfl⟩
  · exact runEvent_answers h

/-- Settles O2: each command is an event or one of the three of the RESET pin and power. -/
theorem everyCommandAnswers : Obligations.EveryCommandAnswers := by
  intro c s
  cases c with
  | powerOn =>
    refine ⟨_, rfl, ?_⟩
    split
    · rfl
    · rw [settle_pending, estopAtReset_pending]
      rfl
  | resetPinAssert => exact ⟨_, rfl, rfl⟩
  | resetPinRelease =>
    simp only [exec, execResetPinRelease]
    split
    · exact ⟨_, rfl, by rw [settle_pending, estopAtReset_pending]⟩
    · exact ⟨_, rfl, rfl⟩
  | frameReceived kind tag payload crc => exact runEvent_answers (receiveFrame_pending kind tag payload crc s)
  | requestTaken => exact runEvent_answers (takeRequest_pending s)
  | frameSent => exact runEvent_answers (frameEnds_pending s)
  | frameByteReceived byte => exact runEvent_answers (receiveByte_pending byte s)
  | frameGapTimeout | spanPeriod | stopTaken | groupBroadcast | holdTimerExpiry | releaseTimerExpiry | dwellTimerExpiry
  | safeStopTimerExpiry | proofIntervalExpiry | brakeSetPhaseExpiry | holdPhaseExpiry | lockTimerExpiry | linkCycleStart
  | parameterWriteEnd | lockWriteEnd | zoneWaitTimeout => exact runEvent_answers rfl
  | pollReply | setpointAck => exact runEvent_answers (afterGoodReply_pending _ _)
  | acquisitionTimerExpiry => exact runEvent_answers (by unfold acquisitionExpired; split <;> rfl)
  | keepaliveWindowExpiry =>
    refine runEvent_answers ?_
    unfold windowExpired
    split
    · exact badKeepalive_pending s
    · rfl
  | stableReadyExpiry => exact runEvent_answers (by unfold stableExpired; split <;> rfl)
  | windSample => exact runEvent_answers (windSample_pending s)
  | tripDwellExpiry => exact runEvent_answers (tripDwell_pending s)
  | stationPinChange input level => exact pinOrEvent_answers _ _ (pinChange_pending input level s)
  | stationPressTimerExpiry input =>
    refine runEvent_answers ?_
    simp only [pressExpired]
    split
    · exact inputAction_pending ..
    · rfl
  | estopAsserted => exact pinOrEvent_answers _ _ (estopAction_pending _)
  | jogRelease dir => exact pinOrEvent_answers _ _ (releaseJog_pending dir s)
  | holdStuck =>
    refine runEvent_answers ?_
    unfold holdStuckAction
    split
    · exact raiseFailsafe_pending ..
    · rfl
  | anemometerPulse which => exact runEvent_answers (by cases which <;> rfl)
  | _ => exact runEvent_answers (requestArrives_pending _ _ s)

/-! ### The end of every event -/

/-- Settles O3: a free transmitter starts the first of its sources that waits. -/
theorem endOfEveryEvent : Obligations.EndOfEveryEvent := by
  refine ⟨fun s f htx => ?busySending, fun s b htx hbusy => ?busy, fun s r htx hbusy hreply => ?reply,
    fun s r rest htx hbusy hreply hqueue => ?report, fun s htx hbusy hreply hqueue => ?none⟩
  case busySending => simp only [settle, startFrame, htx]
  case busy => simp only [settle, startFrame, htx, hbusy, State.send, Result.bytes]; rfl
  case reply => simp only [settle, startFrame, htx, hbusy, hreply, State.send]
  case report => simp only [settle, startFrame, htx, hbusy, hreply, hqueue, State.send]
  case none => simp only [settle, startFrame, htx, hbusy, hreply, hqueue]

/-! ### The device held in reset -/

theorem runEvent_held {s : State} (h : s.resetPin = true) (f : State → State) : runEvent f s = .next s := by
  simp [runEvent, h]

theorem runEvent_running {s : State} (h : s.resetPin = false) (f : State → State) : runEvent f s = .next (settle (f s)) := by
  simp [runEvent, h]

/-- Settles O4: every other command is an event, and an event has no effect while the device is held. -/
theorem heldInResetNothingHappens : Obligations.HeldInResetNothingHappens := by
  intro c s hheld hon hassert hrelease hpin hestop hjog
  cases c with
  | powerOn => exact absurd rfl hon
  | resetPinAssert => exact absurd rfl hassert
  | resetPinRelease => exact absurd rfl hrelease
  | stationPinChange input level => exact absurd rfl (hpin input level)
  | estopAsserted => exact absurd rfl hestop
  | jogRelease d => exact absurd rfl (hjog d)
  | _ => exact runEvent_held hheld _

/-! ### The values after a reset -/

/-- Settles O5: every block of the reset state at its power-on value. -/
theorem resetValuesOfEveryBlock : Obligations.ResetValuesOfEveryBlock := by
  refine ⟨rfl, rfl, rfl, rfl, fun i => ?_, rfl, rfl, rfl, rfl, rfl, rfl, rfl, fun input => ?_, ?_⟩
  · rw [reset_span]
    decide
  · cases input <;> rfl
  · decide

end Sys2Proof.Machine
end

