-- ==== Sys2Proof/Proofs/Frames.lean ====
section
/-! PROOFS. The command link (R170 to R178, R182, R183): frames read back, the receiver, requests queued and taken, the end of a
frame, and the resets with the frame that follows them. -/

namespace Sys2Proof

/-! ### Payloads read back -/

theorem DeviceFields.read_payload (f : DeviceFields) : DeviceFields.read (Request.configureDevice f).payload = f := by
  obtain ⟨budget, stale, wo, wc, eth, tmin, tmax, fmax⟩ := f
  rw [DeviceFields.read, DeviceFields.mk.injEq]
  exact ⟨wordAt_enc16 budget, rfl, wordAt_enc16 wo, wordAt_enc16 wc, rfl, wordAt_enc16 tmin, rfl, rfl⟩

theorem AddressFields.read_payload (f : AddressFields) : AddressFields.read (Request.configureAddress f).payload = f := by
  obtain ⟨addr, role, slot, rail, branch, offset⟩ := f
  rw [AddressFields.read, AddressFields.mk.injEq]
  exact ⟨rfl, rfl, rfl, rfl, rfl, longAt_enc32 offset⟩

theorem ZoneFields.read_payload (f : ZoneFields) : ZoneFields.read (Request.configureZone f).payload = f := by
  obtain ⟨entry, inUse, spanA, a1, a2, spanB, b1, b2, tzw⟩ := f
  rw [ZoneFields.read, ZoneFields.mk.injEq]
  exact ⟨rfl, rfl, rfl, longAt_enc32 a1, longAt_enc32 a2, rfl, longAt_enc32 b1, longAt_enc32 b2, wordAt_enc16 tzw⟩

theorem WindFields.read_payload (f : WindFields) : WindFields.read (Request.configureWind f).payload = f := by
  obtain ⟨en1, k1, en2, k2, ws, wt, h, kmin, tdw⟩ := f
  rw [WindFields.read, WindFields.mk.injEq]
  exact ⟨rfl, wordAt_enc16 k1, rfl, wordAt_enc16 k2, wordAt_enc16 ws, wordAt_enc16 wt, wordAt_enc16 h, rfl, wordAt_enc16 tdw⟩

theorem SegmentFields.read_payload (f : SegmentFields) : SegmentFields.read (Request.appendSegment f).payload = f := by
  obtain ⟨slot, tag, target, cruise, accel, flags, dwell⟩ := f
  rw [SegmentFields.read, SegmentFields.mk.injEq]
  exact ⟨rfl, wordAt_enc16 tag, longAt_enc32 target, longAt_enc32 cruise, longAt_enc32 accel, rfl, wordAt_enc16 dwell⟩

theorem SpanFields.read_write (slot inUse : Byte) (f : SpanFields) : SpanFields.read (SpanFields.write slot inUse f) = f := by
  obtain ⟨rails, xmin, xmax, vmax, vb, ad, aq, c, jog, kp, tmax, kl, lmax, kdeg, sWarn, sStop, sTrip, fLim, tHold, tRel, g, m,
    lock1, lock2, lockTol, tLock, tProof, proofTorque, proofHold, creepLimit, autoProof, autoResume⟩ := f
  rw [SpanFields.read, SpanFields.mk.injEq]
  exact ⟨rfl, longAt_enc32 xmin, longAt_enc32 xmax, longAt_enc32 vmax, longAt_enc32 vb, longAt_enc32 ad, longAt_enc32 aq,
    longAt_enc32 c, longAt_enc32 jog, wordAt_enc16 kp, longAt_enc32 tmax, wordAt_enc16 kl, longAt_enc32 lmax, rfl,
    longAt_enc32 sWarn, longAt_enc32 sStop, longAt_enc32 sTrip, longAt_enc32 fLim, wordAt_enc16 tHold, rfl, rfl, rfl,
    longAt_enc32 lock1, longAt_enc32 lock2, longAt_enc32 lockTol, rfl, wordAt_enc16 tProof, rfl, rfl, longAt_enc32 creepLimit,
    rfl, rfl⟩

/-- A request's payload read under its own code is that request. -/
theorem readRequest_payload (r : Request) : readRequest r.code r.payload = some r := by
  cases r with
  | configureDevice f => exact congrArg (fun g => some (Request.configureDevice g)) f.read_payload
  | configureSpan slot inUse f => exact congrArg (fun g => some (Request.configureSpan slot inUse g)) (f.read_write slot inUse)
  | configureAddress f => exact congrArg (fun g => some (Request.configureAddress g)) f.read_payload
  | configureZone f => exact congrArg (fun g => some (Request.configureZone g)) f.read_payload
  | configureWind f => exact congrArg (fun g => some (Request.configureWind g)) f.read_payload
  | appendSegment f => exact congrArg (fun g => some (Request.appendSegment g)) f.read_payload
  | setReportMask mask => exact congrArg (fun g => some (Request.setReportMask g)) (wordAt_enc16 mask)
  | writeParameter addr index value =>
    exact congrArg (fun g => some (Request.writeParameter addr index g)) (wordAt_enc16 value)
  | _ => rfl

theorem parseFrame_frame (r : Request) (tag : Byte) : parseFrame (r.frame tag) = .request r := by
  simp only [parseFrame, Request.frame, Request.payload_length, readRequest_payload, if_true]

namespace Machine
open Safety

/-- Settles O7: the length of a request's payload is that of its code, and its layout reads back. -/
theorem requestFramesReadBack : Obligations.RequestFramesReadBack := parseFrame_frame

/-! ### The receiver (R173) -/

theorem receiveByte_hunting {s : State} (h : s.cmd.rx = .hunting) (b : Byte) : receiveByte b s = huntByte b s := by
  simp only [receiveByte, h]

theorem receiveByte_collecting {s : State} {alt : Bool} {bs : List Byte} (h : s.cmd.rx = .collecting alt bs) (b : Byte) :
    receiveByte b s = collectByte alt bs b s := by
  simp only [receiveByte, h]

/-- The byte after the sync byte is the LEN: one above 240 discards the frame. -/
theorem collectByte_len (alt : Bool) (b : Byte) (s : State) :
    collectByte alt [] b s = s.setRx (if 240 < b.toNat then .hunting else .collecting alt [b]) := by
  by_cases h : 240 < b.toNat <;> simp [collectByte, Config.payloadMax, frameLength, h]

/-- A byte before the last of a frame is kept. -/
theorem collectByte_inside (alt : Bool) {len : Byte} {bs : List Byte} (hlen : len.toNat ≤ 240)
    (hshort : bs.length + 2 ≠ len.toNat + 4) (b : Byte) (s : State) :
    collectByte alt (len :: bs) b s = s.setRx (.collecting alt (len :: bs ++ [b])) := by
  simp only [collectByte, List.cons_append, Config.payloadMax, List.length_cons, List.length_append, List.length_nil, frameLength]
  rw [if_neg (by omega), if_neg (by omega)]

/-- The last byte of a frame has the whole frame judged. -/
theorem collectByte_last (alt : Bool) {len : Byte} {bs : List Byte} (hlen : len.toNat ≤ 240)
    (hlast : bs.length + 2 = len.toNat + 4) (b : Byte) (s : State) :
    collectByte alt (len :: bs) b s = frameWhole alt (len :: bs ++ [b]) s := by
  simp only [collectByte, List.cons_append, Config.payloadMax, List.length_cons, List.length_append, List.length_nil, frameLength]
  rw [if_neg (by omega), if_pos (by omega)]

/-- The receiver set twice has its second condition. -/
theorem State.setRx_setRx (s : State) (r r' : Receiver) : (s.setRx r).setRx r' = s.setRx r' := rfl

theorem State.setRx_self {s : State} {r : Receiver} (h : s.cmd.rx = r) : s.setRx r = s := by
  subst h; rfl

/-- The bytes of a frame before its last are kept one by one. -/
theorem foldl_receiveByte_inside {alt : Bool} {len : Byte} (hlen : len.toNat ≤ 240) (s : State) (new : List Byte) :
    ∀ bs : List Byte, bs.length + new.length ≤ len.toNat + 2 →
      new.foldl (fun u b => receiveByte b u) (s.setRx (.collecting alt (len :: bs))) =
        s.setRx (.collecting alt (len :: bs ++ new)) := by
  induction new with
  | nil => simp
  | cons b new ih =>
    intro bs hroom
    rw [List.length_cons] at hroom
    rw [List.foldl_cons, receiveByte_collecting (alt := alt) (bs := len :: bs) rfl,
      collectByte_inside alt hlen (by omega), State.setRx_setRx, List.cons_append,
      ih (bs ++ [b]) (by simp; omega)]
    simp

/-- A frame's bytes before its CRC byte, received while hunting, stand in the receiver. -/
theorem foldl_receiveByte_frame {s : State} (hrx : s.cmd.rx = .hunting) (kind tag : Byte) {payload : List Byte}
    (hfits : payload.length ≤ 240) :
    ([0x5A, BitVec.ofNat 8 payload.length, kind, tag] ++ payload).foldl (fun u b => receiveByte b u) s =
      s.setRx (.collecting s.cmd.settings.crcAlt (BitVec.ofNat 8 payload.length :: kind :: tag :: payload)) := by
  have hlen : (BitVec.ofNat 8 payload.length).toNat = payload.length := by
    rw [BitVec.toNat_ofNat]; omega
  have hsync : receiveByte 0x5A s = s.setRx (.collecting s.cmd.settings.crcAlt []) := receiveByte_hunting hrx _
  rw [List.cons_append, List.foldl_cons, hsync, List.cons_append, List.foldl_cons,
    receiveByte_collecting (alt := s.cmd.settings.crcAlt) (bs := []) rfl, collectByte_len, hlen, if_neg (by omega),
    State.setRx_setRx, foldl_receiveByte_inside (by omega) s _ [] (by simp; omega)]
  rfl

/-- A whole frame with its own CRC arrives. -/
theorem frameWhole_good (alt : Bool) (kind tag : Byte) {payload : List Byte} (hfits : payload.length ≤ 240) (s : State) :
    frameWhole alt (BitVec.ofNat 8 payload.length :: kind :: tag :: payload ++ [frameCrc alt kind tag payload]) s =
      frameArrives { kind := kind, tag := tag, payload := payload } (s.setRx .hunting) := by
  have hlen : (BitVec.ofNat 8 payload.length).toNat = payload.length := by
    rw [BitVec.toNat_ofNat]; omega
  simp [frameWhole, byteAt, hlen]

/-- Settles O8: the bytes before the CRC stand in the receiver, and the CRC byte has the frame arrive. -/
theorem byteStreamDeliversTheFrame : Obligations.ByteStreamDeliversTheFrame := by
  intro s kind tag payload hrx hfits
  have hlen : (BitVec.ofNat 8 payload.length).toNat = payload.length := by
    rw [BitVec.toNat_ofNat]; omega
  rw [List.foldl_append, foldl_receiveByte_frame hrx kind tag hfits, List.foldl_cons, List.foldl_nil,
    receiveByte_collecting (alt := s.cmd.settings.crcAlt) rfl,
    collectByte_last _ (by omega) (by simp; omega), frameWhole_good _ kind tag hfits, State.setRx_setRx, State.setRx_self hrx]

/-- Settles O9: the receiver's cases, each at the end of its event. -/
theorem receiverBytesAndGaps : Obligations.ReceiverBytesAndGaps := by
  refine ⟨fun s b hrun hrx => ?_, fun s b hrun => ?_, fun s alt b hrun hrx => ?_, fun s alt len bs b hrun hrx hlen hshort => ?_⟩
  · exact (runEvent_running hrun _).trans (by rw [receiveByte_hunting hrx]; rfl)
  · exact runEvent_running hrun _
  · exact (runEvent_running hrun _).trans (by rw [receiveByte_collecting hrx, collectByte_len]; rfl)
  · exact (runEvent_running hrun _).trans (by rw [receiveByte_collecting hrx, collectByte_inside alt hlen hshort]; rfl)

/-! ### Frames received whole (R173, R175, R176) -/

section
variable {s : State} {kind tag crc : Byte} {payload : List Byte}

theorem receiveFrame_bad (h : crc ≠ frameCrc s.cmd.settings.crcAlt kind tag payload) :
    receiveFrame kind tag payload crc s = s.setRx .hunting := by
  simp [receiveFrame, Ne.symm h]

theorem receiveFrame_good (hfits : payload.length ≤ 240) :
    receiveFrame kind tag payload (frameCrc s.cmd.settings.crcAlt kind tag payload) s =
      frameArrives { kind := kind, tag := tag, payload := payload } (s.setRx .hunting) := by
  have hmax : payload.length ≤ Config.payloadMax := hfits
  simp [receiveFrame, hmax]

/-- With a reply in the buffer, or no request waiting, nothing is taken. -/
theorem takeRequest_idle (h : s.cmd.reply.isSome = true ∨ s.cmd.requests = []) : takeRequest s = s := by
  unfold takeRequest
  split
  · rename_i hreply hreq
    rcases h with h | h
    · rw [hreply] at h; cases h
    · rw [h] at hreq; cases hreq
  · rfl

end

/-- What an arrival makes of the Command Link Unit while a reply stands in the buffer. -/
theorem frameArrives_behind_reply {s : State} (h : s.cmd.reply.isSome = true) (f : ReqFrame) :
    frameArrives f s = { s with cmd := enqueue f s.cmd } := by
  refine takeRequest_idle (.inl ?_)
  show (enqueue f s.cmd).reply.isSome = true
  unfold enqueue
  split
  · exact h
  · split <;> exact h

/-- A good frame received behind a reply. -/
theorem exec_frameReceived_behind_reply {s : State} (hrun : s.resetPin = false) (hreply : s.cmd.reply.isSome = true)
    (kind tag : Byte) {payload : List Byte} (hfits : payload.length ≤ 240) :
    exec (.frameReceived kind tag payload (frameCrc s.cmd.settings.crcAlt kind tag payload)) s =
      .next (settle { s with cmd := enqueue ⟨kind, tag, payload⟩ { s.cmd with rx := .hunting } }) :=
  (runEvent_running hrun _).trans (by
    rw [receiveFrame_good hfits, frameArrives_behind_reply (by exact hreply)]; rfl)

/-- Settles O10: a wrong CRC leaves the receiver hunting, and a frame behind a reply is queued, held BUSY or discarded. -/
theorem receivedFramesQueueOrAreBusy : Obligations.ReceivedFramesQueueOrAreBusy := by
  intro s kind tag payload crc hrun hfits
  refine ⟨fun hbad => ?_, ?_⟩
  · exact (runEvent_running hrun _).trans (by rw [receiveFrame_bad hbad]; rfl)
  · rintro rfl hreply
    have hexec := exec_frameReceived_behind_reply hrun hreply kind tag hfits
    refine ⟨fun hroom => ?_, fun hfull hbusy => ?_, fun hfull hbusy => ?_⟩
    · simp [hexec, enqueue, Config.requestsMax, hroom]
    · simp [hexec, enqueue, Config.requestsMax, Nat.not_lt.2 hfull, hbusy]
    · obtain ⟨b, hb⟩ := Option.isSome_iff_exists.1 hbusy
      simp [hexec, enqueue, Config.requestsMax, Nat.not_lt.2 hfull, hb]

/-! ### Requests taken (R175) -/

/-- The head request taken while the reply buffer is empty. -/
theorem takeRequest_head {s : State} {f : ReqFrame} {rest : List ReqFrame} (hreply : s.cmd.reply = none)
    (hreq : s.cmd.requests = f :: rest) :
    takeRequest s = placeReply f.kind f.tag (judgeFrame f { s with cmd := { s.cmd with requests := rest } }) := by
  simp only [takeRequest, hreply, hreq]

/-- A frame that arrives where nothing waits is judged at once. -/
theorem frameArrives_free {s : State} (h : free s) (f : ReqFrame) :
    frameArrives f s = placeReply f.kind f.tag (judgeFrame f s) := by
  obtain ⟨-, hreply, hreq⟩ := h
  have henq : enqueue f s.cmd = { s.cmd with requests := [f] } := by
    simp [enqueue, hreq, Config.requestsMax]
  have hback : ({ s with cmd := { s.cmd with requests := [] } } : State) = s := by
    rw [← hreq]
  rw [frameArrives, henq]
  exact (takeRequest_head (s := { s with cmd := { s.cmd with requests := [f] } }) hreply rfl).trans (by rw [hback])

/-- A good frame received where nothing waits is judged and answered. -/
theorem exec_frameReceived_free {s : State} (h : free s) (hrx : s.cmd.rx = .hunting) (kind tag : Byte) {payload : List Byte}
    (hfits : payload.length ≤ 240) :
    let d := judgeFrame { kind := kind, tag := tag, payload := payload } s
    exec (.frameReceived kind tag payload (frameCrc s.cmd.settings.crcAlt kind tag payload)) s =
      .next (answered d.state (replyKind kind) tag d.result d.onSent) :=
  (runEvent_running h.1 _).trans (by
    rw [receiveFrame_good hfits, State.setRx_self hrx, frameArrives_free h, settle_placeReply])

theorem judgeFrame_frame (r : Request) (tag : Byte) (s : State) : judgeFrame (r.frame tag) s = perform r s := by
  simp only [judgeFrame, parseFrame_frame]

/-- Settles O11: a good frame is judged at its arrival: the request it carries, or one of the two refusals of its own. -/
theorem receivedRequestIsPerformed : Obligations.ReceivedRequestIsPerformed := by
  refine ⟨fun s r tag hfree hrx => ?_, fun s kind tag payload hfree hrx hfits hkind => ?_,
    fun s kind tag payload n hfree hrx hfits hkind hlen => ?_⟩
  · rw [exec_frameReceived_free hfree hrx r.code tag r.payload_fits, r.replyKind_code]
    have hjudge := judgeFrame_frame r tag s
    rw [Request.frame] at hjudge
    rw [hjudge]
  · have hjudge : judgeFrame { kind := kind, tag := tag, payload := payload } s = refuse s .unknownKind := by
      simp only [judgeFrame, parseFrame, hkind]
    have hreply : replyKind kind = 0xFF := by simp [replyKind, hkind]
    rw [exec_frameReceived_free hfree hrx kind tag hfits, hjudge, hreply]
    rfl
  · have hjudge : judgeFrame { kind := kind, tag := tag, payload := payload } s = refuse s .length := by
      simp only [judgeFrame, parseFrame, hkind, hlen, if_false]
    have hreply : replyKind kind = kind + 0x80 := by simp [replyKind, hkind]
    rw [exec_frameReceived_free hfree hrx kind tag hfits, hjudge, hreply]
    rfl

/-- Settles O12: the head request judged, its reply placed and the event ended. -/
theorem requestTakenFromTheQueue : Obligations.RequestTakenFromTheQueue := by
  refine ⟨fun s r tag rest hrun hreply hreq => ?_, fun s hrun hidle => ?_⟩
  · refine (runEvent_running hrun _).trans ?_
    rw [takeRequest_head hreply hreq, judgeFrame_frame, settle_placeReply, Request.frame, r.replyKind_code]
  · exact (runEvent_running hrun _).trans (by rw [takeRequest_idle hidle])

/-! ### Resets (R153, R170, R182) -/

/-- The mask of a hard reset enables every kind. -/
theorem mask_enables (r : Report) : (0x1FFF : BitVec 16).getLsbD r.index = true := by
  cases r <;> simp only [Report.index] <;> decide

/-- A report joins a queue with room, under the mask of a hard reset. -/
theorem ReportQueue.push_enabled {queue : List Report} (hroom : queue.length < Config.reportsMax) (r : Report) :
    ReportQueue.push { queue := queue, mask := 0x1FFF, dropped := false } r =
      { queue := queue ++ [r], mask := 0x1FFF, dropped := false } := by
  simp only [ReportQueue.push, mask_enables, hroom, if_true]

section
variable (cause : InitCause) (s : State)

/-- The device right after a hard reset: its values, and the MODE report queued. -/
theorem hardReset_eq : hardReset cause s = { State.reset with
    station := s.station.atReset, pending := s.pending, resetPin := s.resetPin, cmd := CommandLink.powerOn,
    plant := { Plant.powerOn with out := { queue := [.mode .init (.cause cause) 0], mask := 0x1FFF, dropped := false } } } := by
  exact congrArg (fun out => ({ State.reset with
    station := s.station.atReset, pending := s.pending, resetPin := s.resetPin, cmd := CommandLink.powerOn,
    plant := { Plant.powerOn with out := out } } : State)) (ReportQueue.push_enabled (queue := []) (by decide) _)

/-- No ESTOP asserted at the reset raises nothing. -/
theorem estopAtReset_released {s : State} (h : s.station.estop.val = false) : estopAtReset s = s := by
  simp [estopAtReset, h]

/-- An ESTOP asserted at the reset enters FAILSAFE, with its STATION and MODE reports behind that of the reset. -/
theorem estopAtReset_asserted (h : s.station.estop.pin = true) : estopAtReset (hardReset cause s) = { hardReset cause s with
    sup := { State.reset.sup with
      mode := .failsafe, window := some 0, f := 1,
      record := some { reason := .operatorStop, time := 0, toReady := false, later := [] } },
    plant := { Plant.powerOn with out := {
      queue := [.mode .init (.cause cause) 0, .station .estopAsserted 0, .mode .failsafe (.reason .operatorStop) 0],
      mask := 0x1FFF, dropped := false } } } := by
  have hval : (hardReset cause s).station.estop.val = true := h
  have hestop : ReportQueue.push { queue := [.mode .init (.cause cause) 0], mask := 0x1FFF, dropped := false }
      (.station .estopAsserted State.reset.time) = _ := ReportQueue.push_enabled (Nat.le_of_ble_eq_true rfl) _
  have hmode : ReportQueue.push
      { queue := [.mode .init (.cause cause) 0] ++ [.station .estopAsserted State.reset.time], mask := 0x1FFF, dropped := false }
      (.mode .failsafe (.reason .operatorStop) State.reset.time) = _ := ReportQueue.push_enabled (Nat.le_of_ble_eq_true rfl) _
  rw [estopAtReset, if_pos hval, estopAction, hardReset_eq]
  simp only [State.report, Plant.report]
  rw [hestop]
  simp only [raiseFailsafe]
  rw [enterFailsafe_eq, enterFailsafe_plant]
  simp only [Plant.report]
  rw [hmode]
  rfl

end

/-- Power-on with the RESET pin released. -/
theorem exec_powerOn_running {s : State} (h : s.resetPin = false) :
    exec .powerOn s = .next (settle (estopAtReset (hardReset .powerOn s))) := by
  have hrun : (hardReset .powerOn s).resetPin = false := h
  simp only [exec, execPowerOn, hrun, Bool.false_eq_true, if_false]

/-- Settles O6: the state after reset, with the first report sent, or held by the pin. -/
theorem powerOnAndResetPin : Obligations.PowerOnAndResetPin := by
  refine ⟨fun s hrun hpin => ?_, fun s => ?_, fun s hheld => ?_, fun s hheld hpin => ?_, fun s hrun hpin => ?_⟩
  · rw [exec_powerOn_running hrun, estopAtReset_released (by exact hpin), hardReset_eq, hrun]
    rfl
  · simp only [exec, execResetPinAssert, hardReset_eq]
  · have hheld' : (hardReset .powerOn s).resetPin = true := hheld
    simp only [exec, execPowerOn, hheld', if_true]
    rw [hardReset_eq, hheld]
  · have hval : ({ s with resetPin := false, station := s.station.atReset } : State).station.estop.val = false := hpin
    simp only [exec, execResetPinRelease, hheld, if_true, estopAtReset_released hval]
  · refine ⟨_, exec_powerOn_running hrun, ?_⟩
    rw [estopAtReset_asserted _ s hpin]
    exact ⟨rfl, rfl, rfl, rfl⟩

/-! ### The end of a frame (R174, R175, R178) -/

/-- The end of a reply's frame: what its acceptance left is done, and the next request is taken. -/
theorem frameEnds_reply {s : State} {f : TxFrame} {r : Reply} (htx : s.cmd.tx = some f) (hsource : f.source = .reply)
    (hreply : s.cmd.reply = some r) :
    frameEnds s = takeRequest (afterReply r.onSent { s with cmd := { s.cmd with tx := none, reply := none } }) := by
  simp only [frameEnds, htx, hsource, hreply]

/-- Settles O13: the source of the frame is freed, and after a reply what it left is done. -/
theorem frameSentFreesItsSource : Obligations.FrameSentFreesItsSource := by
  refine ⟨fun s hrun htx => ?idle, fun s f hrun htx hsource => ?report, fun s f hrun htx hsource => ?busy,
    fun s f r hrun htx hsource hreply => ?reply⟩
  case idle => exact (runEvent_running hrun _).trans (by simp only [frameEnds, htx])
  case report => exact (runEvent_running hrun _).trans (by simp only [frameEnds, htx, hsource])
  case busy => exact (runEvent_running hrun _).trans (by simp only [frameEnds, htx, hsource])
  case reply =>
    have hexec : exec .frameSent s = .next (settle
        (takeRequest (afterReply r.onSent { s with cmd := { s.cmd with tx := none, reply := none } }))) :=
      (runEvent_running hrun _).trans (by rw [frameEnds_reply htx hsource hreply])
    have hidle : ∀ u : State, u.cmd = CommandLink.powerOn → takeRequest u = u := fun u h => takeRequest_idle (.inr (by rw [h]; rfl))
    refine ⟨fun h => ?_, fun l h => ?_, fun h hpin => ?_, fun h hpin => ?_⟩
    · rw [hexec, h]; rfl
    · rw [hexec, h]; rfl
    · rw [hexec, h, afterReply, estopAtReset_released (by exact hpin), hidle _ rfl, hardReset_eq]
      simp only [hrun]
      rfl
    · refine ⟨_, hexec, ?_⟩
      rw [h, afterReply, estopAtReset_asserted _ _ (by exact hpin), hidle _ rfl]
      exact ⟨rfl, rfl, rfl, rfl, rfl, rfl, rfl, rfl⟩

end Machine
end Sys2Proof
end

