-- ==== Sys2Proof/Proofs/Configuration.lean ====
section
/-! PROOFS. The configuration requests (R2 to R9, R130, R144, R159): what the slot, the mode and the ranges of a request make of
it, the store it leaves, and the obligations assembled from them. -/

namespace Sys2Proof.Machine
open Safety

/-! ### Fields and their ranges -/

section
variable {w : Nat} {a : BitVec w} {b : Byte} {lo hi : Nat}

theorem fits_of (hlo : lo ≤ a.toNat) (hhi : a.toNat ≤ hi) : fits lo hi a = true := (fits_eq_true_iff lo hi a).2 ⟨hlo, hhi⟩

theorem fits_eq_false (h : a.toNat < lo ∨ hi < a.toNat) : fits lo hi a = false := by
  rw [Bool.eq_false_iff, ne_eq, fits_eq_true_iff]
  omega

theorem slotOf_eq_some {i : Slot} : slotOf b = some i ↔ b.toNat = i.val := by
  have hi := i.isLt
  simp only [slotOf]
  split
  · simp [Fin.ext_iff]
  · simp; omega

theorem slotOf_eq_none : slotOf b = none ↔ 3 < b.toNat := by
  simp only [slotOf]
  split
  · simp; omega
  · simp; omega

theorem slotOf_isSome : (slotOf b).isSome = true ↔ b.toNat ≤ 3 := by
  cases h : slotOf b with
  | none =>
    have hout := slotOf_eq_none.1 h
    exact ⟨fun hsome => (nomatch hsome), fun hin => by omega⟩
  | some i =>
    have hin := slotOf_eq_some.1 h
    exact ⟨fun _ => by omega, fun _ => rfl⟩

theorem fits_slot {i : Slot} (h : slotOf b = some i) : fits 0 3 b = true := by
  have := slotOf_eq_some.1 h
  exact fits_of (Nat.zero_le _) (by omega)

theorem fits_noSlot (h : slotOf b = none) : fits 0 3 b = false := fits_eq_false (.inr (slotOf_eq_none.1 h))

theorem ofNat_slot {i : Slot} (h : slotOf b = some i) : Fin.ofNat 4 b.toNat = i := by
  rw [slotOf_eq_some.1 h]
  exact Fin.ext (Nat.mod_eq_of_lt i.isLt)

theorem posFits_eq_true {v : BitVec 32} : posFits v = true ↔ -2000000000 ≤ v.toInt ∧ v.toInt ≤ 2000000000 := by
  simp [posFits, inRange]

theorem yesNoFits_eq_true : yesNoFits b = true ↔ b.toNat ≤ 1 := by simp [yesNoFits]

theorem byte_eq_iff {n : Nat} (hn : n < 256) : b = BitVec.ofNat 8 n ↔ b.toNat = n := by
  rw [← BitVec.toNat_inj, BitVec.toNat_ofNat, Nat.mod_eq_of_lt hn]

theorem byte_eq_zero : b = 0 ↔ b.toNat = 0 := byte_eq_iff (by decide)
theorem byte_eq_one : b = 1 ↔ b.toNat = 1 := byte_eq_iff (by decide)
theorem byte_eq_two : b = 2 ↔ b.toNat = 2 := byte_eq_iff (by decide)

end

/-! ### The mode and the ranges of a configuration request -/

section
variable {s : State} {ok : Bool} {act : State → Done}

theorem configRequest_done (hinit : s.sup.mode = .init) (hok : ok = true) : configRequest s ok act = act s := by
  simp [configRequest, hinit, hok]

theorem configRequest_range (hinit : s.sup.mode = .init) (hok : ok = false) : configRequest s ok act = refuse s .range := by
  simp [configRequest, hinit, hok]

theorem configRequest_mode (hmode : s.sup.mode ≠ .init) : configRequest s ok act = refuse s .mode := by
  simp [configRequest, hmode]

end

/-! ### CONFIGURE BRANCH, CONFIGURE RAIL and CONFIGURE DEVICE (R4, R7, R159) -/

theorem DeviceFields.inRange_iff (f : DeviceFields) : f.inRange = true ↔
    (300 ≤ f.budget.toNat ∧ f.budget.toNat ≤ 600) ∧ (2 ≤ f.stale.toNat ∧ f.stale.toNat ≤ 20) ∧
    (50 ≤ f.wo.toNat ∧ f.wo.toNat ≤ 9999) ∧ (f.wo.toNat + 1 ≤ f.wc.toNat ∧ f.wc.toNat ≤ 10000) ∧
    (1 ≤ f.eth.toNat ∧ f.eth.toNat ≤ 15) ∧ (20 ≤ f.tmin.toNat ∧ f.tmin.toNat ≤ 500) ∧
    (1 ≤ f.tmax.toNat ∧ f.tmax.toNat ≤ 30) := by
  simp only [DeviceFields.inRange, Bool.and_eq_true, fits_eq_true_iff, and_assoc]

/-- The range judgement of CONFIGURE RAIL: the slot, the rail below the slot's rail count, and the two counts (R7). -/
theorem railFits_iff (rails : Nat) (slot rail n m : Byte) :
    (fits 0 3 slot && decide (rail.toNat < rails) && decide (rail.toNat < 4) && fits 1 8 n && fits 1 n.toNat m) = true ↔
      slot.toNat ≤ 3 ∧ rail.toNat < rails ∧ rail.toNat < 4 ∧ (1 ≤ n.toNat ∧ n.toNat ≤ 8) ∧
      (1 ≤ m.toNat ∧ m.toNat ≤ n.toNat) := by
  simp only [Bool.and_eq_true, fits_eq_true_iff, decide_eq_true_eq, Nat.zero_le, true_and, and_assoc]

/-- CONFIGURE RAIL with a field out of range. -/
theorem railRange {s : State} {slot rail n m : Byte} (hinit : s.sup.mode = .init)
    (h : ¬ (slot.toNat ≤ 3 ∧ (∃ sc, s.cfg.spans.get (Fin.ofNat 4 slot.toNat) = some sc ∧ rail.toNat < sc.rails) ∧
      rail.toNat < 4 ∧ (1 ≤ n.toNat ∧ n.toNat ≤ 8) ∧ (1 ≤ m.toNat ∧ m.toNat ≤ n.toNat))) :
    perform (.configureRail slot rail n m) s = refuse s .range := by
  rw [perform, doConfigureRail]
  refine configRequest_range hinit ?_
  rw [Bool.eq_false_iff, ne_eq, railFits_iff]
  cases hsc : s.cfg.spans.get (Fin.ofNat 4 slot.toNat) with
  | none => exact fun ⟨_, hrail, _⟩ => Nat.not_lt_zero _ hrail
  | some sc => exact fun ⟨hslot, hrail, hcounts⟩ => h ⟨hslot, ⟨sc, hsc, hrail⟩, hcounts⟩

/-- Settles O14: each request stored, or refused by its ranges or its mode. -/
theorem branchRailAndDeviceConfigured : Obligations.BranchRailAndDeviceConfigured := by
  refine ⟨fun s tag branch w b hfree hinit hslot hlo hhi => ?branch, fun s tag branch w hfree hinit hbad => ?branchRange,
    fun s tag slot rail n m i r sc hfree hinit hslot hrail hsc hr hnlo hnhi hmlo hmhi => ?rail,
    fun s tag slot rail n m i hfree hinit hslot hsc => ?railUnused, fun s tag slot rail n m hfree hinit hbad => ?railRange,
    fun s tag f hfree hinit hb1 hb2 hs1 hs2 hwo1 hwo2 hwc1 hwc2 he1 he2 hn1 hn2 hx1 hx2 => ?device,
    fun s tag f hfree hinit hbad => ?deviceRange, fun s tag a b c d f hfree hmode => ⟨?_, ?_, ?_⟩⟩
  case branch =>
    have hok : (fits 0 3 branch && fits 1 7 w) = true := by rw [fits_slot hslot, fits_of hlo hhi]; rfl
    have hdone : perform (.configureBranch branch w) s =
        accept { s with cfg := { s.cfg with branches := s.cfg.branches.set b (some w.toNat) } } := by
      rw [perform, doConfigureBranch, ofNat_slot hslot]
      exact configRequest_done hinit hok
    exact request_done tag hfree hdone
  case branchRange =>
    have hok : (fits 0 3 branch && fits 1 7 w) = false := by
      rcases hbad with h | h
      · rw [fits_noSlot h, Bool.false_and]
      · rw [fits_eq_false (a := w) (by omega), Bool.and_false]
    exact request_done tag hfree (r := .configureBranch branch w) (show doConfigureBranch branch w s = _ from configRequest_range hinit hok)
  case rail =>
    have hrail' := slotOf_eq_some.1 hrail
    have hslot' := slotOf_eq_some.1 hslot
    have hdone : perform (.configureRail slot rail n m) s = accept { s with cfg := { s.cfg with
        rails := s.cfg.rails.set i ((s.cfg.rails.get i).set r (some { n := n.toNat, minValid := m.toNat })) } } := by
      simp only [perform, doConfigureRail, ofNat_slot hslot, ofNat_slot hrail, hsc]
      exact configRequest_done hinit ((railFits_iff ..).2 ⟨by omega, by omega, by omega, ⟨hnlo, hnhi⟩, hmlo, hmhi⟩)
    exact request_done tag hfree hdone
  case railUnused =>
    refine request_done tag hfree (railRange hinit ?_)
    rintro ⟨-, ⟨sc, hsc', -⟩, -⟩
    rw [ofNat_slot hslot, hsc] at hsc'
    cases hsc'
  case railRange =>
    refine request_done tag hfree (railRange hinit ?_)
    rcases hbad with h | ⟨i, sc, hslot, hsc, hr⟩ | h
    · have := slotOf_eq_none.1 h
      omega
    · rintro ⟨-, ⟨sc', hsc', hr'⟩, -⟩
      rw [ofNat_slot hslot, hsc, Option.some.injEq] at hsc'
      subst hsc'
      omega
    · omega
  case device =>
    exact request_done tag hfree (r := .configureDevice f) (show doConfigureDevice f s = _ from configRequest_done hinit ((DeviceFields.inRange_iff f).2
      ⟨⟨hb1, hb2⟩, ⟨hs1, hs2⟩, ⟨hwo1, hwo2⟩, ⟨hwc1, hwc2⟩, ⟨he1, he2⟩, ⟨hn1, hn2⟩, hx1, hx2⟩))
  case deviceRange =>
    refine request_done tag hfree (r := .configureDevice f) (show doConfigureDevice f s = _ from configRequest_range hinit ?_)
    rw [Bool.eq_false_iff, ne_eq, DeviceFields.inRange_iff]
    omega
  · exact request_done tag hfree (r := .configureBranch a b) (show doConfigureBranch a b s = _ from configRequest_mode hmode)
  · have hdone : perform (.configureRail a b c d) s = refuse s .mode := by
      rw [perform, doConfigureRail]
      exact configRequest_mode hmode
    exact request_done tag hfree hdone
  · exact request_done tag hfree (r := .configureDevice f) (show doConfigureDevice f s = _ from configRequest_mode hmode)

/-! ### CONFIGURE SPAN (R5, R6) -/

/-- The range judgement of CONFIGURE SPAN by its in-use byte. -/
theorem spanFits_inUse (slot : Byte) (f : SpanFields) :
    (fits 0 3 slot && yesNoFits 1 && ((1 : Byte) == 0 || f.inRange)) = (fits 0 3 slot && f.inRange) := by
  simp [yesNoFits]

theorem spanFits_removed (slot : Byte) (f : SpanFields) :
    (fits 0 3 slot && yesNoFits 0 && ((0 : Byte) == 0 || f.inRange)) = fits 0 3 slot := by
  simp [yesNoFits]

/-- The store after CONFIGURE SPAN, by whether the slot was in use (R5). -/
theorem storeSpan_eq (i : Slot) (f : SpanFields) (s : State) : storeSpan i f.record s = { s with
    cfg := { s.cfg with
      spans := s.cfg.spans.set i (some f.record),
      rails := s.cfg.rails.set i (Quad.ofFn (fun r => if r.val < f.rails.toNat then (s.cfg.rails.get i).get r else none)) },
    plant := s.plant.setSpan i { s.plant.span i with
      proof := match s.cfg.spans.get i with
        | some _ => (s.plant.span i).proof
        | none => { intervalMs := f.tProof.toNat * 3600000, run := .running, owed := 0, unproven := true,
                    relock := true, due := false, last := none, nextDir := .pos } } } := by
  cases h : s.cfg.spans.get i <;> simp only [storeSpan, h] <;> rfl

/-- Settles O15: the slot stored, removed, or refused. -/
theorem spanSlotConfiguredAndRemoved : Obligations.SpanSlotConfiguredAndRemoved := by
  refine ⟨fun s tag slot i f hfree hinit hslot hok => ?stored, fun f => ⟨rfl, rfl, rfl, rfl, rfl⟩,
    fun s tag slot f hfree hinit hbad => ?range, fun s tag slot i hfree hinit hslot => ?removed,
    fun s tag slot f hfree hmode => ⟨?_, ?_⟩⟩
  case stored =>
    have hfit : (fits 0 3 slot && yesNoFits 1 && ((1 : Byte) == 0 || f.inRange)) = true := by
      rw [spanFits_inUse, fits_slot hslot, hok]; rfl
    have hdone : perform (.configureSpan slot 1 f) s = Done.mk (storeSpan i f.record s)
        (if f.stored = f then .ok [] else .okClamped (SpanFields.write slot 1 f.stored)) .nothing := by
      refine (show doConfigureSpan slot 1 f s = _ from configRequest_done hinit hfit).trans ?_
      simp only [ofNat_slot hslot, show ((1 : Byte) == 0) = false from rfl, Bool.false_eq_true, if_false]
      split <;> rfl
    rw [storeSpan_eq] at hdone
    exact request_done tag hfree hdone
  case range =>
    refine request_done tag hfree (r := .configureSpan slot 1 f) (show doConfigureSpan slot 1 f s = _ from configRequest_range hinit ?_)
    rw [spanFits_inUse]
    rcases hbad with h | h
    · rw [fits_noSlot h, Bool.false_and]
    · rw [h, Bool.and_false]
  case removed =>
    have hdone : perform (.configureSpan slot 0 SpanFields.zero) s = accept (removeSpan i s) := by
      refine (show doConfigureSpan slot 0 SpanFields.zero s = _ from
        configRequest_done hinit ((spanFits_removed ..).trans (fits_slot hslot))).trans ?_
      simp only [ofNat_slot hslot, show ((0 : Byte) == 0) = true from rfl, if_true]
    refine ⟨fun hsc => ?_, fun hsc => ?_⟩
    · rw [removeSpan, hsc] at hdone
      exact request_done tag hfree hdone
    · rw [removeSpan, hsc] at hdone
      exact request_done tag hfree hdone
  · exact request_done tag hfree (r := .configureSpan slot 1 f) (show doConfigureSpan slot 1 f s = _ from configRequest_mode hmode)
  · exact request_done tag hfree (r := .configureSpan slot 0 SpanFields.zero) (show doConfigureSpan slot 0 SpanFields.zero s = _ from configRequest_mode hmode)

/-! ### CONFIGURE ADDRESS (R8, R9) -/

theorem BogieLink.find_insertAddr_self (a : AddrRec) (as : List AddrRec) :
    (insertAddr a as).find? (fun b => b.addr == a.addr) = some a := by
  induction as with
  | nil => simp [insertAddr]
  | cons b rest ih =>
    simp only [insertAddr]
    split
    · simp
    · split
      · simp
      · rename_i hne
        simpa [Ne.symm hne] using ih

theorem BogieLink.find_insertAddr_ne (a : AddrRec) {n : Nat} (h : n ≠ a.addr) (as : List AddrRec) :
    (insertAddr a as).find? (fun b => b.addr == n) = as.find? (fun b => b.addr == n) := by
  induction as with
  | nil => simp [insertAddr, Ne.symm h]
  | cons b rest ih =>
    simp only [insertAddr]
    split
    · simp [Ne.symm h]
    · split
      · rename_i heq
        simp [Ne.symm h, ← heq]
      · simp [List.find?_cons, ih]

theorem BogieLink.find_filter_self (n : Nat) (as : List AddrRec) :
    (as.filter (fun a => a.addr != n)).find? (fun a => a.addr == n) = none := by
  simp [List.find?_eq_none]

theorem BogieLink.find_filter_ne {n m : Nat} (h : m ≠ n) (as : List AddrRec) :
    (as.filter (fun a => a.addr != n)).find? (fun a => a.addr == m) = as.find? (fun a => a.addr == m) := by
  rw [List.find?_filter]
  congr 1
  funext a
  by_cases ha : a.addr = m <;> simp [ha, h]

/-- What the removal of an address leaves: the other records, with a reply in progress of that address discarded (R9). -/
theorem BogieLink.remove_spec (l : BogieLink) (n : Nat) :
    l.remove n = { l with addrs := (l.remove n).addrs, cycle := (l.remove n).cycle } ∧ (l.remove n).find n = none ∧
    (∀ m, m ≠ n → (l.remove n).find m = l.find m) ∧ (l.find n = none → l.remove n = l) := by
  unfold BogieLink.remove
  split
  · rename_i h
    refine ⟨rfl, BogieLink.find_filter_self n l.addrs, fun m hm => BogieLink.find_filter_ne hm l.addrs, fun hn => ?_⟩
    rw [hn] at h
    cases h
  · rename_i h
    exact ⟨rfl, by simpa using h, fun _ _ => rfl, fun _ => rfl⟩

theorem AddressFields.inRange_iff (f : AddressFields) : f.inRange = true ↔
    (1 ≤ f.addr.toNat ∧ f.addr.toNat ≤ 64) ∧ (1 ≤ f.role.toNat ∧ f.role.toNat ≤ 2) ∧ f.slot.toNat ≤ 3 ∧
    (f.role = 2 ∨ f.rail.toNat ≤ 3) ∧ f.branch.toNat ≤ 3 ∧
    (f.role = 2 ∨ (-2000000000 ≤ f.offset.toInt ∧ f.offset.toInt ≤ 2000000000)) := by
  simp only [AddressFields.inRange, Bool.and_eq_true, Bool.or_eq_true, fits_eq_true_iff, posFits_eq_true, beq_iff_eq,
    Nat.zero_le, true_and, and_assoc]

theorem roleOf_zero : roleOf 0 = none := rfl

/-- CONFIGURE ADDRESS with a role, accepted. -/
theorem perform_configureAddress_role {s : State} {f : AddressFields} {role : Role} (hinit : s.sup.mode = .init)
    (hrole : roleOf f.role = some role) (hok : f.inRange = true) :
    perform (.configureAddress f) s =
      accept { s with plant := { s.plant with link := s.plant.link.configure (f.record role) } } := by
  have hne : (f.role == 0) = false := by
    rw [beq_eq_false_iff_ne]
    intro h
    rw [h] at hrole
    cases hrole
  refine (show doConfigureAddress f s = _ from configRequest_done hinit (by rw [hne]; exact hok)).trans ?_
  simp only [storeAddress, hrole]

/-- CONFIGURE ADDRESS with role NONE, accepted. -/
theorem perform_configureAddress_none {s : State} {f : AddressFields} (hinit : s.sup.mode = .init)
    (hrole : f.role = 0) (hlo : 1 ≤ f.addr.toNat) (hhi : f.addr.toNat ≤ 64) :
    perform (.configureAddress f) s =
      accept { s with plant := { s.plant with link := s.plant.link.remove f.addr.toNat } } := by
  refine (show doConfigureAddress f s = _ from configRequest_done hinit (by rw [hrole]; exact fits_of hlo hhi)).trans ?_
  simp only [storeAddress, hrole, roleOf_zero]

theorem perform_configureAddress_range {s : State} {f : AddressFields} (hinit : s.sup.mode = .init)
    (h : f.addr.toNat = 0 ∨ 64 < f.addr.toNat ∨ (f.role ≠ 0 ∧ f.inRange = false)) :
    perform (.configureAddress f) s = refuse s .range := by
  refine (show doConfigureAddress f s = _ from configRequest_range hinit ?_)
  by_cases hrole : f.role = 0
  · rw [hrole]
    refine fits_eq_false ?_
    rcases h with h | h | ⟨h, -⟩
    · omega
    · exact .inr h
    · exact absurd hrole h
  · rw [if_neg (by simpa using hrole)]
    rcases h with h | h | ⟨-, h⟩
    · rw [Bool.eq_false_iff, ne_eq, AddressFields.inRange_iff]; omega
    · rw [Bool.eq_false_iff, ne_eq, AddressFields.inRange_iff]; omega
    · exact h

/-- Settles O16: one record put in its place or taken out, the others as they were. -/
theorem addressConfiguredAndRemoved : Obligations.AddressConfiguredAndRemoved := by
  refine ⟨fun s tag f i r b hfree hinit hlo hhi hslot hbranch hrole => ?configured,
    fun s tag addr hfree hinit hlo hhi => ?removed, fun s tag addr f hfree hinit => ⟨fun hbad => ?_, fun hbad => ?_,
      fun hrole hlo hhi => ?_⟩, fun s tag addr f hfree hmode => ⟨?_, ?_⟩⟩
  case configured =>
    have hslot' := slotOf_eq_some.1 hslot
    have hbranch' := slotOf_eq_some.1 hbranch
    obtain ⟨role, hcode, hok, hrec⟩ : ∃ role, roleOf f.role = some role ∧ f.inRange = true ∧ f.record role =
        { addr := f.addr.toNat, role := if f.role = 1 then .bogie else .lockUnit, slot := i, rail := r, branch := b,
          offset := if f.role = 1 then f.offset.toInt else 0, link := .unknown, last := none, age := 0, miss := 0, good := 0,
          valid := false, loadTrim := 0, command := 0 } := by
      rcases hrole with ⟨hone, hrail, hoff⟩ | ⟨htwo, rfl⟩
      · have hrail' := slotOf_eq_some.1 hrail
        refine ⟨.bogie, by rw [hone]; rfl, ?_, ?_⟩
        · rw [AddressFields.inRange_iff, hone]
          exact ⟨⟨hlo, hhi⟩, by decide, by omega, .inr (by omega), by omega, .inr hoff⟩
        · simp only [AddressFields.record, ofNat_slot hslot, ofNat_slot hbranch, ofNat_slot hrail, hone, if_true]
      · refine ⟨.lockUnit, by rw [htwo]; rfl, ?_, ?_⟩
        · rw [AddressFields.inRange_iff, htwo]
          exact ⟨⟨hlo, hhi⟩, by decide, by omega, .inl rfl, by omega, .inl rfl⟩
        · simp only [AddressFields.record, ofNat_slot hslot, ofNat_slot hbranch, htwo]
          rfl
    refine ⟨s.plant.link.configure (f.record role),
      request_done tag hfree (perform_configureAddress_role hinit hcode hok), rfl, ?_, fun a ha => ?_⟩
    · rw [← hrec]
      exact BogieLink.find_insertAddr_self (f.record role) s.plant.link.addrs
    · exact BogieLink.find_insertAddr_ne (f.record role) ha s.plant.link.addrs
  case removed =>
    obtain ⟨hkept, hgone, hothers, hnone⟩ := BogieLink.remove_spec s.plant.link addr.toNat
    have hdone := request_done tag hfree
      (perform_configureAddress_none (f := { addr := addr, role := 0, slot := 0, rail := 0, branch := 0, offset := 0 })
        hinit rfl hlo hhi)
    refine ⟨fun hfind => ?_, _, hdone, hkept, hgone, hothers⟩
    rw [hnone hfind] at hdone
    exact hdone
  · exact request_done tag hfree (perform_configureAddress_range
      (f := { addr := addr, role := 0, slot := 0, rail := 0, branch := 0, offset := 0 }) hinit (hbad.imp_right .inl))
  · refine request_done tag hfree (perform_configureAddress_range hinit ?_)
    simp only [byte_eq_zero, byte_eq_one, slotOf_eq_none, Bool.eq_false_iff, ne_eq, AddressFields.inRange_iff, byte_eq_two] at hbad ⊢
    omega
  · have h1 := request_done tag hfree (perform_configureAddress_none hinit hrole hlo hhi)
    have h2 := request_done tag hfree (perform_configureAddress_none
      (f := { addr := f.addr, role := 0, slot := 0, rail := 0, branch := 0, offset := 0 }) hinit rfl hlo hhi)
    exact h1.trans h2.symm
  · exact request_done tag hfree (r := .configureAddress f) (show doConfigureAddress f s = _ from configRequest_mode hmode)
  · exact request_done tag hfree
      (r := .configureAddress { addr := addr, role := 0, slot := 0, rail := 0, branch := 0, offset := 0 })
      (show doConfigureAddress _ s = _ from configRequest_mode hmode)

/-! ### CONFIGURE ZONE and CONFIGURE WIND (R130, R144) -/

theorem find_insertZone_self (z : ZoneEntry) (zs : List ZoneEntry) :
    (insertZone z zs).find? (fun y => y.entry == z.entry) = some z := by
  induction zs with
  | nil => simp [insertZone]
  | cons y rest ih =>
    simp only [insertZone]
    split
    · simp
    · split
      · simp
      · rename_i hne
        simpa [Ne.symm hne] using ih

theorem find_insertZone_ne (z : ZoneEntry) {n : Nat} (h : n ≠ z.entry) (zs : List ZoneEntry) :
    (insertZone z zs).find? (fun y => y.entry == n) = zs.find? (fun y => y.entry == n) := by
  induction zs with
  | nil => simp [insertZone, Ne.symm h]
  | cons y rest ih =>
    simp only [insertZone]
    split
    · simp [Ne.symm h]
    · split
      · rename_i heq
        simp [Ne.symm h, ← heq]
      · simp [List.find?_cons, ih]

theorem find_filterZone_ne {n m : Nat} (h : m ≠ n) (zs : List ZoneEntry) :
    (zs.filter (fun z => z.entry != n)).find? (fun z => z.entry == m) = zs.find? (fun z => z.entry == m) := by
  rw [List.find?_filter]
  congr 1
  funext z
  by_cases hz : z.entry = m <;> simp [hz, h]

theorem ZoneFields.inRange_iff (f : ZoneFields) : f.inRange = true ↔
    f.entry.toNat ≤ 15 ∧ f.inUse.toNat ≤ 1 ∧ f.spanA.toNat ≤ 3 ∧
    (-2000000000 ≤ f.a1.toInt ∧ f.a1.toInt ≤ 2000000000) ∧ (-2000000000 ≤ f.a2.toInt ∧ f.a2.toInt ≤ 2000000000) ∧
    f.spanB.toNat ≤ 3 ∧ (-2000000000 ≤ f.b1.toInt ∧ f.b1.toInt ≤ 2000000000) ∧
    (-2000000000 ≤ f.b2.toInt ∧ f.b2.toInt ≤ 2000000000) ∧ (10 ≤ f.tzw.toNat ∧ f.tzw.toNat ≤ 600) := by
  simp only [ZoneFields.inRange, Bool.and_eq_true, fits_eq_true_iff, posFits_eq_true, yesNoFits_eq_true, Nat.zero_le,
    true_and, and_assoc]

theorem WindFields.inRange_iff (f : WindFields) : f.inRange = true ↔
    f.en1.toNat ≤ 1 ∧ (f.en1 = 0 ∨ (10 ≤ f.k1.toNat ∧ f.k1.toNat ≤ 2000)) ∧
    f.en2.toNat ≤ 1 ∧ (f.en2 = 0 ∨ (10 ≤ f.k2.toNat ∧ f.k2.toNat ≤ 2000)) ∧ f.ws.toNat ≤ 2000 ∧
    (1 ≤ f.wt.toNat ∧ f.wt.toNat ≤ 2000) ∧ f.h.toNat ≤ 1000 ∧ (10 ≤ f.kmin.toNat ∧ f.kmin.toNat ≤ 100) ∧
    (60 ≤ f.tdw.toNat ∧ f.tdw.toNat ≤ 1800) := by
  simp only [WindFields.inRange, Bool.and_eq_true, Bool.or_eq_true, fits_eq_true_iff, yesNoFits_eq_true, beq_iff_eq,
    Nat.zero_le, true_and, and_assoc]

/-- An anemometer under a change of its enable, by the table of R144. -/
theorem Anemometer.enableTo_spec (en : Byte) (a : Anemometer) :
    (en = 1 → a.status = .disabled → (a.enableTo (yes en)).status = .empty ∧ (a.enableTo (yes en)).ring = []) ∧
    (en = 1 → a.status ≠ .disabled → a.enableTo (yes en) = a) ∧
    (en = 0 → (a.enableTo (yes en)).status = .disabled ∧ (a.enableTo (yes en)).ring = []) := by
  refine ⟨?_, ?_, ?_⟩
  · rintro rfl hs
    simp [enableTo, yes, hs]
  · rintro rfl hs
    cases h : a.status <;> simp_all [enableTo, yes]
  · rintro rfl
    exact ⟨rfl, rfl⟩

/-- CONFIGURE ZONE accepted or refused by the ranges of the fields that are judged. -/
theorem perform_configureZone_done {s : State} {f : ZoneFields} (hinit : s.sup.mode = .init)
    (hok : (if f.inUse == 0 then fits 0 15 f.entry else f.inRange) = true) :
    perform (.configureZone f) s = accept (storeZone f s) :=
  show doConfigureZone f s = _ from configRequest_done hinit hok

/-- Settles O17: entries stored and removed, the wind record stored with its anemometers, and the refusals. -/
theorem zoneAndWindConfigured : Obligations.ZoneAndWindConfigured := by
  refine ⟨fun s tag f hfree hinit huse hok => ?zone, fun s tag f hfree hinit huse hentry => ?absent,
    fun s tag f hfree hinit hok => ?wind, fun s tag f hfree hinit hbad => ?zoneRange,
    fun s tag f hfree hinit hbad => ?windRange, fun f huse hentry hA hB htlo hthi hpos => ?zoneFits,
    fun f h1 h2 hws hwt1 hwt2 hh hk1 hk2 ht1 ht2 => ?windFits, fun s tag f w hfree hmode => ⟨?_, ?_⟩⟩
  case zone =>
    have hdone := perform_configureZone_done (f := f) hinit (by rw [huse]; exact hok)
    rw [storeZone, huse] at hdone
    refine ⟨insertZone f.record s.plant.zones, request_done tag hfree hdone, find_insertZone_self f.record _, rfl, rfl, rfl,
      fun e he => find_insertZone_ne f.record he _⟩
  case absent =>
    have hdone := perform_configureZone_done (f := f) hinit (by rw [huse]; exact fits_of (Nat.zero_le _) hentry)
    rw [storeZone, huse] at hdone
    refine ⟨s.plant.zones.filter (fun z => z.entry != f.entry.toNat), request_done tag hfree hdone, ?_,
      fun e he => find_filterZone_ne he _⟩
    simp [List.find?_eq_none]
  case wind =>
    obtain ⟨ha1, ha2, ha3⟩ := Anemometer.enableTo_spec f.en1 s.wind.an1
    obtain ⟨hb1, hb2, hb3⟩ := Anemometer.enableTo_spec f.en2 s.wind.an2
    exact ⟨_, _, request_done tag hfree (r := .configureWind f)
      (show doConfigureWind f s = _ from configRequest_done hinit hok), ha1, ha2, ha3, hb1, hb2, hb3⟩
  case zoneRange =>
    refine request_done tag hfree (r := .configureZone f) (show doConfigureZone f s = _ from configRequest_range hinit ?_)
    split
    · rename_i huse
      simp only [beq_iff_eq, byte_eq_zero] at huse
      simp only [byte_eq_one] at hbad
      exact fits_eq_false (by omega)
    · rw [Bool.eq_false_iff, ne_eq, ZoneFields.inRange_iff]
      simp only [slotOf_eq_none] at hbad
      rcases hbad with h | h | ⟨-, h | h | h | h | ⟨v, rfl | rfl | rfl | rfl, h⟩⟩ <;> omega
  case windRange =>
    refine request_done tag hfree (r := .configureWind f) (show doConfigureWind f s = _ from configRequest_range hinit ?_)
    rw [Bool.eq_false_iff, ne_eq, WindFields.inRange_iff]
    simp only [byte_eq_one, byte_eq_zero] at hbad ⊢
    omega
  case zoneFits =>
    rw [ZoneFields.inRange_iff, huse]
    exact ⟨hentry, by decide, slotOf_isSome.1 hA, hpos _ (.inl rfl), hpos _ (.inr (.inl rfl)), slotOf_isSome.1 hB,
      hpos _ (.inr (.inr (.inl rfl))), hpos _ (.inr (.inr (.inr rfl))), htlo, hthi⟩
  case windFits =>
    rw [WindFields.inRange_iff]
    simp only [byte_eq_one, byte_eq_zero] at h1 h2 ⊢
    omega
  · exact request_done tag hfree (r := .configureZone f) (show doConfigureZone f s = _ from configRequest_mode hmode)
  · exact request_done tag hfree (r := .configureWind w) (show doConfigureWind w s = _ from configRequest_mode hmode)

end Sys2Proof.Machine
end

