-- ==== Sys2Proof/Proofs/PlanRequests.lean ====
section
/-! PROOFS. The status requests (R39, R113, R141, R179, R181), SET LINK, SET REPORT MASK and HARD RESET (R170, R174, R180), and the
requests of the plan (R37 to R39, R49 to R51, R58). -/

namespace Sys2Proof.Machine
open Safety

/-! ### Requests that name a slot -/

section
variable {slot : Byte} {i : Slot} {s : State} {act : Slot → Done}

theorem onSlot_some (h : slotOf slot = some i) : onSlot slot s act = act i := by
  simp only [onSlot, h]

theorem onSlot_none (h : slotOf slot = none) : onSlot slot s act = refuse s .range := by
  simp only [onSlot, h]

theorem inReady_some (h : slotOf slot = some i) (hmode : s.sup.mode = .ready) : inReady slot s act = act i := by
  simp [inReady, onSlot_some h, hmode]

theorem inReady_notReady (h : slotOf slot = some i) (hmode : s.sup.mode ≠ .ready) :
    inReady slot s act = refuse s .mode := by
  simp [inReady, onSlot_some h, hmode]

theorem inReady_none (h : slotOf slot = none) : inReady slot s act = refuse s .range := onSlot_none h

end

/-! ### The lengths of the status replies (12.6) -/

@[simp] theorem num8_length (n : Nat) : (num8 n).length = 1 := rfl
@[simp] theorem num16_length (n : Nat) : (num16 n).length = 2 := rfl
@[simp] theorem num32_length (n : Nat) : (num32 n).length = 4 := rfl
@[simp] theorem int8_length (v : Int) : (int8 v).length = 1 := rfl
@[simp] theorem int16_length (v : Int) : (int16 v).length = 2 := rfl
@[simp] theorem int32_length (v : Int) : (int32 v).length = 4 := rfl
@[simp] theorem measured32_length (v : Int) : (measured32 v).length = 4 := rfl
@[simp] theorem measuredOr0_length (v : Option Int) : (measuredOr0 v).length = 4 := rfl
@[simp] theorem skew32_length (n : Nat) : (skew32 n).length = 4 := rfl
@[simp] theorem flagBits_length (bs : List Bool) : (flagBits bs).length = 1 := rfl
@[simp] theorem timer32_length (t : Option Nat) : (timer32 t).length = 4 := rfl
@[simp] theorem dirByte_length (d : Option Dir) : (dirByte d).length = 1 := rfl

@[simp] theorem stopBytes_length (r : Option StopRecord) : (stopBytes r).length = 2 := by cases r <;> rfl
@[simp] theorem faultBytes_length (f : Option FaultRecord) : (faultBytes f).length = 11 := by cases f <;> rfl
@[simp] theorem testBytes_length (t : Option TestRecord) : (testBytes t).length = 6 := by cases t <;> rfl
@[simp] theorem lockBytes_length (l : Option LockRecord) : (lockBytes l).length = 6 := by cases l <;> rfl
@[simp] theorem recordBytes_length (k : Option FailsafeRecord) : (recordBytes k).length = 7 := by cases k <;> rfl
@[simp] theorem replyBytes_length (r : Option LastReply) : (replyBytes r).length = 11 := by cases r <;> rfl

@[simp] theorem planEnds_length (plan : List Segment) : (planEnds plan).length = 8 := by
  unfold planEnds
  split <;> rfl

@[simp] theorem lockUnitFlags_length (a : Option AddrRec) : (lockUnitFlags a).length = 1 := by
  unfold lockUnitFlags
  split
  · rfl
  · split <;> rfl

@[simp] theorem railPart_length (env : Env) (i : Slot) (sp : Span) (r : Rail) : (railPart env i sp r).length = 14 := by
  unfold railPart
  split
  · rfl
  · rfl

@[simp] theorem zoneSideBytes_length (w : ZoneSide) : (zoneSideBytes w).length = 9 := by
  simp only [zoneSideBytes, List.length_append, flagBits_length, timer32_length]
  split <;> simp [enc32_length]

theorem spanStatus_length (env : Env) (i : Slot) (p : Plant) : (spanStatus env i p).length = 138 := by
  simp [spanStatus, spanPart, planPart, proofPart, four]

theorem deviceStatus_length (s : State) : (deviceStatus s).length = 60 := by
  simp [deviceStatus, supervisionPart, windPart, anemometerBytes, stationPart, jogBytes, linkPart, enc16_length, enc32_length]

theorem addressStatus_length (addr : Nat) (p : Plant) : (addressStatus addr p).length = 31 := by
  unfold addressStatus
  split
  · rfl
  · simp [driveBytes]

theorem zoneStatus_length (e : Nat) (p : Plant) : (zoneStatus e p).length = 41 := by
  unfold zoneStatus
  split
  · rfl
  · simp

/-! ### The status requests -/

/-- Settles O19: the status composed as it stands, and the flag its reading clears. -/
theorem statusRequestsAnswered : Obligations.StatusRequestsAnswered := by
  intro s tag a hfree
  refine ⟨⟨deviceStatus_length s, fun i => spanStatus_length s.env i s.plant, addressStatus_length _ _, zoneStatus_length _ _⟩,
    request_answered .getDeviceStatus tag hfree, fun i hslot => ?span, fun hslot => ?noSpan, fun hlo hhi => ?addr,
    fun hbad => ?noAddr, fun hhi => ?zone, fun hbad => ?noZone⟩
  case span => exact request_done tag hfree (r := .getSpanStatus a) (onSlot_some hslot)
  case noSpan => exact request_done tag hfree (r := .getSpanStatus a) (onSlot_none hslot)
  case addr =>
    have hdone : perform (.getAddressStatus a) s = acceptWith s (addressStatus a.toNat s.plant) := by
      simp [perform, doGetAddressStatus, fits_of hlo hhi]
    exact request_done tag hfree hdone
  case noAddr =>
    have hdone : perform (.getAddressStatus a) s = refuse s .range := by
      simp [perform, doGetAddressStatus, fits_eq_false (a := a) (lo := 1) (hi := 64) (by omega)]
    exact request_done tag hfree hdone
  case zone =>
    have hdone : perform (.getZoneStatus a) s = acceptWith s (zoneStatus a.toNat s.plant) := by
      simp [perform, doGetZoneStatus, fits_of (Nat.zero_le a.toNat) hhi]
    exact request_done tag hfree hdone
  case noZone =>
    have hdone : perform (.getZoneStatus a) s = refuse s .range := by
      simp [perform, doGetZoneStatus, fits_eq_false (a := a) (lo := 0) (hi := 15) (.inr hbad)]
    exact request_done tag hfree hdone

/-- Settles O22: the settings and the reset are left to the end of the reply, and the mask is stored. -/
theorem linkMaskAndHardResetRequests : Obligations.LinkMaskAndHardResetRequests := by
  intro s tag a b mask hfree
  refine ⟨fun ha hb => ?_, fun hbad => ?_, request_answered (.setReportMask mask) tag hfree, request_answered .hardReset tag hfree⟩
  · have hdone : perform (.setLink a b) s =
        Done.mk s (.ok [a, b]) (.settings { fast := a == 1, crcAlt := b == 1 }) := by
      simp [perform, doSetLink, yesNoFits_eq_true.2 ha, yesNoFits_eq_true.2 hb, yes]
    exact request_done tag hfree hdone
  · have hdone : perform (.setLink a b) s = refuse s .range := by
      have hfits : (yesNoFits a && yesNoFits b) = false := by
        rw [Bool.eq_false_iff, ne_eq, Bool.and_eq_true, yesNoFits_eq_true, yesNoFits_eq_true]
        omega
      simp [perform, doSetLink, hfits]
    exact request_done tag hfree hdone

/-! ### APPEND SEGMENT (R37 to R39) -/

section
variable {f : SegmentFields} {i : Slot} {s : State}

/-- What the first two conditions of APPEND SEGMENT ask for. -/
theorem appendRefusal_of_taken (hmode : s.sup.mode = .ready ∨ s.sup.mode = .failsafe)
    (hstate : (s.plant.span i).state ≠ .unconfigured) : appendRefusal f i s =
      if !inRange (s.env.span i).xmin (s.env.span i).xmax f.target.toInt then some .range
      else if f.cruise.toNat == 0 then some .range
      else if decide (round100 f.accel.toNat < 100) then some .range
      else if decide (Config.planMax ≤ (s.plant.span i).plan.length) then some .queueFull
      else none := by
  rcases hmode with h | h <;> simp [appendRefusal, h, hstate]

theorem appendRefusal_of_mode (hmode : s.sup.mode = .init ∨ s.sup.mode = .acquiring) : appendRefusal f i s = some .mode := by
  rcases hmode with h | h <;> simp [appendRefusal, h]

theorem appendRefusal_of_unconfigured (hmode : s.sup.mode = .ready ∨ s.sup.mode = .failsafe)
    (hstate : (s.plant.span i).state = .unconfigured) : appendRefusal f i s = some .state := by
  rcases hmode with h | h <;> simp [appendRefusal, h, hstate]

theorem appendRefusal_of_range (hmode : s.sup.mode = .ready ∨ s.sup.mode = .failsafe)
    (hstate : (s.plant.span i).state ≠ .unconfigured)
    (h : f.target.toInt < (s.env.span i).xmin ∨ (s.env.span i).xmax < f.target.toInt ∨ f.cruise.toNat = 0 ∨ f.accel.toNat < 100) :
    appendRefusal f i s = some .range := by
  rw [appendRefusal_of_taken hmode hstate]
  by_cases hrange : inRange (s.env.span i).xmin (s.env.span i).xmax f.target.toInt = true
  · rw [hrange]
    simp only [inRange, Bool.and_eq_true, decide_eq_true_eq] at hrange
    by_cases hcruise : f.cruise.toNat = 0
    · simp [hcruise]
    · have haccel : round100 f.accel.toNat < 100 := by unfold round100; omega
      simp [haccel]
  · simp [hrange]

theorem appendRefusal_of_fits (hmode : s.sup.mode = .ready ∨ s.sup.mode = .failsafe)
    (hstate : (s.plant.span i).state ≠ .unconfigured) (hlo : (s.env.span i).xmin ≤ f.target.toInt)
    (hhi : f.target.toInt ≤ (s.env.span i).xmax) (hcruise : f.cruise.toNat ≠ 0) (haccel : 100 ≤ f.accel.toNat / 100 * 100) :
    appendRefusal f i s = if Config.planMax ≤ (s.plant.span i).plan.length then some .queueFull else none := by
  have hround : ¬ round100 f.accel.toNat < 100 := Nat.not_lt.2 haccel
  simp [appendRefusal_of_taken hmode hstate, inRange, hlo, hhi, hcruise, hround]

/-- A segment refused for a reason other than a full queue changes nothing. -/
theorem perform_append_refused {why : Reason} (hslot : slotOf f.slot = some i) (hwhy : appendRefusal f i s = some why)
    (hne : why ≠ .queueFull) : perform (.appendSegment f) s = refuse s why := by
  refine (show doAppendSegment f s = _ from onSlot_some hslot).trans ?_
  simp only [hwhy]

theorem perform_append_full (hslot : slotOf f.slot = some i) (hwhy : appendRefusal f i s = some .queueFull) :
    perform (.appendSegment f) s =
      refuse { s with plant := s.plant.setSpan i { s.plant.span i with overflow := true } } .queueFull := by
  refine (show doAppendSegment f s = _ from onSlot_some hslot).trans ?_
  simp only [hwhy]

theorem perform_append_accepted (hslot : slotOf f.slot = some i) (hnone : appendRefusal f i s = none) :
    let g := f.segment (s.env.span i).vmax
    perform (.appendSegment f) s = Done.mk { s with
        plant := s.plant.setSpan i { s.plant.span i with plan := (s.plant.span i).plan ++ [g] } }
      (if g.cruise = f.cruise.toNat ∧ g.accel = f.accel.toNat ∧ g.dwell = f.dwell.toNat
        then .ok (num8 ((s.plant.span i).plan.length + 1))
        else .okClamped (segmentBytes g ++ num8 ((s.plant.span i).plan.length + 1))) .nothing := by
  refine (show doAppendSegment f s = _ from onSlot_some hslot).trans ?_
  simp only [hnone, SegmentFields.clamped, List.length_append, List.length_singleton]
  by_cases h : (f.segment (s.env.span i).vmax).cruise = f.cruise.toNat ∧ (f.segment (s.env.span i).vmax).accel = f.accel.toNat ∧
      (f.segment (s.env.span i).vmax).dwell = f.dwell.toNat
  · obtain ⟨h1, h2, h3⟩ := h
    simp [h1, h2, h3, acceptWith]
  · have hclamped : ((f.segment (s.env.span i).vmax).cruise != f.cruise.toNat ||
        (f.segment (s.env.span i).vmax).accel != f.accel.toNat || (f.segment (s.env.span i).vmax).dwell != f.dwell.toNat) = true := by
      simp only [Bool.or_eq_true, bne_iff_ne]
      by_cases h1 : (f.segment (s.env.span i).vmax).cruise = f.cruise.toNat
      · by_cases h2 : (f.segment (s.env.span i).vmax).accel = f.accel.toNat
        · exact .inr fun h3 => h ⟨h1, h2, h3⟩
        · exact .inl (.inr h2)
      · exact .inl (.inl h1)
    rw [if_pos hclamped, if_neg h]
    rfl

end

/-- Settles O24: the conditions in their order, and the segment at the tail. -/
theorem segmentAppendedAtTheTail : Obligations.SegmentAppendedAtTheTail := by
  refine ⟨fun s tag f i sc g hfree hslot hsc hmode hstate hlo hhi hcruise haccel hg => ?_,
    fun s tag f i hfree => ⟨fun hslot => ?_, fun hslot hmode => ?_, fun hslot hmode hstate => ?_, fun hslot hmode hstate hbad => ?_⟩⟩
  · have hspan : s.env.span i = sc := Env.span_of_some hsc
    have hseg : f.segment (s.env.span i).vmax = g := by rw [hspan, hg]; rfl
    have hrefusal := appendRefusal_of_fits (f := f) hmode hstate (by rw [hspan]; exact hlo) (by rw [hspan]; exact hhi) hcruise haccel
    refine ⟨fun hroom => ?_, fun hfull => ?_⟩
    · rw [if_neg (by exact Nat.not_le.2 hroom)] at hrefusal
      have hdone := perform_append_accepted hslot hrefusal
      simp only [hseg] at hdone
      exact request_done tag hfree hdone
    · rw [if_pos (by exact hfull)] at hrefusal
      exact request_done tag hfree (perform_append_full hslot hrefusal)
  · exact request_done tag hfree (r := .appendSegment f) (onSlot_none hslot)
  · exact request_done tag hfree (perform_append_refused hslot (appendRefusal_of_mode hmode) nofun)
  · exact request_done tag hfree (perform_append_refused hslot (appendRefusal_of_unconfigured hmode hstate) nofun)
  · exact request_done tag hfree (perform_append_refused hslot (appendRefusal_of_range hmode hstate hbad) nofun)

/-! ### FLUSH PLAN (R49, R51) -/

/-- A flush leaves the other spans, the clearance entries and the bogie link alone. -/
theorem flushPlanOf_spec (i : Slot) (p : Plant) : onlySpan i p (flushPlanOf i p) ∧
    (flushPlanOf i p).span i = { p.span i with plan := [] } ∧
    (flushPlanOf i p).out =
      if (p.span i).lw < (p.span i).plan.length then p.out.push (.planLow i 0 (p.span i).lw) else p.out := by
  refine ⟨⟨by simp [flushPlanOf], by simp [flushPlanOf], fun j hj => ?_⟩, by simp [flushPlanOf], ?_⟩
  · simp [flushPlanOf, Plant.span_setSpan_ne p hj]
  · simp only [flushPlanOf, planLowReports, Nat.zero_le, decide_true, Bool.and_true, decide_eq_true_eq, Plant.reports_out,
      Plant.setSpan_out]
    split <;> rfl

/-- Settles O25: accepted in the four states at rest, refused by state, mode or slot. -/
theorem planFlushed : Obligations.PlanFlushed := by
  intro s tag slot hfree
  refine ⟨fun i hslot hmode hstate => ?_, fun i hslot hmode hstate => ?_, fun i hslot hmode => ?_, fun hslot => ?_⟩
  · have hflush : (s.plant.span i).state.flushable = true := by rcases hstate with h | h | h | h <;> rw [h] <;> rfl
    have hdone : perform (.flushPlan slot) s = acceptWith { s with plant := flushPlanOf i s.plant }
        (num8 (s.plant.span i).plan.length) :=
      (show doFlushPlan slot s = _ from inReady_some hslot hmode).trans (by simp only [hflush, if_true])
    exact ⟨_, request_done tag hfree hdone, flushPlanOf_spec i s.plant⟩
  · have hflush : (s.plant.span i).state.flushable = false := by
      rcases hstate with h | h | h | h | h | h | h <;> rw [h] <;> rfl
    have hdone : perform (.flushPlan slot) s = refuse s .state :=
      (show doFlushPlan slot s = _ from inReady_some hslot hmode).trans (by simp [hflush])
    exact request_done tag hfree hdone
  · exact request_done tag hfree (r := .flushPlan slot) (inReady_notReady hslot hmode)
  · exact request_done tag hfree (r := .flushPlan slot) (inReady_none hslot)

/-! ### SET OVERRIDE and SET LOW WATER (R50, R58) -/

/-- The two outcomes of a value stored with a largest one. -/
theorem clampedValue_eq (u : State) (v : Byte) (top : Nat) :
    (if top < v.toNat then acceptClamped u (num8 top) else accept u) =
      Done.mk u (if v.toNat ≤ top then .ok [] else .okClamped (num8 top)) .nothing := by
  by_cases h : v.toNat ≤ top
  · rw [if_neg (Nat.not_lt.2 h), if_pos h]; rfl
  · rw [if_pos (Nat.not_le.1 h), if_neg h]; rfl

/-- Settles O26: the value stored with its clamp, or refused by state, mode or slot. -/
theorem overrideAndLowWaterStored : Obligations.OverrideAndLowWaterStored := by
  intro s tag slot value hfree
  refine ⟨fun i hslot hmode hstate => ⟨?_, ?_⟩, fun i hslot hmode hstate => ⟨?_, ?_⟩, fun i hslot hmode => ⟨?_, ?_⟩,
    fun hslot => ⟨?_, ?_⟩⟩
  · have hdone : perform (.setOverride slot value) s = Done.mk
        { s with plant := s.plant.setSpan i { s.plant.span i with override := min value.toNat 100 } }
        (if value.toNat ≤ 100 then .ok [] else .okClamped (num8 100)) .nothing := by
      refine (show doSetOverride slot value s = _ from inReady_some hslot hmode).trans ?_
      simp only [beq_iff_eq, hstate, if_false, clampedValue_eq]
    exact request_done tag hfree hdone
  · have hdone : perform (.setLowWater slot value) s = Done.mk
        { s with plant := s.plant.setSpan i { s.plant.span i with lw := min value.toNat 15 } }
        (if value.toNat ≤ 15 then .ok [] else .okClamped (num8 15)) .nothing := by
      refine (show doSetLowWater slot value s = _ from inReady_some hslot hmode).trans ?_
      simp only [beq_iff_eq, hstate, if_false, clampedValue_eq]
    exact request_done tag hfree hdone
  · have hdone : perform (.setOverride slot value) s = refuse s .state :=
      (show doSetOverride slot value s = _ from inReady_some hslot hmode).trans (by simp [hstate])
    exact request_done tag hfree hdone
  · have hdone : perform (.setLowWater slot value) s = refuse s .state :=
      (show doSetLowWater slot value s = _ from inReady_some hslot hmode).trans (by simp [hstate])
    exact request_done tag hfree hdone
  · exact request_done tag hfree (r := .setOverride slot value) (inReady_notReady hslot hmode)
  · exact request_done tag hfree (r := .setLowWater slot value) (inReady_notReady hslot hmode)
  · exact request_done tag hfree (r := .setOverride slot value) (inReady_none hslot)
  · exact request_done tag hfree (r := .setLowWater slot value) (inReady_none hslot)

end Sys2Proof.Machine
end

