-- ==== Sys2Proof/Proofs/StateChanges.lean ====
section
/-! PROOFS. What a change of a span's state leaves of the plant and makes of its span, in the terms the statements use: the
spans, entries and link left alone, the writes withdrawn, the journey kept, the span at rest, and the set posted. -/

namespace Sys2Proof.Machine
open Safety

/-! ### The plant after a change of state -/

section
variable (env : Env) (i : Slot) (new : SpanState) (rec : Option StopRecord) (p : Plant)

/-- The plant before the set is posted: the span entered into its state, its report, the writes withdrawn on entry into an
energised state, and the lock command dropped on leaving a lock operation. -/
theorem changeState_before_post : ∃ q, (changeState env i new rec p = q ∨ changeState env i new rec p = postSet env i q) ∧
    q.link = (
      let p₁ := (p.setSpan i ((p.span i).enter (env.span i) new rec)).report
        (.spanState i (p.span i).state new ((p.span i).enter (env.span i) new rec).stop)
      let p₂ := if new.energised then withdrawWrites env i p₁ else p₁
      if (p.span i).state == .locking || (p.span i).state == .unlocking then dropLockCommand i p₂ else p₂).link ∧
    q.out = (
      let p₁ := (p.setSpan i ((p.span i).enter (env.span i) new rec)).report
        (.spanState i (p.span i).state new ((p.span i).enter (env.span i) new rec).stop)
      if new.energised then withdrawWrites env i p₁ else p₁).out := by
  simp only [changeState]
  split
  · exact ⟨_, .inr rfl, rfl, by split <;> simp⟩
  · exact ⟨_, .inl rfl, rfl, by split <;> simp⟩

variable {new}

/-- Entry into an energised state withdraws the writes of the span's addresses (R109). -/
theorem changeState_energised_link (h : new.energised = true) (h1 : (p.span i).state ≠ .locking)
    (h2 : (p.span i).state ≠ .unlocking) : (changeState env i new rec p).link =
      { p.link with params := p.link.params.filter (fun e => !p.link.isWriteOf i e) } := by
  have hlock : ((p.span i).state == .locking || (p.span i).state == .unlocking) = false := by simp [h1, h2]
  obtain ⟨q, hq, hlink, -⟩ := changeState_before_post env i new rec p
  have hsame : (changeState env i new rec p).link = q.link := by
    rcases hq with hq | hq <;> rw [hq]
    exact postSet_link ..
  simp only [hsame, hlink, h, hlock, if_true, Bool.false_eq_true, if_false, withdrawWrites, Plant.reports_link, Plant.report_link,
    Plant.setSpan_link]

/-- Entry into an energised state queues its SPAN_STATE report and those of the writes withdrawn. -/
theorem changeState_energised_out (h : new.energised = true) : (changeState env i new rec p).out =
    (.spanState i (p.span i).state new ((p.span i).enter (env.span i) new rec).stop ::
      (p.link.params.filter (p.link.isWriteOf i)).flatMap (withdrawnReport env.time)).foldl ReportQueue.push p.out := by
  obtain ⟨q, hq, -, hout⟩ := changeState_before_post env i new rec p
  have hsame : (changeState env i new rec p).out = q.out := by
    rcases hq with hq | hq <;> rw [hq]
    exact postSet_out ..
  simp only [hsame, hout, h, if_true, withdrawWrites, Plant.reports_out, Plant.report_link, Plant.setSpan_link, Plant.report_out,
    Plant.setSpan_out, List.foldl_cons]

/-- Entry into an energised state in the terms of the statements, over a plant that differs by the span alone. -/
theorem changeState_energises (h : new.energised = true) (h1 : (p.span i).state ≠ .locking)
    (h2 : (p.span i).state ≠ .unlocking) : energises env.time i
      (.spanState i (p.span i).state new ((p.span i).enter (env.span i) new rec).stop) p (changeState env i new rec p) :=
  ⟨changeState_zones .., changeState_energised_link env i rec p h h1 h2, changeState_energised_out env i rec p h,
    fun _ hj => changeState_span_ne env i _ rec p hj⟩

/-- Entry into a state that is not energised, out of no lock operation, touches its span and the report queue alone. -/
theorem changeState_onlySpan (h : new.energised = false) (h1 : (p.span i).state ≠ .locking)
    (h2 : (p.span i).state ≠ .unlocking) : onlySpan i p (changeState env i new rec p) :=
  ⟨changeState_zones .., changeState_link env i _ rec p h h1 h2, fun _ hj => changeState_span_ne env i _ rec p hj⟩

end

/-- A change of one span before an event that leaves the rest alone is part of that event. -/
theorem onlySpan.of_setSpan {i : Slot} {p q : Plant} {sp : Span} (h : onlySpan i (p.setSpan i sp) q) : onlySpan i p q :=
  ⟨h.1, h.2.1, fun j hj => (h.2.2 j hj).trans (Plant.span_setSpan_ne p hj sp)⟩

theorem energises.of_setSpan {time : Time} {i : Slot} {r : Report} {p q : Plant} {sp : Span}
    (h : energises time i r (p.setSpan i sp) q) : energises time i r p q := by
  obtain ⟨hzones, hlink, hout, hne⟩ := h
  exact ⟨hzones, hlink, hout, fun j hj => (hne j hj).trans (Plant.span_setSpan_ne p hj sp)⟩

/-- The plants agree but for one span and the report queue: a report before the event. -/
theorem onlySpan.of_report {i : Slot} {p q : Plant} {r : Report} (h : onlySpan i (p.report r) q) : onlySpan i p q := h

/-! ### The span after a change of state -/

/-- Entering a state keeps the span's journey. -/
theorem sameJourney_enter (a : Span) (sc : SpanConfig) (new : SpanState) (rec : Option StopRecord) (posted : Option SetpointSet) :
    sameJourney a { a.enter sc new rec with posted := posted } := rfl

theorem changeState_sameJourney (env : Env) (i : Slot) (new : SpanState) (rec : Option StopRecord) (p : Plant) :
    sameJourney (p.span i) ((changeState env i new rec p).span i) := by
  rw [changeState_span]
  exact sameJourney_enter ..

/-- A journey kept from a span that differs in what the journey leaves free. -/
theorem sameJourney.trans {a b c : Span} (h : sameJourney a b) (k : sameJourney b c) : sameJourney a c := by
  rw [sameJourney] at h k ⊢
  rw [k, h]

/-- The states a span rests in, with none of the timers and records of the others. -/
def SpanState.atRest (new : SpanState) : Bool :=
  match new with
  | .resting | .faulted | .locked => true
  | _ => false

theorem restsIn_enter {a : Span} {sc : SpanConfig} {new : SpanState} (h : new.atRest = true) (posted : Option SetpointSet) :
    restsIn new { a.enter sc new none with posted := posted } := by
  cases new with
  | resting | faulted | locked => exact ⟨rfl, rfl, rfl, rfl, rfl, rfl, rfl, rfl, rfl, Bool.and_false _, rfl, rfl⟩
  | _ => cases h

theorem changeState_restsIn (env : Env) (i : Slot) {new : SpanState} (p : Plant) (h : new.atRest = true) :
    restsIn new ((changeState env i new none p).span i) := by
  rw [changeState_span]
  exact restsIn_enter h _

/-! ### The set posted -/

/-- The commands of a set posted for a span (R98). -/
def setCommands (env : Env) (i : Slot) (mode : SetpointMode) (p : Plant) : List (Nat × Int) :=
  (four.flatMap (p.railBogies i)).map (fun a => (a.addr, setCommand (env.span i) (p.span i) mode a))

theorem postSet_posted {env : Env} {i : Slot} {p : Plant} {mode : SetpointMode} (h : (p.span i).setpointMode = some mode) :
    ((postSet env i p).span i).posted = some { mode := mode, cmds := setCommands env i mode p } := by
  simp only [postSet, h, Plant.span_setSpan]
  rfl

section
variable {env : Env} {i : Slot} {new : SpanState} {rec : Option StopRecord} {p : Plant}

/-- A change that leaves the setpoint mode, or enters mode RUN, posts no set (R16). -/
theorem changeState_posted_kept
    (h : ((p.span i).setpointMode = ((p.span i).enter (env.span i) new rec).setpointMode) ∨
      ((p.span i).enter (env.span i) new rec).setpointMode = some .run) :
    ((changeState env i new rec p).span i).posted = (p.span i).posted := by
  have hpost : ((p.span i).setpointMode != ((p.span i).enter (env.span i) new rec).setpointMode &&
      ((p.span i).enter (env.span i) new rec).setpointMode != some .run) = false := by
    rcases h with h | h <;> simp [h]
  simp only [changeState, hpost, Bool.false_eq_true, if_false]
  split <;> split <;> simp [Span.enter]

/-- A change of the setpoint mode to BRAKED, ENERGIZE or PROOF posts a set in it at once (R16). -/
theorem changeState_posted_new {mode : SetpointMode} (hne : (p.span i).setpointMode ≠ some mode)
    (hmode : ((p.span i).enter (env.span i) new rec).setpointMode = some mode) (hrun : mode ≠ .run) :
    ∃ q, (q.span i).test = ((p.span i).enter (env.span i) new rec).test ∧
      ((changeState env i new rec p).span i).posted = some { mode := mode, cmds := setCommands env i mode q } := by
  have hpost : ((p.span i).setpointMode != ((p.span i).enter (env.span i) new rec).setpointMode &&
      ((p.span i).enter (env.span i) new rec).setpointMode != some .run) = true := by
    simp [hmode, hne, hrun]
  simp only [changeState, hpost, if_true]
  split <;> split <;> exact ⟨_, by simp, postSet_posted (by simp [hmode])⟩

end

/-- A set in a mode other than RUN and PROOF commands 0 of every bogie. -/
theorem setCommands_still {env : Env} {i : Slot} {mode : SetpointMode} {p : Plant} (h : mode = .braked ∨ mode = .energize) :
    ∀ c ∈ setCommands env i mode p, c.2 = 0 := by
  intro c hc
  obtain ⟨a, -, rfl⟩ := List.mem_map.1 hc
  rcases h with rfl | rfl <;> rfl

end Sys2Proof.Machine
end

