-- ==== Sys2Proof/Proofs/MotionRequests.lean ====
section
/-! PROOFS. START, PROOF, LOCK and UNLOCK (R28, R29, R107, R109, R119, R120, R125, R127): the conditions in the order of their
tables, and the state an accepted request enters. -/

namespace Sys2Proof.Machine
open Safety

/-! ### What refuses a START (R28) -/

section
variable {env : Env} {i : Slot} {p : Plant} {sp : Span}

theorem startRefusal_of_state (h1 : (p.span i).state ≠ .resting) (h2 : (p.span i).state ≠ .holding) :
    startRefusal env i p = some .state := by
  simp [startRefusal, h1, h2]

theorem startRefusal_of_empty (h : (p.span i).state = .resting ∨ (p.span i).state = .holding) (hplan : (p.span i).plan = []) :
    startRefusal env i p = some .emptyPlan := by
  rcases h with h | h <;> simp [startRefusal, h, hplan]

theorem startRefusal_of_plan (h : (p.span i).state = .resting ∨ (p.span i).state = .holding) (hplan : (p.span i).plan ≠ []) :
    startRefusal env i p = motionRefusal env i (if env.keyLocal then some .localControl else none) (p.span i) := by
  have hplan' : (p.span i).plan.isEmpty = false := by simpa using hplan
  rcases h with h | h <;> simp [startRefusal, h, hplan']

theorem motionRefusal_of_wind (key : Option Reason) (h : env.gate.shut = true) : motionRefusal env i key sp = some .wind := by
  simp [motionRefusal, h]

theorem motionRefusal_of_key {why : Reason} (h : env.gate.shut = false) : motionRefusal env i (some why) sp = some why := by
  simp [motionRefusal, h]

theorem motionRefusal_of_owed (h : env.gate.shut = false) (howed : sp.proof.owed = 8) :
    motionRefusal env i none sp = some .proofOwed := by
  simp [motionRefusal, h, howed, Config.owedMax]

theorem motionRefusal_of_unproven (h : env.gate.shut = false) (howed : sp.proof.owed ≠ 8) (hproof : sp.proof.unproven = true) :
    motionRefusal env i none sp = some .proofRequired := by
  simp [motionRefusal, h, howed, hproof, Config.owedMax]

theorem motionRefusal_of_skew (h : env.gate.shut = false) (howed : sp.proof.owed ≠ 8) (hproof : sp.proof.unproven = false)
    (hskew : (env.span i).sStop < sp.skew) : motionRefusal env i none sp = some .skew := by
  simp [motionRefusal, h, howed, hproof, Span.skewed, hskew, Config.owedMax]

theorem motionRefusal_of_met (h : env.gate.shut = false) (howed : sp.proof.owed ≠ 8) (hproof : sp.proof.unproven = false)
    (hskew : sp.skew ≤ (env.span i).sStop) : motionRefusal env i none sp = none := by
  simp [motionRefusal, h, howed, hproof, Span.skewed, Nat.not_lt.2 hskew, Config.owedMax]

end

section
variable {s : State} {slot : Byte} {i : Slot}

theorem perform_start_refused {why : Reason} (hslot : slotOf slot = some i) (hmode : s.sup.mode = .ready)
    (hwhy : startRefusal s.env i s.plant = some why) : perform (.start slot) s = refuse s why :=
  (show doStart slot s = _ from inReady_some hslot hmode).trans (by simp only [hwhy])

theorem perform_start_accepted (hslot : slotOf slot = some i) (hmode : s.sup.mode = .ready)
    (hnone : startRefusal s.env i s.plant = none) :
    perform (.start slot) s = accept { s with plant := startSpan s.env i s.plant } :=
  (show doStart slot s = _ from inReady_some hslot hmode).trans (by simp only [hnone]; rfl)

end

/-- Settles O28: the table of R28, row by row. -/
theorem startRefusedInOrder : Obligations.StartRefusedInOrder := by
  intro s tag slot hfree
  refine ⟨fun hslot => request_done tag hfree (r := .start slot) (inReady_none hslot), fun i hslot =>
    ⟨fun hmode => request_done tag hfree (r := .start slot) (inReady_notReady hslot hmode), fun hmode =>
      have refused {why : Reason} (h : startRefusal s.env i s.plant = some why) :
          exec (.start tag slot) s = .next (refusedWith s 0xA2 tag why) :=
        request_done tag hfree (perform_start_refused hslot hmode h)
      ⟨fun h1 h2 => refused (startRefusal_of_state h1 h2), fun hstate =>
        ⟨fun hplan => refused (startRefusal_of_empty hstate hplan), fun hplan => ?_⟩⟩⟩⟩
  have hmotion := startRefusal_of_plan (env := s.env) hstate hplan
  refine ⟨fun hgate => refused (hmotion.trans (motionRefusal_of_wind _ ?_)), fun hgate => ?_⟩
  · show s.wind.gate.shut = true
    rcases hgate with h | h <;> rw [h] <;> rfl
  · have hopen : s.env.gate.shut = false := by
      show s.wind.gate.shut = false
      rcases hgate with h | h <;> rw [h] <;> rfl
    refine ⟨fun hkey => ?_, fun hkey => ?_⟩
    · rw [show s.env.keyLocal = true from hkey, if_pos rfl] at hmotion
      exact refused (hmotion.trans (motionRefusal_of_key hopen))
    · rw [show s.env.keyLocal = false from hkey, if_neg (by decide)] at hmotion
      exact ⟨fun howed => refused (hmotion.trans (motionRefusal_of_owed hopen howed)), fun howed =>
        ⟨fun hproof => refused (hmotion.trans (motionRefusal_of_unproven hopen howed hproof)), fun hproof hskew =>
          refused (hmotion.trans (motionRefusal_of_skew hopen howed hproof hskew))⟩⟩

/-! ### An accepted START (R28, R29, R109) -/

theorem enterMotion_resting {env : Env} {i : Slot} {p : Plant} (h : (p.span i).state = .resting) :
    enterMotion env i p = changeState env i .starting none p := by
  simp [enterMotion, h]

theorem enterMotion_holding {env : Env} {i : Slot} {p : Plant} (h : (p.span i).state = .holding) :
    enterMotion env i p = changeState env i .moving none p := by
  simp [enterMotion, h]

/-- A RESTING span set in motion is STARTING with its release timer, and its ENERGIZE set commands 0 (R28, R29). -/
theorem starting_of_resting {env : Env} {i : Slot} {p : Plant} (h : (p.span i).state = .resting) :
    let q := changeState env i .starting none p
    energises env.time i (.spanState i .resting .starting none) p q ∧ (q.span i).state = .starting ∧ (q.span i).v = 0 ∧
      (q.span i).releaseT = some ((env.span i).tRel * 100) ∧ (q.span i).holdT = none ∧
      ∃ cmds, (q.span i).posted = some { mode := .energize, cmds := cmds } ∧ ∀ c ∈ cmds, c.2 = 0 := by
  have henergises := changeState_energises env i (new := .starting) none p rfl (by rw [h]; decide) (by rw [h]; decide)
  obtain ⟨u, -, hposted⟩ := changeState_posted_new (env := env) (i := i) (new := .starting) (rec := none) (p := p)
    (mode := .energize) (by simp [Span.setpointMode, h]) rfl (by decide)
  have hspan := changeState_span env i .starting none p
  rw [h] at henergises
  refine ⟨henergises, ?_, ?_, ?_, ?_, setCommands env i .energize u, hposted, setCommands_still (.inr rfl)⟩ <;> rw [hspan] <;> rfl

/-- A HOLDING span set in motion is MOVING at once, with its speed and its set as they were (R28). -/
theorem moving_of_holding {env : Env} {i : Slot} {p : Plant} (h : (p.span i).state = .holding) :
    let q := changeState env i .moving none p
    energises env.time i (.spanState i .holding .moving none) p q ∧ (q.span i).state = .moving ∧
      (q.span i).v = (p.span i).v ∧ (q.span i).holdT = none ∧ (q.span i).posted = (p.span i).posted := by
  have henergises := changeState_energises env i (new := .moving) none p rfl (by rw [h]; decide) (by rw [h]; decide)
  have hspan := changeState_span env i .moving none p
  rw [h] at henergises
  refine ⟨henergises, ?_, ?_, ?_, changeState_posted_kept (.inr rfl)⟩ <;> rw [hspan] <;> rfl

/-- Settles O27: the eight conditions let START set the span in motion. -/
theorem startSetsTheSpanInMotion : Obligations.StartSetsTheSpanInMotion := by
  intro s tag slot i hfree hslot hmode hplan hgate hkey howed hproof hskew
  have hnone (hstate : (s.plant.span i).state = .resting ∨ (s.plant.span i).state = .holding) :
      startRefusal s.env i s.plant = none := by
    rw [startRefusal_of_plan hstate hplan, show s.env.keyLocal = false from hkey, if_neg (by decide)]
    exact motionRefusal_of_met hgate howed hproof hskew
  have hclear : ((s.plant.setSpan i { s.plant.span i with starved := false }).span i) =
      { s.plant.span i with starved := false } := Plant.span_setSpan ..
  refine ⟨fun hstate => ⟨_, request_done tag hfree (perform_start_accepted hslot hmode (hnone (.inl hstate))), ?_⟩,
    fun hstate => ⟨_, request_done tag hfree (perform_start_accepted hslot hmode (hnone (.inr hstate))), ?_⟩⟩
  · have hstate' : ((s.plant.setSpan i { s.plant.span i with starved := false }).span i).state = .resting := by
      rw [hclear]; exact hstate
    have hjourney := changeState_sameJourney s.env i .starting none
      (s.plant.setSpan i { s.plant.span i with starved := false })
    rw [hclear] at hjourney
    rw [startSpan, enterMotion_resting hstate']
    obtain ⟨henergises, hrest⟩ := starting_of_resting (env := s.env) hstate'
    exact ⟨energises.of_setSpan henergises, hjourney, hrest⟩
  · have hstate' : ((s.plant.setSpan i { s.plant.span i with starved := false }).span i).state = .holding := by
      rw [hclear]; exact hstate
    have hjourney := changeState_sameJourney s.env i .moving none
      (s.plant.setSpan i { s.plant.span i with starved := false })
    rw [hclear] at hjourney
    rw [startSpan, enterMotion_holding hstate']
    obtain ⟨henergises, hnew, hv, hhold, hposted⟩ := moving_of_holding (env := s.env) hstate'
    rw [hclear] at hv hposted
    exact ⟨energises.of_setSpan henergises, hjourney, hnew, hv, hhold, hposted⟩

/-! ### PROOF (R119, R120) -/

/-- A test started from a state out of any lock operation (R120). -/
theorem startTest_spec {env : Env} {i : Slot} {p : Plant} (h1 : (p.span i).state ≠ .locking)
    (h2 : (p.span i).state ≠ .unlocking) :
    let q := startTest env i p
    energises env.time i (.spanState i (p.span i).state .proving none) p q ∧ sameJourney (p.span i) (q.span i) ∧
      (q.span i).state = .proving ∧ (q.span i).v = 0 ∧ (q.span i).holdT = none ∧
      (q.span i).test = some { phase := .brakeSet, timer := 2000, dir := (p.span i).proof.nextDir, starts := [] } := by
  have hset : (p.setSpan i { p.span i with test := some (TestRecord.start (p.span i).proof.nextDir) }).span i =
      { p.span i with test := some (TestRecord.start (p.span i).proof.nextDir) } := Plant.span_setSpan ..
  have henergises := changeState_energises env i (new := .proving) none
    (p.setSpan i { p.span i with test := some (TestRecord.start (p.span i).proof.nextDir) }) rfl
    (by rw [hset]; exact h1) (by rw [hset]; exact h2)
  have hspan := changeState_span env i .proving none
    (p.setSpan i { p.span i with test := some (TestRecord.start (p.span i).proof.nextDir) })
  rw [hset] at henergises hspan
  refine ⟨energises.of_setSpan henergises, ?_, ?_, ?_, ?_, ?_⟩ <;> rw [startTest, hspan] <;> rfl

theorem allValid_eq_true {env : Env} {p : Plant} {i : Slot} :
    p.allValid env i = true ↔ ∀ a ∈ p.bogies i, a.isValid env.cfg.dev.stale = true := by
  simp [Plant.allValid]

theorem allValid_eq_false {env : Env} {p : Plant} {i : Slot} :
    p.allValid env i = false ↔ ∃ a ∈ p.bogies i, a.isValid env.cfg.dev.stale = false := by
  simp [Plant.allValid]

/-- PROOF in READY, by its conditions in order. -/
theorem perform_proof {s : State} {slot : Byte} {i : Slot} (hslot : slotOf slot = some i) (hmode : s.sup.mode = .ready) :
    perform (.proof slot) s =
      if (s.plant.span i).state ≠ .resting ∧ (s.plant.span i).state ≠ .holding then refuse s .state
      else if s.station.key.val = true then refuse s .localControl
      else if s.plant.allValid s.env i = false then refuse s (.condition none)
      else accept { s with plant := startTest s.env i s.plant } := by
  refine (show doProof slot s = _ from inReady_some hslot hmode).trans ?_
  simp only [Bool.and_eq_true, bne_iff_ne, Bool.not_eq_true', State.onPlant]

/-- Settles O31: the rows of R119's table, and the test started. -/
theorem proofRequestStartsATest : Obligations.ProofRequestStartsATest := by
  intro s tag slot hfree
  refine ⟨fun i hslot hmode hstate hkey hvalid => ?_, fun i hslot hmode => ⟨fun h1 h2 => ?_, fun hstate => ?_⟩,
    fun i hslot hmode => request_done tag hfree (r := .proof slot) (inReady_notReady hslot hmode),
    fun hslot => request_done tag hfree (r := .proof slot) (inReady_none hslot)⟩
  · have hdone := perform_proof hslot hmode
    rw [if_neg (fun h => hstate.elim h.1 h.2), if_neg (by simp [hkey]), if_neg (by simpa using allValid_eq_true.2 hvalid)] at hdone
    exact ⟨_, request_done tag hfree hdone, startTest_spec (by rcases hstate with h | h <;> rw [h] <;> decide)
      (by rcases hstate with h | h <;> rw [h] <;> decide)⟩
  · have hdone := perform_proof hslot hmode
    rw [if_pos ⟨h1, h2⟩] at hdone
    exact request_done tag hfree hdone
  · have hdone := perform_proof hslot hmode
    rw [if_neg (fun h => hstate.elim h.1 h.2)] at hdone
    refine ⟨fun hkey => ?_, fun hkey hinvalid => ?_⟩
    · rw [if_pos hkey] at hdone
      exact request_done tag hfree hdone
    · rw [if_neg (by simp [hkey]), if_pos (allValid_eq_false.2 hinvalid)] at hdone
      exact request_done tag hfree hdone

/-! ### LOCK and UNLOCK (R107, R125, R127) -/

/-- A lock command queued leaves all but the parameter queue and the reports (R107). -/
theorem queueLock_spec (env : Env) (i : Slot) (cmd : LockCmd) (p : Plant) :
    (queueLock env i cmd p).zones = p.zones ∧ (∀ j, (queueLock env i cmd p).span j = p.span j) ∧
    (queueLock env i cmd p).link = { p.link with
      params := insertLock (.lock i cmd) (if 8 ≤ p.link.params.length then (dropNewestHost p.link.params).2 else p.link.params) } := by
  have hparams : (if decide (Config.paramsMax ≤ p.link.params.length) = true then dropNewestHost p.link.params
      else (none, p.link.params)).2 = if 8 ≤ p.link.params.length then (dropNewestHost p.link.params).2 else p.link.params := by
    by_cases h : Config.paramsMax ≤ p.link.params.length
    · rw [if_pos (decide_eq_true h), if_pos (by exact h)]
    · rw [if_neg (by simpa using h), if_neg (by exact h)]
  simp only [queueLock, hparams]
  split
  · exact ⟨rfl, fun _ => rfl, rfl⟩
  · exact ⟨by simp, fun j => Plant.reports_span _ _ j, by simp⟩

/-- A lock operation begun out of RESTING or LOCKED. -/
theorem startLock_spec {env : Env} {i : Slot} {p : Plant} (cmd : LockCmd) {new : SpanState}
    (h1 : (p.span i).state ≠ .locking) (h2 : (p.span i).state ≠ .unlocking) (hnew : new.energised = false) :
    let q := startLock env i cmd new p
    q.zones = p.zones ∧ (∀ j : Slot, j ≠ i → q.span j = p.span j) ∧
      q.link = { p.link with
        params := insertLock (.lock i cmd) (if 8 ≤ p.link.params.length then (dropNewestHost p.link.params).2 else p.link.params) } ∧
      sameJourney (p.span i) (q.span i) ∧ (q.span i).state = new ∧
      (q.span i).lock = some { cmd := cmd, sent := false, replied := false, timer := (env.span i).tLock * 1000 } := by
  simp only [startLock]
  obtain ⟨hzones, hspan, hlink⟩ := queueLock_spec env i cmd ((changeState env i new none p).setSpan i
    { (changeState env i new none p).span i with
      lock := some { cmd := cmd, sent := false, replied := false, timer := (env.span i).tLock * 1000 } })
  obtain ⟨hzones', hlink', hne⟩ := changeState_onlySpan env i none p hnew h1 h2
  refine ⟨hzones.trans hzones', fun j hj => ?_, ?_, ?_, ?_, ?_⟩
  · rw [hspan, Plant.span_setSpan_ne _ hj, hne j hj]
  · rw [hlink, Plant.setSpan_link, hlink']
  · rw [hspan, Plant.span_setSpan]
    exact sameJourney.trans (changeState_sameJourney env i new none p) rfl
  · rw [hspan, Plant.span_setSpan]
    exact changeState_state ..
  · rw [hspan, Plant.span_setSpan]

section
variable {env : Env} {i : Slot} {p : Plant}

/-- The conditions of LOCK in the order of R125's table. -/
theorem lockRefusal_eq : lockRefusal env i p =
    if (p.span i).state ≠ .resting then some .state
    else if env.keyLocal = true then some .localControl
    else if p.lockUnit i = none then some .noLockUnit
    else if (p.span i).proof.unproven = true ∨ (p.span i).proof.relock = true then some .proofRequired
    else if atLock (env.span i) (p.span i).lastM = false then some .notAtLock
    else none := by
  simp only [lockRefusal, bne_iff_ne, Option.isNone_iff_eq_none, Bool.or_eq_true, Bool.not_eq_true']

theorem atLock_eq_true {sc : SpanConfig} {m : Option Int} : atLock sc m = true ↔
    ∃ v, m = some v ∧ ((v - sc.lock1).natAbs ≤ sc.lockTol ∨ (v - sc.lock2).natAbs ≤ sc.lockTol) := by
  cases m with
  | none => simp [atLock]
  | some v =>
    simp only [atLock, magnitude, Bool.or_eq_true, Option.some.injEq, exists_eq_left']
    exact or_congr decide_eq_true_iff decide_eq_true_iff

end

section
variable {s : State} {slot : Byte} {i : Slot}

theorem perform_lock_refused {why : Reason} (hslot : slotOf slot = some i) (hmode : s.sup.mode = .ready)
    (hwhy : lockRefusal s.env i s.plant = some why) : perform (.lock slot) s = refuse s why :=
  (show doLock slot s = _ from inReady_some hslot hmode).trans (by simp only [hwhy])

theorem perform_lock_accepted (hslot : slotOf slot = some i) (hmode : s.sup.mode = .ready)
    (hnone : lockRefusal s.env i s.plant = none) :
    perform (.lock slot) s = accept { s with plant := startLock s.env i .engage .locking s.plant } :=
  (show doLock slot s = _ from inReady_some hslot hmode).trans (by simp only [hnone]; rfl)

/-- UNLOCK in READY, by its conditions in order. -/
theorem perform_unlock (hslot : slotOf slot = some i) (hmode : s.sup.mode = .ready) :
    perform (.unlock slot) s =
      if (s.plant.span i).state ≠ .locked then refuse s .state
      else if s.station.key.val = true then refuse s .localControl
      else accept { s with plant := startLock s.env i .retract .unlocking s.plant } := by
  refine (show doUnlock slot s = _ from inReady_some hslot hmode).trans ?_
  simp only [bne_iff_ne, State.onPlant]

end

/-- Settles O32: the lock operation begun, and its command in its place. -/
theorem lockAndUnlockQueued : Obligations.LockAndUnlockQueued := by
  intro s tag slot i hfree hslot hmode hkey
  refine ⟨fun hstate hunit hproof hrelock hat => ?_, fun hstate => ?_⟩
  · have hnone : lockRefusal s.env i s.plant = none := by
      have hkey' : s.env.keyLocal = false := hkey
      have hunit' : s.plant.lockUnit i ≠ none := Option.isSome_iff_ne_none.1 hunit
      simp [lockRefusal_eq, hstate, hkey', hunit', hproof, hrelock, atLock_eq_true.2 hat]
    exact ⟨_, request_done tag hfree (perform_lock_accepted hslot hmode hnone),
      startLock_spec .engage (by rw [hstate]; decide) (by rw [hstate]; decide) rfl⟩
  · have hdone := perform_unlock hslot hmode
    rw [if_neg (by simp [hstate]), if_neg (by simp [hkey])] at hdone
    exact ⟨_, request_done tag hfree hdone, startLock_spec .retract (by rw [hstate]; decide) (by rw [hstate]; decide) rfl⟩

/-- Settles O33: the tables of R125 and R127, row by row. -/
theorem lockRefusedInOrder : Obligations.LockRefusedInOrder := by
  intro s tag slot hfree
  refine ⟨fun hslot => ⟨request_done tag hfree (r := .lock slot) (inReady_none hslot),
      request_done tag hfree (r := .unlock slot) (inReady_none hslot)⟩, fun i hslot =>
    ⟨fun hmode => ⟨request_done tag hfree (r := .lock slot) (inReady_notReady hslot hmode),
      request_done tag hfree (r := .unlock slot) (inReady_notReady hslot hmode)⟩, fun hmode => ?_⟩⟩
  have refused {why : Reason} (h : lockRefusal s.env i s.plant = some why) :
      exec (.lock tag slot) s = .next (refusedWith s 0xA9 tag why) :=
    request_done tag hfree (perform_lock_refused hslot hmode h)
  have hunlock := perform_unlock hslot hmode
  refine ⟨fun hstate => refused (by simp [lockRefusal_eq, hstate]), fun hstate => ⟨fun hkey => ?_, fun hkey => ?_⟩,
    fun hstate => ?_, fun hstate hkey => ?_⟩
  · exact refused (by simp [lockRefusal_eq, hstate, show s.env.keyLocal = true from hkey])
  · have hkey' : s.env.keyLocal = false := hkey
    refine ⟨fun hunit => refused (by simp [lockRefusal_eq, hstate, hkey', hunit]), fun hunit => ?_⟩
    have hunit' : s.plant.lockUnit i ≠ none := Option.isSome_iff_ne_none.1 hunit
    refine ⟨fun hproof => refused (by simp [lockRefusal_eq, hstate, hkey', hunit', hproof]), fun hproof hrelock hfar => ?_⟩
    have hat : atLock (s.env.span i) (s.plant.span i).lastM = false := by
      rw [Bool.eq_false_iff, ne_eq, atLock_eq_true]
      rintro ⟨m, hm, hnear⟩
      have := hfar m hm
      omega
    exact refused (by simp [lockRefusal_eq, hstate, hkey', hunit', hproof, hrelock, hat])
  · rw [if_pos hstate] at hunlock
    exact request_done tag hfree hunlock
  · rw [if_neg (by simp [hstate]), if_pos hkey] at hunlock
    exact request_done tag hfree hunlock

end Sys2Proof.Machine
end

