-- ==== Sys2Proof/Proofs/SupervisionOutcomes.lean ====
section
/-! PROOFS. The keep-alive judgements and the expiries of the supervision timers, SOFT RESET and CLEAR FAILSAFE (R58, R163 to
R169): the entry into FAILSAFE and the cause that joins it, and the return to INIT or READY. -/

namespace Sys2Proof.Machine
open Safety

/-! ### What a stop keeps of its span -/

/-- A property of a span that nothing a stop does to its span takes away: the entry into a state, a cause registered, a test
begun, and a test's result. -/
structure KeptByStops (P : Span → Prop) : Prop where
  enter  : ∀ (a : Span) (sc : SpanConfig) (new : SpanState) (rec : Option StopRecord) (posted : Option SetpointSet),
    P a → P { a.enter sc new rec with posted := posted }
  fault  : ∀ (a : Span) (f : Option FaultRecord), P a → P { a with fault := f }
  test   : ∀ (a : Span) (t : Option TestRecord), P a → P { a with test := t }
  result : ∀ (a : Span) (r : Option ProofResult), P a → P { a with proof := { a.proof with last := r } }

namespace KeptByStops

section
variable {P : Span → Prop} (hP : KeptByStops P) {env : Env} {i : Slot} {p : Plant}
include hP

theorem changeState {new : SpanState} {rec : Option StopRecord} (h : P (p.span i)) : P ((changeState env i new rec p).span i) := by
  rw [changeState_span]
  exact hP.enter _ _ _ _ _ h

theorem startTest (h : P (p.span i)) : P ((startTest env i p).span i) :=
  hP.changeState (by rw [Plant.span_setSpan]; exact hP.test _ _ h)

theorem tryTest (h : P (p.span i)) : P ((tryTest env i p).span i) := by
  unfold Machine.tryTest
  split
  · exact hP.startTest h
  · exact h

theorem tryForced (h : P (p.span i)) : P ((tryForced env i p).span i) := by
  unfold Machine.tryForced
  split
  · exact hP.startTest h
  · exact h

theorem enterEnd {e : EndState} (h : P (p.span i)) : P ((enterEnd env i e p).span i) := hP.tryTest (hP.changeState h)

theorem registerStop (req : StopRequest) (h : P (p.span i)) : P ((registerStop env i req p).span i) := by
  rw [registerStop_span]
  exact hP.fault _ _ h

/-- A stop keeps the property, whatever state it finds. -/
theorem takeStop (req : StopRequest) (why : JogEnd) (h : P (p.span i)) : P ((takeStop env i req why p).span i) := by
  unfold Machine.takeStop
  cases (p.span i).state with
  | unconfigured | locking | locked | unlocking => exact h
  | resting =>
    simp only [stopResting]
    split
    · exact hP.enterEnd (hP.registerStop req h)
    · exact h
  | starting => exact hP.enterEnd (hP.registerStop req (by simpa using h))
  | moving =>
    simp only [stopMoving]
    split
    · exact hP.enterEnd (hP.registerStop req (by simpa using h))
    · exact hP.changeState (hP.registerStop req (by simpa using h))
  | holding =>
    simp only [stopHolding]
    split
    · exact h
    · exact hP.enterEnd (hP.registerStop req (by simpa using h))
  | stopping =>
    simp only [stopStopping]
    split
    · exact hP.registerStop req h
    · split
      · exact hP.registerStop req h
      · refine hP.changeState ?_
        split
        · rw [brakeSpan_span]; exact hP.registerStop req h
        · exact hP.registerStop req h
  | proving =>
    refine hP.enterEnd (hP.registerStop req ?_)
    rw [brakeIfSafe_span, abandonTest, Plant.report_span, Plant.span_setSpan]
    exact hP.result _ _ h
  | faulted => exact hP.registerStop req h

end

end KeptByStops

theorem windHold_kept : KeptByStops (fun a => a.windHold = false) where
  enter a sc new rec posted h := by simp [Span.enter, h]
  fault _ _ h := h
  test _ _ h := h
  result _ _ h := h

/-- The stops of a failsafe reason set no wind hold flag. -/
theorem stopEverySpan_windHold (r : FailsafeReason) (env : Env) (p : Plant) (i : Slot) (h : (p.span i).windHold = false) :
    ((stopEverySpan r env p).span i).windHold = false :=
  eachSlot_span (R := fun a b => a.windHold = false → b.windHold = false)
    (f := fun i p => takeStop env i (failsafeStop r) .otherStop p) (fun p hj => takeStop_span_ne hj env _ _ p)
    (fun _ _ ha => windHold_kept.takeStop _ _ ha) p i h

/-- An entry into FAILSAFE leaves every wind hold flag clear (log entry 4). -/
theorem enterFailsafe_windHold (r : FailsafeReason) (s : State) (i : Slot) :
    ((enterFailsafe r s).plant.span i).windHold = false := by
  rw [enterFailsafe_plant]
  exact stopEverySpan_windHold r _ _ i (by rw [eachSlot_clearWindHold_span])

/-! ### A second cause in FAILSAFE (R165) -/

theorem FailsafeRecord.isNew_eq_true {k : FailsafeRecord} {r : FailsafeReason} :
    k.isNew r = true ↔ ¬(k.reason = r ∨ r ∈ k.later) := by
  simp [FailsafeRecord.isNew]

/-- A cause that reaches the device in FAILSAFE changes the plant and joins the later reasons, once. -/
theorem joinFailsafe_eq {s : State} {k : FailsafeRecord} (r : FailsafeReason) (hk : s.sup.record = some k) :
    joinFailsafe r s = { s with
      plant := (joinFailsafe r s).plant,
      sup := { s.sup with
        record := some { k with later := if k.reason = r ∨ r ∈ k.later then k.later else k.later ++ [r] } } } := by
  simp only [joinFailsafe, hk, FailsafeRecord.isNew_eq_true]
  by_cases h : k.reason = r ∨ r ∈ k.later
  · rw [if_neg (Classical.not_not.2 h), if_pos h]
    show _ = { s.onPlant _ with sup := { s.sup with record := some k } }
    rw [← hk]
    rfl
  · rw [if_pos h, if_neg h]
    rfl

/-- The spans a cause in FAILSAFE finds are those of the plant: its MODE report comes first. -/
theorem joinFailsafe_plant (r : FailsafeReason) (s : State) :
    ∃ p : Plant, p.spans = s.plant.spans ∧ (joinFailsafe r s).plant = stopEverySpan r s.env p := by
  simp only [joinFailsafe]
  split
  · split
    · exact ⟨s.plant.report _, rfl, rfl⟩
    · exact ⟨s.plant, rfl, rfl⟩
  · exact ⟨s.plant, rfl, rfl⟩

theorem joinFailsafe_quickStopped {r : FailsafeReason} (hr : failsafeStop r = quickRest) {s : State}
    (hmode : s.sup.mode ≠ .ready) (i : Slot) : quickStopped (s.plant.span i) ((joinFailsafe r s).plant.span i) := by
  obtain ⟨p, hspans, hplant⟩ := joinFailsafe_plant r s
  have hstop := stopEverySpan_quickStopped hr (env := s.env) hmode p i
  rwa [← hplant, Plant.span, hspans] at hstop

/-! ### The keep-alive outcomes (R163) -/

/-- The device with the count that has reached E_th set back to 0, as FAILSAFE is raised. -/
def State.errorsOut (s : State) : State := { s with sup := { s.sup with e := 0, g := 0, window := some 0 } }

theorem badKeepalive_reached {s : State} (h : s.cfg.dev.eth ≤ s.sup.e + 1) :
    badKeepalive s = raiseFailsafe .hostSupervision s.errorsOut := by
  simp only [badKeepalive, countError, h, if_true]
  rfl

theorem badKeepalive_counted {s : State} (h : s.sup.e + 1 < s.cfg.dev.eth) :
    badKeepalive s = { s with sup := { s.sup with e := s.sup.e + 1, g := 0, window := some 0 } } := by
  simp [badKeepalive, countError, Nat.not_le.2 h]

/-- The error that brings e to E_th in READY enters FAILSAFE. -/
theorem badKeepalive_ready {s : State} (h : s.cfg.dev.eth ≤ s.sup.e + 1) (hmode : s.sup.mode = .ready) :
    ∃ q : Plant, badKeepalive s = { s with
        plant := q,
        sup := { s.sup with
          mode := .failsafe, e := 0, g := 0, window := some 0, acqT := none, stableT := none, f := min (s.sup.f + 1) 255,
          lockout := s.sup.lockout || (s.cfg.dev.fmax != 0 && decide (s.cfg.dev.fmax < min (s.sup.f + 1) 255)),
          record := some { reason := .hostSupervision, time := s.time, toReady := true, later := [] } } } ∧
      ∀ i : Slot, quickStopped (s.plant.span i) (q.span i) ∧ (q.span i).windHold = false := by
  refine ⟨(enterFailsafe .hostSupervision s.errorsOut).plant, ?_, fun i =>
    ⟨enterFailsafe_quickStopped (r := .hostSupervision) rfl s.errorsOut i, enterFailsafe_windHold ..⟩⟩
  have henter : badKeepalive s = enterFailsafe .hostSupervision s.errorsOut := by
    rw [badKeepalive_reached h, raiseFailsafe, show s.errorsOut.sup.mode = .ready from hmode]
  rw [henter, enterFailsafe_eq, Supervision.enterFailsafe_of_ready (by exact hmode)]
  rfl

/-- The error that brings e to E_th in FAILSAFE joins it as a second cause. -/
theorem badKeepalive_failsafe {s : State} {k : FailsafeRecord} (h : s.cfg.dev.eth ≤ s.sup.e + 1) (hmode : s.sup.mode = .failsafe)
    (hk : s.sup.record = some k) :
    ∃ q : Plant, badKeepalive s = { s with
        plant := q,
        sup := { s.sup with
          e := 0, g := 0, window := some 0,
          record := some { k with later := if k.reason = .hostSupervision ∨ .hostSupervision ∈ k.later
                                           then k.later else k.later ++ [.hostSupervision] } } } ∧
      ∀ i : Slot, quickStopped (s.plant.span i) (q.span i) := by
  refine ⟨(joinFailsafe .hostSupervision s.errorsOut).plant, ?_, fun i =>
    joinFailsafe_quickStopped (r := .hostSupervision) rfl (s := s.errorsOut) (by simp [State.errorsOut, hmode]) i⟩
  have hjoin : badKeepalive s = joinFailsafe .hostSupervision s.errorsOut := by
    rw [badKeepalive_reached h, raiseFailsafe, show s.errorsOut.sup.mode = .failsafe from hmode]
  rw [hjoin, joinFailsafe_eq .hostSupervision (show s.errorsOut.sup.record = some k from hk)]
  rfl

theorem judgeKeepalive_idle {s : State} (h : s.sup.mode = .init ∨ s.sup.mode = .acquiring) : judgeKeepalive s = (s, 0) := by
  unfold judgeKeepalive
  rcases h with h | h <;> rw [h]

theorem judgeKeepalive_window {s : State} {t : Nat} (h : s.sup.mode = .ready ∨ s.sup.mode = .failsafe)
    (ht : s.sup.window = some t) :
    judgeKeepalive s = if t < s.cfg.dev.wo then (badKeepalive s, 2) else (goodKeepalive s, 1) := by
  unfold judgeKeepalive
  rcases h with h | h <;> rw [h, ht]

/-- A KEEPALIVE is answered with the outcome, e and g its judgement leaves. -/
theorem exec_keepalive {s u : State} {outcome : Nat} (tag : Byte) (hfree : free s) (h : judgeKeepalive s = (u, outcome)) :
    exec (.keepalive tag) s =
      .next (answered u 0x94 tag (.ok (num8 outcome ++ num8 u.sup.e ++ num8 u.sup.g)) .nothing) := by
  have hdone : perform .keepalive s = acceptWith u (num8 outcome ++ num8 u.sup.e ++ num8 u.sup.g) := by
    rw [perform, doKeepalive, h]
  exact request_done tag hfree hdone

/-- Settles O20: the three outcomes, and the error that reaches E_th. -/
theorem keepaliveJudged : Obligations.KeepaliveJudged := by
  intro s tag hfree
  refine ⟨fun hmode => exec_keepalive tag hfree (judgeKeepalive_idle hmode), fun t hmode ht hgood => ?_,
    fun t hmode ht hearly he => ?_, fun t hmode ht hearly he => ?_, fun t k hmode ht hearly he hk => ?_⟩
  · have hjudge := judgeKeepalive_window hmode ht
    rw [if_neg (Nat.not_lt.2 hgood)] at hjudge
    exact exec_keepalive tag hfree hjudge
  · have hjudge := judgeKeepalive_window hmode ht
    rw [if_pos hearly, badKeepalive_counted he] at hjudge
    exact exec_keepalive tag hfree hjudge
  · obtain ⟨q, hbad, hspans⟩ := badKeepalive_ready he hmode
    have hjudge := judgeKeepalive_window (.inl hmode) ht
    rw [if_pos hearly, hbad] at hjudge
    exact ⟨q, exec_keepalive tag hfree hjudge, hspans⟩
  · obtain ⟨q, hbad, hspans⟩ := badKeepalive_failsafe he hmode hk
    have hjudge := judgeKeepalive_window (.inr hmode) ht
    rw [if_pos hearly, hbad] at hjudge
    exact ⟨q, exec_keepalive tag hfree hjudge, hspans⟩

/-- The keep-alive window closes with the late outcome while it runs. -/
theorem exec_windowExpiry {s : State} (hrun : s.resetPin = false) (h : s.sup.window.isSome = true) :
    exec .keepaliveWindowExpiry s = .next (settle (badKeepalive s)) :=
  (runEvent_running hrun windowExpired).trans (by rw [windowExpired, if_pos h])

/-- Settles O21: the late outcome, the error that reaches E_th, and the stable-READY expiry. -/
theorem supervisionTimersExpire : Obligations.SupervisionTimersExpire := by
  refine ⟨fun s hrun hwin he => ?_, fun s hrun hmode hwin he => ?_, fun s k hrun hmode hwin he hk => ?_,
    fun s hrun hstable => ?_, fun s hrun => ⟨fun hwin => ?_, fun hstable => ?_⟩⟩
  · rw [exec_windowExpiry hrun hwin, badKeepalive_counted he]
  · obtain ⟨q, hbad, hspans⟩ := badKeepalive_ready he hmode
    exact ⟨q, by rw [exec_windowExpiry hrun hwin, hbad], hspans⟩
  · obtain ⟨q, hbad, hspans⟩ := badKeepalive_failsafe he hmode hk
    exact ⟨q, by rw [exec_windowExpiry hrun hwin, hbad], hspans⟩
  · exact (runEvent_running hrun stableExpired).trans (by rw [stableExpired, if_pos hstable])
  · exact (runEvent_running hrun windowExpired).trans (by rw [windowExpired, hwin]; rfl)
  · exact (runEvent_running hrun stableExpired).trans (by rw [stableExpired, hstable]; rfl)

/-! ### SOFT RESET (R169) -/

theorem all_toList {α : Type} (q : Quad α) (f : α → Bool) : q.toList.all f = true ↔ ∀ i, f (q.get i) = true := by
  have hany := Quad.any_toList q (fun a => !f a)
  rw [List.all_eq_not_any_not, Bool.not_eq_true', ← Bool.not_eq_true, hany]
  simp

/-- An entry emptied for one span and then for all is an entry emptied for all. -/
theorem ZoneEntry.fresh_forget (i : Slot) (z : ZoneEntry) : (z.forget i).fresh = z.fresh := by
  unfold ZoneEntry.forget
  split
  · rfl
  · next d _ => cases d <;> rfl

/-- Every span taken into UNCONFIGURED leaves the entries as a reset would, once their claims and flags are cleared. -/
theorem eachSlot_unconfigureSpan_zones (p : Plant) :
    (eachSlot unconfigureSpan p).zones.map ZoneEntry.fresh = p.zones.map ZoneEntry.fresh := by
  have hone (i : Slot) (q : Plant) : (unconfigureSpan i q).zones.map ZoneEntry.fresh = q.zones.map ZoneEntry.fresh := by
    simp [unconfigureSpan, Function.comp_def, ZoneEntry.fresh_forget]
  exact eachSlot_keeps (P := fun q => q.zones.map ZoneEntry.fresh = p.zones.map ZoneEntry.fresh)
    (fun i q h => (hone i q).trans h) rfl

/-- A state in which a SOFT RESET finds a span at rest. -/
theorem softResettable_eq_true {st : SpanState} : st.softResettable = true ↔
    st = .resting ∨ st = .locked ∨ st = .faulted ∨ st = .unconfigured := by
  cases st <;> decide

theorem softResetRefusal_none {s : State} (h : s.sup.mode = .init ∨ s.sup.mode = .acquiring ∨ (s.sup.mode = .ready ∧ ∀ i : Slot,
    (s.plant.span i).state = .resting ∨ (s.plant.span i).state = .locked ∨ (s.plant.span i).state = .faulted ∨
    (s.plant.span i).state = .unconfigured)) : softResetRefusal s = none := by
  unfold softResetRefusal
  rcases h with h | h | ⟨h, hspans⟩ <;> rw [h]
  exact if_pos ((all_toList s.plant.spans _).2 fun i => softResettable_eq_true.2 (hspans i))

theorem softResetRefusal_state {s : State} {i : Slot} (hmode : s.sup.mode = .ready)
    (h : (s.plant.span i).state.softResettable = false) : softResetRefusal s = some .state := by
  unfold softResetRefusal
  rw [hmode]
  exact if_neg fun hall => by
    have := (all_toList _ _).1 hall i
    rw [show (s.plant.spans.get i).state.softResettable = false from h] at this
    cases this

/-- Settles O23: the plant of the reset, and the two refusals. -/
theorem softResetReturnsToInit : Obligations.SoftResetReturnsToInit := by
  intro s tag hfree
  have refused {why : Reason} (h : softResetRefusal s = some why) :
      exec (.softReset tag) s = .next (refusedWith s 0x98 tag why) := by
    have hdone : perform .softReset s = refuse s why := by rw [perform, doSoftReset, h]
    exact request_done tag hfree hdone
  refine ⟨fun hrest => ?_, fun i hmode hstate => refused (softResetRefusal_state (i := i) hmode ?_),
    fun hmode => refused (by rw [softResetRefusal, hmode])⟩
  · have hdone : perform .softReset s = accept (softReset s) := by rw [perform, doSoftReset, softResetRefusal_none hrest]
    refine ⟨(softReset s).plant, request_done tag hfree hdone, fun i => ?_, eachSlot_unconfigureSpan_zones s.plant, rfl, rfl,
      rfl, rfl, rfl⟩
    have hspan : (softReset s).plant.span i = (s.plant.span i).unconfigured := eachSlot_unconfigureSpan_span s.plant i
    rw [hspan]
    exact ⟨rfl, rfl, rfl, rfl⟩
  · rcases hstate with h | h | h | h | h | h | h <;> rw [h] <;> rfl

/-! ### CLEAR FAILSAFE (R167) -/

theorem inMotion_eq_true {st : SpanState} : st.inMotion = true ↔
    st = .starting ∨ st = .moving ∨ st = .stopping ∨ st = .proving := by
  cases st <;> decide

section
variable {s : State} (tag : Byte)

theorem exec_clearFailsafe_refused (hfree : free s) {why : Reason} (h : failsafeRefusal s = some why) :
    exec (.clearFailsafe tag) s = .next (refusedWith s 0xAD tag why) := by
  have hdone : perform .clearFailsafe s = refuse s why := by rw [perform, doClearFailsafe, h]
  exact request_done tag hfree hdone

theorem exec_clearFailsafe_accepted (hfree : free s) (h : failsafeRefusal s = none) :
    exec (.clearFailsafe tag) s = .next (accepted (returnFromFailsafe s) 0xAD tag) := by
  have hdone : perform .clearFailsafe s = accept (returnFromFailsafe s) := by rw [perform, doClearFailsafe, h]
  exact request_done tag hfree hdone

/-- The conditions of CLEAR FAILSAFE in the order of R167's table. -/
theorem failsafeRefusal_eq : failsafeRefusal s =
    if s.sup.mode ≠ .failsafe then some .mode
    else if s.sup.lockout = true then some .lockout
    else if s.sup.g < 3 ∨ s.station.estop.val = true then some (.condition none)
    else if ∃ i : Slot, (s.plant.span i).state.inMotion = true then some .state
    else none := by
  simp only [failsafeRefusal, bne_iff_ne, Quad.any_toList, Plant.span, Config.goodRun]
  by_cases hg : s.sup.g < 3
  · simp only [hg, if_true, true_or]
  · simp only [hg, if_false, false_or]
    congr

/-- The return to READY (R167). -/
theorem returnFromFailsafe_ready {k : FailsafeRecord} (hk : s.sup.record = some k) (h : k.toReady = true) :
    returnFromFailsafe s = { s with
      sup := { s.sup with mode := .ready, acqT := none, window := some 0, stableT := some 600000, record := none },
      plant := { s.plant with
        spans := s.plant.spans.map (fun sp => { sp with override := 100 }),
        out := s.plant.out.push (.mode .ready .none s.time) } } := by
  simp only [returnFromFailsafe, hk, h, if_true]
  rfl

/-- The return to INIT (R167). -/
theorem returnFromFailsafe_init {k : FailsafeRecord} (hk : s.sup.record = some k) (h : k.toReady = false) :
    returnFromFailsafe s = { s with
      sup := { s.sup with mode := .init, acqT := none, window := none, e := 0, g := 0, stableT := none, record := none },
      plant := (eachSlot unconfigureSpan s.plant).report (.mode .init (.cause .clearFailsafe) s.time) } := by
  simp only [returnFromFailsafe, hk, h, Bool.false_eq_true, if_false]
  rfl

end

/-- Settles O36: the table of R167, row by row, and the two returns. -/
theorem failsafeClearedToItsReturnMode : Obligations.FailsafeClearedToItsReturnMode := by
  intro s tag hfree
  have refused {why : Reason} (h : failsafeRefusal s = some why) := exec_clearFailsafe_refused tag hfree h
  refine ⟨fun hmode => refused (by rw [failsafeRefusal_eq, if_pos hmode]), fun hmode => ⟨fun hlock => refused ?_, fun hlock =>
    ⟨fun hcond => refused ?_, fun hgood hestop => ⟨fun i hmoving => refused ?_, fun k hrest hk => ?_⟩⟩⟩⟩
  · rw [failsafeRefusal_eq, if_neg (Classical.not_not.2 hmode), if_pos hlock]
  · rw [failsafeRefusal_eq, if_neg (Classical.not_not.2 hmode), if_neg (by simp [hlock]), if_pos hcond]
  · rw [failsafeRefusal_eq, if_neg (Classical.not_not.2 hmode), if_neg (by simp [hlock]), if_neg (by simp [hestop]; omega),
      if_pos ⟨i, inMotion_eq_true.2 hmoving⟩]
  · have hnone : failsafeRefusal s = none := by
      rw [failsafeRefusal_eq, if_neg (Classical.not_not.2 hmode), if_neg (by simp [hlock]), if_neg (by simp [hestop]; omega),
        if_neg (by simp [hrest])]
    have hdone := exec_clearFailsafe_accepted tag hfree hnone
    refine ⟨fun hready => ?_, fun hinit =>
      ⟨(eachSlot unconfigureSpan s.plant).report (.mode .init (.cause .clearFailsafe) s.time), ?_, rfl, rfl, rfl, fun i => ?_⟩⟩
    · rw [hdone, returnFromFailsafe_ready hk hready]
    · rw [hdone, returnFromFailsafe_init hk hinit]
    · rw [Plant.report_span, eachSlot_unconfigureSpan_span]
      exact ⟨rfl, Span.unconfigured_blank _, rfl⟩

end Sys2Proof.Machine
end

