-- ==== Sys2Proof/Proofs/StopsTaken.lean ====
section
/-! PROOFS. A stop taken by its span (R18 to R26, R31): the cause it registers, the state it leads to by the state it finds, and
the merge of two stops in STOPPING. With PAUSE and STOP, which put such a stop to a span. -/

namespace Sys2Proof.Machine
open Safety

/-! ### The cause a stop registers (R26) -/

section
variable (env : Env) (i : Slot) (req : StopRequest) (why : JogEnd) (p : Plant)

theorem registerFault_record (c : FaultCause) :
    (registerFault env i c p).span i = { p.span i with fault := some (faultWith env.time c (p.span i)) } := by
  cases hf : (p.span i).fault with
  | none => simp [registerFault, faultWith, hf]
  | some f =>
    by_cases h : f.first = c ∨ c ∈ f.later
    · have h' : (f.first == c || f.later.contains c) = true := by simpa using h
      simp only [registerFault, faultWith, hf, h', if_true, if_pos h]
      rw [← hf]
    · have h' : (f.first == c || f.later.contains c) = false := by simpa using h
      simp [registerFault, faultWith, hf, if_neg h]

/-- A cause new to an empty record is reported with its position and time. -/
theorem registerFault_out_first {c : FaultCause} (h : (p.span i).fault = none) : (registerFault env i c p).out =
    p.out.push (.spanFault i c (some ((p.span i).lastM.getD (p.span i).x, env.time))) := by
  simp [registerFault, h]

/-- A cause that finds a record is reported once. -/
theorem registerFault_out_later {c : FaultCause} {f : FaultRecord} (h : (p.span i).fault = some f) :
    (registerFault env i c p).out = if f.first = c ∨ c ∈ f.later then p.out else p.out.push (.spanFault i c none) := by
  by_cases hold : f.first = c ∨ c ∈ f.later
  · have hold' : (f.first == c || f.later.contains c) = true := by simpa using hold
    simp only [registerFault, h, hold', if_true, if_pos hold]
  · have hold' : (f.first == c || f.later.contains c) = false := by simpa using hold
    simp [registerFault, h, if_neg hold]

theorem registerStop_record :
    (registerStop env i req p).span i = { p.span i with fault := faultAfter env.time req (p.span i) } := by
  obtain ⟨kind, endState, cause⟩ := req
  cases endState <;> cases cause
  case faulted.some c => exact registerFault_record env i p c
  all_goals rfl

@[simp] theorem registerStop_zones : (registerStop env i req p).zones = p.zones := by
  unfold registerStop
  split <;> simp

@[simp] theorem registerStop_link : (registerStop env i req p).link = p.link := by
  unfold registerStop
  split <;> simp

/-- A stop with another end state than FAULTED registers nothing (R18). -/
theorem registerStop_of_rests {req : StopRequest} (h : req.endState ≠ .faulted) : registerStop env i req p = p := by
  unfold registerStop
  split
  · contradiction
  · rfl

theorem registerStop_of_cause {req : StopRequest} {c : FaultCause} (h : req.endState = .faulted) (hc : req.cause = some c) :
    registerStop env i req p = registerFault env i c p := by
  simp [registerStop, h, hc]

/-! ### What comes before the change of state -/

@[simp] theorem endJog_zones : (endJog env i why p).zones = p.zones := by
  unfold endJog; split <;> rfl

@[simp] theorem endJog_link : (endJog env i why p).link = p.link := by
  unfold endJog; split <;> rfl

@[simp] theorem brakeIfSafe_zones : (brakeIfSafe env i req p).zones = p.zones := by
  unfold brakeIfSafe; split <;> rfl

theorem brakeIfSafe_of_not_safe {req : StopRequest} (h : req.kind ≠ .safe) : brakeIfSafe env i req p = p := by
  simp [brakeIfSafe, h]

theorem brakeIfSafe_of_safe {req : StopRequest} (h : req.kind = .safe) : brakeIfSafe env i req p = brakeSpan env i p := by
  simp [brakeIfSafe, h]

/-- A broadcast requested changes the pending list and the cycle of the link. -/
theorem brakeSpan_link : (brakeSpan env i p).link =
    { p.link with bcasts := (brakeSpan env i p).link.bcasts, cycle := (brakeSpan env i p).link.cycle } := by
  simp only [brakeSpan, BogieLink.requestBroadcast]
  split <;> rfl

theorem brakeIfSafe_link : (brakeIfSafe env i req p).link = { p.link with
    bcasts := (brakeIfSafe env i req p).link.bcasts, cycle := (brakeIfSafe env i req p).link.cycle } := by
  unfold brakeIfSafe
  split
  · exact brakeSpan_link env i p
  · rfl

theorem endJog_of_jogging (h : (p.span i).jog.isSome = true) (hstate : (p.span i).state = .starting ∨ (p.span i).state = .moving) :
    endJog env i why p = p.report (.station (.jogEnded i why) env.time) := by
  rcases hstate with hs | hs <;> simp [endJog, Span.jogging, h, hs]

theorem endJog_of_none (h : (p.span i).jog = none) : endJog env i why p = p := by simp [endJog, Span.jogging, h]

end

/-- What a stop does to the plant before the change of state: the broadcast of a SAFE one, and its cause. -/
def stopBegun (env : Env) (i : Slot) (req : StopRequest) (p : Plant) : Plant := registerStop env i req (brakeIfSafe env i req p)

section
variable (env : Env) (i : Slot) (req : StopRequest) (p : Plant)

theorem stopBegun_span :
    (stopBegun env i req p).span i = { p.span i with fault := faultAfter env.time req (p.span i) } := by
  rw [stopBegun, registerStop_record, brakeIfSafe_span]

theorem stopBegun_span_ne {j : Slot} (h : j ≠ i) : (stopBegun env i req p).span j = p.span j := by
  rw [stopBegun, registerStop_span_ne h, brakeIfSafe_span]

@[simp] theorem stopBegun_zones : (stopBegun env i req p).zones = p.zones := by simp [stopBegun]

theorem stopBegun_link : (stopBegun env i req p).link = { p.link with
    bcasts := (stopBegun env i req p).link.bcasts, cycle := (stopBegun env i req p).link.cycle } := by
  simp only [stopBegun, registerStop_link]
  exact brakeIfSafe_link env i req p

theorem stopBegun_link_of_not_safe {req : StopRequest} (h : req.kind ≠ .safe) : (stopBegun env i req p).link = p.link := by
  rw [stopBegun, registerStop_link, brakeIfSafe_of_not_safe env i p h]

theorem stopBegun_pending {req : StopRequest} (h : req.kind = .safe) :
    (stopBegun env i req p).link.bcasts.any (fun b => b.slot == i) = true := by
  rw [stopBegun, registerStop_link, brakeIfSafe_of_safe env i p h]
  exact brakeSpan_pending env i p

/-- A stop of PAUSE or STOP does nothing before the change of state. -/
theorem stopBegun_plain {req : StopRequest} (hkind : req.kind ≠ .safe) (hend : req.endState ≠ .faulted) :
    stopBegun env i req p = p := by
  rw [stopBegun, brakeIfSafe_of_not_safe env i p hkind, registerStop_of_rests env i p hend]

/-! ### Entry into the end state -/

/-- No test starts at an entry into an end state: FAULTED, or a span to which none is owed (R118). -/
def noTestAt (env : Env) (i : Slot) (e : EndState) (sp : Span) : Prop :=
  e = .faulted ∨ (sp.proof.due = false ∧ (env.span i).autoProof = false)

theorem enterEnd_noTest {e : EndState} (h : noTestAt env i e (p.span i)) :
    enterEnd env i e p = changeState env i (endSpanState e) none p := by
  rcases h with rfl | ⟨hdue, hauto⟩
  · exact enterEnd_faulted env i p
  · exact enterEnd_plain env i e p hdue hauto

theorem endSpanState_endAtRest (e : EndState) : endSpanState (endAtRest e) = restState e := by cases e <;> rfl

theorem endSpanState_of_ne_holding {e : EndState} (h : e ≠ .holding) : endSpanState e = restState e := by
  cases e with
  | holding => exact absurd rfl h
  | resting | faulted => rfl

theorem noTestAt.endAtRest {e : EndState} {sp : Span} (h : noTestAt env i e sp) : noTestAt env i (endAtRest e) sp :=
  h.imp (fun he => by rw [he]; rfl) id

theorem restState_atRest (e : EndState) : (restState e).atRest = true := by cases e <;> rfl

theorem restState_not_energised (e : EndState) : (restState e).energised = false := by cases e <;> rfl

end

/-! ### A stop by the state it finds -/

section
variable {env : Env} {i : Slot} {req : StopRequest} {p : Plant} (why : JogEnd)

theorem takeStop_without_effect
    (h : (p.span i).state = .locking ∨ (p.span i).state = .locked ∨ (p.span i).state = .unlocking ∨
      (p.span i).state = .unconfigured ∨ ((p.span i).state = .resting ∧ req.endState ≠ .faulted) ∨
      ((p.span i).state = .faulted ∧ req.endState ≠ .faulted) ∨ ((p.span i).state = .holding ∧ req.endState = .holding)) :
    takeStop env i req why p = p := by
  unfold takeStop
  rcases h with h | h | h | h | ⟨h, he⟩ | ⟨h, he⟩ | ⟨h, he⟩ <;> simp only [h]
  · unfold stopResting
    split
    · contradiction
    · rfl
  · exact registerStop_of_rests env i p he
  · simp [stopHolding, he]

theorem takeStop_faulted (h : (p.span i).state = .faulted) : takeStop env i req why p = registerStop env i req p := by
  simp [takeStop, h, stopFaulted]

theorem takeStop_resting (h : (p.span i).state = .resting) (he : req.endState = .faulted) :
    takeStop env i req why p = changeState env i .faulted none (registerStop env i req p) := by
  simp [takeStop, h, stopResting, he, enterEnd_faulted]

theorem takeStop_starting (h : (p.span i).state = .starting) : takeStop env i req why p =
    enterEnd env i (endAtRest req.endState) (stopBegun env i req (endJog env i why p)) := by
  simp only [takeStop, h, stopStarting, stopBegun]

theorem takeStop_proving (h : (p.span i).state = .proving) : takeStop env i req why p =
    enterEnd env i (endAtRest req.endState) (stopBegun env i req (abandonTest env i .stop p)) := by
  simp only [takeStop, h, stopProving, stopBegun]

theorem takeStop_holding (h : (p.span i).state = .holding) (he : req.endState ≠ .holding) : takeStop env i req why p =
    enterEnd env i req.endState (stopBegun env i req p) := by
  cases hend : req.endState with
  | holding => exact absurd hend he
  | resting | faulted => simp only [takeStop, h, stopHolding, stopBegun, hend]

theorem takeStop_standing (h : (p.span i).state = .moving) (hv : (p.span i).v = 0) (hkind : req.kind ≠ .safe) :
    takeStop env i req why p = enterEnd env i req.endState (stopBegun env i req (endJog env i why p)) := by
  have hv' : ((stopBegun env i req (endJog env i why p)).span i).v = 0 := by rw [stopBegun_span, endJog_span]; exact hv
  have hcond : (req.kind != .safe && ((stopBegun env i req (endJog env i why p)).span i).v == 0) = true := by
    simp [hkind, hv']
  simp only [takeStop, h, stopMoving]
  exact if_pos hcond

theorem takeStop_ramping (h : (p.span i).state = .moving) (hv : (p.span i).v ≠ 0 ∨ req.kind = .safe) :
    takeStop env i req why p = changeState env i .stopping (some { kind := req.kind, endState := req.endState })
      (stopBegun env i req (endJog env i why p)) := by
  have hv' : ((stopBegun env i req (endJog env i why p)).span i).v = (p.span i).v := by rw [stopBegun_span, endJog_span]
  have hcond : (req.kind != .safe && ((stopBegun env i req (endJog env i why p)).span i).v == 0) = false := by
    rw [hv']
    rcases hv with hv | hv <;> simp [hv]
  simp only [takeStop, h, stopMoving]
  exact if_neg (by simpa [stopBegun] using hcond)

/-- The stop merged: nothing but its cause where it changes neither kind nor end state. -/
theorem takeStop_merged {r : StopRecord} (h : (p.span i).state = .stopping) (hstop : (p.span i).stop = some r)
    (hsame : kindMax r.kind req.kind = r.kind ∧ endMax r.endState req.endState = r.endState) :
    takeStop env i req why p = registerStop env i req p := by
  simp [takeStop, h, stopStopping, hstop, hsame.1, hsame.2]

/-- What a stop merged in STOPPING does to the plant before the change of the record: its cause, and the broadcast of an
upgrade to SAFE. -/
def upgradeBegun (env : Env) (i : Slot) (req : StopRequest) (r : StopRecord) (p : Plant) : Plant :=
  if kindMax r.kind req.kind = .safe ∧ r.kind ≠ .safe then brakeSpan env i (registerStop env i req p)
  else registerStop env i req p

theorem upgradeBegun_span (r : StopRecord) :
    (upgradeBegun env i req r p).span i = { p.span i with fault := faultAfter env.time req (p.span i) } := by
  unfold upgradeBegun
  split <;> simp [registerStop_record]

theorem upgradeBegun_zones (r : StopRecord) : (upgradeBegun env i req r p).zones = p.zones := by
  unfold upgradeBegun
  split <;> simp

theorem upgradeBegun_pending {r : StopRecord} (h : kindMax r.kind req.kind = .safe) (hr : r.kind ≠ .safe) :
    (upgradeBegun env i req r p).link.bcasts.any (fun b => b.slot == i) = true := by
  rw [upgradeBegun, if_pos ⟨h, hr⟩]
  exact brakeSpan_pending ..

/-- The stop merged: the change of the record, with the broadcast of an upgrade to SAFE. -/
theorem takeStop_upgraded {r : StopRecord} (h : (p.span i).state = .stopping) (hstop : (p.span i).stop = some r)
    (hne : ¬(kindMax r.kind req.kind = r.kind ∧ endMax r.endState req.endState = r.endState)) :
    takeStop env i req why p = changeState env i .stopping
      (some { kind := kindMax r.kind req.kind, endState := endMax r.endState req.endState }) (upgradeBegun env i req r p) := by
  have hne' : ¬({ kind := kindMax r.kind req.kind, endState := endMax r.endState req.endState } : StopRecord) = r :=
    fun heq => hne ⟨congrArg StopRecord.kind heq, congrArg StopRecord.endState heq⟩
  have hcond : (({ kind := kindMax r.kind req.kind, endState := endMax r.endState req.endState } : StopRecord).isSafe && !r.isSafe)
      = decide (kindMax r.kind req.kind = .safe ∧ r.kind ≠ .safe) := by
    rw [Bool.eq_iff_iff]
    simp [StopRecord.isSafe]
  simp only [takeStop, h, stopStopping, hstop, if_neg hne', hcond, decide_eq_true_eq, upgradeBegun]

end

/-! ### A span that ramps down, and one under a SAFE stop -/

section
variable {env : Env} {i : Slot} {p : Plant} {r : StopRecord}

/-- The setpoint mode of a span entered into STOPPING, by the kind of its stop. -/
theorem setpointMode_stopping (a : Span) (sc : SpanConfig) (r : StopRecord) :
    (a.enter sc .stopping (some r)).setpointMode = some (if r.kind = .safe then .braked else .run) := by
  by_cases h : r.kind = .safe <;> simp [Span.setpointMode, Span.inSafeStop, Span.enter, h]

/-- A span entered into a CONTROLLED or QUICK stop keeps its speed, run, jog and set. -/
theorem changeState_ramps (hkind : r.kind ≠ .safe) :
    let b := (changeState env i .stopping (some r) p).span i
    b.state = .stopping ∧ b.stop = some r ∧ b.v = (p.span i).v ∧ b.dwellT = none ∧ b.safeT = none ∧
      b.running = (p.span i).running ∧ b.jog = (p.span i).jog ∧ b.posted = (p.span i).posted := by
  have hspan := changeState_span env i .stopping (some r) p
  have hgen : generatorRuns .stopping (some r) = true := by simp [generatorRuns, StopRecord.isSafe, hkind]
  refine ⟨changeState_state .., changeState_stopping_stop .., changeState_stopping_v env i p hkind, ?_, ?_, ?_, ?_,
    changeState_posted_kept (.inr (by rw [setpointMode_stopping, if_neg hkind]))⟩ <;> rw [hspan] <;> simp [Span.enter, hgen]

/-- A span entered into a SAFE stop out of mode RUN stands still, with its timer started and a BRAKED set posted (R16, R20). -/
theorem changeState_brakes (hkind : r.kind = .safe) (hrun : (p.span i).setpointMode = some .run) :
    let b := (changeState env i .stopping (some r) p).span i
    b.state = .stopping ∧ b.stop = some r ∧ b.v = 0 ∧ b.safeT = some 5000 ∧ b.dwellT = none ∧ b.running = false ∧
      b.jog = none ∧ b.posted.map (fun set => set.mode) = some .braked := by
  have hspan := changeState_span env i .stopping (some r) p
  have hgen : generatorRuns .stopping (some r) = false := by simp [generatorRuns, StopRecord.isSafe, hkind]
  have hnot : (p.span i).inSafeStop = false := by
    refine Bool.eq_false_iff.2 fun hsafe => ?_
    have hstate : (p.span i).state = .stopping := by
      simp only [Span.inSafeStop, Bool.and_eq_true, beq_iff_eq] at hsafe
      exact hsafe.1
    simp [Span.setpointMode, hstate, hsafe] at hrun
  obtain ⟨q, -, hposted⟩ := changeState_posted_new (env := env) (i := i) (new := .stopping) (rec := some r) (p := p)
    (mode := .braked) (by rw [hrun]; decide) (by rw [setpointMode_stopping, if_pos hkind]) (by decide)
  refine ⟨changeState_state .., changeState_stopping_stop .., ?_, ?_, ?_, ?_, ?_, by rw [hposted]; rfl⟩ <;> rw [hspan] <;>
    simp [Span.enter, hgen, hnot, Config.safeStopMs]

/-- A span at rest out of mode RUN or ENERGIZE has a BRAKED set posted (R16). -/
theorem changeState_rest_posted {new : SpanState} (hnew : new.atRest = true)
    (h : (p.span i).state = .holding ∨ (p.span i).state = .starting ∨ (p.span i).state = .moving) :
    ((changeState env i new none p).span i).posted.map (fun set => set.mode) = some .braked := by
  have hmode : ((p.span i).enter (env.span i) new none).setpointMode = some .braked := by
    cases new with
    | resting | faulted | locked => rfl
    | _ => cases hnew
  have hne : (p.span i).setpointMode ≠ some .braked := by
    rcases h with h | h | h <;> simp [Span.setpointMode, h]
  obtain ⟨q, -, hposted⟩ := changeState_posted_new hne hmode (by decide)
  rw [hposted]
  rfl

end

end Sys2Proof.Machine
end

