-- ==== Sys2Proof/Proofs/StopStatements.lean ====
section
/-! PROOFS. What a stop makes of its span, by the state it finds (R18 to R26), in the statements of STOP_TAKEN, of two stops
merged, of PAUSE and STOP (R31), and of the interval timer's expiry (R115 to R117). -/

namespace Sys2Proof.Machine
open Safety

/-! ### The higher kind and the more severe end state (R18) -/

theorem kindMax_safe (a : StopKind) : kindMax a .safe = .safe := by cases a <;> rfl

theorem kindMax_of_safe (a : StopKind) : kindMax .safe a = .safe := by cases a <;> rfl

theorem kindMax_controlled (a : StopKind) : kindMax a .controlled = a := by cases a <;> rfl

theorem endMax_holding (a : EndState) : endMax a .holding = a := by cases a <;> rfl

theorem kindMax_not_safe {a b : StopKind} (ha : a ≠ .safe) (hb : b ≠ .safe) : kindMax a b ≠ .safe := by
  unfold kindMax
  split <;> assumption

theorem kindMax_right_comm (r a b : StopKind) : kindMax (kindMax r a) b = kindMax (kindMax r b) a := by
  cases r <;> cases a <;> cases b <;> rfl

theorem endMax_right_comm (r a b : EndState) : endMax (endMax r a) b = endMax (endMax r b) a := by
  cases r <;> cases a <;> cases b <;> rfl

/-! ### A stop over at once -/

/-- A stop over at once: what the plant is before the change of state that ends it. -/
structure EndsAtOnce (env : Env) (i : Slot) (req : StopRequest) (p q : Plant) : Prop where
  zones : q.zones = p.zones
  link : q.link = { p.link with bcasts := q.link.bcasts, cycle := q.link.cycle }
  quiet : req.kind ≠ .safe ∨ (p.span i).state = .resting → q.link = p.link
  pending : req.kind = .safe → (p.span i).state ≠ .resting → q.link.bcasts.any (fun b => b.slot == i) = true
  other : ∀ j : Slot, j ≠ i → q.span j = p.span j
  span : q.span i = { p.span i with
    fault := faultAfter env.time req (p.span i),
    proof := if (p.span i).state = .proving then { (p.span i).proof with last := some .abandoned } else (p.span i).proof }

section
variable {env : Env} {i : Slot} {req : StopRequest} {p : Plant}

/-- A stop begun on a plant that differs from the one found by the report queue alone. -/
theorem EndsAtOnce.of_begun {p' : Plant} (hsame : (p'.spans, p'.zones, p'.link) = (p.spans, p.zones, p.link))
    (hstate : (p.span i).state ≠ .proving) (hrest : (p.span i).state ≠ .resting) :
    EndsAtOnce env i req p (stopBegun env i req p') := by
  simp only [Prod.mk.injEq] at hsame
  obtain ⟨hspans, hzones, hlink⟩ := hsame
  have hspan (j : Slot) : p'.span j = p.span j := congrArg (Quad.get · j) hspans
  refine ⟨by rw [stopBegun_zones, hzones], by rw [stopBegun_link, hlink],
    fun h => ?_, fun h _ => stopBegun_pending env i _ h, fun j hj => by rw [stopBegun_span_ne env i req p' hj, hspan],
    by rw [stopBegun_span, hspan, if_neg hstate]⟩
  rw [stopBegun_link_of_not_safe env i _ (h.resolve_right hrest), hlink]

theorem abandonTest_span (why : AbandonCause) :
    (abandonTest env i why p).span i = { p.span i with proof := (p.span i).proof.abandon } := by
  rw [abandonTest, Plant.report_span, Plant.span_setSpan]

/-- A stop that finds the span RESTING, HOLDING, STARTING, PROVING, or MOVING at v = 0, is over at once. -/
theorem takeStop_at_once (why : JogEnd)
    (hcase : (p.span i).state = .resting ∧ req.endState = .faulted ∨ (p.span i).state = .holding ∧ req.endState ≠ .holding ∨
      (p.span i).state = .starting ∨ (p.span i).state = .proving ∨
      ((p.span i).state = .moving ∧ (p.span i).v = 0 ∧ req.kind ≠ .safe ∧ req.endState ≠ .holding))
    (hend : noTestAt env i req.endState (p.span i)) :
    ∃ q, takeStop env i req why p = changeState env i (restState req.endState) none q ∧ EndsAtOnce env i req p q := by
  have hjog : ((endJog env i why p).spans, (endJog env i why p).zones, (endJog env i why p).link) = (p.spans, p.zones, p.link) := by
    unfold endJog; split <;> rfl
  rcases hcase with ⟨hs, he⟩ | ⟨hs, he⟩ | hs | hs | ⟨hs, hv, hkind, he⟩
  · refine ⟨_, by rw [takeStop_resting why hs he, he]; rfl, by simp, by simp, fun _ => by simp, fun _ h => absurd hs h,
      fun j hj => registerStop_span_ne hj env req p, ?_⟩
    rw [registerStop_record, if_neg (by rw [hs]; decide)]
  · refine ⟨_, ?_, .of_begun (p' := p) rfl (by rw [hs]; decide) (by rw [hs]; decide)⟩
    rw [takeStop_holding why hs he, enterEnd_noTest env i _ (by rw [stopBegun_span]; exact hend), endSpanState_of_ne_holding he]
  · refine ⟨_, ?_, .of_begun hjog (by rw [hs]; decide) (by rw [hs]; decide)⟩
    rw [takeStop_starting why hs, enterEnd_noTest env i _ (by rw [stopBegun_span, endJog_span]; exact hend.endAtRest),
      endSpanState_endAtRest]
  · refine ⟨stopBegun env i req (abandonTest env i .stop p), ?_, by simp [abandonTest], ?_, fun h => ?_,
      fun h _ => stopBegun_pending env i _ h, fun j hj => ?_, ?_⟩
    · rw [takeStop_proving why hs, enterEnd_noTest env i _ (by rw [stopBegun_span, abandonTest_span]; exact hend.endAtRest),
        endSpanState_endAtRest]
    · rw [stopBegun_link]; rfl
    · rw [stopBegun_link_of_not_safe env i _ (h.resolve_right (by rw [hs]; decide))]; rfl
    · rw [stopBegun_span_ne env i req _ hj, abandonTest_span_ne hj]
    · rw [stopBegun_span, if_pos hs, abandonTest_span]
      rfl
  · refine ⟨_, ?_, .of_begun hjog (by rw [hs]; decide) (by rw [hs]; decide)⟩
    rw [takeStop_standing why hs hv hkind, enterEnd_noTest env i _ (by rw [stopBegun_span, endJog_span]; exact hend),
      endSpanState_of_ne_holding he]

/-- A stop at rest that ends at once leaves its span at rest, with its journey, its cause and a test abandoned. -/
theorem EndsAtOnce.rests {q : Plant} (h : EndsAtOnce env i req p q) (hl : (p.span i).state ≠ .locking)
    (hu : (p.span i).state ≠ .unlocking) :
    let b := changeState env i (restState req.endState) none q
    b.zones = p.zones ∧ b.link = q.link ∧ (∀ j : Slot, j ≠ i → b.span j = p.span j) ∧ restsIn (restState req.endState) (b.span i) ∧
      sameJourney (q.span i) (b.span i) := by
  have hstate : (q.span i).state = (p.span i).state := by rw [h.span]
  refine ⟨by rw [changeState_zones, h.zones], ?_, fun j hj => by rw [changeState_span_ne env i _ _ _ hj, h.other j hj],
    changeState_restsIn env i q (restState_atRest _), changeState_sameJourney ..⟩
  exact changeState_link env i _ none q (restState_not_energised _) (by rwa [hstate]) (by rwa [hstate])

/-- A stop merged into the one in progress (R21): kind and end state, an upgrade to SAFE, a stop that stays a ramp, and a SAFE
stop that keeps its timer. -/
theorem takeStop_stopping {r : StopRecord} (why : JogEnd) (hstate : (p.span i).state = .stopping)
    (hstop : (p.span i).stop = some r) :
    let q := takeStop env i req why p
    q.zones = p.zones ∧ (∀ j : Slot, j ≠ i → q.span j = p.span j) ∧ (q.span i).state = .stopping ∧
      (q.span i).stop = some { kind := kindMax r.kind req.kind, endState := endMax r.endState req.endState } ∧
      (req.kind = .safe → r.kind ≠ .safe → (q.span i).v = 0 ∧ (q.span i).safeT = some 5000 ∧
        (q.span i).posted.map (fun set => set.mode) = some .braked ∧ q.link.bcasts.any (fun b => b.slot == i) = true) ∧
      (req.kind ≠ .safe → r.kind ≠ .safe → (q.span i).v = (p.span i).v ∧ (q.span i).jog = (p.span i).jog ∧
        (q.span i).running = (p.span i).running) ∧
      (r.kind = .safe → (p.span i).safeT.isSome = true → (q.span i).safeT = (p.span i).safeT) ∧
      sameJourney { p.span i with fault := faultAfter env.time req (p.span i) } (q.span i) := by
  have hne : ∀ j : Slot, j ≠ i → (takeStop env i req why p).span j = p.span j := fun j hj => takeStop_span_ne hj env req why p
  by_cases hsame : kindMax r.kind req.kind = r.kind ∧ endMax r.endState req.endState = r.endState
  · have hspan := registerStop_record env i req p
    rw [takeStop_merged why hstate hstop hsame] at hne ⊢
    refine ⟨registerStop_zones .., hne, by rw [hspan]; exact hstate, by rw [hspan, hsame.1, hsame.2]; exact hstop, fun hsafe hr => ?_,
      fun _ _ => by rw [hspan]; exact ⟨rfl, rfl, rfl⟩, fun _ _ => by rw [hspan], by rw [hspan]; rfl⟩
    rw [hsafe, kindMax_safe] at hsame
    exact absurd hsame.1.symm hr
  · have hb := upgradeBegun_span (env := env) (i := i) (req := req) (p := p) r
    rw [takeStop_upgraded why hstate hstop hsame] at hne ⊢
    have hjourney := changeState_sameJourney env i .stopping
      (some { kind := kindMax r.kind req.kind, endState := endMax r.endState req.endState }) (upgradeBegun env i req r p)
    rw [hb] at hjourney
    refine ⟨by rw [changeState_zones, upgradeBegun_zones], hne, changeState_state .., changeState_stopping_stop .., fun hsafe hr => ?_,
      fun hkind hr => ?_, fun hr htimer => ?_, hjourney⟩
    · have hkind : kindMax r.kind req.kind = .safe := by rw [hsafe, kindMax_safe]
      obtain ⟨-, -, hv, hsafeT, -, -, -, hposted⟩ := changeState_brakes (env := env) (i := i) (p := upgradeBegun env i req r p)
        (r := { kind := kindMax r.kind req.kind, endState := endMax r.endState req.endState }) hkind
        (by rw [hb]; simp [Span.setpointMode, Span.inSafeStop, hstate, hstop, hr])
      refine ⟨hv, hsafeT, hposted, ?_⟩
      rw [changeState_energised_link _ _ _ _ rfl (by rw [hb, hstate]; decide) (by rw [hb, hstate]; decide)]
      exact upgradeBegun_pending hkind hr
    · obtain ⟨-, -, hv, -, -, hrunning, hjog, -⟩ := changeState_ramps (env := env) (i := i) (p := upgradeBegun env i req r p)
        (r := { kind := kindMax r.kind req.kind, endState := endMax r.endState req.endState }) (kindMax_not_safe hr hkind)
      rw [hb] at hv hrunning hjog
      exact ⟨hv, hjog, hrunning⟩
    · rw [changeState_span, hb]
      simp [Span.enter, generatorRuns, StopRecord.isSafe, Span.inSafeStop, hstate, hstop, hr, kindMax_of_safe]

end

/-! ### STOP_TAKEN -/

section
variable {s : State} {i : Slot} {req : StopRequest}

/-- The span as STOP_TAKEN has its stop taken: that stop no longer among those still to be taken. -/
def dueErased (i : Slot) (req : StopRequest) (p : Plant) : Plant :=
  p.setSpan i { p.span i with raised := (p.span i).raised.erase req }

theorem exec_stopTaken (hrun : s.resetPin = false) : exec (.stopTaken i req) s =
    .next (settle { s with plant := takeStop s.env i req .otherStop (dueErased i req s.plant) }) :=
  runEvent_running hrun _

theorem dueErased_span (i : Slot) (req : StopRequest) (p : Plant) :
    (dueErased i req p).span i = { p.span i with raised := (p.span i).raised.erase req } := Plant.span_setSpan ..

theorem dueErased_span_ne {j : Slot} (h : j ≠ i) (req : StopRequest) (p : Plant) : (dueErased i req p).span j = p.span j :=
  Plant.span_setSpan_ne p h _

end

/-- Settles O40: each state in turn, by what a stop does to the plant before the change of state and by that change. -/
theorem stopTakenByState : Obligations.StopTakenByState := by
  intro s i req hrun hfits
  have hspan := dueErased_span i req s.plant
  have hother {j : Slot} (hj : j ≠ i) := dueErased_span_ne hj req s.plant
  have hstate : ((dueErased i req s.plant).span i).state = (s.plant.span i).state := by rw [hspan]
  have hv : ((dueErased i req s.plant).span i).v = (s.plant.span i).v := by rw [hspan]
  have hstop : ((dueErased i req s.plant).span i).stop = (s.plant.span i).stop := by rw [hspan]
  refine ⟨fun h => ?_, fun c hf he hc => ⟨_, exec_stopTaken hrun, ?_⟩, fun h htest => ⟨_, exec_stopTaken hrun, ?_⟩,
    fun hm hv0 hkind he htest => ⟨_, exec_stopTaken hrun, ?_⟩, fun hm hvn hkind => ⟨_, exec_stopTaken hrun, ?_⟩,
    fun hm hkind => ⟨_, exec_stopTaken hrun, ?_⟩, fun r hs hr => ⟨_, exec_stopTaken hrun, ?_⟩⟩
  · rw [exec_stopTaken hrun, takeStop_without_effect .otherStop (by rw [hstate]; exact h)]
    rfl
  · rw [takeStop_faulted .otherStop (hstate.trans hf)]
    refine ⟨⟨by rw [registerStop_zones]; rfl, by rw [registerStop_link]; rfl, fun j hj => ?_⟩, ?_, fun f hfault => ?_⟩
    · rw [registerStop_span_ne hj, hother hj]
    · rw [registerStop_of_cause _ _ _ he hc, registerFault_record, hspan]
      rfl
    · rw [registerStop_of_cause _ _ _ he hc]
      exact registerFault_out_later s.env i _ (by rw [hspan]; exact hfault)
  · obtain ⟨q, hq, hends⟩ := takeStop_at_once (env := s.env) (req := req) (p := dueErased i req s.plant) .otherStop
      (by rw [hstate, hv]; exact h) (htest.imp id (by rw [hspan]; exact id))
    obtain ⟨hzones, hlink, hne, hrests, hjourney⟩ := hends.rests (by rw [hstate]; rcases h with h | h | h | h | h <;> simp [h])
      (by rw [hstate]; rcases h with h | h | h | h | h <;> simp [h])
    rw [hq]
    refine ⟨hzones, ?_, fun hquiet => ?_, fun hkind hrest => ?_, fun j hj => (hne j hj).trans (hother hj), hrests, ?_, fun hrun => ?_⟩
    · rw [hlink, hends.link]; rfl
    · rw [hlink, hends.quiet (by rwa [hstate])]; rfl
    · rw [hlink]; exact hends.pending hkind (by rwa [hstate])
    · rw [hends.span, hspan] at hjourney; exact hjourney
    · exact changeState_rest_posted (restState_atRest _) (by rw [hends.span, hspan]; exact hrun)
  · have hbegun : stopBegun s.env i req (endJog s.env i .otherStop (dueErased i req s.plant)) =
        endJog s.env i .otherStop (dueErased i req s.plant) := stopBegun_plain s.env i _ hkind (by rw [he]; decide)
    rw [takeStop_standing .otherStop (hstate.trans hm) (hv.trans hv0) hkind, hbegun, he,
      enterEnd_noTest s.env i _ (.inr (by rw [endJog_span, hspan]; exact htest))]
    obtain ⟨hzones, hlink, -, hne⟩ := changeState_energises s.env i (new := .holding) none
      (endJog s.env i .otherStop (dueErased i req s.plant)) rfl (by rw [endJog_span, hstate, hm]; decide)
      (by rw [endJog_span, hstate, hm]; decide)
    have hjourney := changeState_sameJourney s.env i .holding none (endJog s.env i .otherStop (dueErased i req s.plant))
    have henter := changeState_span s.env i .holding none (endJog s.env i .otherStop (dueErased i req s.plant))
    rw [endJog_span, hspan] at hjourney
    simp only [endJog_zones, endJog_link, endJog_span] at hzones hlink hne
    refine ⟨hzones, hlink, fun j hj => (hne j hj).trans (hother hj), changeState_state .., ?_, ?_, ?_, ?_, ?_, ?_, ?_, hjourney⟩ <;>
      rw [endSpanState, henter] <;> simp [Span.enter, generatorRuns]
  · rw [takeStop_ramping .otherStop (hstate.trans hm) (.inl (by rwa [hv]))]
    have hbegun := stopBegun_span s.env i req (endJog s.env i .otherStop (dueErased i req s.plant))
    rw [endJog_span, hspan] at hbegun
    obtain ⟨hzones, hlink, -, hne⟩ := changeState_energises s.env i (new := .stopping)
      (some { kind := req.kind, endState := req.endState })
      (stopBegun s.env i req (endJog s.env i .otherStop (dueErased i req s.plant))) rfl (by rw [hbegun, hm]; decide)
      (by rw [hbegun, hm]; decide)
    rw [stopBegun_link_of_not_safe _ _ _ hkind, endJog_link] at hlink
    rw [stopBegun_zones, endJog_zones] at hzones
    obtain ⟨hnew, hrec, hspeed, hdwell, hsafe, hrunning, hjog, hposted⟩ := changeState_ramps (env := s.env) (i := i)
      (p := stopBegun s.env i req (endJog s.env i .otherStop (dueErased i req s.plant)))
      (r := { kind := req.kind, endState := req.endState }) hkind
    have hjourney := changeState_sameJourney s.env i .stopping (some { kind := req.kind, endState := req.endState })
      (stopBegun s.env i req (endJog s.env i .otherStop (dueErased i req s.plant)))
    rw [hbegun] at hspeed hrunning hjog hposted hjourney
    refine ⟨hzones, hlink, fun j hj => ?_, hnew, hrec, hspeed, hdwell, hsafe, hrunning, hjog, hposted, hjourney⟩
    rw [hne j hj, stopBegun_span_ne _ _ _ _ hj, endJog_span, hother hj]
  · rw [takeStop_ramping .otherStop (hstate.trans hm) (.inr hkind)]
    have hbegun := stopBegun_span s.env i req (endJog s.env i .otherStop (dueErased i req s.plant))
    rw [endJog_span, hspan] at hbegun
    obtain ⟨hzones, hlink, -, hne⟩ := changeState_energises s.env i (new := .stopping)
      (some { kind := req.kind, endState := req.endState })
      (stopBegun s.env i req (endJog s.env i .otherStop (dueErased i req s.plant))) rfl (by rw [hbegun, hm]; decide)
      (by rw [hbegun, hm]; decide)
    rw [stopBegun_zones, endJog_zones] at hzones
    obtain ⟨hnew, hrec, hspeed, hsafe, hdwell, hrunning, hjog, hposted⟩ := changeState_brakes (env := s.env) (i := i)
      (p := stopBegun s.env i req (endJog s.env i .otherStop (dueErased i req s.plant)))
      (r := { kind := req.kind, endState := req.endState }) hkind (by rw [hbegun, Span.setpointMode, hm])
    have hjourney := changeState_sameJourney s.env i .stopping (some { kind := req.kind, endState := req.endState })
      (stopBegun s.env i req (endJog s.env i .otherStop (dueErased i req s.plant)))
    rw [hbegun] at hjourney
    refine ⟨hzones, fun j hj => ?_, hnew, hspeed, hsafe, by rw [hrec, hkind], hjog, hrunning, hdwell, hposted, ?_, hjourney⟩
    · rw [hne j hj, stopBegun_span_ne _ _ _ _ hj, endJog_span, hother hj]
    · rw [hlink]; exact stopBegun_pending _ _ _ hkind
  · obtain ⟨hzones, hne, hnew, hrec, hbrakes, hramps, htimer, hjourney⟩ := takeStop_stopping (env := s.env) (req := req) .otherStop
      (hstate.trans hs) (hstop.trans hr)
    rw [hspan] at hramps htimer hjourney
    exact ⟨hzones, fun j hj => (hne j hj).trans (hother hj), hnew, hrec, hbrakes, hramps, htimer, hjourney⟩

/-! ### Two stops merged (R21) -/

/-- Whether a stop registers a cause. -/
def registersCause (req : StopRequest) (c : FaultCause) : Bool := decide (req.endState = .faulted ∧ req.cause = some c)

theorem faultHas_faultWith (time : Time) (c c' : FaultCause) (sp : Span) :
    ({ sp with fault := some (faultWith time c sp) } : Span).faultHas c' = (sp.faultHas c' || c == c') := by
  simp only [Span.faultHas, faultWith]
  cases sp.fault with
  | none => simp
  | some f =>
    by_cases h : f.first = c ∨ c ∈ f.later
    · simp only [if_pos h]
      by_cases hc : c = c'
      · subst hc; simpa using h
      · simp [hc]
    · simp only [if_neg h, List.contains_append, List.contains_cons, List.contains_nil, Bool.or_false, Bool.or_assoc,
        BEq.comm (a := c')]

theorem faultHas_faultAfter (time : Time) (req : StopRequest) (c : FaultCause) (sp : Span) :
    ({ sp with fault := faultAfter time req sp } : Span).faultHas c = (sp.faultHas c || registersCause req c) := by
  obtain ⟨kind, endState, cause⟩ := req
  cases endState <;> cases cause
  case faulted.some c' =>
    refine (faultHas_faultWith time c' c sp).trans ?_
    rw [Bool.eq_iff_iff]
    simp [registersCause]
  all_goals
    simp only [registersCause, reduceCtorEq, false_and, and_false, decide_false, Bool.or_false]
    rfl

/-- A stop taken in STOPPING adds its cause to those the fault record holds. -/
theorem takeStop_stopping_faultHas {env : Env} {i : Slot} {req : StopRequest} {p : Plant} {r : StopRecord} (why : JogEnd)
    (hstate : (p.span i).state = .stopping) (hstop : (p.span i).stop = some r) (c : FaultCause) :
    ((takeStop env i req why p).span i).faultHas c = ((p.span i).faultHas c || registersCause req c) := by
  obtain ⟨-, -, -, -, -, -, -, hjourney⟩ := takeStop_stopping (env := env) (req := req) why hstate hstop
  rw [← faultHas_faultAfter env.time, Span.faultHas, hjourney]
  rfl

/-- Settles O41: the higher kind, the more severe end state and the union of the causes do not depend on the order. -/
theorem stopsMergeInEitherOrder : Obligations.StopsMergeInEitherOrder := by
  intro env i a b p r why hstate hstop
  have one (x : StopRequest) := takeStop_stopping (env := env) (req := x) why hstate hstop
  have two (x y : StopRequest) : ((takeStop env i y why (takeStop env i x why p)).span i).state = .stopping ∧
      ((takeStop env i y why (takeStop env i x why p)).span i).stop =
        some { kind := kindMax (kindMax r.kind x.kind) y.kind, endState := endMax (endMax r.endState x.endState) y.endState } := by
    obtain ⟨-, -, hs, hr, -⟩ := one x
    obtain ⟨-, -, hs', hr', -⟩ := takeStop_stopping (env := env) (req := y) why hs hr
    exact ⟨hs', hr'⟩
  have causes (x y : StopRequest) (c : FaultCause) : ((takeStop env i y why (takeStop env i x why p)).span i).faultHas c =
      ((p.span i).faultHas c || registersCause x c || registersCause y c) := by
    obtain ⟨-, -, hs, hr, -⟩ := one x
    rw [takeStop_stopping_faultHas why hs hr, takeStop_stopping_faultHas why hstate hstop]
  refine ⟨(two a b).1, (two a b).2, ?_, fun c => ?_⟩
  · rw [(two b a).2, (two a b).2, kindMax_right_comm, endMax_right_comm]
  · rw [causes, causes, Bool.or_right_comm]

/-! ### The interval timer (R115 to R117) -/

/-- What an expiry at o = 8 leaves of the proof state, with the plan: nothing a stop or a test begun takes away. -/
theorem proofDue_kept (n : Nat) (plan : List Segment) :
    KeptByStops (fun a => a.proof.owed = 8 ∧ a.proof.due = true ∧ a.proof.intervalMs = n ∧ a.plan = plan) where
  enter _ _ _ _ _ h := h
  fault _ _ h := h
  test _ _ h := h
  result _ _ h := h

theorem tryForced_span_ne {env : Env} {i j : Slot} (h : j ≠ i) (p : Plant) : (tryForced env i p).span j = p.span j := by
  unfold tryForced
  split
  · exact startTest_span_ne h env p
  · rfl

/-- No test starts on a span in a state other than RESTING and HOLDING (R118). -/
theorem tryForced_in_motion {env : Env} {i : Slot} {p : Plant} (h1 : (p.span i).state ≠ .resting) (h2 : (p.span i).state ≠ .holding) :
    tryForced env i p = p := by
  simp [tryForced, testAllowed, h1, h2]

theorem forceProof_span_ne {env : Env} {i j : Slot} (h : j ≠ i) (p : Plant) : (forceProof env i p).span j = p.span j := by
  unfold forceProof
  split
  · rw [tryForced_span_ne h, takeStop_span_ne h]
  · rw [tryForced_span_ne h, takeStop_span_ne h]
  · rw [tryForced_span_ne h, takeStop_span_ne h]
  · exact tryForced_span_ne h p
  · rfl

theorem KeptByStops.forceProof {P : Span → Prop} (hP : KeptByStops P) {env : Env} {i : Slot} {p : Plant} (h : P (p.span i)) :
    P ((forceProof env i p).span i) := by
  unfold Machine.forceProof
  split
  · exact hP.tryForced (hP.takeStop _ _ h)
  · exact hP.tryForced (hP.takeStop _ _ h)
  · exact hP.tryForced (hP.takeStop _ _ h)
  · exact hP.tryForced h
  · exact h

/-- A span MOVING at speed takes a CONTROLLED stop to HOLDING when a proof falls due. -/
theorem forceProof_moving {env : Env} {i : Slot} {p : Plant} (h : (p.span i).state = .moving) (hv : (p.span i).v ≠ 0) :
    ((forceProof env i p).span i).state = .stopping ∧
      ((forceProof env i p).span i).stop = some { kind := .controlled, endState := .holding } := by
  have hstop : takeStop env i controlledHold .otherStop p = _ := takeStop_ramping .otherStop h (.inl hv)
  have hstate : ((takeStop env i controlledHold .otherStop p).span i).state = .stopping := by
    rw [hstop]; exact changeState_state ..
  simp only [forceProof, h]
  rw [tryForced_in_motion (by rw [hstate]; decide) (by rw [hstate]; decide)]
  exact ⟨hstate, by rw [hstop]; exact changeState_stopping_stop ..⟩

/-- Settles O44: below 8 the count rises; at 8 proof-due is set, and the stop keeps it. -/
theorem proofIntervalExpires : Obligations.ProofIntervalExpires := by
  intro s i hrun
  refine ⟨fun hon howed => (runEvent_running hrun _).trans ?_, fun hon howed =>
    ⟨intervalExpired s.env i s.plant, runEvent_running hrun _, ?_⟩,
    fun hoff => (runEvent_running hrun _).trans ?_⟩
  · simp [State.onPlant, intervalExpired, hon, ProofState.expire, Config.owedMax, Config.hourMs, howed]
  · have hform : intervalExpired s.env i s.plant = forceProof s.env i (s.plant.setSpan i { s.plant.span i with
        proof := { (s.plant.span i).proof with due := true, intervalMs := (s.env.span i).tProof * 3600000 } }) := by
      simp [intervalExpired, hon, ProofState.expire, Config.owedMax, Config.hourMs, howed]
    have hset : (s.plant.setSpan i { s.plant.span i with
        proof := { (s.plant.span i).proof with due := true, intervalMs := (s.env.span i).tProof * 3600000 } }).span i =
        { s.plant.span i with
          proof := { (s.plant.span i).proof with due := true, intervalMs := (s.env.span i).tProof * 3600000 } } :=
      Plant.span_setSpan ..
    obtain ⟨howed', hdue, hms, hplan⟩ := (proofDue_kept ((s.env.span i).tProof * 3600000) (s.plant.span i).plan).forceProof
      (env := s.env) (i := i) (p := s.plant.setSpan i { s.plant.span i with
        proof := { (s.plant.span i).proof with due := true, intervalMs := (s.env.span i).tProof * 3600000 } })
      (by rw [hset]; exact ⟨howed, rfl, rfl, rfl⟩)
    rw [hform]
    refine ⟨fun j hj => ?_, howed', hdue, hms, hplan, fun hm hv => forceProof_moving (by rw [hset]; exact hm) (by rw [hset]; exact hv),
      fun hrest => ?_⟩
    · rw [forceProof_span_ne hj, Plant.span_setSpan_ne _ hj]
    · rcases hrest with h | h | h <;> simp [forceProof, h]
  · simp [State.onPlant, intervalExpired, hoff]

/-! ### PAUSE and STOP (R31) -/

section
variable {s : State} {slot : Byte} {i : Slot}

theorem stopRequest_none (req : StopRequest) (h : slotOf slot = none) : stopRequest slot req s = refuse s .range := onSlot_none h

theorem stopRequest_refused (req : StopRequest) (h : slotOf slot = some i) (hmode : s.sup.mode = .init ∨ s.sup.mode = .acquiring) :
    stopRequest slot req s = refuse s .mode := by
  refine (onSlot_some h).trans (if_pos ?_)
  rcases hmode with hm | hm <;> simp [hm]

theorem stopRequest_taken (req : StopRequest) (h : slotOf slot = some i) (hmode : s.sup.mode = .ready ∨ s.sup.mode = .failsafe) :
    stopRequest slot req s =
      accept { s with plant := takeStop s.env i req .otherStop (clearWindHold i s.plant) } := by
  refine (onSlot_some h).trans (if_neg ?_)
  rcases hmode with hm | hm <;> simp [hm]

theorem clearWindHold_span (i : Slot) (p : Plant) : (clearWindHold i p).span i = { p.span i with windHold := false } :=
  Plant.span_setSpan ..

theorem clearWindHold_span_ne {j : Slot} (h : j ≠ i) (p : Plant) : (clearWindHold i p).span j = p.span j :=
  Plant.span_setSpan_ne p h _

end

section
variable {env : Env} {i : Slot} {req : StopRequest} {p : Plant} {out : ReportQueue}

/-- The plant a stop of a host finds, with the report of the jog it ends. -/
def hostStopFinds (i : Slot) (out : ReportQueue) (p : Plant) : Plant := { clearWindHold i p with out := out }

theorem hostStopFinds_span : (hostStopFinds i out p).span i = { p.span i with windHold := false } := Plant.span_setSpan ..

/-- The report of a jog that a stop of a host ends comes first. -/
theorem endJog_hostStop (hstate : (p.span i).state = .starting ∨ (p.span i).state = .moving)
    (hout : out = if (p.span i).jog.isSome = true then p.out.push (.station (.jogEnded i .otherStop) env.time) else p.out) :
    endJog env i .otherStop (clearWindHold i p) = hostStopFinds i out p := by
  have hspan := clearWindHold_span i p
  subst hout
  split
  next hjog =>
    rw [endJog_of_jogging _ _ _ _ (by rw [hspan]; exact hjog) (by rw [hspan]; exact hstate)]
    rfl
  next hjog =>
    rw [endJog_of_none _ _ _ _ (by rw [hspan]; simpa using hjog)]
    rfl

/-- A stop of a host that finds the span MOVING at speed ramps it down (R19). -/
theorem hostStop_ramps (hkind : req.kind ≠ .safe) (hend : req.endState ≠ .faulted) (hstate : (p.span i).state = .moving)
    (hv : (p.span i).v ≠ 0)
    (hout : out = if (p.span i).jog.isSome = true then p.out.push (.station (.jogEnded i .otherStop) env.time) else p.out) :
    let q := takeStop env i req .otherStop (clearWindHold i p)
    energises env.time i (.spanState i .moving .stopping (some { kind := req.kind, endState := req.endState }))
        { p with out := out } q ∧
      sameJourney (p.span i) (q.span i) ∧ (q.span i).state = .stopping ∧ (q.span i).v = (p.span i).v ∧
      (q.span i).stop = some { kind := req.kind, endState := req.endState } ∧ (q.span i).windHold = false ∧
      (q.span i).running = (p.span i).running ∧ (q.span i).jog = (p.span i).jog ∧ (q.span i).posted = (p.span i).posted := by
  have hfound := hostStopFinds_span (i := i) (out := out) (p := p)
  have hstop : takeStop env i req .otherStop (clearWindHold i p) =
      changeState env i .stopping (some { kind := req.kind, endState := req.endState }) (hostStopFinds i out p) := by
    rw [takeStop_ramping .otherStop (by rw [clearWindHold_span]; exact hstate) (.inl (by rw [clearWindHold_span]; exact hv)),
      stopBegun_plain _ _ _ hkind hend, endJog_hostStop (.inr hstate) hout]
  have henergises := changeState_energises env i (new := .stopping) (some { kind := req.kind, endState := req.endState })
    (hostStopFinds i out p) rfl (by rw [hfound, hstate]; decide) (by rw [hfound, hstate]; decide)
  have hjourney := changeState_sameJourney env i .stopping (some { kind := req.kind, endState := req.endState })
    (hostStopFinds i out p)
  have hwind := windHold_kept.changeState (env := env) (i := i) (p := hostStopFinds i out p) (new := .stopping)
    (rec := some { kind := req.kind, endState := req.endState }) (by rw [hfound])
  obtain ⟨hnew, hrec, hspeed, -, -, hrunning, hjog, hposted⟩ := changeState_ramps (env := env) (i := i)
    (p := hostStopFinds i out p) (r := { kind := req.kind, endState := req.endState }) hkind
  rw [hfound] at henergises hjourney hspeed hrunning hjog hposted
  rw [hstate] at henergises
  rw [hstop]
  exact ⟨energises.of_setSpan (p := { p with out := out }) henergises, hjourney, hnew, hspeed, hrec, hwind, hrunning, hjog, hposted⟩

/-- A stop of a host that is over at once leaves the span RESTING (R19, R23, R24). -/
theorem hostStop_rests (hl : (p.span i).state ≠ .locking) (hu : (p.span i).state ≠ .unlocking) :
    let q := changeState env i .resting none (hostStopFinds i out p)
    onlySpan i p q ∧ q.out = out.push (.spanState i (p.span i).state .resting none) ∧ sameJourney (p.span i) (q.span i) ∧
      restsIn .resting (q.span i) := by
  have hfound := hostStopFinds_span (i := i) (out := out) (p := p)
  have honly := changeState_onlySpan env i (new := .resting) none (hostStopFinds i out p) rfl (by rw [hfound]; exact hl)
    (by rw [hfound]; exact hu)
  have hout := changeState_out env i .resting none (hostStopFinds i out p) rfl
  have hjourney := changeState_sameJourney env i .resting none (hostStopFinds i out p)
  rw [hfound] at hjourney hout
  exact ⟨onlySpan.of_setSpan (p := { p with out := out }) honly, hout, hjourney, changeState_restsIn env i _ rfl⟩

/-- A stop of a host aborts the release of the brakes (R24). -/
theorem hostStop_starting (hkind : req.kind ≠ .safe) (hend : req.endState ≠ .faulted) (hstate : (p.span i).state = .starting)
    (htest : (p.span i).proof.due = false ∧ (env.span i).autoProof = false)
    (hout : out = if (p.span i).jog.isSome = true then p.out.push (.station (.jogEnded i .otherStop) env.time) else p.out) :
    takeStop env i req .otherStop (clearWindHold i p) = changeState env i .resting none (hostStopFinds i out p) := by
  have hrest : endSpanState (endAtRest req.endState) = .resting := by
    cases h : req.endState with
    | faulted => exact absurd h hend
    | resting | holding => rfl
  rw [takeStop_starting .otherStop (by rw [clearWindHold_span]; exact hstate), stopBegun_plain _ _ _ hkind hend,
    endJog_hostStop (.inl hstate) hout, enterEnd_noTest env i _ (.inr (by rw [hostStopFinds_span]; exact htest)), hrest]

/-- A stop of a host that finds the span MOVING at v = 0 is over at once (R19). -/
theorem hostStop_standing (hkind : req.kind ≠ .safe) (hend : req.endState ≠ .faulted) (hstate : (p.span i).state = .moving)
    (hv : (p.span i).v = 0) (htest : (p.span i).proof.due = false ∧ (env.span i).autoProof = false)
    (hout : out = if (p.span i).jog.isSome = true then p.out.push (.station (.jogEnded i .otherStop) env.time) else p.out) :
    takeStop env i req .otherStop (clearWindHold i p) =
      changeState env i (endSpanState req.endState) none (hostStopFinds i out p) := by
  rw [takeStop_standing .otherStop (by rw [clearWindHold_span]; exact hstate) (by rw [clearWindHold_span]; exact hv) hkind,
    stopBegun_plain _ _ _ hkind hend, endJog_hostStop (.inr hstate) hout,
    enterEnd_noTest env i _ (.inr (by rw [hostStopFinds_span]; exact htest))]

/-- A span MOVING at v = 0 that a stop of a host brings to HOLDING (R19). -/
theorem hostStop_holds (hstate : (p.span i).state = .moving) :
    let q := changeState env i .holding none (hostStopFinds i out p)
    energises env.time i (.spanState i .moving .holding none) { p with out := out } q ∧ sameJourney (p.span i) (q.span i) ∧
      (q.span i).state = .holding ∧ (q.span i).v = 0 ∧ (q.span i).jog = none ∧
      (q.span i).holdT = some ((env.span i).tHold * 1000) ∧ (q.span i).dwellT = none ∧ (q.span i).stop = none ∧
      (q.span i).running = false ∧ (q.span i).zoneWait = false := by
  have hfound := hostStopFinds_span (i := i) (out := out) (p := p)
  have henergises := changeState_energises env i (new := .holding) none (hostStopFinds i out p) rfl
    (by rw [hfound, hstate]; decide) (by rw [hfound, hstate]; decide)
  have hjourney := changeState_sameJourney env i .holding none (hostStopFinds i out p)
  have hspan := changeState_span env i .holding none (hostStopFinds i out p)
  rw [hfound] at henergises hjourney
  rw [hstate] at henergises
  refine ⟨energises.of_setSpan (p := { p with out := out }) henergises, hjourney, changeState_state .., ?_, ?_, ?_, ?_, ?_, ?_, ?_⟩ <;>
    rw [hspan] <;> simp [Span.enter, generatorRuns]

/-- A stop of a host abandons a test (R122). -/
theorem hostStop_proving (hkind : req.kind ≠ .safe) (hend : req.endState ≠ .faulted) (hstate : (p.span i).state = .proving)
    (htest : (p.span i).proof.due = false ∧ (env.span i).autoProof = false) :
    takeStop env i req .otherStop (clearWindHold i p) =
      changeState env i .resting none (abandonTest env i .stop (clearWindHold i p)) := by
  have hrest : endSpanState (endAtRest req.endState) = .resting := by
    cases h : req.endState with
    | faulted => exact absurd h hend
    | resting | holding => rfl
  rw [takeStop_proving .otherStop (by rw [clearWindHold_span]; exact hstate), stopBegun_plain _ _ _ hkind hend,
    enterEnd_noTest env i _ (.inr (by rw [abandonTest_span, clearWindHold_span]; exact htest)), hrest]

/-- A span whose test is abandoned rests, with its result and its two reports (R122). -/
theorem abandoned_rests (why : AbandonCause) (hstate : (p.span i).state = .proving) :
    let q := changeState env i .resting none (abandonTest env i why p)
    onlySpan i p q ∧
      q.out = (p.out.push (.proof i .abandoned (p.span i).proof.owed (p.span i).testDir none (some why) env.time)).push
        (.spanState i .proving .resting none) ∧
      (q.span i).proof = { (p.span i).proof with last := some .abandoned, run := (q.span i).proof.run } ∧
      sameJourney { p.span i with proof := (p.span i).proof.abandon } (q.span i) ∧ restsIn .resting (q.span i) := by
  have habandon := abandonTest_span (env := env) (i := i) (p := p) why
  have honly := changeState_onlySpan env i (new := .resting) none (abandonTest env i why p) rfl
    (by rw [habandon, hstate]; decide) (by rw [habandon, hstate]; decide)
  have hout := changeState_out env i .resting none (abandonTest env i why p) rfl
  have hjourney := changeState_sameJourney env i .resting none (abandonTest env i why p)
  rw [habandon] at hjourney hout
  rw [hstate] at hout
  refine ⟨onlySpan.of_setSpan honly, hout, ?_, hjourney, changeState_restsIn env i _ rfl⟩
  rw [hjourney]
  rfl

end

/-- Settles O29: the refusals, and the stop taken in every state. -/
theorem pauseAndStopTaken : Obligations.PauseAndStopTaken := by
  intro s tag slot hfree
  have pause {d : Done} (h : stopRequest slot controlledHold s = d) :
      exec (.pause tag slot) s = .next (answered d.state 0xA3 tag d.result d.onSent) := request_done tag hfree (r := .pause slot) h
  have stop {d : Done} (h : stopRequest slot quickRest s = d) :
      exec (.stop tag slot) s = .next (answered d.state 0xA4 tag d.result d.onSent) := request_done tag hfree (r := .stop slot) h
  refine ⟨fun hslot => ⟨pause (stopRequest_none _ hslot), stop (stopRequest_none _ hslot)⟩, fun i hslot =>
    ⟨fun hmode => ⟨pause (stopRequest_refused _ hslot hmode), stop (stopRequest_refused _ hslot hmode)⟩, fun hmode => ?_⟩⟩
  have hpause : exec (.pause tag slot) s = .next (accepted { s with
      plant := takeStop s.env i controlledHold .otherStop (clearWindHold i s.plant) } 0xA3 tag) := pause (stopRequest_taken _ hslot hmode)
  have hstop : exec (.stop tag slot) s = .next (accepted { s with
      plant := takeStop s.env i quickRest .otherStop (clearWindHold i s.plant) } 0xA4 tag) := stop (stopRequest_taken _ hslot hmode)
  have hspan := clearWindHold_span i s.plant
  have hunjogged (hjog : (s.plant.span i).jog = none) : s.plant.out = if (s.plant.span i).jog.isSome = true
      then s.plant.out.push (.station (.jogEnded i .otherStop) s.env.time) else s.plant.out := by simp [hjog]
  have hjogged (hjog : (s.plant.span i).jog.isSome = true) : s.plant.out.push (.station (.jogEnded i .otherStop) s.time) =
      if (s.plant.span i).jog.isSome = true then s.plant.out.push (.station (.jogEnded i .otherStop) s.env.time)
      else s.plant.out := by simp [hjog]; rfl
  refine ⟨fun h => ?_, fun hm hv hjog => ?_, fun hh => ⟨?_, fun htest => ?_⟩, fun hs hjog htest => ?_, fun j hm hv hjog => ?_,
    fun hs hjog htest => ?_, fun out hm hv htest hout => ?_, fun hp ht htest => ?_, fun r hs hr => ?_⟩
  · rw [hpause, hstop, takeStop_without_effect .otherStop (by rw [hspan]; rcases h with h | h | h | h | h | h <;> simp [controlledHold, h]),
      takeStop_without_effect .otherStop (by rw [hspan]; rcases h with h | h | h | h | h | h <;> simp [quickRest, h])]
    exact ⟨rfl, rfl⟩
  · obtain ⟨hp1, hp2, hp3, hp4, hp5, hp6, hp7, -, hp8⟩ := hostStop_ramps (env := s.env) (req := controlledHold) (by decide)
      (by decide) hm hv (hunjogged hjog)
    obtain ⟨hq1, hq2, hq3, hq4, hq5, hq6, hq7, -, hq8⟩ := hostStop_ramps (env := s.env) (req := quickRest) (by decide)
      (by decide) hm hv (hunjogged hjog)
    exact ⟨⟨_, hpause, hp1, hp2, hp3, hp4, hp5, hp6, hp7, hp8⟩, ⟨_, hstop, hq1, hq2, hq3, hq4, hq5, hq6, hq7, hq8⟩⟩
  · rw [hpause, takeStop_without_effect .otherStop (by rw [hspan]; simp [controlledHold, hh])]
    rfl
  · have hq : takeStop s.env i quickRest .otherStop (clearWindHold i s.plant) =
        changeState s.env i .resting none (hostStopFinds i s.plant.out s.plant) := by
      rw [takeStop_holding .otherStop (by rw [hspan]; exact hh) (by decide), stopBegun_plain _ _ _ (by decide) (by decide),
        enterEnd_noTest s.env i _ (.inr (by rw [hspan]; exact htest))]
      rfl
    have hrests := hostStop_rests (env := s.env) (i := i) (p := s.plant) (out := s.plant.out) (by rw [hh]; decide) (by rw [hh]; decide)
    rw [hh] at hrests
    exact ⟨_, by rw [hstop, hq], hrests⟩
  · have hrests := hostStop_rests (env := s.env) (i := i) (p := s.plant) (out := s.plant.out) (by rw [hs]; decide) (by rw [hs]; decide)
    rw [hs] at hrests
    exact ⟨_, by rw [hpause, hostStop_starting (by decide) (by decide) hs htest (hunjogged hjog)],
      by rw [hstop, hostStop_starting (by decide) (by decide) hs htest (hunjogged hjog)], hrests⟩
  · have hsome : (s.plant.span i).jog.isSome = true := by rw [hjog]; rfl
    obtain ⟨hp1, hp2, hp3, hp4, hp5, -, -, hp6, -⟩ := hostStop_ramps (env := s.env) (req := controlledHold) (by decide)
      (by decide) hm hv (hjogged hsome)
    obtain ⟨hq1, hq2, hq3, hq4, hq5, -, -, hq6, -⟩ := hostStop_ramps (env := s.env) (req := quickRest) (by decide)
      (by decide) hm hv (hjogged hsome)
    exact ⟨⟨_, hpause, hp1, hp2, hp3, hp4, hp6.trans hjog, hp5⟩, ⟨_, hstop, hq1, hq2, hq3, hq4, hq6.trans hjog, hq5⟩⟩
  · have hrests := hostStop_rests (env := s.env) (i := i) (p := s.plant)
      (out := s.plant.out.push (.station (.jogEnded i .otherStop) s.time)) (by rw [hs]; decide) (by rw [hs]; decide)
    rw [hs] at hrests
    exact ⟨_, by rw [hpause, hostStop_starting (by decide) (by decide) hs htest (hjogged hjog)],
      by rw [hstop, hostStop_starting (by decide) (by decide) hs htest (hjogged hjog)], hrests⟩
  · have hrests := hostStop_rests (env := s.env) (i := i) (p := s.plant) (out := out) (by rw [hm]; decide) (by rw [hm]; decide)
    rw [hm] at hrests
    exact ⟨⟨_, by rw [hpause, hostStop_standing (by decide) (by decide) hm hv htest hout], hostStop_holds hm⟩,
      ⟨_, by rw [hstop, hostStop_standing (by decide) (by decide) hm hv htest hout]; rfl, hrests⟩⟩
  · obtain ⟨honly, hout, hproof, hjourney, hrests⟩ := abandoned_rests (env := s.env) (i := i) (p := clearWindHold i s.plant) .stop
      (by rw [hspan]; exact hp)
    rw [hspan] at hout hproof hjourney
    refine ⟨_, by rw [hpause, hostStop_proving (by decide) (by decide) hp htest],
      by rw [hstop, hostStop_proving (by decide) (by decide) hp htest], onlySpan.of_setSpan honly, hout, hproof, ?_, ?_, hrests⟩
    · rw [hjourney]
    · rw [hjourney]
  · have hs' : ((clearWindHold i s.plant).span i).state = .stopping := by rw [hspan]; exact hs
    have hr' : ((clearWindHold i s.plant).span i).stop = some r := by rw [hspan]; exact hr
    obtain ⟨hzones, hne, hnew, hrec, -, hramps, -, hjourney⟩ :=
      takeStop_stopping (env := s.env) (req := quickRest) .otherStop hs' hr'
    refine ⟨?_, _, hstop, hzones, fun m hm => (hne m hm).trans (clearWindHold_span_ne hm _), ?_, hnew, fun hsafe => ?_, hrec⟩
    · rw [hpause, takeStop_merged .otherStop hs' hr' ⟨kindMax_controlled _, endMax_holding _⟩,
        registerStop_of_rests _ _ _ (by decide)]
      rfl
    · rw [hspan] at hjourney
      exact hjourney
    · rw [hspan] at hramps
      exact (hramps (by decide) (by simpa [StopRecord.isSafe] using hsafe)).1

end Sys2Proof.Machine
end

