-- ==== Sys2Proof/Proofs/ReadyChecks.lean ====
section
/-! PROOFS. GO READY (R160): the order of its five checks, and what each of them judges (R10 to R12, R111, R112, R131, R151). -/

namespace Sys2Proof.Machine
open Safety

/-! ### The first of several judgements -/

section
variable {α β : Type} {f : α → Option β}

/-- The first thing judged unmet answers, behind things that are met. -/
theorem firstSome_of_prefix {pre post : List α} {a : α} {b : β} (hpre : ∀ c ∈ pre, f c = none) (ha : f a = some b) :
    firstSome f (pre ++ a :: post) = some b := by
  induction pre with
  | nil => simp [firstSome, ha]
  | cons c pre ih =>
    obtain ⟨hc, hpre⟩ := List.forall_mem_cons.1 hpre
    simp [firstSome, hc, ih hpre]

/-- What answers is a judgement of one of the things. -/
theorem firstSome_mem {as : List α} {b : β} (h : firstSome f as = some b) : ∃ a ∈ as, f a = some b := by
  induction as with
  | nil => simp [firstSome] at h
  | cons a as ih =>
    cases ha : f a with
    | none =>
      rw [firstSome, ha] at h
      obtain ⟨c, hc, hb⟩ := ih h
      exact ⟨c, List.mem_cons_of_mem a hc, hb⟩
    | some d =>
      rw [firstSome, ha] at h
      exact ⟨a, List.mem_cons_self, ha.trans h⟩

/-- A judgement by its place in a list; none behind the end. -/
def judgement (os : List (Option β)) (n : Nat) : Option β := os[n]?.join

theorem firstOf_eq_none_iff {os : List (Option β)} : firstOf os = none ↔ ∀ n, judgement os n = none := by
  rw [firstOf_eq_none]
  constructor
  · intro h n
    unfold judgement
    cases hn : os[n]? with
    | none => rfl
    | some o => exact h o (List.mem_of_getElem? hn)
  · intro h o ho
    obtain ⟨n, hn⟩ := List.getElem?_of_mem ho
    simpa [judgement, hn] using h n

/-- The first judgement that answers, by its place. -/
theorem firstOf_of_first {os : List (Option β)} {n : Nat} {b : β} (hpre : ∀ m, m < n → judgement os m = none)
    (hn : judgement os n = some b) : firstOf os = some b := by
  induction os generalizing n with
  | nil => simp [judgement] at hn
  | cons o os ih =>
    cases n with
    | zero =>
      have ho : o = some b := by simpa [judgement] using hn
      simp [firstOf, firstSome, ho]
    | succ n =>
      have ho : o = none := by simpa [judgement] using hpre 0 (Nat.succ_pos n)
      have hrest := ih (n := n) (fun m hm => by simpa [judgement] using hpre (m + 1) (Nat.succ_lt_succ hm))
        (by simpa [judgement] using hn)
      simpa [firstOf, firstSome, ho] using hrest

end

/-! ### Requirements by slot, rail and address -/

/-- A judgement that names one condition of one check. -/
def Names (check cond : Nat) (o : Option ConfigDetail) : Prop := ∀ d, o = some d → ∃ slot addr, d = .fields check cond slot addr

section
variable {env : Env} {p : Plant} {check cond : Nat}

theorem names_unmet {slot addr : Nat} {bad : Bool} : Names check cond (unmet check cond slot addr bad) := by
  intro d hd
  cases bad with
  | false => cases hd
  | true => cases hd; exact ⟨slot, addr, rfl⟩

theorem names_firstSome {α : Type} {f : α → Option ConfigDetail} {as : List α} (h : ∀ a, Names check cond (f a)) :
    Names check cond (firstSome f as) := by
  intro d hd
  obtain ⟨a, -, ha⟩ := firstSome_mem hd
  exact h a d ha

theorem names_eachBogie {f : AddrRec → Option ConfigDetail} (h : ∀ a, Names check cond (f a)) :
    Names check cond (eachBogie p f) := by
  refine names_firstSome fun a => ?_
  split
  · exact h a
  · intro d hd; cases hd

theorem eachBogie_eq_none {f : AddrRec → Option ConfigDetail} :
    eachBogie p f = none ↔ ∀ a ∈ p.link.addrs, a.role = .bogie → f a = none := by
  simp [eachBogie, eachAddr, firstSome_eq_none]

theorem mem_railsOf {sc : SpanConfig} {r : Rail} : r ∈ railsOf sc ↔ r.val < sc.rails := by
  have hfour : r ∈ four := by revert r; decide
  simp [railsOf, hfour]

/-- Every slot in use, with the settings the other conditions read it by. -/
theorem eachInUse_none_iff {f : Slot → SpanConfig → Option ConfigDetail} :
    eachInUse env f = none ↔ ∀ i : Slot, (env.cfg.spans.get i).isSome = true → f i (env.span i) = none := by
  rw [eachInUse_eq_none]
  constructor
  · intro h i hi
    obtain ⟨sc, hsc⟩ := Option.isSome_iff_exists.1 hi
    rw [Env.span_of_some hsc]
    exact h i sc hsc
  · intro h i sc hsc
    have := h i (by rw [hsc]; rfl)
    rwa [Env.span_of_some hsc] at this

theorem eachRail_none_iff {f : Slot → Rail → Option ConfigDetail} : eachRail env f = none ↔
    ∀ (i : Slot) (r : Rail), (env.cfg.spans.get i).isSome = true → r.val < (env.span i).rails → f i r = none := by
  simp only [eachRail, eachInUse_none_iff, firstSome_eq_none, mem_railsOf]
  exact ⟨fun h i r hi hr => h i hi r hr, fun h i hi r hr => h i r hi hr⟩

/-- The first slot whose judgement answers. -/
theorem eachInUse_of_first {f : Slot → SpanConfig → Option ConfigDetail} {i : Slot} {d : ConfigDetail}
    (hpre : ∀ j : Slot, j < i → (env.cfg.spans.get j).isSome = true → f j (env.span j) = none)
    (hi : (env.cfg.spans.get i).isSome = true) (hd : f i (env.span i) = some d) : eachInUse env f = some d := by
  have hsplit : ∃ pre post, slotsInUse env = pre ++ (i, env.span i) :: post ∧ ∀ e ∈ pre, e.1 < i := by
    obtain ⟨sc, hsc⟩ := Option.isSome_iff_exists.1 hi
    have hfour : ∃ pre post, four = pre ++ i :: post ∧ ∀ j ∈ pre, j < i := by
      match i with
      | 0 => exact ⟨[], [1, 2, 3], rfl, by decide⟩
      | 1 => exact ⟨[0], [2, 3], rfl, by decide⟩
      | 2 => exact ⟨[0, 1], [3], rfl, by decide⟩
      | 3 => exact ⟨[0, 1, 2], [], rfl, by decide⟩
    obtain ⟨pre, post, hfour, hlt⟩ := hfour
    refine ⟨pre.filterMap fun j => (env.cfg.spans.get j).map (fun sc => (j, sc)),
      post.filterMap fun j => (env.cfg.spans.get j).map (fun sc => (j, sc)), ?_, ?_⟩
    · rw [slotsInUse, hfour, List.filterMap_append, List.filterMap_cons_some (b := (i, env.span i)) (by simp [hsc, Env.span_of_some hsc])]
    · intro e he
      obtain ⟨j, hj, hmap⟩ := List.mem_filterMap.1 he
      obtain ⟨sc', -, rfl⟩ := Option.map_eq_some_iff.1 hmap
      exact hlt j hj
  obtain ⟨pre, post, heq, hlt⟩ := hsplit
  rw [eachInUse, heq]
  refine firstSome_of_prefix (fun e he => ?_) hd
  have hmem : (e.1, e.2) ∈ slotsInUse env := by rw [heq]; exact List.mem_append_left _ he
  have huse := mem_slotsInUse.1 hmem
  have := hpre e.1 (hlt e he) (by rw [huse]; rfl)
  rwa [Env.span_of_some huse] at this

end

/-! ### Geometry (R10 to R12) -/

/-- The addresses of a rail are consecutive and on one branch (G7). -/
theorem railTight_cons {a : AddrRec} {as : List AddrRec} : railTight (a :: as) = true ↔
    (a :: as).map AddrRec.addr = List.range' a.addr (as.length + 1) ∧ ∀ b ∈ as, b.branch = a.branch := by
  induction as generalizing a with
  | nil => simp [railTight]
  | cons b rest ih =>
    rw [railTight]
    simp only [Bool.and_eq_true, beq_iff_eq, ih, List.length_cons, List.forall_mem_cons]
    simp only [List.map_cons, List.range'_succ, List.cons.injEq, true_and]
    constructor
    · rintro ⟨⟨haddr, hbranch⟩, hmap, hrest⟩
      exact ⟨⟨haddr.symm, by rw [haddr]; exact hmap⟩, hbranch.symm, fun c hc => (hrest c hc).trans hbranch.symm⟩
    · rintro ⟨⟨haddr, hmap⟩, hbranch, hrest⟩
      exact ⟨⟨haddr.symm, hbranch.symm⟩, by rw [haddr]; exact hmap, fun c hc => (hrest c hc).trans hbranch.symm⟩

theorem railTight_iff {as : List AddrRec} : railTight as = true ↔
    as.map AddrRec.addr = List.range' ((as.head?.map AddrRec.addr).getD 0) as.length ∧ ∀ a ∈ as, ∀ b ∈ as, a.branch = b.branch := by
  cases as with
  | nil => simp [railTight]
  | cons a rest =>
    rw [railTight_cons]
    refine and_congr Iff.rfl ⟨fun h => ?_, fun h b hb => h b (List.mem_cons_of_mem a hb) a List.mem_cons_self⟩
    have hall : ∀ b ∈ a :: rest, b.branch = a.branch := List.forall_mem_cons.2 ⟨rfl, h⟩
    exact fun b hb c hc => (hall b hb).trans (hall c hc).symm

/-- The conditions of the geometry check by their numbers, none for number 0. -/
def geometryConditions (env : Env) (p : Plant) : List (Option ConfigDetail) := [
    none,
    unmet 1 1 255 0 (slotsInUse env).isEmpty,
    eachAddr p (fun a => unmet 1 2 a.slot.val a.addr (env.cfg.spans.get a.slot).isNone),
    eachAddr p (fun a => unmet 1 3 a.slot.val a.addr (env.wait a.branch).isNone),
    eachBogie p (fun a => unmet 1 4 a.slot.val a.addr (decide ((env.span a.slot).rails ≤ a.rail.val))),
    eachRail env (fun i r => unmet 1 5 i.val 0 ((env.cfg.rails.get i).get r).isNone),
    eachRail env (fun i r => unmet 1 6 i.val 0 ((p.railBogies i r).length != env.declared i r)),
    eachRail env (fun i r => unmet 1 7 i.val 0 (!railTight (p.railBogies i r))),
    eachInUse env (fun i _ => unmet 1 8 i.val 0 (decide (1 < (lockUnits p i).length))),
    eachInUse env (fun i sc => unmet 1 9 i.val 0 (decide (sc.xmax ≤ sc.xmin))),
    eachBogie p (fun a => unmet 1 10 a.slot.val a.addr
      (!(readable ((env.span a.slot).xmin - a.offset) && readable ((env.span a.slot).xmax - a.offset)))),
    eachInUse env (fun i sc => unmet 1 11 i.val 0
      ((p.lockUnit i).isSome && !(inRange sc.xmin sc.xmax sc.lock1 && inRange sc.xmin sc.xmax sc.lock2))),
    eachInUse env (fun i sc => unmet 1 12 i.val 0
      (!(decide (sc.c ≤ sc.vmax) && decide (sc.jog ≤ sc.vmax) && decide (sc.vmax ≤ sc.vb) && decide (sc.ad ≤ sc.aq)))),
    eachInUse env (fun i sc => unmet 1 13 i.val 0 (!(decide (sc.sWarn < sc.sStop) && decide (sc.sStop < sc.sTrip))))]

theorem geometryCheck_eq (env : Env) (p : Plant) : geometryCheck env p = firstOf (geometryConditions env p) := rfl

section
variable (env : Env) (p : Plant)

theorem inRange_eq_true {lo hi v : Int} : inRange lo hi v = true ↔ lo ≤ v ∧ v ≤ hi := by simp [inRange]

theorem slotsInUse_nonempty : (slotsInUse env).isEmpty = false ↔ ∃ i : Slot, (env.cfg.spans.get i).isSome = true := by
  rw [Bool.eq_false_iff, ne_eq, List.isEmpty_iff]
  constructor
  · intro hne
    obtain ⟨⟨i, sc⟩, h⟩ := List.exists_mem_of_ne_nil _ hne
    exact ⟨i, by rw [mem_slotsInUse.1 h]; rfl⟩
  · rintro ⟨i, h⟩
    obtain ⟨sc, hsc⟩ := Option.isSome_iff_exists.1 h
    exact List.ne_nil_of_mem (mem_slotsInUse.2 hsc)

theorem lockUnitsCondition : eachInUse env (fun i _ => unmet 1 8 i.val 0 (decide (1 < (lockUnits p i).length))) = none ↔
    geometryMet env p 8 := by
  rw [eachInUse_none_iff]
  refine forall₂_congr fun i _ => ?_
  rw [unmet_eq_none, decide_eq_false_iff_not, Nat.not_lt]
  rfl

/-- Each condition is the judgement of its number, which names it when unmet. -/
theorem geometryCondition (n : Nat) : (judgement (geometryConditions env p) n = none ↔ geometryMet env p n) ∧
    Names 1 n (judgement (geometryConditions env p) n) := by
  match n with
  | 0 => exact ⟨⟨fun _ => trivial, fun _ => rfl⟩, fun d hd => by cases hd⟩
  | 1 => exact ⟨unmet_eq_none.trans (slotsInUse_nonempty env), names_unmet⟩
  | 2 => exact ⟨by simp [judgement, geometryConditions, eachAddr, firstSome_eq_none, unmet_eq_none, geometryMet],
      names_firstSome fun _ => names_unmet⟩
  | 3 => exact ⟨by simp [judgement, geometryConditions, eachAddr, firstSome_eq_none, unmet_eq_none, geometryMet, Env.wait],
      names_firstSome fun _ => names_unmet⟩
  | 4 => exact ⟨by simp [judgement, geometryConditions, eachBogie_eq_none, unmet_eq_none, geometryMet],
      names_eachBogie fun _ => names_unmet⟩
  | 5 => exact ⟨by simp [judgement, geometryConditions, eachRail_none_iff, unmet_eq_none, geometryMet],
      names_firstSome fun _ => names_firstSome fun _ => names_unmet⟩
  | 6 => exact ⟨by simp [judgement, geometryConditions, eachRail_none_iff, unmet_eq_none, geometryMet],
      names_firstSome fun _ => names_firstSome fun _ => names_unmet⟩
  | 7 => exact ⟨by simp [judgement, geometryConditions, eachRail_none_iff, unmet_eq_none, geometryMet, railTight_iff],
      names_firstSome fun _ => names_firstSome fun _ => names_unmet⟩
  | 8 => exact ⟨lockUnitsCondition env p,
      names_firstSome fun _ => names_unmet⟩
  | 9 => exact ⟨by simp [judgement, geometryConditions, eachInUse_none_iff, unmet_eq_none, geometryMet],
      names_firstSome fun _ => names_unmet⟩
  | 10 => exact ⟨by simp [judgement, geometryConditions, eachBogie_eq_none, unmet_eq_none, geometryMet, readable, inRange_eq_true, and_assoc],
      names_eachBogie fun _ => names_unmet⟩
  | 11 => exact ⟨by simp [judgement, geometryConditions, eachInUse_none_iff, unmet_eq_none, geometryMet, inRange_eq_true, and_assoc],
      names_firstSome fun _ => names_unmet⟩
  | 12 => exact ⟨by simp [judgement, geometryConditions, eachInUse_none_iff, unmet_eq_none, geometryMet, and_assoc],
      names_firstSome fun _ => names_unmet⟩
  | 13 => exact ⟨by simp [judgement, geometryConditions, eachInUse_none_iff, unmet_eq_none, geometryMet],
      names_firstSome fun _ => names_unmet⟩
  | n + 14 => exact ⟨⟨fun _ => trivial, fun _ => rfl⟩, fun d hd => by cases hd⟩

end

/-! ### Groups (R111) -/

section
variable {env : Env} {p : Plant}

theorem onBranches_eq_true {i : Slot} {b : Branch} : onBranches p i b = true ↔ ∃ a ∈ p.bogies i, a.branch = b := by
  simp [onBranches]

/-- The judgement of one bogie for one slot. -/
theorem groupUnmet_eq_false {i : Slot} {a : AddrRec} :
    (if a.slot == i then !groupMatch (env.span i) a.addr else onBranches p i a.branch && groupMatch (env.span i) a.addr) = false ↔
      groupMet env p i a := by
  by_cases h : a.slot = i
  · simp [h, groupMatch, groupMet]
  · by_cases hb : onBranches p i a.branch = true
    · simp [h, groupMatch, groupMet, hb, onBranches_eq_true.1 hb]
    · have hb' := hb
      rw [onBranches_eq_true] at hb'
      simp [h, groupMet, hb, hb']

theorem groupCheck_none_iff : groupCheck env p = none ↔
    ∀ i : Slot, (env.cfg.spans.get i).isSome = true → ∀ a ∈ p.link.addrs, a.role = .bogie → groupMet env p i a := by
  simp only [groupCheck, eachInUse_none_iff, eachBogie_eq_none, unmet_eq_none, groupUnmet_eq_false]

/-- The first slot in use and the first bogie whose codes clash are named. -/
theorem groupCheck_of_first {i : Slot} {pre post : List AddrRec} {a : AddrRec} (hi : (env.cfg.spans.get i).isSome = true)
    (hslots : ∀ j : Slot, j < i → (env.cfg.spans.get j).isSome = true → ∀ b ∈ p.link.addrs, b.role = .bogie → groupMet env p j b)
    (haddrs : p.link.addrs = pre ++ a :: post) (hpre : ∀ b ∈ pre, b.role = .bogie → groupMet env p i b) (ha : a.role = .bogie)
    (hunmet : ¬ groupMet env p i a) : groupCheck env p = some (.fields 2 0 i.val a.addr) := by
  refine eachInUse_of_first (fun j hj huse => ?_) hi ?_
  · simp only [eachBogie_eq_none, unmet_eq_none, groupUnmet_eq_false]
    exact hslots j hj huse
  · rw [eachBogie, eachAddr, haddrs]
    refine firstSome_of_prefix (fun b hb => ?_) ?_
    · split
      next hrole => exact unmet_eq_none.2 (groupUnmet_eq_false.2 (hpre b hb (by simpa using hrole)))
      next => rfl
    · have hbad := mt groupUnmet_eq_false.1 hunmet
      rw [Bool.not_eq_false] at hbad
      simp only [ha, beq_self_eq_true, if_true, unmet, hbad]

end

/-! ### The link budget (R112) -/

section
variable {env : Env} {p : Plant}

theorem foldl_add_eq_sum (l : List Nat) : l.foldl (· + ·) 0 = l.sum := by
  rw [List.sum_eq_foldl]

theorem sMax_eq (env : Env) (p : Plant) : sMax env p = slotsMost env p := by
  simp only [sMax, slotsMost, foldl_add_eq_sum]

/-- The largest wait is that of some branch, and no branch's wait is above it. -/
theorem wMax_eq {wm : Nat} (hle : ∀ b v, env.cfg.branches.get b = some v → v ≤ wm)
    (hex : wm = 0 ∨ ∃ b : Branch, env.cfg.branches.get b = some wm) : wMax env = wm := by
  have hbound (b : Branch) : (env.cfg.branches.get b).getD 0 ≤ wm := by
    cases hb : env.cfg.branches.get b with
    | none => exact Nat.zero_le _
    | some v => exact hle b v hb
  have hform : wMax env = max (max (max (max 0 ((env.cfg.branches.get 0).getD 0)) ((env.cfg.branches.get 1).getD 0))
      ((env.cfg.branches.get 2).getD 0)) ((env.cfg.branches.get 3).getD 0) := rfl
  have h0 := hbound 0
  have h1 := hbound 1
  have h2 := hbound 2
  have h3 := hbound 3
  rcases hex with h | ⟨b, hb⟩
  · omega
  · have hget : (env.cfg.branches.get b).getD 0 = wm := by rw [hb]; rfl
    match b, hget with
    | 0, hget => omega
    | 1, hget => omega
    | 2, hget => omega
    | 3, hget => omega

/-- A number of rounds of polls stays below the stale limit when the polls certain cover the addresses in that many cycles. -/
theorem stale_le_iff {stale n q : Nat} (hq : 1 ≤ q) : stale ≤ (n + q - 1) / q ↔ (q : Int) * ((stale : Int) - 1) < n := by
  rw [Nat.le_div_iff_mul_le (by omega)]
  have hmul : (q : Int) * ((stale : Int) - 1) = (stale * q : Nat) - q := by
    rw [Int.mul_sub, Int.mul_one, Int.natCast_mul, Int.mul_comm]
  rw [hmul]
  omega

theorem budgetCheck_eq {wm w : Nat} {q : Int} (hle : ∀ b v, env.cfg.branches.get b = some v → v ≤ wm)
    (hex : wm = 0 ∨ ∃ b : Branch, env.cfg.branches.get b = some wm) (hw : w = (4 + wm) + (if 3 ≤ wm then 1 else 0) + 1)
    (hq : q = ((env.cfg.dev.budget : Int) - slotsMost env p - w) / ((5 + wm + 1 : Nat) : Int)) :
    budgetCheck env p = if q < 1 ∨ q * ((env.cfg.dev.stale : Int) - 1) < p.link.addrs.length
      then some (.budget (slotsMost env p) w q) else none := by
  have hwrite : writeWorst env = w := by rw [writeWorst, wMax_eq hle hex, hw]; rfl
  have hpolls : pollsCertain env p = q := by rw [pollsCertain, wMax_eq hle hex, sMax_eq, hwrite, hq]
  have hbad : (if q < 1 then true else decide (env.cfg.dev.stale ≤ (p.link.addrs.length + q.toNat - 1) / q.toNat)) = true ↔
      (q < 1 ∨ q * ((env.cfg.dev.stale : Int) - 1) < p.link.addrs.length) := by
    by_cases hneg : q < 1
    · simp [hneg]
    · have hnat : ((q.toNat : Nat) : Int) = q := Int.toNat_of_nonneg (by omega)
      rw [if_neg hneg, decide_eq_true_iff, stale_le_iff (by omega), hnat]
      simp [hneg]
  simp only [budgetCheck, hpolls, hbad, hwrite, sMax_eq]

end

/-! ### Zones and wind (R131, R151) -/

/-- The conditions of one clearance entry by their numbers, none for number 0. -/
def zoneConditions (env : Env) (z : ZoneEntry) : List (Option ConfigDetail) := [
    none,
    unmet 4 1 z.entry 0 (z.spanA == z.spanB),
    unmet 4 2 z.entry 0 ((env.cfg.spans.get z.spanA).isNone || (env.cfg.spans.get z.spanB).isNone),
    unmet 4 3 z.entry 0 (decide (z.a2 < z.a1) || decide (z.b2 < z.b1)),
    unmet 4 4 z.entry 0 (!(withinEnvelope (env.span z.spanA) z.a1 z.a2 && withinEnvelope (env.span z.spanB) z.b1 z.b2))]

theorem zoneEntryCheck_eq (env : Env) (z : ZoneEntry) : zoneEntryCheck env z = firstOf (zoneConditions env z) := rfl

/-- An unmet requirement answers its own detail. -/
theorem unmet_of_not_none {check cond slot addr : Nat} {bad : Bool} (h : unmet check cond slot addr bad ≠ none) :
    unmet check cond slot addr bad = some (.fields check cond slot addr) := by
  cases bad with
  | false => exact absurd rfl h
  | true => rfl

section
variable {env : Env} {p : Plant}

theorem zoneCondition_of_none {z : ZoneEntry} {n : Nat} (h : judgement (zoneConditions env z) n = none) : zoneMet env z n := by
  match n with
  | 0 => trivial
  | 1 => simpa [judgement, zoneConditions, unmet_eq_none, zoneMet] using h
  | 2 => simpa [judgement, zoneConditions, unmet_eq_none, zoneMet] using h
  | 3 => simpa [judgement, zoneConditions, unmet_eq_none, zoneMet] using h
  | 4 =>
    simp only [judgement, zoneConditions, List.getElem?_cons_succ, List.getElem?_cons_zero, Option.join_some, unmet_eq_none,
      withinEnvelope, Bool.not_eq_false', Bool.and_eq_true, inRange_eq_true] at h
    obtain ⟨⟨⟨h1, -⟩, -, h2⟩, ⟨h3, -⟩, -, h4⟩ := h
    exact ⟨h1, h2, h3, h4⟩
  | n + 5 => trivial

/-- Z4 is judged of both ends of the intervals, which Z3 has put in order. -/
theorem zoneCondition_none {z : ZoneEntry} {n : Nat} (h : ∀ m, m ≤ n → zoneMet env z m) :
    judgement (zoneConditions env z) n = none := by
  match n with
  | 0 => rfl
  | 1 => simpa [judgement, zoneConditions, unmet_eq_none, zoneMet] using h 1 (Nat.le_refl _)
  | 2 => simpa [judgement, zoneConditions, unmet_eq_none, zoneMet] using h 2 (Nat.le_refl _)
  | 3 => simpa [judgement, zoneConditions, unmet_eq_none, zoneMet] using h 3 (Nat.le_refl _)
  | 4 =>
    obtain ⟨ha, hb⟩ : zoneMet env z 3 := h 3 (by decide)
    obtain ⟨h1, h2, h3, h4⟩ : zoneMet env z 4 := h 4 (Nat.le_refl _)
    simp only [judgement, zoneConditions, List.getElem?_cons_succ, List.getElem?_cons_zero, Option.join_some, unmet_eq_none,
      withinEnvelope, Bool.not_eq_false', Bool.and_eq_true, inRange_eq_true]
    exact ⟨⟨⟨h1, Int.le_trans ha h2⟩, Int.le_trans h1 ha, h2⟩, ⟨h3, Int.le_trans hb h4⟩, Int.le_trans h3 hb, h4⟩
  | n + 5 => rfl

/-- A condition judged unmet names itself and its entry. -/
theorem zoneCondition_names {z : ZoneEntry} {n : Nat} (h : judgement (zoneConditions env z) n ≠ none) :
    judgement (zoneConditions env z) n = some (.fields 4 n z.entry 0) := by
  match n with
  | 0 => exact absurd rfl h
  | 1 => exact unmet_of_not_none h
  | 2 => exact unmet_of_not_none h
  | 3 => exact unmet_of_not_none h
  | 4 => exact unmet_of_not_none h
  | n + 5 => exact absurd rfl h

theorem zoneEntryCheck_none_iff {z : ZoneEntry} : zoneEntryCheck env z = none ↔ ∀ n, zoneMet env z n := by
  rw [zoneEntryCheck_eq, firstOf_eq_none_iff]
  exact ⟨fun h n => zoneCondition_of_none (h n), fun h n => zoneCondition_none fun m _ => h m⟩

theorem zoneCheck_none_iff : zoneCheck env p = none ↔ ∀ z ∈ p.zones, ∀ n, zoneMet env z n := by
  simp only [zoneCheck, firstSome_eq_none, zoneEntryCheck_none_iff]

theorem zoneCheck_of_first {pre post : List ZoneEntry} {z : ZoneEntry} {n : Nat} (hzones : p.zones = pre ++ z :: post)
    (hpre : ∀ y ∈ pre, ∀ m, zoneMet env y m) (hmet : ∀ m, m < n → zoneMet env z m) (hunmet : ¬ zoneMet env z n) :
    zoneCheck env p = some (.fields 4 n z.entry 0) := by
  rw [zoneCheck, hzones]
  refine firstSome_of_prefix (fun y hy => zoneEntryCheck_none_iff.2 (hpre y hy)) ?_
  rw [zoneEntryCheck_eq]
  exact firstOf_of_first (fun m hm => zoneCondition_none fun l hl => hmet l (Nat.lt_of_le_of_lt hl hm))
    (zoneCondition_names (mt zoneCondition_of_none hunmet))

theorem windCheck_some {w : WindRecord} (h : env.cfg.wind = some w) : windCheck env =
    if w.en1 = false ∧ w.en2 = false then some (.fields 5 2 255 0)
    else if w.wt ≤ w.ws + w.h then some (.fields 5 3 255 0)
    else if w.h = 0 then some (.fields 5 4 255 0) else none := by
  simp only [windCheck, h, firstOf, firstSome, unmet]
  by_cases h2 : w.en1 = false ∧ w.en2 = false
  · simp [h2]
  · have h2' : (!w.en1 && !w.en2) = false := by simpa using h2
    by_cases h3 : w.wt ≤ w.ws + w.h
    · simp [h2', h2, h3]
    · have h3' : w.ws + w.h < w.wt := Nat.not_le.1 h3
      by_cases h4 : w.h = 0
      · have h4' : (w.h == 0) = true := by simp [h4]
        simp only [h2', h3', h4', decide_true, Bool.not_true, if_neg h2, if_neg h3, if_pos h4]
        rfl
      · simp [h2', h2, h3, h3', h4]

end

/-! ### GO READY (R160) -/

section
variable {s : State} (tag : Byte)

theorem exec_goReady_mode (hfree : free s) (hmode : s.sup.mode ≠ .init) :
    exec (.goReady tag) s = .next (refusedWith s 0x88 tag .mode) := by
  have hdone : perform .goReady s = refuse s .mode := by simp [perform, doGoReady, hmode]
  exact request_done tag hfree hdone

theorem exec_goReady_unmet (hfree : free s) (hmode : s.sup.mode = .init) {d : ConfigDetail}
    (h : readyChecks s.env s.plant = some d) : exec (.goReady tag) s = .next (refusedWith s 0x88 tag (.config d)) := by
  have hdone : perform .goReady s = refuse s (.config d) := by simp [perform, doGoReady, hmode, h]
  exact request_done tag hfree hdone

theorem exec_goReady_met (hfree : free s) (hmode : s.sup.mode = .init) (h : readyChecks s.env s.plant = none) :
    exec (.goReady tag) s = .next (accepted { s with
      sup := { s.sup with mode := .acquiring, acqT := some 2000 },
      plant := s.plant.report (.mode .acquiring .none s.time) } 0x88 tag) := by
  have hdone : perform .goReady s = accept (State.report (.mode .acquiring .none s.time) { s with sup := s.sup.acquire }) := by
    simp [perform, doGoReady, hmode, h]
  exact request_done tag hfree hdone

end

/-- Settles O18: the order of the checks, and each check by its conditions. -/
theorem goReadyEntersAcquiring : Obligations.GoReadyEntersAcquiring := by
  refine ⟨fun s tag hfree => ⟨fun hmode h1 h2 h3 h4 h5 => exec_goReady_met tag hfree hmode ?_, fun d hmode h =>
    exec_goReady_unmet tag hfree hmode ?_, exec_goReady_mode tag hfree⟩, fun env p => ⟨?_, fun n hmet hunmet => ?_,
    groupCheck_none_iff, fun i pre post a hi hslots haddrs hpre ha hunmet => groupCheck_of_first hi hslots haddrs hpre ha hunmet,
    fun wm w q hle hex hw hq => ?_, zoneCheck_none_iff, fun pre post z n hzones hpre hmet hunmet =>
      zoneCheck_of_first hzones hpre hmet hunmet, fun hwind => ?_, fun w hwind => windCheck_some hwind⟩⟩
  · simp [readyChecks, firstOf, firstSome, h1, h2, h3, h4, h5]
  · simp only [readyChecks, firstOf, firstSome]
    rcases h with h1 | ⟨h1, h2 | ⟨h2, h3 | ⟨h3, h4 | ⟨h4, h5⟩⟩⟩⟩
    · rw [h1]
    · rw [h1, h2]
    · rw [h1, h2, h3]
    · rw [h1, h2, h3, h4]
    · rw [h1, h2, h3, h4, h5]
  · rw [geometryCheck_eq, firstOf_eq_none_iff]
    exact forall_congr' fun n => (geometryCondition env p n).1
  · cases hn : judgement (geometryConditions env p) n with
    | none => exact absurd ((geometryCondition env p n).1.1 hn) hunmet
    | some d =>
      obtain ⟨slot, addr, rfl⟩ := (geometryCondition env p n).2 d hn
      rw [geometryCheck_eq]
      exact ⟨slot, addr, firstOf_of_first (fun m hm => (geometryCondition env p m).1.2 (hmet m hm)) hn⟩
  · have hbudget := budgetCheck_eq hle hex hw hq
    refine ⟨fun h1 h2 => ?_, fun h => ?_⟩
    · rw [hbudget, if_neg (by omega)]
    · rw [hbudget, if_pos h]
  · rw [windCheck, hwind]

end Sys2Proof.Machine
end

