-- ==== Sys2Proof/Proofs/StationInputs.lean ====
section
/-! PROOFS. The operator station (R152 to R158): the edges of its pins, the actions of its validated levels, ESTOP and HOLD held
to t_max, and the stops that end a jog. -/

namespace Sys2Proof.Machine
open Safety

/-! ### A SAFE stop to RESTING outside READY (R20, R23 to R25) -/

section
variable {env : Env} {i : Slot} {p : Plant} {req : StopRequest} {why : JogEnd}

/-- No test is due at an entry outside READY, nor under LOCAL (R118). -/
theorem enterEnd_not_allowed {e : EndState} (h : env.mode ≠ .ready ∨ env.keyLocal = true) :
    enterEnd env i e p = changeState env i (endSpanState e) none p := by
  rcases h with h | h <;> simp [enterEnd, tryTest, testAllowed, h]

theorem takeStop_safeRest (hmode : env.mode ≠ .ready) : safeStopped (p.span i) ((takeStop env i safeRest why p).span i) := by
  unfold safeStopped
  cases hstate : (p.span i).state with
  | starting => exact takeStop_starting (req := safeRest) why hstate ▸ enterEnd_resting_state hmode i _
  | holding => exact takeStop_holding (req := safeRest) why hstate (by decide) ▸ enterEnd_resting_state hmode i _
  | proving => exact takeStop_proving (req := safeRest) why hstate ▸ enterEnd_resting_state hmode i _
  | moving =>
    have hrun : ((stopBegun env i safeRest (endJog env i why p)).span i).setpointMode = some .run := by
      rw [stopBegun_span, endJog_span, Span.setpointMode, hstate]
    obtain ⟨hnew, hstop, hv, hsafe, -⟩ := changeState_brakes (env := env) (r := { kind := .safe, endState := .resting }) rfl hrun
    rw [takeStop_ramping why hstate (.inr rfl)]
    exact ⟨hnew, hv, hsafe, hstop⟩
  | stopping =>
    have hmerged := stopStopping_merged env i p safeRest hstate
    simp only [takeStop, hstate]
    refine ⟨hmerged.1, hmerged.2.trans ?_⟩
    congr 1
    funext r
    rw [show safeRest.kind = .safe from rfl, kindMax_safe]
    rfl
  | resting | unconfigured | locking | locked | unlocking | faulted =>
    rw [takeStop_without_effect why (by simp [hstate, safeRest])]
    exact hstate

theorem stopEverySpan_safeStopped {r : FailsafeReason} (hr : failsafeStop r = safeRest) (hmode : env.mode ≠ .ready) (i : Slot) :
    safeStopped (p.span i) ((stopEverySpan r env p).span i) := by
  rw [stopEverySpan, hr]
  exact eachSlot_span (R := safeStopped) (f := fun i p => takeStop env i safeRest .otherStop p)
    (fun p h => takeStop_span_ne h env safeRest .otherStop p) (fun i p => takeStop_safeRest hmode) p i

end

theorem enterFailsafe_safeStopped {r : FailsafeReason} (hr : failsafeStop r = safeRest) (s : State) (i : Slot) :
    safeStopped (s.plant.span i) ((enterFailsafe r s).plant.span i) := by
  have hstop := stopEverySpan_safeStopped hr (env := { s.env with mode := .failsafe })
    (p := eachSlot clearWindHold (s.plant.report (.mode .failsafe (.reason r) s.time))) (by simp) i
  rw [eachSlot_clearWindHold_span, Plant.report_span, ← enterFailsafe_plant] at hstop
  exact hstop

theorem joinFailsafe_safeStopped {r : FailsafeReason} (hr : failsafeStop r = safeRest) {s : State} (hmode : s.sup.mode ≠ .ready)
    (i : Slot) : safeStopped (s.plant.span i) ((joinFailsafe r s).plant.span i) := by
  obtain ⟨p, hspans, hplant⟩ := joinFailsafe_plant r s
  have hstop := stopEverySpan_safeStopped hr (env := s.env) (p := p) hmode i
  rwa [← hplant, Plant.span, hspans] at hstop

/-! ### ESTOP and HOLD held to t_max (R153, R154, R164, R165) -/

/-- The Supervision Unit after an entry into FAILSAFE from another mode. -/
theorem raiseFailsafe_enters {s : State} (r : FailsafeReason) (hmode : s.sup.mode ≠ .failsafe) :
    raiseFailsafe r s = { s with
      plant := (enterFailsafe r s).plant,
      sup := { s.sup with
        mode := .failsafe, acqT := none, stableT := none, g := 0, f := min (s.sup.f + 1) 255,
        window := if s.sup.mode = .ready then s.sup.window else some 0,
        lockout := s.sup.lockout || (s.cfg.dev.fmax != 0 && decide (s.cfg.dev.fmax < min (s.sup.f + 1) 255)),
        record := some { reason := r, time := s.time, toReady := s.sup.mode == .ready, later := [] } } } := by
  have hraise : raiseFailsafe r s = enterFailsafe r s := by
    unfold raiseFailsafe
    split
    · contradiction
    · rfl
  rw [hraise, enterFailsafe_eq, Supervision.enterFailsafe]
  simp only [beq_iff_eq]

theorem raiseFailsafe_joins {s : State} (r : FailsafeReason) (hmode : s.sup.mode = .failsafe) :
    raiseFailsafe r s = joinFailsafe r s := by rw [raiseFailsafe, hmode]

/-! ### The stops that end a jog (R157) -/

section
variable {env : Env} {i : Slot} {p : Plant} {why : JogEnd}

/-- A jog in progress belongs to the span its slot names. -/
theorem jogSlot_jogging (h : p.jogSlot = some i) : (p.span i).jogging = true :=
  List.find?_some (p := fun i => (p.spans.get i).jogging) h

theorem jogSlot_jog (h : p.jogSlot = some i) : (p.span i).jog.isSome = true := by
  have hjog := jogSlot_jogging h
  simp only [Span.jogging, Bool.and_eq_true] at hjog
  exact hjog.1

theorem stopJog_some (h : p.jogSlot = some i) : stopJog why env p = takeStop env i controlledHold why p := by simp only [stopJog, h]

theorem stopJog_none (h : p.jogSlot = none) : stopJog why env p = p := by simp only [stopJog, h]

/-- The jog of a span moving at speed ended by a CONTROLLED stop to HOLDING. -/
theorem jogStop_moving (hstate : (p.span i).state = .moving) (hv : (p.span i).v ≠ 0) (hjog : (p.span i).jog.isSome = true) :
    let q := takeStop env i controlledHold why p
    (∀ m : Slot, m ≠ i → q.span m = p.span m) ∧ (q.span i).state = .stopping ∧ (q.span i).v = (p.span i).v ∧
      (q.span i).jog = (p.span i).jog ∧ (q.span i).stop = some { kind := .controlled, endState := .holding } ∧
      q.out = (.station (.jogEnded i why) env.time :: .spanState i .moving .stopping (some { kind := .controlled, endState := .holding }) ::
        (p.link.params.filter (p.link.isWriteOf i)).flatMap (withdrawnReport env.time)).foldl ReportQueue.push p.out := by
  have hform : takeStop env i controlledHold why p = changeState env i .stopping (some { kind := .controlled, endState := .holding })
      (p.report (.station (.jogEnded i why) env.time)) := by
    rw [takeStop_ramping why hstate (.inl hv), stopBegun_plain _ _ _ (by decide) (by decide),
      endJog_of_jogging _ _ _ _ hjog (.inr hstate)]
    rfl
  obtain ⟨hnew, hstop, hspeed, -, -, -, hjog', -⟩ := changeState_ramps (env := env) (i := i)
    (p := p.report (.station (.jogEnded i why) env.time)) (r := { kind := .controlled, endState := .holding }) (by decide)
  refine ⟨fun m hm => takeStop_span_ne hm env _ why p, ?_⟩
  rw [hform]
  refine ⟨hnew, hspeed, hjog', hstop, ?_⟩
  rw [changeState_energised_out _ _ _ _ rfl, Plant.report_span, hstate]
  rfl

/-- The jog of a span STARTING ended by its abort to RESTING. -/
theorem jogStop_starting (hstate : (p.span i).state = .starting) (hjog : (p.span i).jog.isSome = true)
    (htest : (p.span i).proof.due = false ∧ (env.span i).autoProof = false) :
    let q := takeStop env i controlledHold why p
    onlySpan i p q ∧ restsIn .resting (q.span i) ∧ sameJourney (p.span i) (q.span i) := by
  have hform : takeStop env i controlledHold why p = changeState env i .resting none
      (p.report (.station (.jogEnded i why) env.time)) := by
    rw [takeStop_starting why hstate, stopBegun_plain _ _ _ (by decide) (by decide),
      endJog_of_jogging _ _ _ _ hjog (.inl hstate), enterEnd_noTest env i (p.report _) (.inr htest)]
    rfl
  have honly := changeState_onlySpan env i (new := .resting) none (p.report (.station (.jogEnded i why) env.time)) rfl
    (by rw [Plant.report_span, hstate]; decide) (by rw [Plant.report_span, hstate]; decide)
  rw [hform]
  exact ⟨onlySpan.of_report honly, changeState_restsIn env i _ rfl, changeState_sameJourney ..⟩

end

/-- A jog input released while it holds the jog in progress. -/
theorem releaseJog_runs {s : State} {d : Dir} {i : Slot} {j : JogContext} (h : s.plant.jogSlot = some i)
    (hjog : (s.plant.span i).jog = some j) (hdir : j.dir = d) : releaseJog d s =
      (s.setInput (jogInput d) (InputLevel.atOnce false)).onPlant (stopJog .release) := by
  have hruns : jogRuns d s.plant = true := by simp [jogRuns, h, hjog, hdir]
  exact if_pos hruns

/-- A jog input released that holds no jog. -/
theorem releaseJog_idle {s : State} {d : Dir}
    (h : ∀ i, s.plant.jogSlot = some i → ∀ j, (s.plant.span i).jog = some j → j.dir ≠ d) :
    releaseJog d s = s.setInput (jogInput d) (InputLevel.atOnce false) := by
  have hruns : jogRuns d s.plant = false := by
    unfold jogRuns
    cases hslot : s.plant.jogSlot with
    | none => rfl
    | some i =>
      cases hjog : (s.plant.span i).jog with
      | none => simp [hjog]
      | some j => simpa [hjog] using h i hslot j hjog
  exact if_neg (by simp [State.setInput, hruns])

theorem exec_jogRelease {s : State} (hrun : s.resetPin = false) (d : Dir) :
    exec (.jogRelease d) s = .next (settle (releaseJog d s)) := by
  show execJogRelease d s = _
  rw [execJogRelease, if_neg (by simp [hrun]), runEvent_running hrun]

theorem exec_estopAsserted {s : State} (hrun : s.resetPin = false) :
    exec .estopAsserted s = .next (settle (assertEstop s)) := by
  show execEstopAsserted s = _
  rw [execEstopAsserted, if_neg (by simp [hrun]), runEvent_running hrun]

theorem exec_holdStuck {s : State} (hrun : s.resetPin = false) (h : s.station.holdT.isSome = true) : exec .holdStuck s =
    .next (settle (raiseFailsafe .stationFault
      (State.report (.station .holdStuck s.time) { s with station := { s.station with holdT := none } }))) :=
  (runEvent_running hrun _).trans (by rw [holdStuckAction, if_pos h])

/-- Settles O54: FAILSAFE entered or joined, and the jog that a released input holds. -/
theorem estopHoldStuckAndJogRelease : Obligations.EstopHoldStuckAndJogRelease := by
  refine ⟨fun s hrun hmode => ?_, fun s k hrun hmode hk => ?_, fun s hrun hmode hhold => ?_, fun s k hrun hmode hk hhold => ?_,
    fun s hrun hhold => ?_, fun s d hrun hslot => ?_, fun s d i j hrun hslot hjog hdir hm hv => ?_,
    fun s d i j hrun hslot hjog hdir hs htest => ?_, fun s d i j hrun hslot hjog hdir => ?_⟩
  · refine ⟨_, ?_, enterFailsafe_safeStopped (r := .operatorStop) rfl
      ((s.setInput .estop (InputLevel.atOnce true)).report (.station .estopAsserted s.time))⟩
    rw [exec_estopAsserted hrun, assertEstop, estopAction, raiseFailsafe_enters .operatorStop (by exact hmode)]
    rfl
  · refine ⟨_, ?_, joinFailsafe_safeStopped (r := .operatorStop) rfl
      (s := (s.setInput .estop (InputLevel.atOnce true)).report (.station .estopAsserted s.time)) ?_⟩
    · rw [exec_estopAsserted hrun, assertEstop, estopAction, raiseFailsafe_joins .operatorStop (by exact hmode),
        joinFailsafe_eq .operatorStop (by exact hk)]
      rfl
    · show s.sup.mode ≠ .ready
      rw [hmode]; decide
  · refine ⟨_, ?_, enterFailsafe_quickStopped (r := .stationFault) rfl
      (State.report (.station .holdStuck s.time) { s with station := { s.station with holdT := none } })⟩
    rw [exec_holdStuck hrun hhold, raiseFailsafe_enters .stationFault (by exact hmode)]
    rfl
  · refine ⟨_, ?_, joinFailsafe_quickStopped (r := .stationFault) rfl
      (s := State.report (.station .holdStuck s.time) { s with station := { s.station with holdT := none } }) ?_⟩
    · rw [exec_holdStuck hrun hhold, raiseFailsafe_joins .stationFault (by exact hmode), joinFailsafe_eq .stationFault (by exact hk)]
      rfl
    · show s.sup.mode ≠ .ready
      rw [hmode]; decide
  · exact (runEvent_running hrun _).trans (by simp [holdStuckAction, hhold])
  · rw [exec_jogRelease hrun, releaseJog_idle (by simp [hslot])]
    rfl
  · obtain ⟨hne, hnew, hspeed, hjog', hstop, -⟩ := jogStop_moving (env := (s.setInput (jogInput d) (InputLevel.atOnce false)).env)
      (why := .release) hm hv (by rw [hjog]; rfl)
    refine ⟨_, ?_, hne, hnew, hspeed, hjog'.trans hjog, hstop⟩
    rw [exec_jogRelease hrun, releaseJog_runs hslot hjog hdir, State.onPlant, stopJog_some (by exact hslot)]
    rfl
  · obtain ⟨honly, hrests, hjourney⟩ := jogStop_starting (env := (s.setInput (jogInput d) (InputLevel.atOnce false)).env)
      (why := .release) hs (by rw [hjog]; rfl) htest
    refine ⟨_, ?_, honly, hrests, hjourney⟩
    rw [exec_jogRelease hrun, releaseJog_runs hslot hjog hdir, State.onPlant, stopJog_some (by exact hslot)]
    rfl
  · rw [exec_jogRelease hrun, releaseJog_idle]
    · rfl
    · intro i' hi' j' hj'
      cases hslot.symm.trans hi'
      cases hjog.symm.trans hj'
      exact hdir

/-! ### The edges of the pins (R152, R154) -/

theorem exec_stationPinChange {s : State} (hrun : s.resetPin = false) (input : StationInput) (level : Bool) :
    exec (.stationPinChange input level) s = .next (settle (pinChange input level s)) := by
  show execStationPinChange input level s = _
  rw [execStationPinChange, if_neg (by simp [hrun]), runEvent_running hrun]

/-- Settles O52: the action of each input's edge. -/
theorem stationPinsFollowed : Obligations.StationPinsFollowed := by
  intro s input level hrun
  have hexec := exec_stationPinChange hrun input level
  refine ⟨fun hsame => hexec.trans (by rw [show pinChange input level s = s from if_pos hsame]), fun hne => ?_⟩
  refine ⟨fun h => ?_, fun hi hl hval => ?_, fun hi hl hval => ?_, fun hi hl hval => ?_, fun hi hl => ?_, fun hi hl => ?_,
    fun hi hl => ?_, fun hi hl hval => ?_⟩
  · have hchange : pinChange input level s = s.setInput input ((s.station.get input).pinTo s.cfg.dev.tmin level) := by
      refine (if_neg hne).trans ?_
      rcases h with rfl | rfl | rfl | ⟨rfl, rfl⟩ | ⟨rfl | rfl, rfl⟩ | ⟨rfl, hval⟩
      case inr.inr.inr.inr.inr => exact if_pos hval
      all_goals rfl
    rw [hexec, hchange]
    rfl
  all_goals subst hi hl; refine hexec.trans ?_
  · rw [show pinChange .hold true s = holdEdge true s from if_neg hne]
    simp [holdEdge, hval, State.setInput, Station.set, InputLevel.pinTo]
  · rw [show pinChange .hold false s = holdEdge false s from if_neg hne]
    simp [holdEdge, hval, State.setInput, Station.set, InputLevel.pinTo]
  · rw [show pinChange .hold true s = holdEdge true s from if_neg hne]
    simp [holdEdge, hval, State.setInput, Station.set, InputLevel.pinTo]
  · rw [show pinChange .estop true s = assertEstop s from if_neg hne, exec_estopAsserted hrun]
  · rw [show pinChange .jogFwd false s = releaseJog .pos s from if_neg hne, exec_jogRelease hrun]
  · rw [show pinChange .jogRev false s = releaseJog .neg s from if_neg hne, exec_jogRelease hrun]
  · rw [show pinChange .hold false s = holdEdge false s from if_neg hne]
    simp [holdEdge, hval, State.setInput, Station.set, InputLevel.pinTo]

end Sys2Proof.Machine
end

