-- ==== Sys2Proof/Proofs/StationPresses.lean ====
section
/-! PROOFS. The validated levels of the operator station and their actions (R73, R152 to R158): a HOLD press, the key, the
selection, and the jogs started, refused and ended. With what a CONTROLLED stop to HOLDING makes of a span in motion. -/

namespace Sys2Proof.Machine
open Safety

/-! ### One slot of a sweep over all -/

/-- A sweep over the slots does to one span what its operation does to that span, on a plant that has it as it was. -/
theorem eachSlot_at {f : Slot → Plant → Plant} (hne : ∀ {i j : Slot} (p : Plant), j ≠ i → (f i p).span j = p.span j) (p : Plant)
    (i : Slot) : ∃ q : Plant, q.span i = p.span i ∧ (eachSlot f p).span i = (f i q).span i := by
  unfold eachSlot
  match i with
  | 0 => exact ⟨p, rfl, by simp (disch := decide) only [hne]⟩
  | 1 => exact ⟨f 0 p, by simp (disch := decide) only [hne], by simp (disch := decide) only [hne]⟩
  | 2 => exact ⟨f 1 (f 0 p), by simp (disch := decide) only [hne], by simp (disch := decide) only [hne]⟩
  | 3 => exact ⟨f 2 (f 1 (f 0 p)), by simp (disch := decide) only [hne], rfl⟩

/-! ### A CONTROLLED stop to HOLDING of a span in motion -/

section
variable {env : Env} {i : Slot} {p : Plant} {why : JogEnd}

/-- No test starts at an entry: none is allowed, or none is due or wanted (R118). -/
def noTestStarts (env : Env) (i : Slot) (sp : Span) : Prop :=
  env.mode ≠ .ready ∨ env.keyLocal = true ∨ (sp.proof.due = false ∧ (env.span i).autoProof = false)

theorem enterEnd_noTestStarts {e : EndState} (h : noTestStarts env i (p.span i)) :
    enterEnd env i e p = changeState env i (endSpanState e) none p := by
  rcases h with h | h | ⟨hdue, hauto⟩
  · exact enterEnd_not_allowed (.inl h)
  · exact enterEnd_not_allowed (.inr h)
  · exact enterEnd_plain env i e p hdue hauto

theorem controlledHold_begun (q : Plant) : stopBegun env i controlledHold q = q := stopBegun_plain _ _ _ (by decide) (by decide)

/-- At speed the span ramps down. -/
theorem controlledHold_ramps (hstate : (p.span i).state = .moving) (hv : (p.span i).v ≠ 0) :
    let b := (takeStop env i controlledHold why p).span i
    b.state = .stopping ∧ b.v = (p.span i).v ∧ b.stop = some { kind := .controlled, endState := .holding } ∧
      b.windHold = (p.span i).windHold := by
  have hform : takeStop env i controlledHold why p =
      changeState env i .stopping (some { kind := .controlled, endState := .holding }) (endJog env i why p) := by
    rw [takeStop_ramping why hstate (.inl hv), controlledHold_begun]
    rfl
  obtain ⟨hnew, hstop, hspeed, -⟩ := changeState_ramps (env := env) (i := i) (p := endJog env i why p)
    (r := { kind := .controlled, endState := .holding }) (by decide)
  have hspan := changeState_span env i .stopping (some { kind := .controlled, endState := .holding }) (endJog env i why p)
  rw [endJog_span] at hspeed hspan
  rw [hform]
  refine ⟨hnew, hspeed, hstop, ?_⟩
  rw [hspan]
  simp [Span.enter]

/-- At v = 0 the span is HOLDING at once. -/
theorem controlledHold_holds (hstate : (p.span i).state = .moving) (hv : (p.span i).v = 0) (htest : noTestStarts env i (p.span i)) :
    let b := (takeStop env i controlledHold why p).span i
    b.state = .holding ∧ b.v = 0 ∧ b.dwellT = none ∧ b.jog = none ∧ b.holdT = some ((env.span i).tHold * 1000) ∧
      b.windHold = (p.span i).windHold := by
  have hform : takeStop env i controlledHold why p = changeState env i .holding none (endJog env i why p) := by
    rw [takeStop_standing why hstate hv (by decide), controlledHold_begun,
      enterEnd_noTestStarts (by rw [endJog_span]; exact htest)]
    rfl
  have hspan := changeState_span env i .holding none (endJog env i why p)
  rw [endJog_span] at hspan
  rw [hform, hspan]
  simp [Span.enter, generatorRuns]

/-- A release of the brakes in progress is aborted to RESTING. -/
theorem controlledHold_aborts (hstate : (p.span i).state = .starting) (htest : noTestStarts env i (p.span i)) :
    let b := (takeStop env i controlledHold why p).span i
    restsIn .resting b ∧ sameJourney (p.span i) b ∧ b.posted.map (fun set => set.mode) = some .braked ∧
      b.windHold = (p.span i).windHold := by
  have hform : takeStop env i controlledHold why p = changeState env i .resting none (endJog env i why p) := by
    rw [takeStop_starting why hstate, controlledHold_begun, enterEnd_noTestStarts (by rw [endJog_span]; exact htest)]
    rfl
  have hjourney := changeState_sameJourney env i .resting none (endJog env i why p)
  have hspan := changeState_span env i .resting none (endJog env i why p)
  rw [endJog_span] at hjourney hspan
  rw [hform]
  refine ⟨changeState_restsIn env i _ rfl, hjourney, changeState_rest_posted rfl (by rw [endJog_span]; exact .inr (.inl hstate)), ?_⟩
  rw [hspan]
  simp [Span.enter]

end

/-! ### The conditions of a jog (R156) -/

/-- The table of R156 in its order, behind it the conditions a jog shares with START. -/
theorem jogRefusal_eq {env : Env} {i : Slot} {p : Plant} : jogRefusal env i p =
    if env.mode ≠ .ready then some .mode
    else if env.keyLocal = false then some (.condition none)
    else if (p.span i).state ≠ .resting ∧ (p.span i).state ≠ .holding then some .state
    else motionRefusal env i none (p.span i) := by
  simp only [jogRefusal, bne_iff_ne, Bool.and_eq_true, Bool.not_eq_true']

section
variable {env : Env} {i : Slot} {p : Plant} {d : Dir}

theorem requestJog_refused {why : Reason} (h : jogRefusal env i p = some why) :
    requestJog env i d p = p.report (.station (.jogRefused i d why) env.time) := by
  simp only [requestJog, h]

/-- The plant a jog starts from: its report, its context and its direction. -/
def jogFrom (env : Env) (i : Slot) (d : Dir) (p : Plant) : Plant :=
  (p.report (.station (.jogStarted i d) env.time)).setSpan i
    { p.span i with jog := some (jogContext (env.span i) d), dir := d }

theorem requestJog_accepted (h : jogRefusal env i p = none) : requestJog env i d p = enterMotion env i (jogFrom env i d p) := by
  simp only [requestJog, h]
  rfl

theorem jogFrom_span : (jogFrom env i d p).span i = { p.span i with jog := some (jogContext (env.span i) d), dir := d } :=
  Plant.span_setSpan ..

theorem jogFrom_span_ne {j : Slot} (h : j ≠ i) : (jogFrom env i d p).span j = p.span j := Plant.span_setSpan_ne _ h _

/-- A jog accepted: the span in motion under its context (R73, R156). -/
theorem requestJog_starts (h : jogRefusal env i p = none) (hstate : (p.span i).state = .holding ∨ (p.span i).state = .resting) :
    let q := requestJog env i d p
    (∀ j : Slot, j ≠ i → q.span j = p.span j) ∧ (q.span i).dir = d ∧
      ((p.span i).state = .holding → (q.span i).state = .moving) ∧
      ((p.span i).state = .resting → (q.span i).state = .starting ∧ (q.span i).v = 0 ∧
        (q.span i).releaseT = some ((env.span i).tRel * 100) ∧ (q.span i).setpointMode = some .energize) ∧
      (q.span i).plan = (p.span i).plan ∧ (q.span i).x = (p.span i).x ∧ (q.span i).holdT = none ∧
      (q.span i).jog = some (jogContext (env.span i) d) := by
  have hfrom := jogFrom_span (env := env) (i := i) (d := d) (p := p)
  rw [requestJog_accepted h]
  rcases hstate with hs | hs
  · have hform : enterMotion env i (jogFrom env i d p) = changeState env i .moving none (jogFrom env i d p) :=
      enterMotion_holding (by rw [hfrom]; exact hs)
    have hspan := changeState_span env i .moving none (jogFrom env i d p)
    rw [hfrom] at hspan
    rw [hform]
    refine ⟨fun j hj => by rw [changeState_span_ne _ _ _ _ _ hj, jogFrom_span_ne hj], ?_, fun _ => changeState_state ..,
      fun hr => absurd (hs.symm.trans hr) (by decide), ?_, ?_, ?_, ?_⟩ <;> rw [hspan] <;> simp [Span.enter, generatorRuns]
  · have hform : enterMotion env i (jogFrom env i d p) = changeState env i .starting none (jogFrom env i d p) :=
      enterMotion_resting (by rw [hfrom]; exact hs)
    have hspan := changeState_span env i .starting none (jogFrom env i d p)
    rw [hfrom] at hspan
    rw [hform]
    refine ⟨fun j hj => by rw [changeState_span_ne _ _ _ _ _ hj, jogFrom_span_ne hj], ?_, fun hh => absurd (hs.symm.trans hh) (by decide),
      fun _ => ?_, ?_, ?_, ?_, ?_⟩ <;> rw [hspan] <;> simp [Span.enter, generatorRuns, Span.setpointMode]

end

/-! ### The press timer's expiry (R152) -/

/-- The station with an input validated at its pin's level. -/
def Validated (input : StationInput) (s : State) : State :=
  s.setInput input { pin := (s.station.get input).pin, val := (s.station.get input).pin, press := none }

theorem exec_press_idle {s : State} {input : StationInput} (hrun : s.resetPin = false) (h : (s.station.get input).press = none) :
    exec (.stationPressTimerExpiry input) s = .next (settle s) :=
  (runEvent_running hrun _).trans (by simp [pressExpired, h])

theorem exec_press {s : State} {input : StationInput} (hrun : s.resetPin = false) (h : (s.station.get input).press.isSome = true) :
    exec (.stationPressTimerExpiry input) s =
      .next (settle (inputAction input (s.station.get input).pin (Validated input s))) :=
  (runEvent_running hrun _).trans (by rw [show pressExpired input s = _ from if_pos h]; rfl)

/-- The reports a validated level queues before it ends a jog. -/
def pressReports (s : State) (input : StationInput) : List Report :=
  match input with
  | .key => [.station .keyRemote s.time]
  | .jogFwd => [.station (.jogRefused s.station.selected .pos (.condition none)) s.time]
  | .jogRev => [.station (.jogRefused s.station.selected .neg (.condition none)) s.time]
  | _ => []

/-- Which validated levels end a jog, and what JOG_ENDED says of them (R155 to R157). -/
def endsJog (s : State) (input : StationInput) (why : JogEnd) : Prop :=
  ((input = .sel0 ∨ input = .sel1) ∧ why = .selection) ∨
    (input = .key ∧ (s.station.get input).pin = false ∧ why = .keyRemote) ∨
    (∃ d, input = jogInput d ∧ (s.station.get input).pin = true ∧ (s.station.get (jogInput (dirFlip d))).val = true ∧
      why = .otherInput)

/-- A jog in progress is ended by its stop, behind the level's own report. -/
theorem inputAction_endsJog {s : State} {input : StationInput} {why : JogEnd} {i : Slot} (hslot : s.plant.jogSlot = some i)
    (h : endsJog s input why) : inputAction input (s.station.get input).pin (Validated input s) = { Validated input s with
      plant := takeStop (Validated input s).env i controlledHold why (s.plant.reports (pressReports s input)) } := by
  have hsome : (Validated input s).plant.jogSlot.isSome = true := by
    show s.plant.jogSlot.isSome = true
    rw [hslot]; rfl
  have hstop (rs : List Report) (env : Env) : stopJog why env (s.plant.reports rs) =
      takeStop env i controlledHold why (s.plant.reports rs) :=
    stopJog_some (by simpa [Plant.jogSlot] using hslot)
  rcases h with ⟨h | h, rfl⟩ | ⟨rfl, hpin, rfl⟩ | ⟨d, rfl, hpin, hval, rfl⟩
  · subst h
    show selectAction _ = _
    rw [selectAction, if_pos hsome, State.onPlant]
    exact congrArg (fun q => { Validated .sel0 s with plant := q }) (hstop [] _)
  · subst h
    show selectAction _ = _
    rw [selectAction, if_pos hsome, State.onPlant]
    exact congrArg (fun q => { Validated .sel1 s with plant := q }) (hstop [] _)
  · rw [hpin]
    exact congrArg (fun q => { Validated .key s with plant := q }) (hstop [_] _)
  · rw [hpin]
    cases d with
    | pos =>
      show jogPress .pos _ = _
      rw [jogPress, if_pos (by exact hval)]
      exact congrArg (fun q => { Validated .jogFwd s with plant := q }) (hstop [_] _)
    | neg =>
      show jogPress .neg _ = _
      rw [jogPress, if_pos (by exact hval)]
      exact congrArg (fun q => { Validated .jogRev s with plant := q }) (hstop [_] _)

/-- A validated press of a jog input with the other released requests a jog of the selected slot. -/
theorem inputAction_jog {s : State} {d : Dir} (hpin : (s.station.get (jogInput d)).pin = true)
    (hval : (s.station.get (jogInput (dirFlip d))).val = false) :
    inputAction (jogInput d) (s.station.get (jogInput d)).pin (Validated (jogInput d) s) = { Validated (jogInput d) s with
      plant := requestJog s.env s.station.selected d s.plant } := by
  rw [hpin]
  cases d with
  | pos =>
    show jogPress .pos _ = _
    rw [jogPress, if_neg (by rw [Bool.not_eq_true]; exact hval)]
    rfl
  | neg =>
    show jogPress .neg _ = _
    rw [jogPress, if_neg (by rw [Bool.not_eq_true]; exact hval)]
    rfl

/-- A validated press of a jog input with the other pressed, and no jog in progress, is refused. -/
theorem inputAction_jog_other {s : State} {d : Dir} (hpin : (s.station.get (jogInput d)).pin = true)
    (hval : (s.station.get (jogInput (dirFlip d))).val = true) (hslot : s.plant.jogSlot = none) :
    inputAction (jogInput d) (s.station.get (jogInput d)).pin (Validated (jogInput d) s) = { Validated (jogInput d) s with
      plant := s.plant.report (.station (.jogRefused s.station.selected d (.condition none)) s.time) } := by
  have hstop (r : Report) (env : Env) : stopJog .otherInput env (s.plant.report r) = s.plant.report r := stopJog_none hslot
  rw [hpin]
  cases d with
  | pos =>
    show jogPress .pos _ = _
    rw [jogPress, if_pos (by exact hval)]
    exact congrArg (fun q => { Validated .jogFwd s with plant := q }) (hstop _ _)
  | neg =>
    show jogPress .neg _ = _
    rw [jogPress, if_pos (by exact hval)]
    exact congrArg (fun q => { Validated .jogRev s with plant := q }) (hstop _ _)

/-! ### HOLD pressed and the key to LOCAL (R154, R155) -/

section
variable {env : Env} {i : Slot} {p : Plant}

theorem holdSpan_span_ne {j : Slot} (h : j ≠ i) (p : Plant) : (holdSpan env i p).span j = p.span j := by
  unfold holdSpan
  split
  · exact takeStop_span_ne h env _ _ p
  · rfl

theorem localSpan_span_ne {j : Slot} (h : j ≠ i) (p : Plant) : (localSpan env i p).span j = p.span j := by
  simp only [localSpan]
  split
  · exact takeStop_span_ne h env _ _ p
  · rfl

theorem holdSpan_moving (h : (p.span i).state = .moving) : holdSpan env i p = takeStop env i controlledHold .otherStop p := by
  simp [holdSpan, h]

theorem holdSpan_other (h : (p.span i).state ≠ .moving) : holdSpan env i p = p := by simp [holdSpan, h]

theorem localSpan_moving (h : (p.span i).state = .moving ∨ (p.span i).state = .starting) (hjog : (p.span i).jog = none) :
    localSpan env i p = takeStop env i controlledHold .otherStop p := by
  rcases h with h | h <;> simp [localSpan, h, hjog]

theorem localSpan_jogged (h : (p.span i).jog.isSome = true) : localSpan env i p = p := by
  obtain ⟨j, hj⟩ := Option.isSome_iff_exists.1 h
  simp [localSpan, hj]

theorem localSpan_other (h1 : (p.span i).state ≠ .moving) (h2 : (p.span i).state ≠ .starting) : localSpan env i p = p := by
  simp [localSpan, h1, h2]

end

/-- The first condition of R156's table that is not met, as the statement names it. -/
theorem jogRefusal_of_rows {s : State} {i : Slot} {why : Reason}
    (h : (s.sup.mode ≠ .ready ∧ why = .mode) ∨
      (s.sup.mode = .ready ∧ s.station.key.val = false ∧ why = .condition none) ∨
      (s.sup.mode = .ready ∧ s.station.key.val = true ∧
        (((s.plant.span i).state ≠ .resting ∧ (s.plant.span i).state ≠ .holding ∧ why = .state) ∨
         (((s.plant.span i).state = .resting ∨ (s.plant.span i).state = .holding) ∧
          ((s.wind.gate.shut = true ∧ why = .wind) ∨
           (s.wind.gate.shut = false ∧
            (((s.plant.span i).proof.owed = 8 ∧ why = .proofOwed) ∨
             ((s.plant.span i).proof.owed ≠ 8 ∧
              (((s.plant.span i).proof.unproven = true ∧ why = .proofRequired) ∨
               ((s.plant.span i).proof.unproven = false ∧ (s.env.span i).sStop < (s.plant.span i).skew ∧
                why = .skew)))))))))) : jogRefusal s.env i s.plant = some why := by
  rw [jogRefusal_eq]
  have hstates {st : SpanState} (hs : st = .resting ∨ st = .holding) : ¬(st ≠ .resting ∧ st ≠ .holding) :=
    fun h => hs.elim h.1 h.2
  rcases h with ⟨hmode, rfl⟩ | ⟨hmode, hkey, rfl⟩ | ⟨hmode, hkey, h⟩
  · exact if_pos hmode
  · rw [if_neg (Classical.not_not.2 (by exact hmode)), if_pos (by exact hkey)]
  · rw [if_neg (Classical.not_not.2 (by exact hmode)), if_neg (by rw [show s.env.keyLocal = true from hkey]; decide)]
    rcases h with ⟨h1, h2, rfl⟩ | ⟨hstate, h⟩
    · exact if_pos ⟨h1, h2⟩
    · rw [if_neg (hstates hstate)]
      rcases h with ⟨hgate, rfl⟩ | ⟨hgate, ⟨howed, rfl⟩ | ⟨howed, ⟨hproof, rfl⟩ | ⟨hproof, hskew, rfl⟩⟩⟩
      · exact motionRefusal_of_wind none hgate
      · exact motionRefusal_of_owed hgate howed
      · exact motionRefusal_of_unproven hgate howed hproof
      · exact motionRefusal_of_skew hgate howed hproof hskew

/-- The validated level of an input that acts on the plant alone. -/
theorem exec_press_acts {s : State} {input : StationInput} {q : Plant} (hrun : s.resetPin = false)
    (h : (s.station.get input).press.isSome = true)
    (hact : inputAction input (s.station.get input).pin (Validated input s) = { Validated input s with plant := q }) :
    exec (.stationPressTimerExpiry input) s = .next (settle { s with
      station := s.station.set input { pin := (s.station.get input).pin, val := (s.station.get input).pin, press := none },
      plant := q }) := by
  rw [exec_press hrun h, hact]
  rfl

/-- Settles O53: each input's action. -/
theorem stationPressesAct : Obligations.StationPressesAct := by
  intro s input hrun
  refine ⟨exec_press_idle hrun, fun hpress => ⟨fun hi hpin => ?_, fun hi hpin => ?_, fun hi hslot => ?_,
    fun i j why hslot hjog hm hv hwhy => ?_, fun i hslot hs htest hends => ?_, fun hi hpin hslot => ?_,
    fun d i why hi hpin hsel hrows => ?_, fun hi hpin => ?_, fun i d hi hpin hval hsel hmode hkey hstate hgate howed hproof hskew => ?_⟩⟩
  · subst hi
    rw [exec_press hrun hpress, hpin, Validated, hpin]
    rfl
  · subst hi
    rw [exec_press hrun hpress, hpin, Validated, hpin]
    rfl
  · refine exec_press_acts hrun hpress ?_
    have hnone : ¬(Validated input s).plant.jogSlot.isSome = true := by
      show ¬s.plant.jogSlot.isSome = true
      rw [hslot]; decide
    rcases hi with rfl | rfl <;> exact if_neg hnone
  · obtain ⟨hne, hnew, hspeed, hjog', hstop, hout⟩ := jogStop_moving (env := (Validated input s).env) (i := i)
      (p := s.plant.reports (pressReports s input)) (why := why) (by simpa using hm) (by simpa using hv) (by simp [hjog])
    simp only [Plant.reports_span] at hne hspeed hjog'
    refine ⟨_, exec_press_acts hrun hpress (inputAction_endsJog hslot hwhy), hne, hnew, hspeed, hjog'.trans hjog, hstop,
      fun hnone => ?_⟩
    have hgone : s.plant.link.params.filter (s.plant.link.isWriteOf i) = [] :=
      List.filter_eq_nil_iff.2 fun e he => by simp [hnone e he]
    rw [hout, Plant.reports_link, Plant.reports_out, hgone, List.flatMap_nil, ← List.foldl_append]
    cases input <;> rfl
  · obtain ⟨why, hwhy⟩ : ∃ why, endsJog s input why := by
      rcases hends with h | ⟨h, hpin⟩ | ⟨d, h, hpin, hval⟩
      · exact ⟨_, .inl ⟨h, rfl⟩⟩
      · exact ⟨_, .inr (.inl ⟨h, hpin, rfl⟩)⟩
      · exact ⟨_, .inr (.inr ⟨d, h, hpin, hval, rfl⟩)⟩
    obtain ⟨⟨hzones, hlink, hne⟩, hrests, hjourney⟩ := jogStop_starting (env := (Validated input s).env) (i := i)
      (p := s.plant.reports (pressReports s input)) (why := why) (by simpa using hs) (by simpa using jogSlot_jog hslot)
      (by rw [Plant.reports_span]; exact htest)
    simp only [Plant.reports_span, Plant.reports_zones, Plant.reports_link] at hzones hlink hne hjourney
    exact ⟨_, exec_press_acts hrun hpress (inputAction_endsJog hslot hwhy), hzones, hlink, hne, hrests, hjourney⟩
  · subst hi
    have hact := exec_press_acts (q := s.plant.report (.station .keyRemote s.time)) hrun hpress (by
      rw [hpin]
      exact congrArg (fun q => { Validated .key s with plant := q })
        (stopJog_none (env := (Validated .key s).env) (why := .keyRemote) (p := s.plant.report (.station .keyRemote s.time)) hslot))
    rw [hpin] at hact
    exact hact
  · subst hi hsel
    have hact : inputAction (jogInput d) (s.station.get (jogInput d)).pin (Validated (jogInput d) s) =
        { Validated (jogInput d) s with
          plant := s.plant.report (.station (.jogRefused s.station.selected d why) s.time) } := by
      rcases hrows with ⟨hval, hslot, rfl⟩ | ⟨hval, hrows⟩
      · exact inputAction_jog_other hpin hval hslot
      · rw [inputAction_jog hpin hval, requestJog_refused (jogRefusal_of_rows hrows)]
        rfl
    have hexec := exec_press_acts hrun hpress hact
    rw [hpin] at hexec
    exact hexec
  · rcases hi with rfl | rfl
    · have hexec := exec_press_acts hrun hpress (q := eachSlot (holdSpan (Validated .hold s).env)
        (s.plant.report (.station .holdPressed s.time))) (by rw [hpin]; rfl)
      rw [hpin] at hexec
      refine ⟨_, hexec, fun i => ?_⟩
      obtain ⟨q, hq, hat⟩ := eachSlot_at (f := holdSpan (Validated .hold s).env) (fun p h => holdSpan_span_ne h p)
        (s.plant.report (.station .holdPressed s.time)) i
      rw [Plant.report_span] at hq
      rw [hat, ← hq]
      refine ⟨fun hm hv _ => ?_, fun hm hv _ htest => ?_, fun _ hkey => absurd hkey (by decide), fun hs _ => ?_, fun _ hkey => absurd hkey (by decide),
        fun hm _ => (by rw [holdSpan_other hm])⟩
      · obtain ⟨hnew, hspeed, hstop, -⟩ := controlledHold_ramps (env := (Validated .hold s).env) (why := .otherStop) hm hv
        rw [holdSpan_moving hm]
        exact ⟨hnew, hspeed, hstop⟩
      · obtain ⟨hnew, hspeed, hdwell, -, hhold, -⟩ := controlledHold_holds (env := (Validated .hold s).env) (why := .otherStop) hm hv
          (.inr (.inr (by rw [hq]; exact htest)))
        rw [holdSpan_moving hm]
        exact ⟨hnew, hspeed, hdwell, hhold⟩
      · rw [holdSpan_other (by rw [hs]; decide)]
    · have hexec := exec_press_acts hrun hpress (q := eachSlot (localSpan (Validated .key s).env)
        (s.plant.report (.station .keyLocal s.time))) (by rw [hpin]; rfl)
      rw [hpin] at hexec
      refine ⟨_, hexec, fun i => ?_⟩
      obtain ⟨q, hq, hat⟩ := eachSlot_at (f := localSpan (Validated .key s).env) (fun p h => localSpan_span_ne h p)
        (s.plant.report (.station .keyLocal s.time)) i
      rw [Plant.report_span] at hq
      have hlocal : (Validated .key s).env.keyLocal = true := hpin
      rw [hat, ← hq]
      refine ⟨fun hm hv hjog => ?_, fun hm hv hjog _ => ?_, fun hs _ hjog => ?_, fun _ hhold => absurd hhold (by decide),
        fun hjog _ => (by rw [localSpan_jogged hjog]), fun h1 h2 => (by rw [localSpan_other h1 h2])⟩
      · obtain ⟨hnew, hspeed, hstop, -⟩ := controlledHold_ramps (env := (Validated .key s).env) (why := .otherStop) hm hv
        rw [localSpan_moving (.inl hm) (hjog.resolve_left (by decide))]
        exact ⟨hnew, hspeed, hstop⟩
      · obtain ⟨hnew, hspeed, hdwell, -, hhold, -⟩ := controlledHold_holds (env := (Validated .key s).env) (why := .otherStop) hm hv
          (.inr (.inl hlocal))
        rw [localSpan_moving (.inl hm) (hjog.resolve_left (by decide))]
        exact ⟨hnew, hspeed, hdwell, hhold⟩
      · obtain ⟨hrests, hjourney, hposted, -⟩ := controlledHold_aborts (env := (Validated .key s).env) (why := .otherStop) hs
          (.inr (.inl hlocal))
        rw [localSpan_moving (.inr hs) hjog]
        exact ⟨hrests, hjourney, hposted⟩
  · subst hi hsel
    have hnone : jogRefusal s.env s.station.selected s.plant = none := by
      rw [jogRefusal_eq, if_neg (Classical.not_not.2 (by exact hmode)), if_neg (by rw [show s.env.keyLocal = true from hkey]; decide),
        if_neg (fun h => hstate.elim h.2 h.1)]
      exact motionRefusal_of_met hgate howed hproof hskew
    have hexec := exec_press_acts hrun hpress (inputAction_jog hpin hval)
    rw [hpin] at hexec
    obtain ⟨hne, hdir, hhold, hrest, hplan, hx, hholdT, hjog⟩ := requestJog_starts (d := d) hnone hstate
    refine ⟨_, hexec, hne, hdir, hhold, hrest, hplan, hx, hholdT, hjog.trans ?_⟩
    cases d <;> rfl

end Sys2Proof.Machine
end

