-- ==== Sys2Proof/Proofs/Periods.lean ====
section
/-! PROOFS. The frame of a span period: what the measurement before the state machine and the alignment, the set, the Clearance
Table and the checks behind it leave of the plant, and the period as the three of them. -/

namespace Sys2Proof.Machine
open Safety

section
variable {env : Env} {i j : Slot} {p : Plant}

/-! ### Before the state machine -/

/-- The plant the state machine of a period finds: the period timer restarted and the positions measured. -/
def periodFound (env : Env) (i : Slot) (p : Plant) : Plant :=
  measureSpan env i (p.setSpan i { p.span i with periodT := Config.periodMs })

/-- A span as the measurement of a period leaves it. -/
def measuredFrom (a b : Span) : Prop :=
  b = { a with periodT := b.periodT, lastM := b.lastM,
               meas := { a.meas with nValid := b.meas.nValid, mr := b.meas.mr, m := b.meas.m } }

theorem periodFound_span : measuredFrom (p.span i) ((periodFound env i p).span i) := by
  have hspan : (periodFound env i p).span i = (formPositions env i (p.setSpan i { p.span i with periodT := Config.periodMs })).span i := rfl
  rw [measuredFrom, hspan]
  simp [formPositions]

theorem periodFound_span_ne (h : j ≠ i) : (periodFound env i p).span j = p.span j := by
  have hspan : (periodFound env i p).span j = (formPositions env i (p.setSpan i { p.span i with periodT := Config.periodMs })).span j := rfl
  rw [hspan]
  simp [formPositions, Plant.span_setSpan_ne _ h]

@[simp] theorem periodFound_zones : (periodFound env i p).zones = p.zones := rfl
@[simp] theorem periodFound_out : (periodFound env i p).out = p.out := rfl

/-- An address record with its validity judged and shown (R91). -/
def AddrRec.shown (env : Env) (i : Slot) (a : AddrRec) : AddrRec :=
  if a.isBogieOf i then { a with valid := a.isValid env.cfg.dev.stale } else a

theorem periodFound_link : (periodFound env i p).link = { p.link with addrs := p.link.addrs.map (AddrRec.shown env i) } := rfl

theorem AddrRec.shown_isBogieOf (a : AddrRec) : (a.shown env i).isBogieOf i = a.isBogieOf i := by
  unfold AddrRec.shown; split <;> rfl

/-- The bogies the state machine reads are those of the records, with their validity shown. -/
theorem periodFound_bogies : (periodFound env i p).bogies i =
    (p.bogies i).map (fun a => { a with valid := a.isValid env.cfg.dev.stale }) := by
  simp only [Plant.bogies, periodFound_link, List.filter_map, Function.comp_def, AddrRec.shown_isBogieOf]
  exact List.map_congr_left fun a ha => if_pos (List.mem_filter.1 ha).2

theorem periodFound_allValid : (periodFound env i p).allValid env i = p.allValid env i := by
  rw [Plant.allValid, periodFound_bogies, List.all_map]; rfl

theorem periodFound_brakesSet : brakesSet env i (periodFound env i p) = brakesSet env i p := by
  rw [brakesSet, periodFound_allValid, periodFound_bogies, List.all_map]; rfl

theorem periodFound_halted : halted env i (periodFound env i p) = halted env i p := by
  rw [halted, periodFound_bogies, List.all_map]; rfl

/-- A record of a mapped list is the image of one of the list. -/
theorem exists_mem_map {α β : Type} {f : α → β} {l : List α} {c : β → Prop} : (∃ b ∈ l.map f, c b) ↔ ∃ a ∈ l, c (f a) := by
  simp only [List.mem_map]
  constructor
  · rintro ⟨_, ⟨a, ha, rfl⟩, hc⟩
    exact ⟨a, ha, hc⟩
  · rintro ⟨a, ha, hc⟩
    exact ⟨_, ⟨a, ha, rfl⟩, hc⟩

/-- The handshake judges the valid bogies of the span (R29). -/
theorem handshake_iff : handshake env i p = true ↔
    (∃ a ∈ p.bogies i, a.isValid env.cfg.dev.stale = true) ∧
    ∀ a ∈ p.bogies i, a.isValid env.cfg.dev.stale = true → ∃ r, a.last = some r ∧ r.ready = true ∧ r.released = true := by
  have hreply : ∀ a : AddrRec, (match a.last with | some r => r.ready && r.released | none => false) = true ↔
      ∃ r, a.last = some r ∧ r.ready = true ∧ r.released = true := by
    intro a
    cases a.last <;> simp
  simp only [handshake, Bool.and_eq_true, Bool.not_eq_true', List.isEmpty_eq_false_iff_exists_mem, List.mem_filter, List.all_eq_true, and_imp]
  exact and_congr_right fun _ => forall₃_congr fun a _ _ => hreply a

theorem periodFound_handshake : handshake env i (periodFound env i p) = handshake env i p := by
  rw [Bool.eq_iff_iff, handshake_iff, handshake_iff, periodFound_bogies]
  exact and_congr exists_mem_map List.forall_mem_map

/-- The lock unit is no bogie: the measurement leaves its record. -/
theorem periodFound_lockUnit : (periodFound env i p).lockUnit i = p.lockUnit i := by
  have hkept : ∀ a : AddrRec, (a.role == .lockUnit && a.slot == i) = true → a.shown env i = a := by
    intro a ha
    simp only [Bool.and_eq_true, beq_iff_eq] at ha
    exact if_neg (by simp [AddrRec.isBogieOf, ha.1])
  have hsame : ∀ a : AddrRec, ((a.shown env i).role == .lockUnit && (a.shown env i).slot == i) = (a.role == .lockUnit && a.slot == i) := by
    intro a
    unfold AddrRec.shown
    split <;> rfl
  simp only [Plant.lockUnit, periodFound_link, List.find?_map, Function.comp_def, hsame]
  cases hfind : p.link.addrs.find? (fun a => a.role == .lockUnit && a.slot == i) with
  | none => rfl
  | some a => exact congrArg some (hkept a (by simpa using List.find?_some hfind))

/-! ### Behind the state machine -/

/-- The rest of a period behind the state machine: the alignment, the set, the Clearance Table's turn and the stops raised. -/
def periodFormed (env : Env) (i : Slot) (p : Plant) : Plant :=
  raiseStops env i (zonePeriod env i (postSet env i (alignSpan env i p)))

/-- A span as the rest of a period leaves it. -/
def formedFrom (a b : Span) : Prop :=
  b = { a with meas := { a.meas with er := b.meas.er, tr := b.meas.tr }, degraded := b.degraded, skew := b.skew,
               leading := b.leading, lagging := b.lagging, skewArmed := b.skewArmed, posted := b.posted, raised := b.raised }

theorem formedFrom.trans {a b c : Span} (h : formedFrom a b) (k : formedFrom b c) : formedFrom a c := by
  rw [formedFrom] at h k ⊢
  rw [k, h]

/-- The skew stored and its warning change the skew of the span, with at most one report. -/
theorem skewStep_span : formedFrom (p.span i) ((skewStep env i p).span i) := by
  simp only [skewStep]
  split
  · rfl
  · split <;> simp [formedFrom]

theorem skewStep_span_ne (h : j ≠ i) : (skewStep env i p).span j = p.span j := by
  simp only [skewStep]
  split
  · rfl
  · split <;> simp [Plant.span_setSpan_ne _ h]

@[simp] theorem skewStep_zones : (skewStep env i p).zones = p.zones := by
  simp only [skewStep]
  split
  · rfl
  · split <;> rfl

@[simp] theorem skewStep_link : (skewStep env i p).link = p.link := by
  simp only [skewStep]
  split
  · rfl
  · split <;> rfl

/-- The degraded flag, the rail errors and the rail trims of a period (R78, R81, R82). -/
def Span.aligned (env : Env) (i : Slot) (sp : Span) : Span :=
  { sp with
    degraded := sp.degradedNow env i,
    meas := { sp.meas with
      er := sp.meas.mr.map (fun m => m.map (fun v => sp.x - v)),
      tr := if sp.inRun then (sp.meas.mr.map (fun m => m.map (fun v => sp.x - v))).map (railTrim (env.span i)) else sp.meas.tr } }

/-- The plant with the rail trims of a period and the commands of its bogies, before the skew. -/
def driveSpan (env : Env) (i : Slot) (p : Plant) : Plant :=
  let q := p.setSpan i ((p.span i).aligned env i)
  { q with link := { q.link with addrs := q.link.addrs.map (AddrRec.drive (env.span i) i ((p.span i).aligned env i)
      (Quad.ofFn (fun r => meanTorque (p.validRail env i r)))) } }

theorem alignSpan_eq : alignSpan env i p = skewStep env i (driveSpan env i p) := rfl

theorem driveSpan_span : (driveSpan env i p).span i = (p.span i).aligned env i := Plant.span_setSpan ..

theorem driveSpan_span_ne (h : j ≠ i) : (driveSpan env i p).span j = p.span j := Plant.span_setSpan_ne p h _

theorem alignSpan_span : formedFrom (p.span i) ((alignSpan env i p).span i) := by
  have hdrive : formedFrom (p.span i) ((driveSpan env i p).span i) := by rw [driveSpan_span]; rfl
  rw [alignSpan_eq]
  exact hdrive.trans skewStep_span

theorem alignSpan_span_ne (h : j ≠ i) : (alignSpan env i p).span j = p.span j := by
  rw [alignSpan_eq, skewStep_span_ne h, driveSpan_span_ne h]

@[simp] theorem alignSpan_zones : (alignSpan env i p).zones = p.zones := by rw [alignSpan_eq, skewStep_zones]; rfl

theorem alignSpan_link : (alignSpan env i p).link = (driveSpan env i p).link := by rw [alignSpan_eq, skewStep_link]

@[simp] theorem zonePeriod_span : (zonePeriod env i p).span j = p.span j := rfl
@[simp] theorem zonePeriod_link : (zonePeriod env i p).link = p.link := rfl

theorem zonePeriod_none (h : p.zones = []) : zonePeriod env i p = p := by
  cases p
  subst h
  rfl

theorem raiseStops_span : formedFrom (p.span i) ((raiseStops env i p).span i) := by simp [raiseStops, formedFrom]
theorem raiseStops_span_ne (h : j ≠ i) : (raiseStops env i p).span j = p.span j := Plant.span_setSpan_ne p h _
@[simp] theorem raiseStops_zones : (raiseStops env i p).zones = p.zones := rfl
@[simp] theorem raiseStops_link : (raiseStops env i p).link = p.link := rfl
@[simp] theorem raiseStops_out : (raiseStops env i p).out = p.out := rfl

theorem postSet_formed : formedFrom (p.span i) ((postSet env i p).span i) := by
  rw [formedFrom, postSet_span]

theorem periodFormed_span : formedFrom (p.span i) ((periodFormed env i p).span i) :=
  (alignSpan_span.trans postSet_formed).trans raiseStops_span

theorem periodFormed_span_ne (h : j ≠ i) : (periodFormed env i p).span j = p.span j := by
  rw [periodFormed, raiseStops_span_ne h, zonePeriod_span, postSet_span_ne env h, alignSpan_span_ne h]

theorem periodFormed_link : (periodFormed env i p).link = (driveSpan env i p).link := by
  rw [periodFormed, raiseStops_link, zonePeriod_link, postSet_link, alignSpan_link]

/-- A period of a span with no entry of the Clearance Table and no skew warning to give queues nothing behind the state machine. -/
theorem periodFormed_out (hzones : p.zones = []) (hskew : (p.span i).skewArmed = false) : (periodFormed env i p).out = p.out := by
  have hzones' : (postSet env i (alignSpan env i p)).zones = [] := by simp [hzones]
  rw [periodFormed, raiseStops_out, zonePeriod_none hzones', postSet_out, alignSpan_eq]
  have harmed : ((driveSpan env i p).span i).skewArmed = false := by rw [driveSpan_span]; exact hskew
  simp only [skewStep]
  split
  · rfl
  · simp only [harmed, Bool.false_and, Bool.false_eq_true, if_false]
    rfl

end

/-! ### The whole period -/

/-- The plant a period leaves: the measurement, the state machine, and what is formed behind it. -/
def periodDone (env : Env) (i : Slot) (p : Plant) : Plant := periodFormed env i (spanStep env i (periodFound env i p))

/-- A period of a span whose stops have all been taken (R16). -/
theorem exec_spanPeriod {s : State} {i : Slot} (hrun : s.resetPin = false) (hstate : (s.plant.span i).state ≠ .unconfigured)
    (hraised : (s.plant.span i).raised = []) :
    exec (.spanPeriod i) s = .next (settle { s with plant := periodDone s.env i s.plant }) := by
  refine (runEvent_running hrun _).trans ?_
  have hstate' : ((s.plant.span i).state == .unconfigured) = false := by simpa using hstate
  have htaken : takeRaised s.env i (s.plant.setSpan i { s.plant.span i with periodT := Config.periodMs }) =
      s.plant.setSpan i { s.plant.span i with periodT := Config.periodMs } := by
    simp [takeRaised, hraised]
  simp only [State.onPlant, spanPeriodOf, Plant.span_setSpan, hstate', Bool.false_eq_true, if_false, htaken]
  rfl

end Sys2Proof.Machine
end

