-- ==== Sys2Proof/Proofs/SpanTimers.lean ====
section
/-! PROOFS. The timers of HOLDING, STARTING, PROVING and the lock states, and the periods that end them: O42 and O45. -/

namespace Sys2Proof.Machine
open Safety

section
variable {env : Env} {i : Slot} {p : Plant}

/-! ### The state machine by the state it finds -/

theorem spanStep_starting (h : (p.span i).state = .starting) :
    spanStep env i p = if handshake env i p then changeState env i .moving none p else p := by
  simp [spanStep, h]

theorem spanStep_proving (h : (p.span i).state = .proving) : spanStep env i p = testPeriod env i p := by
  simp [spanStep, h]

theorem spanStep_locking (h : (p.span i).state = .locking) : spanStep env i p = lockingPeriod env i p := by
  simp [spanStep, h]

theorem spanStep_unlocking (h : (p.span i).state = .unlocking) : spanStep env i p = unlockingPeriod env i p := by
  simp [spanStep, h]

/-- At rest for the rest of the period as behind the state machine. -/
theorem restsIn.formed {new : SpanState} {a b : Span} (h : formedFrom a b) (hrest : restsIn new a) : restsIn new b := by
  rw [formedFrom] at h
  rw [h]
  exact hrest

/-- A fault record with a cause just registered in an empty one. -/
theorem faultWith_first (time : Time) (c : FaultCause) {sp : Span} (h : sp.fault = none) :
    faultWith time c sp = { first := c, pos := sp.lastM.getD sp.x, time := time, later := [] } := by
  simp [faultWith, h]

/-- A span faulted by one of its own judgements outside the lock states. -/
theorem faulted_onlySpan (c : FaultCause) (hlocking : (p.span i).state ≠ .locking) (hunlocking : (p.span i).state ≠ .unlocking) :
    onlySpan i p (changeState env i .faulted none (registerFault env i c p)) := by
  have hrec := registerFault_record env i p c
  have h := changeState_onlySpan env i (new := .faulted) none (registerFault env i c p) rfl (by rw [hrec]; exact hlocking)
    (by rw [hrec]; exact hunlocking)
  obtain ⟨hzones, hlink, hne⟩ := h
  exact ⟨hzones.trans (registerFault_zones ..), hlink.trans (registerFault_link ..),
    fun j hj => (hne j hj).trans (registerFault_span_ne env hj c p)⟩

/-- The journey of a span that is faulted is the one it was on, but for its fault record. -/
theorem faulted_journey (c : FaultCause) :
    sameJourney { p.span i with fault := some (faultWith env.time c (p.span i)) }
      ((changeState env i .faulted none (registerFault env i c p)).span i) := by
  have h := changeState_sameJourney env i .faulted none (registerFault env i c p)
  rwa [registerFault_record] at h

theorem faulted_rests (c : FaultCause) :
    restsIn .faulted ((changeState env i .faulted none (registerFault env i c p)).span i) := changeState_restsIn env i _ rfl

end

/-! ### The hold timer, the release timer and the handshake (R29, R30) -/

theorem exec_holdTimer {s : State} {i : Slot} (hrun : s.resetPin = false) :
    exec (.holdTimerExpiry i) s = .next (settle { s with plant := holdExpired s.env i s.plant }) := runEvent_running hrun _

theorem exec_releaseTimer {s : State} {i : Slot} (hrun : s.resetPin = false) :
    exec (.releaseTimerExpiry i) s = .next (settle { s with plant := releaseExpired s.env i s.plant }) := runEvent_running hrun _

/-- Settles O42: the changes of state of the two expiries, and the period of STARTING. -/
theorem holdAndReleaseTimersExpire : Obligations.HoldAndReleaseTimersExpire := by
  unfold Obligations.HoldAndReleaseTimersExpire
  intro s i hrun
  refine ⟨fun hstate htimer htest => ?_, fun hstate => ?_, fun hstate htimer hfault hjog => ?_, fun hstate => ?_,
    fun hstate hraised => ?_⟩
  · have hexpired : holdExpired s.env i s.plant = changeState s.env i .resting none s.plant := by
      simp only [holdExpired, hstate, htimer, beq_self_eq_true, Bool.and_self, if_true]
      exact enterEnd_plain s.env i .resting s.plant htest.1 htest.2
    have honly := changeState_onlySpan s.env i (new := .resting) none s.plant rfl (by simp [hstate]) (by simp [hstate])
    have hout := changeState_out s.env i .resting none s.plant rfl
    rw [hstate] at hout
    exact ⟨_, by rw [exec_holdTimer hrun, hexpired], honly, hout, changeState_sameJourney .., changeState_restsIn _ _ _ rfl,
      changeState_rest_posted rfl (.inl hstate)⟩
  · rw [exec_holdTimer hrun]
    simp [holdExpired, hstate]
  · have hexpired : releaseExpired s.env i s.plant =
        changeState s.env i .faulted none (registerFault s.env i .releaseTimeout s.plant) := by
      simp [releaseExpired, hstate, htimer, endJog_of_none _ _ _ _ hjog]
    have hrec := registerFault_record s.env i s.plant .releaseTimeout
    have hout := changeState_out s.env i .faulted none (registerFault s.env i .releaseTimeout s.plant) rfl
    rw [registerFault_out_first _ _ _ hfault, hrec] at hout
    simp only [hstate] at hout
    have hjourney := faulted_journey (env := s.env) (i := i) (p := s.plant) .releaseTimeout
    rw [faultWith_first _ _ hfault] at hjourney
    exact ⟨_, by rw [exec_releaseTimer hrun, hexpired], faulted_onlySpan _ (by simp [hstate]) (by simp [hstate]), hout,
      faulted_rests _, hjourney⟩
  · rw [exec_releaseTimer hrun]
    simp [releaseExpired, hstate]
  · have hfound := periodFound_span (env := s.env) (i := i) (p := s.plant)
    rw [measuredFrom] at hfound
    have hstarting : ((periodFound s.env i s.plant).span i).state = .starting := by rw [hfound]; exact hstate
    have hstep := spanStep_starting (env := s.env) hstarting
    rw [periodFound_handshake] at hstep
    have hformed := periodFormed_span (env := s.env) (i := i) (p := spanStep s.env i (periodFound s.env i s.plant))
    rw [formedFrom] at hformed
    have hnext := changeState_span s.env i .moving none (periodFound s.env i s.plant)
    refine ⟨_, exec_spanPeriod hrun (by simp [hstate]) hraised, fun j hj => ?_, ?_⟩
    · rw [periodDone, periodFormed_span_ne hj, hstep]
      split
      · rw [changeState_span_ne _ _ _ _ _ hj, periodFound_span_ne hj]
      · exact periodFound_span_ne hj
    rw [periodDone, hformed]
    by_cases hover : handshake s.env i s.plant = true
    · rw [if_pos hover] at hstep
      rw [hstep, hnext, hfound]
      refine ⟨rfl, rfl, rfl, rfl, fun _ _ => ⟨rfl, rfl, rfl⟩, fun hnot => ?_⟩
      obtain ⟨⟨a, ha, hvalid⟩, hall⟩ := handshake_iff.1 hover
      rcases hnot with hnone | ⟨b, hb, hbvalid, r, hr, hbad⟩
      · exact absurd ((hnone a ha).symm.trans hvalid) (by decide)
      · obtain ⟨r', hr', hready, hreleased⟩ := hall b hb hbvalid
        obtain rfl := Option.some.inj (hr.symm.trans hr')
        rw [hready, hreleased] at hbad
        exact absurd hbad (by decide)
    · rw [if_neg hover] at hstep
      rw [hstep, hfound]
      exact ⟨rfl, rfl, rfl, rfl, fun hsome hall => absurd (handshake_iff.2 ⟨hsome, hall⟩) hover, fun _ => ⟨hstate, rfl⟩⟩

/-! ### Brake tests (R120 to R124) -/

section
variable {env : Env} {i : Slot} {p : Plant}

/-- The largest of some creeps is among them and none is larger. -/
theorem largestCreep_foldl (cs : List (Nat × Nat)) (best : Option (Nat × Nat)) (n : Nat) :
    (∃ c, cs.foldl (fun best c => match best with
      | none => some c
      | some b => if b.1 < c.1 then some c else some b) best = some c ∧ n < c.1) ↔
      (∃ b, best = some b ∧ n < b.1) ∨ ∃ c ∈ cs, n < c.1 := by
  induction cs generalizing best with
  | nil => simp
  | cons c cs ih =>
    rw [List.foldl_cons, ih]
    cases best with
    | none => simp
    | some b =>
      simp only [Option.some.injEq, exists_eq_left', List.mem_cons, exists_eq_or_imp]
      split
      · simp only [Option.some.injEq, exists_eq_left']
        constructor
        · rintro (h | h)
          · exact .inr (.inl h)
          · exact .inr (.inr h)
        · rintro (h | h | h)
          · exact .inl (by omega)
          · exact .inl h
          · exact .inr h
      · simp only [Option.some.injEq, exists_eq_left']
        constructor
        · rintro (h | h)
          · exact .inl h
          · exact .inr (.inr h)
        · rintro (h | h | h)
          · exact .inl h
          · exact .inl (by omega)
          · exact .inr h

theorem largestCreep_above (cs : List (Nat × Nat)) (n : Nat) :
    (∃ c, largestCreep cs = some c ∧ n < c.1) ↔ ∃ c ∈ cs, n < c.1 := by
  rw [largestCreep]
  exact (largestCreep_foldl cs none n).trans (by simp)

/-- The end of phase HOLD by the judgement of the bogies (R121). -/
theorem holdEnd_passed {t : TestRecord} (hvalid : p.allValid env i = true)
    (hcreep : ∀ a ∈ p.bogies i, (t.creepOf a).1 ≤ (env.span i).creepLimit) :
    holdEnd env i t p = passTest env i (largestCreep ((p.bogies i).map t.creepOf)) p := by
  have hnone : ¬ ∃ c, largestCreep ((p.bogies i).map t.creepOf) = some c ∧ (env.span i).creepLimit < c.1 := by
    rw [largestCreep_above]
    rintro ⟨c, hc, hlt⟩
    obtain ⟨a, ha, rfl⟩ := List.mem_map.1 hc
    exact absurd (hcreep a ha) (by omega)
  cases hc : largestCreep ((p.bogies i).map t.creepOf) with
  | none => simp [holdEnd, hvalid, hc]
  | some c =>
    have hlow : ¬ (env.span i).creepLimit < c.1 := fun h => hnone ⟨c, hc, h⟩
    simp [holdEnd, hvalid, hc, hlow]

theorem holdEnd_failed {t : TestRecord} (hvalid : p.allValid env i = true)
    (hcreep : ∃ a ∈ p.bogies i, (env.span i).creepLimit < (t.creepOf a).1) :
    holdEnd env i t p = failTest env i (largestCreep ((p.bogies i).map t.creepOf)) p := by
  obtain ⟨a, ha, hlt⟩ := hcreep
  obtain ⟨c, hc, hover⟩ := (largestCreep_above ((p.bogies i).map t.creepOf) _).2 ⟨_, List.mem_map_of_mem ha, hlt⟩
  simp [holdEnd, hvalid, hc, hover]

/-- The judgement of a period in phase HOLD (R121). -/
theorem holdPeriod_invalid {t : TestRecord} (h : p.allValid env i = false) :
    holdPeriod env i t p = enterEnd env i .resting (abandonTest env i .bogieInvalid p) := by simp [holdPeriod, h]

theorem holdPeriod_quiet {t : TestRecord} (hvalid : p.allValid env i = true)
    (hcreep : ∀ a ∈ p.bogies i, (t.creepOf a).1 ≤ (env.span i).creepLimit) : holdPeriod env i t p = p := by
  have hfind : ((p.bogies i).map t.creepOf).find? (fun c => decide ((env.span i).creepLimit < c.1)) = none := by
    rw [List.find?_eq_none]
    intro c hc
    obtain ⟨a, ha, rfl⟩ := List.mem_map.1 hc
    simpa using hcreep a ha
  simp [holdPeriod, hvalid, hfind]

theorem holdPeriod_crept {t : TestRecord} (hvalid : p.allValid env i = true)
    (hcreep : ∃ a ∈ p.bogies i, (env.span i).creepLimit < (t.creepOf a).1) :
    ∃ c, holdPeriod env i t p = failTest env i (some c) p := by
  obtain ⟨a, ha, hlt⟩ := hcreep
  have hfind : (((p.bogies i).map t.creepOf).find? (fun c => decide ((env.span i).creepLimit < c.1))).isSome = true := by
    rw [List.find?_isSome]
    exact ⟨_, List.mem_map_of_mem ha, by simpa using hlt⟩
  obtain ⟨c, hc⟩ := Option.isSome_iff_exists.1 hfind
  exact ⟨c, by simp [holdPeriod, hvalid, hc]⟩

/-- A failed test: FAULTED, the cause registered, and the proof state of a FAIL (R124). -/
theorem failTest_faults (creep : Option (Nat × Nat)) (hstate : (p.span i).state = .proving) :
    let q := failTest env i creep p
    onlySpan i p q ∧ restsIn .faulted (q.span i) ∧
      (q.span i).proof = { (p.span i).proof with unproven := true, last := some .fail, run := (q.span i).proof.run } ∧
      (q.span i).fault = some (faultWith env.time .brakeProof (p.span i)) := by
  let u : Plant := (p.setSpan i { p.span i with proof := (p.span i).proof.failed }).report
    (.proof i .fail (p.span i).proof.failed.owed (p.span i).testDir creep none env.time)
  have hu : u.span i = { p.span i with proof := (p.span i).proof.failed } := Plant.span_setSpan ..
  have honly := faulted_onlySpan (env := env) (i := i) (p := u) .brakeProof (by rw [hu, hstate]; decide) (by rw [hu, hstate]; decide)
  have hjourney := faulted_journey (env := env) (i := i) (p := u) .brakeProof
  rw [hu] at hjourney
  refine ⟨onlySpan.of_setSpan honly, faulted_rests _, ?_, ?_⟩
  · exact (congrArg Span.proof hjourney).trans rfl
  · exact congrArg Span.fault hjourney

/-- A passed test of a span that wants no further one: RESTING, with the proof state of a PASS (R123). -/
theorem passTest_rests (creep : Option (Nat × Nat)) (hstate : (p.span i).state = .proving) (hauto : (env.span i).autoProof = false) :
    let q := passTest env i creep p
    onlySpan i p q ∧ restsIn .resting (q.span i) ∧
      (q.span i).proof = { (p.span i).proof with
        owed := max ((p.span i).proof.owed - 1) (-8), unproven := false, relock := false, due := false,
        last := some .pass, nextDir := dirFlip (p.span i).proof.nextDir, run := (q.span i).proof.run } := by
  let u : Plant := (p.setSpan i { p.span i with proof := (p.span i).proof.passed }).report
    (.proof i .pass (p.span i).proof.passed.owed (p.span i).testDir creep none env.time)
  have hu : u.span i = { p.span i with proof := (p.span i).proof.passed } := Plant.span_setSpan ..
  have hpass : passTest env i creep p = changeState env i .resting none u :=
    enterEnd_plain env i .resting u (by rw [hu]; rfl) hauto
  have honly := changeState_onlySpan env i (new := .resting) none u rfl (by rw [hu, hstate]; decide) (by rw [hu, hstate]; decide)
  have hjourney := changeState_sameJourney env i .resting none u
  rw [hu] at hjourney
  rw [hpass]
  exact ⟨onlySpan.of_setSpan honly, changeState_restsIn env i _ rfl, (congrArg Span.proof hjourney).trans rfl⟩

theorem testPeriod_brakeSet {t : TestRecord} (ht : (p.span i).test = some t) (hphase : t.phase = .brakeSet) :
    testPeriod env i p = if brakesSet env i p then beginHold env i t p else p := by
  simp [testPeriod, ht, hphase]

theorem testPeriod_hold {t : TestRecord} (ht : (p.span i).test = some t) (hphase : t.phase = .hold) :
    testPeriod env i p = holdPeriod env i t p := by
  simp [testPeriod, ht, hphase]

theorem brakesSet_iff : brakesSet env i p = true ↔
    ∀ a ∈ p.bogies i, a.isValid env.cfg.dev.stale = true ∧ a.released = false := by
  simp only [brakesSet, Plant.allValid, Bool.and_eq_true, List.all_eq_true, Bool.not_eq_true', ← forall_and]

theorem allValid_iff : p.allValid env i = true ↔ ∀ a ∈ p.bogies i, a.isValid env.cfg.dev.stale = true := by
  simp [Plant.allValid]

theorem beginHold_span (t : TestRecord) : (beginHold env i t p).span i = { p.span i with
    test := some { t with phase := .hold, timer := (env.span i).proofHold * 1000,
                          starts := (p.bogies i).map (fun a => (a.addr, a.lastPos)) },
    posted := ((beginHold env i t p).span i).posted } := by
  rw [beginHold, postSet_span]
  simp

/-! ### Lock operations (R126, R127) -/

theorem lockTimeout_ends (hstate : (p.span i).state = .locking ∨ (p.span i).state = .unlocking)
    (hlock : (p.span i).lock.isSome = true) :
    lockTimeout env i p = changeState env i .faulted none (registerFault env i .lockTimeout p) := by
  rcases hstate with h | h <;> simp [lockTimeout, h, hlock]

/-- Leaving a lock operation for a state that is not energised removes the lock command unsent (R110). -/
theorem changeState_unlocks {new : SpanState} {rec : Option StopRecord} (h : new.energised = false)
    (hstate : (p.span i).state = .locking ∨ (p.span i).state = .unlocking) :
    (changeState env i new rec p).link.params = p.link.params.filter (fun e => !e.isLockOf i) := by
  obtain ⟨q, hq, hlink, -⟩ := changeState_before_post env i new rec p
  have hsame : (changeState env i new rec p).link = q.link := by
    rcases hq with hq | hq <;> rw [hq]
    exact postSet_link ..
  have hlocks : ((p.span i).state == .locking || (p.span i).state == .unlocking) = true := by
    rcases hstate with h | h <;> simp [h]
  rw [hsame, hlink, h, hlocks]
  rfl

/-- The reply of the lock unit counts once the command is sent and answered without FAULT (R126). -/
theorem lockReply_counts {l : LockRecord} {a : AddrRec} {r : LastReply} (hl : (p.span i).lock = some l) (ha : p.lockUnit i = some a)
    (hsent : l.sent = true) (hreplied : l.replied = true) (hr : a.last = some r) (hfault : r.fault = false) :
    lockReply i p = some r := by
  simp [lockReply, hl, ha, hsent, hreplied, hr, Option.filter, hfault]

theorem lockReply_some {l : LockRecord} {a : AddrRec} {r : LastReply} (hl : (p.span i).lock = some l) (ha : p.lockUnit i = some a)
    (h : lockReply i p = some r) : l.sent = true ∧ l.replied = true ∧ a.last = some r ∧ r.fault = false := by
  simp only [lockReply, hl, ha] at h
  split at h
  · rename_i hboth
    obtain ⟨hsent, hreplied⟩ := Bool.and_eq_true_iff.1 hboth
    obtain ⟨hr, hfault⟩ := Option.filter_eq_some_iff.1 h
    exact ⟨hsent, hreplied, hr, by simpa using hfault⟩
  · cases h

/-- Whether the pins of a span are where its lock operation takes them. -/
def pinsArrived (st : SpanState) (r : LastReply) : Bool := if st = .locking then r.ready else r.released

/-- The period of a lock operation whose reply counts and reports the pins arrived, and of any other. -/
theorem lockOperation_arrives {r : LastReply} (h : lockReply i p = some r) :
    ((p.span i).state = .locking → r.ready = true → spanStep env i p = changeState env i .locked none p) ∧
    ((p.span i).state = .unlocking → r.released = true → spanStep env i p = enterEnd env i .resting
      (p.setSpan i { p.span i with proof := { (p.span i).proof with relock := true } })) := by
  constructor
  · intro hstate hready
    rw [spanStep_locking hstate]
    simp [lockingPeriod, h, hready]
  · intro hstate hreleased
    rw [spanStep_unlocking hstate]
    simp [unlockingPeriod, h, hreleased]

theorem lockOperation_waits (hstate : (p.span i).state = .locking ∨ (p.span i).state = .unlocking)
    (h : ∀ r, lockReply i p = some r → pinsArrived (p.span i).state r = false) : spanStep env i p = p := by
  rcases hstate with hs | hs
  · rw [spanStep_locking hs]
    cases hreply : lockReply i p with
    | none => simp [lockingPeriod, hreply]
    | some r =>
      have hpins := h r hreply
      simp only [pinsArrived, hs, if_true] at hpins
      simp [lockingPeriod, hreply, hpins]
  · rw [spanStep_unlocking hs]
    cases hreply : lockReply i p with
    | none => simp [unlockingPeriod, hreply]
    | some r =>
      have hpins := h r hreply
      simp only [pinsArrived, hs, reduceCtorEq, if_false] at hpins
      simp [unlockingPeriod, hreply, hpins]

end

section
variable {s : State} {i : Slot} (hrun : s.resetPin = false)
include hrun

theorem exec_brakeSetPhase : exec (.brakeSetPhaseExpiry i) s = .next (settle { s with plant := brakeSetExpired s.env i s.plant }) :=
  runEvent_running hrun _

theorem exec_holdPhase : exec (.holdPhaseExpiry i) s = .next (settle { s with plant := holdPhaseExpired s.env i s.plant }) :=
  runEvent_running hrun _

theorem exec_lockTimer : exec (.lockTimerExpiry i) s = .next (settle { s with plant := lockTimeout s.env i s.plant }) :=
  runEvent_running hrun _

end

/-- What a period of PROVING leaves, by the phase and the judgement of the bogies (R120, R121). -/
theorem testPeriod_done {env : Env} {i : Slot} {p : Plant} {t : TestRecord} (hstate : (p.span i).state = .proving)
    (ht : (p.span i).test = some t) (htest : (p.span i).proof.due = false ∧ (env.span i).autoProof = false) :
    let b := (periodDone env i p).span i
    (t.phase = .brakeSet →
      ((∀ a ∈ p.bogies i, a.isValid env.cfg.dev.stale = true ∧ a.released = false) →
        b.state = .proving ∧ b.setpointMode = some .proof ∧
        b.test = some { t with phase := .hold, timer := (env.span i).proofHold * 1000,
                               starts := (p.bogies i).map (fun a => (a.addr, a.lastPos)) }) ∧
      ((∃ a ∈ p.bogies i, a.isValid env.cfg.dev.stale = false ∨ a.released = true) → b.state = .proving ∧ b.test = some t)) ∧
    (t.phase = .hold →
      ((∃ a ∈ p.bogies i, a.isValid env.cfg.dev.stale = false) → restsIn .resting b ∧
        b.proof = { (p.span i).proof with last := some .abandoned, run := b.proof.run }) ∧
      ((∀ a ∈ p.bogies i, a.isValid env.cfg.dev.stale = true) →
        ((∀ a ∈ p.bogies i, (t.creepOf a).1 ≤ (env.span i).creepLimit) → b.state = .proving ∧ b.test = some t) ∧
        ((∃ a ∈ p.bogies i, (env.span i).creepLimit < (t.creepOf a).1) → restsIn .faulted b ∧
          b.faultHas .brakeProof = true ∧
          b.proof = { (p.span i).proof with unproven := true, last := some .fail, run := b.proof.run }))) := by
  intro b
  have hfound := periodFound_span (env := env) (i := i) (p := p)
  rw [measuredFrom] at hfound
  have hstate' : ((periodFound env i p).span i).state = .proving := by rw [hfound]; exact hstate
  have ht' : ((periodFound env i p).span i).test = some t := by rw [hfound]; exact ht
  have hproof' : ((periodFound env i p).span i).proof = (p.span i).proof := by rw [hfound]
  have hmem : ∀ {P : AddrRec → Prop}, (∀ a v, P { a with valid := v } ↔ P a) →
      ((∀ a ∈ (periodFound env i p).bogies i, P a) ↔ ∀ a ∈ p.bogies i, P a) := by
    intro P hP
    rw [periodFound_bogies]
    simp [hP]
  have hquiet := hmem (P := fun a => (t.creepOf a).1 ≤ (env.span i).creepLimit) fun _ _ => .rfl
  have hstep := spanStep_proving (env := env) hstate'
  have hb : formedFrom ((spanStep env i (periodFound env i p)).span i) b := periodFormed_span
  refine ⟨fun hphase => ⟨fun hset => ?_, fun hnot => ?_⟩, fun hphase => ⟨fun hinvalid => ?_, fun hvalid => ⟨fun hcreep => ?_, fun hcreep => ?_⟩⟩⟩
  · rw [testPeriod_brakeSet ht' hphase, periodFound_brakesSet, if_pos (brakesSet_iff.2 hset)] at hstep
    rw [formedFrom, hstep, beginHold_span, hfound, periodFound_bogies, List.map_map] at hb
    rw [hb]
    refine ⟨hstate, ?_, rfl⟩
    simp [Span.setpointMode, hstate]
  · have hbrakes : ¬ brakesSet env i p = true := by
      rw [brakesSet_iff]
      rintro hall
      obtain ⟨a, ha, hbad⟩ := hnot
      obtain ⟨hv, hr⟩ := hall a ha
      rw [hv, hr] at hbad
      exact absurd hbad (by decide)
    rw [testPeriod_brakeSet ht' hphase, periodFound_brakesSet, if_neg hbrakes] at hstep
    rw [formedFrom, hstep] at hb
    rw [hb]
    exact ⟨hstate', ht'⟩
  · have hnotAll : p.allValid env i = false := by
      rw [← Bool.not_eq_true, allValid_iff]
      rintro hall
      obtain ⟨a, ha, hbad⟩ := hinvalid
      exact absurd ((hall a ha).symm.trans hbad) (by decide)
    rw [testPeriod_hold ht' hphase, holdPeriod_invalid (by rw [periodFound_allValid]; exact hnotAll),
      enterEnd_plain _ _ _ _ (by rw [abandonTest_span]; exact hproof' ▸ htest.1) htest.2] at hstep
    obtain ⟨-, -, hproof, -, hrest⟩ := abandoned_rests (env := env) .bogieInvalid hstate'
    rw [← hproof']
    rw [hstep] at hb
    refine ⟨restsIn.formed hb hrest, ?_⟩
    have hkept := congrArg Span.proof hb
    exact hkept.trans (hproof.trans (by rw [hkept]; rfl))
  · rw [testPeriod_hold ht' hphase, holdPeriod_quiet (by rw [periodFound_allValid]; exact allValid_iff.2 hvalid) (hquiet.2 hcreep)] at hstep
    rw [formedFrom, hstep] at hb
    rw [hb]
    exact ⟨hstate', ht'⟩
  · obtain ⟨a, ha, hlt⟩ := hcreep
    obtain ⟨c, hfail⟩ := holdPeriod_crept (env := env) (i := i) (p := periodFound env i p) (t := t)
      (by rw [periodFound_allValid]; exact allValid_iff.2 hvalid)
      ⟨_, by rw [periodFound_bogies]; exact List.mem_map_of_mem ha, by exact hlt⟩
    rw [testPeriod_hold ht' hphase, hfail] at hstep
    obtain ⟨-, hrest, hproof, hfault⟩ := failTest_faults (env := env) (some c) hstate'
    rw [← hproof']
    rw [hstep] at hb
    have hkept := congrArg Span.proof hb
    refine ⟨restsIn.formed hb hrest, ?_, hkept.trans (hproof.trans (by rw [hkept]))⟩
    have hrecord : b.fault = some (faultWith env.time .brakeProof ((periodFound env i p).span i)) := (congrArg Span.fault hb).trans hfault
    have hhas := faultHas_faultWith env.time .brakeProof .brakeProof ((periodFound env i p).span i)
    simp only [Span.faultHas, hrecord] at hhas ⊢
    rw [hhas]
    simp

/-- What a period of a lock operation leaves, by the reply of the lock unit (R126, R127). -/
theorem lockPeriod_done {env : Env} {i : Slot} {p : Plant} {l : LockRecord} {a : AddrRec}
    (hstate : (p.span i).state = .locking ∨ (p.span i).state = .unlocking)
    (htest : (p.span i).proof.due = false ∧ (env.span i).autoProof = false)
    (hl : (p.span i).lock = some l) (ha : p.lockUnit i = some a) :
    let b := (periodDone env i p).span i
    (∀ r, l.sent = true → l.replied = true → a.last = some r → r.fault = false →
      ((p.span i).state = .locking → r.ready = true → restsIn .locked b ∧ b.proof.relock = (p.span i).proof.relock) ∧
      ((p.span i).state = .unlocking → r.released = true → restsIn .resting b ∧ b.proof.relock = true)) ∧
    (l.sent = false ∨ l.replied = false ∨
        (∀ r, a.last = some r → r.fault = true ∨ (if (p.span i).state = .locking then r.ready else r.released) = false) →
      b.state = (p.span i).state ∧ b.lock = some l) := by
  intro b
  have hfound := periodFound_span (env := env) (i := i) (p := p)
  rw [measuredFrom] at hfound
  have hstate' : ((periodFound env i p).span i).state = (p.span i).state := by rw [hfound]
  have hl' : ((periodFound env i p).span i).lock = some l := by rw [hfound]; exact hl
  have ha' : (periodFound env i p).lockUnit i = some a := by rw [periodFound_lockUnit, ha]
  have hproof' : ((periodFound env i p).span i).proof = (p.span i).proof := by rw [hfound]
  have hb : formedFrom ((spanStep env i (periodFound env i p)).span i) b := periodFormed_span
  constructor
  · intro r hsent hreplied hr hfault
    have harrives := lockOperation_arrives (env := env) (lockReply_counts hl' ha' hsent hreplied hr hfault)
    refine ⟨fun hs hready => ?_, fun hs hreleased => ?_⟩
    · rw [harrives.1 (hstate'.trans hs) hready] at hb
      refine ⟨restsIn.formed hb (changeState_restsIn env i _ rfl), ?_⟩
      have hkept := congrArg (fun sp : Span => sp.proof.relock) (changeState_sameJourney env i .locked none (periodFound env i p))
      exact (congrArg (fun sp : Span => sp.proof.relock) hb).trans (hkept.trans (by rw [hproof']))
    · let u := (periodFound env i p).setSpan i { (periodFound env i p).span i with
        proof := { ((periodFound env i p).span i).proof with relock := true } }
      have hu : u.span i = _ := Plant.span_setSpan ..
      have hplain : enterEnd env i .resting u = changeState env i .resting none u :=
        enterEnd_plain env i .resting u (by rw [hu, hproof']; exact htest.1) htest.2
      rw [harrives.2 (hstate'.trans hs) hreleased, hplain] at hb
      refine ⟨restsIn.formed hb (changeState_restsIn env i _ rfl), ?_⟩
      have hkept := congrArg (fun sp : Span => sp.proof.relock) (changeState_sameJourney env i .resting none u)
      exact (congrArg (fun sp : Span => sp.proof.relock) hb).trans (hkept.trans (by rw [hu]))
  · intro hnot
    have hstep : spanStep env i (periodFound env i p) = periodFound env i p := by
      refine lockOperation_waits (by rw [hstate']; exact hstate) fun r hr => ?_
      obtain ⟨hsent, hreplied, hlast, hfault⟩ := lockReply_some hl' ha' hr
      rw [hsent, hreplied] at hnot
      rw [hstate']
      rcases hnot with h | h | h
      · cases h
      · cases h
      · rcases h r hlast with h | h
        · rw [hfault] at h; cases h
        · exact h
    rw [formedFrom, hstep] at hb
    rw [hb]
    exact ⟨hstate', hl'⟩

/-- Settles O45: the expiries of the two phases and of the lock timer, and the periods of a test and of a lock operation. -/
theorem testAndLockTimersExpire : Obligations.TestAndLockTimersExpire := by
  unfold Obligations.TestAndLockTimersExpire
  intro s i hrun
  refine ⟨fun t hstate ht hphase htest => ?_, fun t hstate ht hphase hvalid => ⟨fun hcreep hauto => ?_, fun hcreep hfault => ?_⟩,
    fun hstate hlock hfault => ?_, fun hstate => ⟨?_, ?_⟩, fun hlocking hunlocking => ?_, fun t hstate ht hraised htest => ?_,
    fun l a hstate hraised htest hl ha => ?_⟩
  · have hexpired : brakeSetExpired s.env i s.plant =
        changeState s.env i .resting none (abandonTest s.env i .brakesNotSet s.plant) := by
      simp only [brakeSetExpired, hstate, ht, hphase]
      exact enterEnd_plain _ _ _ _ (by rw [abandonTest_span]; exact htest.1) htest.2
    obtain ⟨honly, hout, hproof, -, hrest⟩ := abandoned_rests (env := s.env) .brakesNotSet hstate
    simp only [Span.testDir, ht] at hout
    exact ⟨_, by rw [exec_brakeSetPhase hrun, hexpired], honly, hrest, hproof, hout⟩
  · have hexpired : holdPhaseExpired s.env i s.plant = holdEnd s.env i t s.plant := by
      simp only [holdPhaseExpired, hstate, ht, hphase]
    rw [holdEnd_passed (allValid_iff.2 hvalid) hcreep] at hexpired
    exact ⟨_, by rw [exec_holdPhase hrun, hexpired], passTest_rests _ hstate hauto⟩
  · have hexpired : holdPhaseExpired s.env i s.plant = holdEnd s.env i t s.plant := by
      simp only [holdPhaseExpired, hstate, ht, hphase]
    rw [holdEnd_failed (allValid_iff.2 hvalid) hcreep] at hexpired
    obtain ⟨honly, hrest, hproof, hrecord⟩ := failTest_faults (env := s.env)
      (largestCreep ((s.plant.bogies i).map t.creepOf)) hstate
    exact ⟨_, by rw [exec_holdPhase hrun, hexpired], honly, hrest, hproof, hrecord.trans (by rw [faultWith_first _ _ hfault]; rfl)⟩
  · have hrec := registerFault_record s.env i s.plant .lockTimeout
    have hjourney := faulted_journey (env := s.env) (i := i) (p := s.plant) .lockTimeout
    rw [faultWith_first _ _ hfault] at hjourney
    have hparams := changeState_unlocks (env := s.env) (i := i) (p := registerFault s.env i .lockTimeout s.plant) (new := .faulted)
      (rec := none) rfl (by rw [hrec]; exact hstate)
    rw [registerFault_link] at hparams
    have hrelock := congrArg (fun sp : Span => sp.proof.relock) hjourney
    exact ⟨_, by rw [exec_lockTimer hrun, lockTimeout_ends hstate hlock], by simp,
      fun j hj => (changeState_span_ne _ _ _ _ _ hj).trans (registerFault_span_ne _ hj _ _), faulted_rests _, hparams,
      hrelock, congrArg Span.fault hjourney⟩
  · rw [exec_brakeSetPhase hrun]
    simp [brakeSetExpired, hstate]
  · rw [exec_holdPhase hrun]
    simp [holdPhaseExpired, hstate]
  · rw [exec_lockTimer hrun]
    simp [lockTimeout, hlocking, hunlocking]
  · exact ⟨_, exec_spanPeriod hrun (by simp [hstate]) hraised, testPeriod_done hstate ht htest⟩
  · have hconf : (s.plant.span i).state ≠ .unconfigured := by rcases hstate with h | h <;> simp [h]
    exact ⟨_, exec_spanPeriod hrun hconf hraised, lockPeriod_done hstate htest hl ha⟩

end Sys2Proof.Machine
end

