-- ==== Sys2Proof/Proofs/ZoneEvaluation.lean ====
section
/-! PROOFS. The evaluation of a span's entries after x is set outside the generator (R137), and the two places that set it:
the end of a SAFE stop (O43) and CLEAR FAULT (O30). -/

namespace Sys2Proof.Machine
open Safety

/-! ### The evaluation of the entries -/

/-- What an operation makes of every entry, where that does not turn on the report queue. -/
theorem zoneSweep_entries {f : ZoneEntry → ReportQueue → ZoneEntry × ReportQueue} {g : ZoneEntry → ZoneEntry}
    (hf : ∀ z q, (f z q).1 = g z) (zs : List ZoneEntry) (q : ReportQueue) : (zoneSweep f zs q).1 = zs.map g := by
  induction zs generalizing q with
  | nil => rfl
  | cons z zs ih => exact congr (congrArg List.cons (hf z q)) (ih _)

/-- Whether a claim can be granted where a span stands at x: it is FREE and the other span is not inside (R137). -/
def ZoneEntry.grantable (z : ZoneEntry) (d : Side) (x : Int) (mr : Quad (Option Int)) : Bool :=
  z.insideAt d x mr && z.claim == .free && !(z.part (sideOther d)).inside

/-- An entry after its evaluation for a span. -/
def ZoneEntry.evaluated (i : Slot) (sp : Span) (z : ZoneEntry) : ZoneEntry :=
  match z.sideOf i with
  | none => z
  | some d => if z.grantable d sp.x sp.meas.mr then { z.withPart d (z.part d).noWait with claim := sideClaim d } else z

section
variable {env : Env} {i : Slot} {p : Plant}

theorem zoneEvaluate_zones : (zoneEvaluate env i p).zones = p.zones.map (ZoneEntry.evaluated i (p.span i)) := by
  refine zoneSweep_entries (fun z q => ?_) _ _
  cases hside : z.sideOf i with
  | none => simp [zoneEvalTurn, ZoneEntry.evaluated, hside]
  | some d =>
    simp only [zoneEvalTurn, ZoneEntry.evaluated, ZoneEntry.grantable, ZoneEntry.grant, hside, apply_ite Prod.fst]
    rfl

@[simp] theorem zoneEvaluate_span (j : Slot) : (zoneEvaluate env i p).span j = p.span j := rfl
@[simp] theorem zoneEvaluate_link : (zoneEvaluate env i p).link = p.link := rfl

theorem ZoneEntry.withPart_ends (z : ZoneEntry) (d e : Side) (w : ZoneSide) (c : Claim) :
    ({ z.withPart d w with claim := c } : ZoneEntry).sideOf i = z.sideOf i ∧
    ({ z.withPart d w with claim := c } : ZoneEntry).lo e = z.lo e ∧
    ({ z.withPart d w with claim := c } : ZoneEntry).hi e = z.hi e := by
  cases d <;> exact ⟨rfl, rfl, rfl⟩

theorem ZoneEntry.covers_iff {z : ZoneEntry} {d : Side} {v : Int} : z.covers d v = true ↔ z.lo d ≤ v ∧ v ≤ z.hi d := by
  simp [ZoneEntry.covers, inRange]

/-- An interval of a slot that holds x and can be neither held nor granted (R137). -/
def conflictAt (zones : List ZoneEntry) (i : Slot) (x : Int) : Prop :=
  ∃ z ∈ zones, ∃ d, z.sideOf i = some d ∧ z.lo d ≤ x ∧ x ≤ z.hi d ∧
    z.claim ≠ sideClaim d ∧ (z.claim ≠ .free ∨ (z.part (sideOther d)).inside = true)

theorem zoneConflict_iff : zoneConflict i p = true ↔
    ∃ z ∈ p.zones, ∃ d, z.sideOf i = some d ∧ z.covers d (p.span i).x = true ∧ z.claim ≠ sideClaim d := by
  simp only [zoneConflict, List.any_eq_true]
  refine exists_congr fun z => and_congr_right fun _ => ?_
  cases z.sideOf i <;> simp

/-- An entry of a slot, evaluated, is in conflict where its interval holds x and its claim is neither held nor granted. -/
theorem ZoneEntry.evaluated_conflict {z : ZoneEntry} {d : Side} {sp : Span} (hside : z.sideOf i = some d) :
    ((z.evaluated i sp).sideOf i = some d ∧ (z.evaluated i sp).covers d sp.x = true ∧ (z.evaluated i sp).claim ≠ sideClaim d) ↔
    z.lo d ≤ sp.x ∧ sp.x ≤ z.hi d ∧ z.claim ≠ sideClaim d ∧ (z.claim ≠ .free ∨ (z.part (sideOther d)).inside = true) := by
  by_cases hgrant : z.grantable d sp.x sp.meas.mr = true
  · have hw : z.evaluated i sp = { z.withPart d (z.part d).noWait with claim := sideClaim d } := by
      simp [ZoneEntry.evaluated, hside, hgrant]
    simp only [ZoneEntry.grantable, Bool.and_eq_true, beq_iff_eq, Bool.not_eq_true'] at hgrant
    obtain ⟨⟨-, hfree⟩, hother⟩ := hgrant
    simp [hw, hfree, hother]
  · have hw : z.evaluated i sp = z := by simp [ZoneEntry.evaluated, hside, hgrant]
    rw [hw, ZoneEntry.covers_iff]
    constructor
    · rintro ⟨-, ⟨hlo, hhi⟩, hclaim⟩
      refine ⟨hlo, hhi, hclaim, ?_⟩
      refine Classical.byContradiction fun hnot => ?_
      rw [not_or, Classical.not_not, Bool.not_eq_true] at hnot
      exact hgrant (by simp [ZoneEntry.grantable, ZoneEntry.insideAt, ZoneEntry.covers_iff.2 ⟨hlo, hhi⟩, hnot.1, hnot.2])
    · rintro ⟨hlo, hhi, hclaim, -⟩
      exact ⟨hside, ⟨hlo, hhi⟩, hclaim⟩

theorem ZoneEntry.evaluated_sideOf (sp : Span) (z : ZoneEntry) : (z.evaluated i sp).sideOf i = z.sideOf i := by
  unfold ZoneEntry.evaluated
  split
  · rfl
  · split
    · exact (z.withPart_ends _ .a _ _).1
    · rfl

/-- The evaluation finds a conflict where some interval that holds x can be neither held nor granted (R137). -/
theorem zoneConflict_evaluated : zoneConflict i (zoneEvaluate env i p) = true ↔ conflictAt p.zones i (p.span i).x := by
  rw [zoneConflict_iff, zoneEvaluate_zones, conflictAt]
  rw [exists_mem_map]
  simp only [zoneEvaluate_span]
  refine exists_congr fun z => and_congr_right fun _ => exists_congr fun d => ?_
  by_cases hside : z.sideOf i = some d
  · rw [ZoneEntry.evaluated_conflict hside]
    exact (and_iff_right hside).symm
  · rw [ZoneEntry.evaluated_sideOf]
    simp [hside]

theorem not_conflictAt {zones : List ZoneEntry} {x : Int} (h : ∀ z ∈ zones, ∀ d, z.sideOf i = some d → z.lo d ≤ x → x ≤ z.hi d →
    z.claim = sideClaim d ∨ (z.claim = .free ∧ (z.part (sideOther d)).inside = false)) : ¬ conflictAt zones i x := by
  rintro ⟨z, hz, d, hside, hlo, hhi, hclaim, hbar⟩
  rcases h z hz d hside hlo hhi with hheld | ⟨hfree, hother⟩
  · exact hclaim hheld
  · rw [hfree, hother] at hbar
    exact absurd hbar (by decide)

/-! ### x set from the measured position -/

/-- x from the measured position, clamped to the envelope, or x as it was where none was formed (R20, R33). -/
def Span.rePlaced (sc : SpanConfig) (sp : Span) : Int :=
  match sp.meas.m with
  | some m => max sc.xmin (min sc.xmax m)
  | none => sp.x

/-- A span faulted for ZONE_CONFLICT. -/
theorem zoneConflict_faults (hlocking : (p.span i).state ≠ .locking) (hunlocking : (p.span i).state ≠ .unlocking) :
    let q := changeState env i .faulted none (registerFault env i .zoneConflict (zoneEvaluate env i p))
    q.link = p.link ∧ (∀ j : Slot, j ≠ i → q.span j = p.span j) ∧ restsIn .faulted (q.span i) ∧
      sameJourney { p.span i with fault := some (faultWith env.time .zoneConflict (p.span i)) } (q.span i) := by
  obtain ⟨-, hlink, hne⟩ := faulted_onlySpan (env := env) (i := i) (p := zoneEvaluate env i p) .zoneConflict hlocking hunlocking
  exact ⟨hlink, hne, faulted_rests _, faulted_journey _⟩

/-- What a change of state keeps of the reference, the plan and the fault record. -/
theorem sameJourney.reference {a b : Span} (h : sameJourney a b) :
    b.x = a.x ∧ b.r = a.r ∧ b.meas.m = a.meas.m ∧ b.plan = a.plan ∧ b.fault = a.fault := by
  rw [sameJourney] at h
  rw [h]
  exact ⟨rfl, rfl, rfl, rfl, rfl⟩

theorem formedFrom.reference {a b : Span} (h : formedFrom a b) :
    b.x = a.x ∧ b.r = a.r ∧ b.meas.m = a.meas.m ∧ b.plan = a.plan ∧ b.fault = a.fault := by
  rw [formedFrom] at h
  rw [h]
  exact ⟨rfl, rfl, rfl, rfl, rfl⟩

/-- The end of a SAFE stop (R20, R137), for a span to which no test is owed. -/
theorem endSafeStop_ends {rec : StopRecord} (hstate : (p.span i).state = .stopping) (hstop : (p.span i).stop = some rec)
    (htest : (p.span i).proof.due = false ∧ (env.span i).autoProof = false) :
    let q := endSafeStop env i p
    let a : Span := { p.span i with x := (p.span i).rePlaced (env.span i), r := 0 }
    q.link = p.link ∧ (∀ j : Slot, j ≠ i → q.span j = p.span j) ∧
      (¬ conflictAt p.zones i a.x → restsIn (restState rec.endState) (q.span i) ∧ sameJourney a (q.span i)) ∧
      (conflictAt p.zones i a.x → restsIn .faulted (q.span i) ∧
        sameJourney { a with fault := some (faultWith env.time .zoneConflict a) } (q.span i)) := by
  intro q a
  let u := p.setSpan i a
  have hu : u.span i = a := Plant.span_setSpan ..
  have hne : ∀ j, j ≠ i → u.span j = p.span j := fun j hj => Plant.span_setSpan_ne p hj a
  have hconflict : zoneConflict i (zoneEvaluate env i u) = true ↔ conflictAt p.zones i a.x := by
    rw [zoneConflict_evaluated, hu]
    exact .rfl
  have hq : q = if zoneConflict i (zoneEvaluate env i u) then enterEnd env i .faulted (registerFault env i .zoneConflict (zoneEvaluate env i u))
      else enterEnd env i (endAtRest rec.endState) (zoneEvaluate env i u) := by
    rw [show endAtRest rec.endState = (match (p.span i).stop with | some r => endAtRest r.endState | none => .resting) by rw [hstop]]
    rfl
  by_cases h : conflictAt p.zones i a.x
  · rw [if_pos (hconflict.2 h), enterEnd_faulted] at hq
    obtain ⟨hlink, hothers, hrest, hjourney⟩ := zoneConflict_faults (env := env) (i := i) (p := u)
      (by rw [hu]; exact fun hs => by rw [show (p.span i).state = _ from hs] at hstate; cases hstate)
      (by rw [hu]; exact fun hs => by rw [show (p.span i).state = _ from hs] at hstate; cases hstate)
    rw [hu] at hjourney
    rw [hq]
    exact ⟨hlink, fun j hj => (hothers j hj).trans (hne j hj), fun hnot => absurd h hnot, fun _ => ⟨hrest, hjourney⟩⟩
  · rw [if_neg (fun hc => h (hconflict.1 hc)),
      enterEnd_plain _ _ _ _ (by rw [zoneEvaluate_span, hu]; exact htest.1) htest.2, endSpanState_endAtRest] at hq
    have hstate' : ((zoneEvaluate env i u).span i).state = .stopping := by rw [zoneEvaluate_span, hu]; exact hstate
    obtain ⟨-, hlink, hothers⟩ := changeState_onlySpan env i none (zoneEvaluate env i u) (restState_not_energised rec.endState)
      (by rw [hstate']; decide) (by rw [hstate']; decide)
    have hjourney := changeState_sameJourney env i (restState rec.endState) none (zoneEvaluate env i u)
    rw [zoneEvaluate_span, hu] at hjourney
    rw [hq]
    exact ⟨hlink, fun j hj => (hothers j hj).trans (hne j hj),
      fun _ => ⟨changeState_restsIn env i _ (restState_atRest _), hjourney⟩, fun hc => absurd hc h⟩

/-! ### The safe stop timer and the period of a SAFE stop -/

theorem spanStep_safe {rec : StopRecord} (hstate : (p.span i).state = .stopping) (hstop : (p.span i).stop = some rec)
    (hsafe : rec.kind = .safe) : spanStep env i p = if halted env i p then endSafeStop env i p else p := by
  simp [spanStep, hstate, hstop, StopRecord.isSafe, hsafe]

theorem halted_iff : halted env i p = true ↔
    ∀ a ∈ p.bogies i, a.isValid env.cfg.dev.stale = true → ∀ r, a.last = some r → r.speed = 0 := by
  simp only [halted, List.all_eq_true]
  refine forall₂_congr fun a _ => ?_
  cases a.isValid env.cfg.dev.stale <;> cases a.last <;> simp

/-- A period of a SAFE stop (R20): it stands while a valid bogie moves, and ends once none does. -/
theorem safeStop_period {rec : StopRecord} (hstate : (p.span i).state = .stopping) (hstop : (p.span i).stop = some rec)
    (hsafe : rec.kind = .safe) (htest : (p.span i).proof.due = false ∧ (env.span i).autoProof = false) :
    let q := periodDone env i p
    let b := q.span i
    (∀ j : Slot, j ≠ i → q.span j = p.span j) ∧ b.plan = (p.span i).plan ∧
      (halted env i p = false → b.state = .stopping ∧ b.stop = some rec ∧ b.x = (p.span i).x ∧ b.safeT = (p.span i).safeT) ∧
      (halted env i p = true →
        b.x = (match b.meas.m with | some m => max (env.span i).xmin (min (env.span i).xmax m) | none => (p.span i).x) ∧ b.r = 0 ∧
        (¬ conflictAt p.zones i b.x → restsIn (restState rec.endState) b) ∧
        (conflictAt p.zones i b.x → restsIn .faulted b ∧ b.faultHas .zoneConflict = true)) := by
  intro q b
  have hfound := periodFound_span (env := env) (i := i) (p := p)
  rw [measuredFrom] at hfound
  have hstate' : ((periodFound env i p).span i).state = .stopping := by rw [hfound]; exact hstate
  have hstop' : ((periodFound env i p).span i).stop = some rec := by rw [hfound]; exact hstop
  have hplan' : ((periodFound env i p).span i).plan = (p.span i).plan := by rw [hfound]
  have hx' : ((periodFound env i p).span i).x = (p.span i).x := by rw [hfound]
  have hsafeT' : ((periodFound env i p).span i).safeT = (p.span i).safeT := by rw [hfound]
  have hproof' : ((periodFound env i p).span i).proof = (p.span i).proof := by rw [hfound]
  have hstep := spanStep_safe (env := env) hstate' hstop' hsafe
  rw [periodFound_halted] at hstep
  have hb : formedFrom ((spanStep env i (periodFound env i p)).span i) b := periodFormed_span
  have hne : ∀ j, j ≠ i → q.span j = (spanStep env i (periodFound env i p)).span j := fun j hj => periodFormed_span_ne hj
  by_cases hhalted : halted env i p = true
  · rw [if_pos hhalted] at hstep
    obtain ⟨-, hothers, hrests, hfaults⟩ := endSafeStop_ends (env := env) hstate' hstop' ⟨by rw [hproof']; exact htest.1, htest.2⟩
    rw [hstep] at hb hne
    rw [periodFound_zones] at hrests hfaults
    have hend : ∃ f, sameJourney { (periodFound env i p).span i with
        x := ((periodFound env i p).span i).rePlaced (env.span i), r := 0, fault := f }
        ((endSafeStop env i (periodFound env i p)).span i) := by
      by_cases h : conflictAt p.zones i (((periodFound env i p).span i).rePlaced (env.span i))
      · exact ⟨_, (hfaults h).2⟩
      · exact ⟨_, (hrests h).2⟩
    obtain ⟨f, hjourney⟩ := hend
    obtain ⟨hjx, hjr, hjm, hjplan, -⟩ := sameJourney.reference hjourney
    obtain ⟨hfx, hfr, hfm, hfplan, hffault⟩ := formedFrom.reference hb
    have hbx : b.x = ((periodFound env i p).span i).rePlaced (env.span i) := hfx.trans hjx
    have hbr : b.r = 0 := hfr.trans hjr
    have hbm : b.meas.m = ((periodFound env i p).span i).meas.m := hfm.trans hjm
    have hbplan : b.plan = (p.span i).plan := hfplan.trans (hjplan.trans hplan')
    refine ⟨fun j hj => (hne j hj).trans ((hothers j hj).trans (periodFound_span_ne hj)), hbplan,
      fun h => absurd (h.symm.trans hhalted) (by decide), fun _ => ⟨?_, hbr, fun h => ?_, fun h => ?_⟩⟩
    · rw [hbx, hbm, Span.rePlaced, hx']
    · rw [hbx] at h
      exact restsIn.formed hb (hrests h).1
    · rw [hbx] at h
      obtain ⟨hrest, hfault⟩ := hfaults h
      refine ⟨restsIn.formed hb hrest, ?_⟩
      have hrecord := hffault.trans (sameJourney.reference hfault).2.2.2.2
      have hhas := faultHas_faultWith env.time .zoneConflict .zoneConflict { (periodFound env i p).span i with
        x := ((periodFound env i p).span i).rePlaced (env.span i), r := 0 }
      simp only [Span.faultHas] at hhas ⊢
      rw [hrecord]
      simpa using hhas
  · rw [if_neg hhalted] at hstep
    rw [hstep] at hb hne
    rw [formedFrom] at hb
    refine ⟨fun j hj => (hne j hj).trans (periodFound_span_ne hj), (congrArg Span.plan hb).trans hplan', fun _ => ?_,
      fun h => absurd h hhalted⟩
    rw [hb]
    exact ⟨hstate', hstop', hx', hsafeT'⟩

end

theorem exec_safeStopTimer {s : State} {i : Slot} (hrun : s.resetPin = false) :
    exec (.safeStopTimerExpiry i) s = .next (settle { s with plant := safeExpired s.env i s.plant }) := runEvent_running hrun _

/-- Settles O43: the two expiries, and the period of a SAFE stop by the speeds its valid bogies report. -/
theorem dwellAndSafeStopTimersExpire : Obligations.DwellAndSafeStopTimersExpire := by
  unfold Obligations.DwellAndSafeStopTimersExpire
  intro s i hrun
  refine ⟨runEvent_running hrun _, fun e x hstate hstop htimer hx hheld htest => ?_, fun hstate => ?_,
    fun e hstate hstop hraised htest => ?_⟩
  · have hexpired : safeExpired s.env i s.plant = endSafeStop s.env i s.plant := by
      simp [safeExpired, Span.inSafeStop, hstate, hstop, htimer]
    obtain ⟨hlink, hne, hrests, -⟩ := endSafeStop_ends (env := s.env) hstate hstop htest
    have hx' : x = (s.plant.span i).rePlaced (s.env.span i) := hx
    rw [← hx'] at hrests
    obtain ⟨hrest, hjourney⟩ := hrests (not_conflictAt fun z hz d hside hlo hhi => .inl (hheld z hz d hside hlo hhi))
    exact ⟨_, by rw [exec_safeStopTimer hrun, hexpired], hlink, hne, hrest, hjourney⟩
  · rw [exec_safeStopTimer hrun]
    simp [safeExpired, Span.inSafeStop, hstate]
  · obtain ⟨hne, hplan, hstands, hends⟩ := safeStop_period (env := s.env) hstate hstop rfl htest
    refine ⟨_, exec_spanPeriod hrun (by simp [hstate]) hraised, hne, hplan, fun hmoving => hstands ?_, fun hstill => ?_⟩
    · rw [← Bool.not_eq_true, halted_iff]
      intro hall
      obtain ⟨a, ha, hvalid, r, hr, hspeed⟩ := hmoving
      exact hspeed (hall a ha hvalid r hr)
    · obtain ⟨hx, hr, hrests, hfaults⟩ := hends (halted_iff.2 hstill)
      exact ⟨hx, hr, fun hheld => hrests (not_conflictAt hheld), hfaults⟩

/-! ### CLEAR FAULT (R32, R33) -/

section
variable {env : Env} {i : Slot} {p : Plant}

theorem Span.railsAll_iff {sc : SpanConfig} {sp : Span} {ok : Rail → Nat → Bool} :
    sp.railsAll sc ok = true ↔ ∀ r : Rail, r.val < sc.rails → ok r (sp.meas.nValid.get r) = true := by
  have hfour : ∀ r : Rail, r ∈ four := by decide
  simp only [Span.railsAll, List.all_eq_true, hfour, true_imp_iff, Bool.or_eq_true, decide_eq_true_eq]
  exact forall_congr' fun r => by rw [← Nat.not_lt, Classical.or_iff_not_imp_left, Classical.not_not]

theorem clearMet_one : clearMet env i p 1 ↔ (p.span i).railsAll (env.span i) (fun _ n => decide (1 ≤ n)) = true := by
  rw [Span.railsAll_iff]
  simp only [decide_eq_true_eq]
  exact .rfl

theorem clearMet_two : clearMet env i p 2 ↔ ((p.span i).faultHas .bogieLoss && (p.span i).belowMinimum env i) = false := by
  rw [Span.belowMinimum, Bool.and_eq_false_imp, Bool.not_eq_false', Span.railsAll_iff]
  simp only [decide_eq_true_eq]
  exact .rfl

theorem clearMet_three : clearMet env i p 3 ↔ ((p.span i).faultHas .zoneConflict && bothInside i p) = false := by
  rw [Bool.and_eq_false_imp, bothInside, List.any_eq_false]
  refine forall_congr' fun _ => forall₂_congr fun z _ => ?_
  cases (z.sideOf i).isSome <;> cases z.sideA.inside <;> cases z.sideB.inside <;> simp

theorem clearMet_four : clearMet env i p 4 ↔ ((p.span i).faultHas .envelope &&
    !inRange (env.span i).xmin (env.span i).xmax ((p.span i).meas.m.getD (p.span i).x)) = false := by
  rw [Bool.and_eq_false_imp, Bool.not_eq_false', inRange, Bool.and_eq_true, decide_eq_true_eq, decide_eq_true_eq]
  exact .rfl

theorem clearMet_five : clearMet env i p 5 ↔ ((p.span i).faultHas .skewStop && (p.span i).skewed (env.span i)) = false ∧
    ((p.span i).faultHas .skewTrip && (p.span i).skewed (env.span i)) = false := by
  rw [Bool.and_eq_false_imp, Bool.and_eq_false_imp, Span.skewed, decide_eq_false_iff_not, Nat.not_lt, ← or_imp]
  exact .rfl

theorem clearMet_all : (∀ n, clearMet env i p n) ↔
    clearMet env i p 1 ∧ clearMet env i p 2 ∧ clearMet env i p 3 ∧ clearMet env i p 4 ∧ clearMet env i p 5 := by
  refine ⟨fun h => ⟨h 1, h 2, h 3, h 4, h 5⟩, fun ⟨h1, h2, h3, h4, h5⟩ n => ?_⟩
  match n with
  | 0 => trivial
  | 1 => exact h1
  | 2 => exact h2
  | 3 => exact h3
  | 4 => exact h4
  | 5 => exact h5
  | _ + 6 => trivial

theorem clearRefusal_one (h : ¬ clearMet env i p 1) : clearRefusal env i p = some .bogieLoss := by
  rw [clearMet_one, Bool.not_eq_true] at h
  simp [clearRefusal, h]

theorem clearRefusal_two (h1 : clearMet env i p 1) (h : ¬ clearMet env i p 2) : clearRefusal env i p = some .bogieLoss := by
  rw [clearMet_one] at h1
  rw [clearMet_two, Bool.not_eq_false] at h
  simp only [clearRefusal, h1, h, Bool.not_true, Bool.false_eq_true, if_false, if_true]

theorem clearRefusal_three (h1 : clearMet env i p 1) (h2 : clearMet env i p 2) (h : ¬ clearMet env i p 3) :
    clearRefusal env i p = some .zoneConflict := by
  rw [clearMet_one] at h1
  rw [clearMet_two] at h2
  rw [clearMet_three, Bool.not_eq_false] at h
  simp only [clearRefusal, h1, h2, h, Bool.not_true, Bool.false_eq_true, if_false, if_true]

theorem clearRefusal_four (h1 : clearMet env i p 1) (h2 : clearMet env i p 2) (h3 : clearMet env i p 3)
    (h : ¬ clearMet env i p 4) : clearRefusal env i p = some .envelope := by
  rw [clearMet_one] at h1
  rw [clearMet_two] at h2
  rw [clearMet_three] at h3
  rw [clearMet_four, Bool.not_eq_false] at h
  simp only [clearRefusal, h1, h2, h3, h, Bool.not_true, Bool.false_eq_true, if_false, if_true]

/-- With the first four conditions met, the skew alone is judged. -/
theorem clearRefusal_skew (h1 : clearMet env i p 1) (h2 : clearMet env i p 2) (h3 : clearMet env i p 3)
    (h4 : clearMet env i p 4) : clearRefusal env i p =
      if ((p.span i).faultHas .skewStop && (p.span i).skewed (env.span i)) = true then some .skewStop
      else if ((p.span i).faultHas .skewTrip && (p.span i).skewed (env.span i)) = true then some .skewTrip else none := by
  rw [clearMet_one] at h1
  rw [clearMet_two] at h2
  rw [clearMet_three] at h3
  rw [clearMet_four] at h4
  simp only [clearRefusal, h1, h2, h3, h4, Bool.not_true, Bool.false_eq_true, if_false]

theorem clearRefusal_five (h1 : clearMet env i p 1) (h2 : clearMet env i p 2) (h3 : clearMet env i p 3)
    (h4 : clearMet env i p 4) (h : ¬ clearMet env i p 5) :
    clearRefusal env i p = some (if (p.span i).faultHas .skewStop = true then .skewStop else .skewTrip) := by
  rw [clearRefusal_skew h1 h2 h3 h4]
  rw [clearMet_five] at h
  cases hskew : (p.span i).skewed (env.span i) with
  | false => simp [hskew] at h
  | true =>
    cases hs : (p.span i).faultHas .skewStop with
    | true => simp
    | false =>
      have ht : (p.span i).faultHas .skewTrip = true := by simpa [hskew, hs] using h
      simp [ht]

/-- CLEAR FAULT is allowed where every condition of its table is met (R32). -/
theorem clearRefusal_none : clearRefusal env i p = none ↔ ∀ n, clearMet env i p n := by
  constructor
  · intro h
    refine Classical.byContradiction fun hnot => ?_
    rw [clearMet_all] at hnot
    by_cases h1 : clearMet env i p 1
    · by_cases h2 : clearMet env i p 2
      · by_cases h3 : clearMet env i p 3
        · by_cases h4 : clearMet env i p 4
          · by_cases h5 : clearMet env i p 5
            · exact hnot ⟨h1, h2, h3, h4, h5⟩
            · rw [clearRefusal_five h1 h2 h3 h4 h5] at h; cases h
          · rw [clearRefusal_four h1 h2 h3 h4] at h; cases h
        · rw [clearRefusal_three h1 h2 h3] at h; cases h
      · rw [clearRefusal_two h1 h2] at h; cases h
    · rw [clearRefusal_one h1] at h; cases h
  · intro h
    obtain ⟨h1, h2, h3, h4, h5⟩ := clearMet_all.1 h
    obtain ⟨hstop, htrip⟩ := clearMet_five.1 h5
    rw [clearRefusal_skew h1 h2 h3 h4, hstop, htrip]
    rfl

/-- An accepted CLEAR FAULT (R33, R137): RESTING, or FAULTED again where an interval it is inside can be neither held nor
granted. -/
theorem clearFault_ends (hstate : (p.span i).state = .faulted) :
    let q := clearFault env i p
    let a : Span := { p.span i with x := (p.span i).rePlaced (env.span i), r := 0, fault := none }
    (¬ conflictAt p.zones i a.x → (a.proof.due = false ∧ (env.span i).autoProof = false) →
      q.link = p.link ∧ (∀ j : Slot, j ≠ i → q.span j = p.span j) ∧ restsIn .resting (q.span i) ∧ sameJourney a (q.span i)) ∧
    (conflictAt p.zones i a.x →
      q.link = p.link ∧ (∀ j : Slot, j ≠ i → q.span j = p.span j) ∧ restsIn .faulted (q.span i) ∧
        ∃ b : Span, sameJourney a b ∧
          sameJourney { b with fault := some (faultWith env.time .zoneConflict b) } (q.span i)) := by
  intro q a
  let u := changeState env i .resting none (p.setSpan i a)
  have hset : ((p.setSpan i a).span i).state = .faulted := by rw [Plant.span_setSpan]; exact hstate
  have honly : onlySpan i p u := onlySpan.of_setSpan (changeState_onlySpan env i (new := .resting) none (p.setSpan i a) rfl
    (by rw [hset]; decide) (by rw [hset]; decide))
  obtain ⟨hzones, hlink, hne⟩ := honly
  have hrest : restsIn .resting (u.span i) := changeState_restsIn env i _ rfl
  have hjourney := changeState_sameJourney env i .resting none (p.setSpan i a)
  rw [Plant.span_setSpan] at hjourney
  have hx : (u.span i).x = a.x := (sameJourney.reference hjourney).1
  have hconflict : zoneConflict i (zoneEvaluate env i u) = true ↔ conflictAt p.zones i a.x := by
    rw [zoneConflict_evaluated, hzones, hx]
  have hq : q = if zoneConflict i (zoneEvaluate env i u)
      then changeState env i .faulted none (registerFault env i .zoneConflict (zoneEvaluate env i u))
      else tryTest env i (zoneEvaluate env i u) := rfl
  refine ⟨fun h htest => ?_, fun h => ?_⟩
  · have hdue : (u.span i).proof.due = false := by
      rw [changeState_span, Plant.span_setSpan]; exact htest.1
    have hnone : tryTest env i (zoneEvaluate env i u) = zoneEvaluate env i u := by
      simp [tryTest, hdue, autoTestWanted, htest.2]
    rw [if_neg (fun hc => h (hconflict.1 hc)), hnone] at hq
    rw [hq]
    exact ⟨hlink, hne, hrest, hjourney⟩
  · rw [if_pos (hconflict.2 h)] at hq
    have hstate' : (u.span i).state = .resting := hrest.1
    obtain ⟨hlink', hne', hfaulted, hjourney'⟩ := zoneConflict_faults (env := env) (i := i) (p := u)
      (by rw [hstate']; decide) (by rw [hstate']; decide)
    rw [hq]
    exact ⟨hlink'.trans hlink, fun j hj => (hne' j hj).trans (hne j hj), hfaulted, _, hjourney, hjourney'⟩

end

section
variable {s : State} {tag slot : Byte} {i : Slot} (hfree : free s)
include hfree

theorem exec_clearFault_refused {why : Reason} (h : doClearFault slot s = refuse s why) :
    exec (.clearFault tag slot) s = .next (refusedWith s 0xA7 tag why) := request_done (r := .clearFault slot) tag hfree h

theorem exec_clearFault_accepted (hslot : slotOf slot = some i) (hmode : s.sup.mode = .ready)
    (hstate : (s.plant.span i).state = .faulted) (h : clearRefusal s.env i s.plant = none) :
    exec (.clearFault tag slot) s = .next (accepted { s with plant := clearFault s.env i s.plant } 0xA7 tag) := by
  have hdone : doClearFault slot s = accept (s.onPlant (fun env p => clearFault env i p)) := by
    rw [doClearFault, inReady_some hslot hmode]
    simp [hstate, h]
  exact request_done (r := .clearFault slot) tag hfree hdone

end

/-- Settles O30: the refusals, the table of conditions, and the clearing with the evaluation behind it. -/
theorem faultClearedToResting : Obligations.FaultClearedToResting := by
  unfold Obligations.FaultClearedToResting
  refine ⟨fun s tag slot hfree => ⟨fun hslot => ?_, fun i hslot => ⟨fun hmode => ?_, fun hmode hstate => ?_⟩⟩,
    fun env i p => ⟨clearRefusal_none, clearRefusal_one, clearRefusal_two, fun h => ?_, fun h => ?_, fun h => ?_⟩,
    fun s tag slot i x hfree hslot hmode hstate => ⟨fun c hc => ?_, fun hnone hx => ?_⟩⟩
  · exact exec_clearFault_refused hfree (inReady_none hslot)
  · exact exec_clearFault_refused hfree (inReady_notReady hslot hmode)
  · refine exec_clearFault_refused hfree ?_
    rw [doClearFault, inReady_some hslot hmode]
    simp [hstate]
  · exact clearRefusal_three (h 1 (by decide)) (h 2 (by decide))
  · exact clearRefusal_four (h 1 (by decide)) (h 2 (by decide)) (h 3 (by decide))
  · exact clearRefusal_five (h 1 (by decide)) (h 2 (by decide)) (h 3 (by decide)) (h 4 (by decide))
  · refine exec_clearFault_refused hfree ?_
    rw [doClearFault, inReady_some hslot hmode]
    simp [hstate, hc]
  · have hx' : x = (s.plant.span i).rePlaced (s.env.span i) := hx
    obtain ⟨hclears, hfaults⟩ := clearFault_ends (env := s.env) hstate
    have hexec := exec_clearFault_accepted (tag := tag) hfree hslot hmode hstate hnone
    refine ⟨fun hgrantable htest => ?_, fun hconflict => ?_⟩
    · obtain ⟨hlink, hne, hrest, hjourney⟩ := hclears (not_conflictAt (by rw [← hx']; exact hgrantable)) htest
      exact ⟨_, hexec, hlink, hne, by rw [hx']; exact hjourney, hrest⟩
    · obtain ⟨hlink, hne, hrest, b, hb, hjourney⟩ := hfaults (by rw [← hx']; exact hconflict)
      obtain ⟨hbx, -, -, hbplan, hbfault⟩ := sameJourney.reference hb
      obtain ⟨hqx, -, -, hqplan, hqfault⟩ := sameJourney.reference hjourney
      have hnofault : b.fault = none := hbfault
      exact ⟨_, hexec, hlink, hne, hrest, hqx.trans (hbx.trans hx'.symm), hqplan.trans hbplan, _, hqfault,
        by rw [faultWith_first _ _ hnofault], by rw [faultWith_first _ _ hnofault]⟩

end Sys2Proof.Machine
end

