-- ==== Sys2Proof/Proofs/PeriodSteps.lean ====
section
/-! PROOFS. What the state machine of a period leaves alone: every other span, the address records, and what the measurement
formed of its own span. -/

namespace Sys2Proof.Machine
open Safety

/-- What a period forms of a span outside its state machine. -/
def Span.formed (sp : Span) : Measures × Option Int × Bool × Bool × Nat × Option Rail × Option Rail × List StopRequest × Nat :=
  (sp.meas, sp.lastM, sp.degraded, sp.skewArmed, sp.skew, sp.leading, sp.lagging, sp.raised, sp.periodT)

/-- An operation of one span that leaves what its period forms, every other span and the address records. -/
structure StepKeeps (i : Slot) (p q : Plant) : Prop where
  others : ∀ j : Slot, j ≠ i → q.span j = p.span j
  formed : (q.span i).formed = (p.span i).formed
  addrs : q.link.addrs = p.link.addrs

namespace StepKeeps

section
variable {i : Slot} {p q u : Plant}

theorem refl (p : Plant) : StepKeeps i p p := ⟨fun _ _ => rfl, rfl, rfl⟩

theorem trans (h : StepKeeps i p q) (k : StepKeeps i q u) : StepKeeps i p u :=
  ⟨fun j hj => (k.others j hj).trans (h.others j hj), k.formed.trans h.formed, k.addrs.trans h.addrs⟩

theorem ite {c : Prop} [Decidable c] (h : StepKeeps i p q) (k : StepKeeps i p u) : StepKeeps i p (if c then q else u) := by
  split
  · exact h
  · exact k

theorem setSpan {sp : Span} (h : sp.formed = (p.span i).formed) : StepKeeps i p (p.setSpan i sp) :=
  ⟨fun _ hj => Plant.span_setSpan_ne p hj sp, by rw [Plant.span_setSpan, h], rfl⟩

theorem report (r : Report) : StepKeeps i p (p.report r) := ⟨fun _ _ => rfl, rfl, rfl⟩

theorem reports (rs : List Report) : StepKeeps i p (p.reports rs) :=
  ⟨fun _ _ => Plant.reports_span .., by rw [Plant.reports_span], by rw [Plant.reports_link]⟩

end

section
variable (env : Env) (i : Slot) (p : Plant)

theorem changeState (new : SpanState) (rec : Option StopRecord) : StepKeeps i p (changeState env i new rec p) :=
  ⟨fun _ hj => changeState_span_ne env i _ _ p hj, by rw [changeState_span]; rfl, changeState_addrs ..⟩

theorem startTest : StepKeeps i p (startTest env i p) := .trans (.setSpan (by rfl)) (.changeState env i _ _ _)

theorem tryTest : StepKeeps i p (tryTest env i p) := .ite (.startTest env i p) (.refl p)

theorem enterEnd (e : EndState) : StepKeeps i p (enterEnd env i e p) :=
  .trans (.changeState env i p _ _) (.tryTest env i _)

theorem registerFault (c : FaultCause) : StepKeeps i p (registerFault env i c p) :=
  ⟨fun _ hj => registerFault_span_ne env hj c p, by rw [registerFault_record]; rfl, by rw [registerFault_link]⟩

theorem registerStop (req : StopRequest) : StepKeeps i p (registerStop env i req p) :=
  ⟨fun _ hj => registerStop_span_ne hj env req p, by rw [registerStop_record]; rfl, by rw [registerStop_link]⟩

theorem brakeSpan : StepKeeps i p (brakeSpan env i p) := ⟨fun _ _ => rfl, rfl, by rw [brakeSpan_link]⟩

theorem brakeIfSafe (req : StopRequest) : StepKeeps i p (brakeIfSafe env i req p) := .ite (.brakeSpan env i p) (.refl p)

theorem endJog (why : JogEnd) : StepKeeps i p (endJog env i why p) := .ite (.report _) (.refl p)

theorem abandonTest (why : AbandonCause) : StepKeeps i p (abandonTest env i why p) := .trans (.setSpan (by rfl)) (.report _)

/-- A stop leaves what a period forms, whatever state it finds. -/
theorem takeStop (req : StopRequest) (why : JogEnd) : StepKeeps i p (takeStop env i req why p) := by
  have hbegun : ∀ q, StepKeeps i q (Machine.registerStop env i req (Machine.brakeIfSafe env i req q)) := fun q =>
    .trans (.brakeIfSafe env i q req) (.registerStop env i _ req)
  unfold Machine.takeStop
  cases (p.span i).state with
  | unconfigured | locking | locked | unlocking => exact .refl p
  | resting =>
    simp only [stopResting]
    split
    · exact .trans (.registerStop env i p req) (.enterEnd env i _ _)
    · exact .refl p
  | starting => exact .trans (.trans (.endJog env i p why) (hbegun _)) (.enterEnd env i _ _)
  | moving =>
    exact .trans (.trans (.endJog env i p why) (hbegun _)) (.ite (.enterEnd env i _ _) (.changeState env i _ _ _))
  | holding =>
    simp only [stopHolding]
    split
    · exact .refl p
    · exact .trans (hbegun p) (.enterEnd env i _ _)
  | stopping =>
    simp only [stopStopping]
    split
    · exact .registerStop env i p req
    · exact .ite (.registerStop env i p req) (.trans (.trans (.registerStop env i p req)
        (.ite (.brakeSpan env i _) (.refl _))) (.changeState env i _ _ _))
  | proving => exact .trans (.trans (.abandonTest env i p _) (hbegun _)) (.enterEnd env i _ _)
  | faulted => exact .registerStop env i p req

/-- The stops still to be taken, taken in order. -/
theorem takeStops (reqs : List StopRequest) :
    StepKeeps i p (reqs.foldl (fun p r => Machine.takeStop env i r .otherStop p) p) := by
  induction reqs generalizing p with
  | nil => exact .refl p
  | cons r rs ih => exact .trans (.takeStop env i p r .otherStop) (ih _)

/-! ### Retirement and the generator -/

theorem reportRetired (segs : List Segment) : StepKeeps i p (reportRetired env i segs p) := .reports _

theorem retired_formed (sp : Span) (segs : List Segment) (endsRun : Bool) : (sp.retired segs endsRun).formed = sp.formed := by
  unfold Span.retired
  split <;> rfl

theorem retireReached (chain gone : List Segment) : StepKeeps i p (retireReached env i chain gone p).1 :=
  .trans (.setSpan (retired_formed _ _ _)) (.reportRetired env i _ _)

theorem endRun (last : Segment) : StepKeeps i p (endRun env i last p) :=
  .ite (.trans (.ite (.refl p) (.trans (.setSpan (by rfl)) (.report _))) (.enterEnd env i _ _)) (.setSpan (by rfl))

theorem startRun : StepKeeps i p (startRun env i p) := by
  have hretire : StepKeeps i p (retireEqual i p) := .setSpan (retired_formed _ _ _)
  simp only [Machine.startRun]
  split
  · exact hretire.trans (.trans (.reportRetired env i _ _) (.endRun env i _ _))
  · exact hretire
  · exact hretire.trans (.setSpan (by rfl))

theorem afterAdvance (chain gone : List Segment) (atStop : Bool) : StepKeeps i p (afterAdvance env i chain gone atStop p) := by
  simp only [Machine.afterAdvance]
  refine .ite (.ite (.takeStop env i p _ _) (.refl p)) ?_
  split
  · exact .trans (.retireReached env i p chain gone) (.endRun env i _ _)
  · exact .retireReached env i p chain gone

theorem travelStep (gone : List Segment) : StepKeeps i p (travelStep env i gone p) := by
  simp only [Machine.travelStep]
  split
  · exact .reportRetired env i p gone
  · exact .trans (.setSpan (by rw [advance_eq]; rfl)) (.afterAdvance env i _ _ _ _)

theorem movingStep : StepKeeps i p (movingStep env i p) :=
  .ite (.refl p) (.ite (.travelStep env i p _)
    (.ite (.trans (.startRun env i p) (.travelStep env i _ _)) (.startRun env i p)))

theorem rampStep (r : StopRecord) : StepKeeps i p (rampStep env i r p) := by
  simp only [Machine.rampStep]
  have hadvance : ∀ u room, StepKeeps i p (p.setSpan i (advance (p.span i) u room).1) := fun u room =>
    .setSpan (by rw [advance_eq]; rfl)
  have hretire : ∀ {q : Plant}, StepKeeps i p q → ∀ c : Bool,
      StepKeeps i p (if c then q else (Machine.retireReached env i (p.span i).run [] q).1) := fun h _ =>
    .ite h (h.trans (.retireReached env i _ _ _))
  exact .ite (.trans (hretire (hadvance _ _) _) (.enterEnd env i _ _)) (hretire (hadvance _ _) _)

/-! ### The other states -/

theorem endSafeStop : StepKeeps i p (endSafeStop env i p) := by
  have heval : StepKeeps i p (zoneEvaluate env i (p.setSpan i { p.span i with
      x := (match (p.span i).meas.m with | some m => (env.span i).clampX m | none => (p.span i).x), r := 0 })) :=
    .trans (q := p.setSpan i _) (.setSpan (by rfl)) ⟨fun _ _ => rfl, rfl, rfl⟩
  simp only [Machine.endSafeStop]
  exact .trans heval (.ite (.trans (.registerFault env i _ _) (.enterEnd env i _ _)) (.enterEnd env i _ _))

theorem failTest (creep : Option (Nat × Nat)) : StepKeeps i p (failTest env i creep p) := by
  simp only [Machine.failTest]
  exact .trans (.trans (.trans (.setSpan (by rfl)) (.report _)) (.registerFault env i _ _)) (.changeState env i _ _ _)

theorem holdPeriod (t : TestRecord) : StepKeeps i p (holdPeriod env i t p) := by
  unfold Machine.holdPeriod
  refine .ite (.trans (.abandonTest env i p _) (.enterEnd env i _ _)) ?_
  split
  · exact .failTest env i p _
  · exact .refl p

theorem beginHold (t : TestRecord) : StepKeeps i p (beginHold env i t p) :=
  ⟨fun _ hj => (postSet_span_ne env hj _).trans (Plant.span_setSpan_ne p hj _), by rw [beginHold_span]; rfl, by simp [Machine.beginHold]⟩

theorem testPeriod : StepKeeps i p (testPeriod env i p) := by
  unfold Machine.testPeriod
  split
  · exact .refl p
  · split
    · exact .ite (.beginHold env i p _) (.refl p)
    · exact .holdPeriod env i p _

theorem lockingPeriod : StepKeeps i p (lockingPeriod env i p) := by
  unfold Machine.lockingPeriod
  split
  · exact .ite (.changeState env i p _ _) (.refl p)
  · exact .refl p

theorem unlockingPeriod : StepKeeps i p (unlockingPeriod env i p) := by
  unfold Machine.unlockingPeriod
  split
  · exact .ite (.trans (.setSpan (by rfl)) (.enterEnd env i _ _)) (.refl p)
  · exact .refl p

/-- The state machine of a period leaves what the period forms, every other span and the address records. -/
theorem spanStep : StepKeeps i p (spanStep env i p) := by
  simp only [Machine.spanStep]
  split
  case h_1 | h_9 | h_11 => exact .refl p
  case h_2 | h_5 => exact .tryTest env i p
  case h_3 => exact .ite (.changeState env i p _ _) (.refl p)
  case h_4 => exact .movingStep env i p
  case h_6 =>
    split
    · exact .refl p
    · split
      · exact .ite (.endSafeStop env i p) (.refl p)
      · exact .rampStep env i p _
  case h_7 => exact .testPeriod env i p
  case h_8 => exact .lockingPeriod env i p
  case h_10 => exact .unlockingPeriod env i p

/-- The stops a period finds are taken before it, and none is left. -/
theorem takeRaised : StepKeeps i (p.setSpan i { p.span i with raised := [] }) (takeRaised env i p) := .takeStops env i _ _

end

end StepKeeps

end Sys2Proof.Machine
end

