-- ==== Sys2Proof/Proofs/Alignment.lean ====
section
/-! PROOFS. What a span period forms (chapter 5): the measurement, the trims, the skew, the commands, the set and the stops of its
checks, each in the terms of the statements, and O37. -/

namespace Sys2Proof.Machine
open Safety

/-! ### The measurement (R77 to R79) -/

theorem foldl_add_int {α : Type} (f : α → Int) (l : List α) (n : Int) :
    l.foldl (fun (n : Int) (a : α) => n + f a) n = n + (l.map f).sum := by
  induction l generalizing n with
  | nil => simp
  | cons a l ih => rw [List.foldl_cons, ih, List.map_cons, List.sum_cons, Int.add_assoc]

theorem railPosition_eq (valid : List AddrRec) : railPosition valid = railMean valid := by
  cases valid with
  | nil => rfl
  | cons a l =>
    have hsum := foldl_add_int (fun a : AddrRec => a.lastPos + a.offset) (a :: l) 0
    rw [Int.zero_add] at hsum
    simp only [railPosition, railMean, List.isEmpty_cons, Bool.false_eq_true, if_false, reduceCtorEq, hsum]

theorem allSome_none {vs : List (Option Int)} (h : none ∈ vs) : allSome vs = none := by
  induction vs with
  | nil => cases h
  | cons v vs ih =>
    cases v with
    | none => rfl
    | some v =>
      have hin : none ∈ vs := by simpa using h
      simp [allSome, ih hin]

theorem allSome_some {vs : List (Option Int)} (h : none ∉ vs) : allSome vs = some (vs.map (fun v => v.getD 0)) := by
  induction vs with
  | nil => rfl
  | cons v vs ih =>
    cases v with
    | none => exact absurd (List.mem_cons_self ..) h
    | some v => simp [allSome, ih (fun hin => h (List.mem_cons_of_mem _ hin))]

/-- The span measured position: none while a rail of the span has none, and otherwise the floor of the mean (R79). -/
theorem spanPosition_none {sc : SpanConfig} {mr : Quad (Option Int)} (h : ∃ r : Rail, r.val < sc.rails ∧ mr.get r = none) :
    spanPosition sc mr = none := by
  obtain ⟨r, hr, hnone⟩ := h
  have hin : none ∈ (railsOf sc).map mr.get := List.mem_map.2 ⟨r, mem_railsOf.2 hr, hnone⟩
  simp [spanPosition, allSome_none hin]

theorem spanPosition_some {sc : SpanConfig} {mr : Quad (Option Int)} (hrails : 0 < sc.rails)
    (h : ∀ r : Rail, r.val < sc.rails → mr.get r ≠ none) : spanPosition sc mr =
      some (((railsOf sc).map (fun r => (mr.get r).getD 0)).sum / ((railsOf sc).length : Int)) := by
  have hin : none ∉ (railsOf sc).map mr.get := by
    intro hnone
    obtain ⟨r, hr, hval⟩ := List.mem_map.1 hnone
    exact h r (mem_railsOf.1 hr) hval
  have hall := allSome_some hin
  rw [List.map_map] at hall
  have hzero : (0 : Rail) ∈ railsOf sc := mem_railsOf.2 hrails
  cases hlist : railsOf sc with
  | nil => rw [hlist] at hzero; cases hzero
  | cons r rs =>
    rw [hlist] at hall
    have hsum : ∀ l : List Int, l.foldl (fun a b => a + b) 0 = l.sum := fun l => by
      have hl := foldl_add_int (fun a : Int => a) l 0
      rwa [Int.zero_add, List.map_id'] at hl
    rw [spanPosition, hlist, hall]
    simp only [List.map_cons, hsum, List.length_cons, List.length_map, Function.comp_apply]
    rfl

section
variable {env : Env} {i : Slot} {p : Plant}

theorem periodFound_measures : ((periodFound env i p).span i).meas.nValid =
      Quad.ofFn (fun r => if decide (r.val < (env.span i).rails) then (p.validRail env i r).length else 0) ∧
    ((periodFound env i p).span i).meas.mr =
      Quad.ofFn (fun r => if decide (r.val < (env.span i).rails) then railPosition (p.validRail env i r) else none) ∧
    ((periodFound env i p).span i).meas.m = spanPosition (env.span i) ((periodFound env i p).span i).meas.mr ∧
    ((periodFound env i p).span i).lastM =
      (if ((periodFound env i p).span i).meas.m = none then (p.span i).lastM else ((periodFound env i p).span i).meas.m) := by
  have hspan : (periodFound env i p).span i = (formPositions env i (p.setSpan i { p.span i with periodT := Config.periodMs })).span i := rfl
  rw [hspan]
  simp only [formPositions, Plant.span_setSpan]
  refine ⟨rfl, rfl, trivial, ?_⟩
  split
  · rename_i v hv
    rw [hv]
    simp
  · rename_i hnone
    rw [hnone]
    simp

/-- The measurement of a period in the terms of the statements (R77 to R79). -/
theorem periodFound_measured (hrails : 0 < (env.span i).rails) :
    measured env i p (p.span i) ((periodFound env i p).span i) := by
  obtain ⟨hn, hmr, hm, hlast⟩ := periodFound_measures (env := env) (i := i) (p := p)
  refine ⟨fun r hr => ?_, fun hnone => ?_, fun hall => ?_⟩
  · rw [hn, hmr]
    simp [hr, railPosition_eq]
  · rw [spanPosition_none hnone] at hm
    exact ⟨hm, by rw [hlast, if_pos hm]⟩
  · rw [spanPosition_some hrails hall] at hm
    refine ⟨hm, ?_⟩
    rw [hlast, if_neg (by rw [hm]; exact Option.some_ne_none _)]

/-! ### The skew (R86, R87) -/

/-- The rail chosen of some ascending rails: one of the highest value, the lowest-numbered of equal ones. -/
theorem bestRail_foldl (key : Rail → Int) (rs : List Rail) (b : Rail) (hsorted : (b :: rs).Pairwise (· < ·)) :
    ∃ c, rs.foldl (fun best r => match best with
        | none => some r
        | some b => if key b < key r then some r else some b) (some b) = some c ∧
      c ∈ b :: rs ∧ ∀ r ∈ b :: rs, key r ≤ key c ∧ (key r = key c → c ≤ r) := by
  induction rs generalizing b with
  | nil => exact ⟨b, rfl, List.mem_cons_self .., fun r hr => by simp at hr; subst hr; exact ⟨Int.le_refl _, fun _ => Nat.le_refl _⟩⟩
  | cons r rs ih =>
    obtain ⟨hb, hrs⟩ := List.pairwise_cons.1 hsorted
    rw [List.foldl_cons]
    by_cases hlt : key b < key r
    · obtain ⟨c, hfold, hmem, hbest⟩ := ih r hrs
      refine ⟨c, by simpa only [if_pos hlt] using hfold, List.mem_cons_of_mem _ hmem, fun x hx => ?_⟩
      rcases List.mem_cons.1 hx with rfl | hx
      · have hr := (hbest r (List.mem_cons_self ..)).1
        exact ⟨by omega, fun heq => by omega⟩
      · exact hbest x hx
    · have hsorted' : (b :: rs).Pairwise (· < ·) :=
        List.pairwise_cons.2 ⟨fun x hx => hb x (List.mem_cons_of_mem _ hx), (List.pairwise_cons.1 hrs).2⟩
      obtain ⟨c, hfold, hmem, hbest⟩ := ih b hsorted'
      have hbc := hbest b (List.mem_cons_self ..)
      refine ⟨c, by simpa only [if_neg hlt] using hfold, ?_, fun x hx => ?_⟩
      · rcases List.mem_cons.1 hmem with rfl | hmem
        · exact List.mem_cons_self ..
        · exact List.mem_cons_of_mem _ (List.mem_cons_of_mem _ hmem)
      · rcases List.mem_cons.1 hx with rfl | hx
        · exact hbc
        · rcases List.mem_cons.1 hx with rfl | hx
          · refine ⟨by omega, fun heq => ?_⟩
            have hle := hbc.2 (by omega)
            exact Nat.le_trans hle (Nat.le_of_lt (hb _ (List.mem_cons_self ..)))
          · exact hbest x (List.mem_cons_of_mem _ hx)

theorem railsOf_sorted (sc : SpanConfig) : (railsOf sc).Pairwise (· < ·) := by
  have hfour : four.Pairwise (· < ·) := by decide
  exact hfour.filter _

theorem bestRail_spec {sc : SpanConfig} (key : Rail → Int) (hrails : 0 < sc.rails) :
    ∃ c : Rail, bestRail key (railsOf sc) = some c ∧ c.val < sc.rails ∧
      ∀ r : Rail, r.val < sc.rails → key r ≤ key c ∧ (key r = key c → c ≤ r) := by
  have hzero : (0 : Rail) ∈ railsOf sc := mem_railsOf.2 hrails
  have hsorted := railsOf_sorted sc
  cases hlist : railsOf sc with
  | nil => rw [hlist] at hzero; cases hzero
  | cons b rs =>
    rw [hlist] at hsorted
    obtain ⟨c, hfold, hmem, hbest⟩ := bestRail_foldl key rs b hsorted
    rw [← hlist] at hmem hbest
    exact ⟨c, hfold, mem_railsOf.1 hmem, fun r hr => hbest r (mem_railsOf.2 hr)⟩

theorem skewOf_none {sc : SpanConfig} {mr : Quad (Option Int)} (h : ∃ r : Rail, r.val < sc.rails ∧ mr.get r = none) :
    skewOf sc mr = none := by
  obtain ⟨r, hr, hnone⟩ := h
  have hall : (railsOf sc).all (fun r => (mr.get r).isSome) = false :=
    List.all_eq_false.2 ⟨r, mem_railsOf.2 hr, by simp [hnone]⟩
  simp [skewOf, hall]

/-- The skew with its rails, while every rail of the span has a position (R86). -/
theorem skewOf_some {sc : SpanConfig} {mr : Quad (Option Int)} (hrails : 0 < sc.rails)
    (h : ∀ r : Rail, r.val < sc.rails → mr.get r ≠ none) :
    ∃ (n : Nat) (hi lo : Rail), skewOf sc mr = some (n, hi, lo) ∧ hi.val < sc.rails ∧ lo.val < sc.rails ∧
      (n : Int) = (mr.get hi).getD 0 - (mr.get lo).getD 0 ∧
      ∀ r : Rail, r.val < sc.rails →
        (mr.get lo).getD 0 ≤ (mr.get r).getD 0 ∧ (mr.get r).getD 0 ≤ (mr.get hi).getD 0 ∧
        ((mr.get r).getD 0 = (mr.get hi).getD 0 → hi ≤ r) ∧ ((mr.get r).getD 0 = (mr.get lo).getD 0 → lo ≤ r) := by
  obtain ⟨hi, hhi, hhiRail, hhighest⟩ := bestRail_spec (fun r => (mr.get r).getD 0) hrails
  obtain ⟨lo, hlo, hloRail, hlowest⟩ := bestRail_spec (fun r => -(mr.get r).getD 0) hrails
  have hall : (railsOf sc).all (fun r => (mr.get r).isSome) = true :=
    List.all_eq_true.2 fun r hr => Option.isSome_iff_ne_none.2 (h r (mem_railsOf.1 hr))
  have horder := (hhighest lo hloRail).1
  refine ⟨((mr.get hi).getD 0 - (mr.get lo).getD 0).toNat, hi, lo, ?_, hhiRail, hloRail, Int.toNat_of_nonneg (by omega),
    fun r hr => ⟨?_, (hhighest r hr).1, (hhighest r hr).2, fun heq => (hlowest r hr).2 (by rw [heq])⟩⟩
  · simp only [skewOf, hall, if_true, hhi, hlo]
  · have hle := (hlowest r hr).1
    omega

theorem skewOf_isSome {sc : SpanConfig} {mr : Quad (Option Int)} (hrails : 0 < sc.rails) :
    (skewOf sc mr).isSome = true ↔ ∀ r : Rail, r.val < sc.rails → mr.get r ≠ none := by
  constructor
  · intro hsome r hr hnone
    rw [skewOf_none ⟨r, hr, hnone⟩] at hsome
    cases hsome
  · intro h
    obtain ⟨n, hi, lo, hskew, -⟩ := skewOf_some hrails h
    rw [hskew]
    rfl

/-- The skew stored and judged, when none is formed and when one is. -/
theorem skewStep_kept (h : skewOf (env.span i) (p.span i).meas.mr = none) : skewStep env i p = p := by
  simp [skewStep, h]

theorem skewStep_formed {n : Nat} {hi lo : Rail} (h : skewOf (env.span i) (p.span i).meas.mr = some (n, hi, lo)) :
    (skewStep env i p).span i = { p.span i with
      skew := n, leading := some hi, lagging := some lo,
      skewArmed := if (p.span i).skewArmed = true then decide (n ≤ (env.span i).sWarn) else decide (n < (env.span i).sWarn / 2) } ∧
    (skewStep env i p).out = if (p.span i).skewArmed = true ∧ (env.span i).sWarn < n
      then p.out.push (.skewWarn i n hi lo env.time) else p.out := by
  simp only [skewStep, h]
  cases harmed : (p.span i).skewArmed with
  | false => simp
  | true =>
    by_cases hwarn : (env.span i).sWarn < n
    · simp [hwarn]
    · simp [hwarn, Nat.not_lt.1 hwarn]

/-! ### The span a period leaves -/

/-- The alignment of the span that a period leaves behind the state machine. -/
theorem alignSpan_trimmed : let b := (alignSpan env i p).span i
    b.degraded = (p.span i).degradedNow env i ∧ b.meas.nValid = (p.span i).meas.nValid ∧ b.meas.mr = (p.span i).meas.mr ∧
      b.meas.m = (p.span i).meas.m ∧ trimmed (env.span i) (p.span i) b := by
  intro b
  have hb : ∃ skew leading lagging armed, b = { (p.span i).aligned env i with
      skew := skew, leading := leading, lagging := lagging, skewArmed := armed } := by
    simp only [b, alignSpan_eq]
    cases hskew : skewOf (env.span i) ((driveSpan env i p).span i).meas.mr with
    | none =>
      rw [skewStep_kept hskew, driveSpan_span]
      exact ⟨_, _, _, _, rfl⟩
    | some t =>
      obtain ⟨n, hi, lo⟩ := t
      rw [(skewStep_formed hskew).1, driveSpan_span]
      exact ⟨_, _, _, _, rfl⟩
  obtain ⟨skew, leading, lagging, armed, hb⟩ := hb
  rw [hb]
  refine ⟨rfl, rfl, rfl, rfl, fun r => ⟨?_, ?_⟩⟩
  · simp [Span.aligned]
  · have hrun : ({ (p.span i).aligned env i with skew := skew, leading := leading, lagging := lagging, skewArmed := armed } : Span).inRun =
        (p.span i).inRun := rfl
    rw [hrun]
    simp only [Span.aligned]
    split
    · cases hr : (p.span i).meas.mr.get r <;> simp [hr, railTrim, clampInt]
    · rfl

/-- The skew of the span that a period leaves (R86, R87). -/
theorem alignSpan_skewed (hrails : 0 < (env.span i).rails) : skewed (env.span i) (p.span i) ((alignSpan env i p).span i) := by
  have hmr : ((alignSpan env i p).span i).meas.mr = (p.span i).meas.mr := (alignSpan_trimmed (env := env)).2.2.1
  have hdrive : ((driveSpan env i p).span i).meas.mr = (p.span i).meas.mr := by rw [driveSpan_span]; rfl
  refine ⟨fun hnone => ?_, fun hall => ?_⟩
  · rw [hmr, ← hdrive] at hnone
    rw [alignSpan_eq, skewStep_kept (skewOf_none hnone), driveSpan_span]
    exact ⟨rfl, rfl, rfl, rfl⟩
  · rw [hmr] at hall ⊢
    obtain ⟨n, hi, lo, hskew, hhi, hlo, hn, hbest⟩ := skewOf_some hrails hall
    rw [← hdrive] at hskew
    have hspan := (skewStep_formed hskew).1
    rw [← alignSpan_eq, driveSpan_span] at hspan
    rw [hspan]
    exact ⟨rfl, hi, lo, hhi, hlo, rfl, rfl, hn, hbest⟩

/-! ### The commands (R83, R84) -/

theorem AddrRec.isBogieOf_iff {a : AddrRec} : a.isBogieOf i = true ↔ a.role = .bogie ∧ a.slot = i := by
  simp [AddrRec.isBogieOf]

/-- The valid bogies of a rail are those of the records, with their validity shown. -/
theorem validRail_shown {q : Plant} (haddrs : q.link.addrs = p.link.addrs.map (AddrRec.shown env i)) (r : Rail) :
    q.validRail env i r = (p.validRail env i r).map (fun a => { a with valid := a.isValid env.cfg.dev.stale }) := by
  have hbogies : q.bogies i = (p.bogies i).map (fun a => { a with valid := a.isValid env.cfg.dev.stale }) := by
    simp only [Plant.bogies, haddrs, List.filter_map, Function.comp_def, AddrRec.shown_isBogieOf]
    exact List.map_congr_left fun a ha => if_pos (List.mem_filter.1 ha).2
  simp only [Plant.validRail, Plant.railBogies, hbogies, List.filter_map]
  rfl

theorem meanTorque_eq (valid : List AddrRec) : meanTorque valid = (valid.map AddrRec.torque).sum.tdiv (valid.length : Int) := by
  rw [meanTorque, foldl_add_int, Int.zero_add]

/-- A record behind a period: its validity shown and its bogie driven, as the statements give it. -/
theorem drive_shown {b : Span} {means : Quad Int}
    (hmeans : ∀ r, means.get r = ((p.validRail env i r).map AddrRec.torque).sum.tdiv ((p.validRail env i r).length : Int))
    (a : AddrRec) : (a.shown env i).drive (env.span i) i b means = driven env i p b a := by
  by_cases hbogie : a.isBogieOf i = true
  · have hshown : a.shown env i = { a with valid := a.isValid env.cfg.dev.stale } := if_pos hbogie
    have hbogie' : (a.shown env i).isBogieOf i = true := by rw [AddrRec.shown_isBogieOf]; exact hbogie
    rw [AddrRec.drive, if_pos hbogie', driven, if_pos (AddrRec.isBogieOf_iff.1 hbogie), hshown]
    split
    · have hload : bogieTrim (env.span i) (means.get a.rail) { a with valid := a.isValid env.cfg.dev.stale } = loadTrimOf env i p a := by
        simp only [bogieTrim, loadTrimOf, hmeans, clampInt]
        rfl
      simp only [hload, bogieCommand, clampInt]
    · rfl
  · have hnot : ¬ (a.role = .bogie ∧ a.slot = i) := fun h => hbogie (AddrRec.isBogieOf_iff.2 h)
    have hshown : a.shown env i = a := if_neg hbogie
    rw [hshown, AddrRec.drive, if_neg hbogie, driven, if_neg hnot]

theorem driveSpan_addrs {q : Plant} (haddrs : q.link.addrs = p.link.addrs.map (AddrRec.shown env i)) {b : Span}
    (hb : formedFrom ((driveSpan env i q).span i) b) (htr : b.meas.tr = ((driveSpan env i q).span i).meas.tr) :
    (driveSpan env i q).link.addrs = p.link.addrs.map (driven env i p b) := by
  have hmeans : ∀ r, (Quad.ofFn (fun r => meanTorque (q.validRail env i r))).get r =
      ((p.validRail env i r).map AddrRec.torque).sum.tdiv ((p.validRail env i r).length : Int) := by
    intro r
    rw [Quad.get_ofFn, validRail_shown haddrs, meanTorque_eq, List.map_map, List.length_map]
    rfl
  have hlink : (driveSpan env i q).link.addrs = q.link.addrs.map (AddrRec.drive (env.span i) i ((driveSpan env i q).span i)
      (Quad.ofFn (fun r => meanTorque (q.validRail env i r)))) := by
    rw [driveSpan_span]
    rfl
  rw [hlink, haddrs, List.map_map]
  refine List.map_congr_left fun a _ => ?_
  rw [Function.comp_apply, drive_shown hmeans]
  rw [formedFrom] at hb
  have hrun : b.inRun = ((driveSpan env i q).span i).inRun := by rw [hb]; rfl
  have hv : b.v = ((driveSpan env i q).span i).v := by rw [hb]
  have hdir : b.dir = ((driveSpan env i q).span i).dir := by rw [hb]
  simp only [driven, hrun, hv, hdir, htr]

/-! ### The stops of the checks (R90) -/

/-- Stops of different causes join the stops of a span in their order. -/
theorem raise_distinct (l new : List StopRequest) (h : (l ++ new).Nodup) :
    new.foldl (fun l r => if l.contains r then l else l ++ [r]) l = l ++ new := by
  induction new generalizing l with
  | nil => simp
  | cons r rs ih =>
    have hnot : r ∉ l := fun hin => (List.nodup_append.1 h).2.2 r hin r (List.mem_cons_self ..) rfl
    have hnext : ((l ++ [r]) ++ rs).Nodup := by simpa using h
    rw [List.foldl_cons, if_neg (by simpa using hnot), ih _ hnext]
    simp

/-- The stops of a span's checks with that of an intrusion, in their order. -/
def checkStops (env : Env) (i : Slot) (sp : Span) (intruded : Bool) : List StopRequest :=
  sp.checks env i ++ (if intruded then [faultStop .quick .zoneIntrusion] else [])

theorem checkStops_nodup (sp : Span) (intruded : Bool) : (checkStops env i sp intruded).Nodup := by
  have hskew : sp.skewStop (env.span i) = [faultStop .safe .skewTrip] ∨ sp.skewStop (env.span i) = [faultStop .controlled .skewStop] ∨
      sp.skewStop (env.span i) = [] := by
    unfold Span.skewStop
    split
    · split
      · exact .inl rfl
      · split
        · exact .inr (.inl rfl)
        · exact .inr (.inr rfl)
    · exact .inr (.inr rfl)
  simp only [checkStops, Span.checks]
  rcases hskew with h | h | h <;> rw [h] <;> cases sp.belowMinimum env i <;> cases sp.outsideEnvelope (env.span i) <;>
    cases sp.followingError (env.span i) <;> cases intruded <;> decide

theorem belowMinimum_iff {sp : Span} : sp.belowMinimum env i = true ↔
    ∃ r : Rail, r.val < (env.span i).rails ∧ sp.meas.nValid.get r < env.minValid i r := by
  rw [Span.belowMinimum, Bool.not_eq_true', ← Bool.not_eq_true, Span.railsAll_iff]
  simp

theorem degradedNow_iff {sp : Span} : sp.degradedNow env i = true ↔
    (∀ r : Rail, r.val < (env.span i).rails → env.minValid i r ≤ sp.meas.nValid.get r) ∧
      ∃ r : Rail, r.val < (env.span i).rails ∧ sp.meas.nValid.get r < env.declared i r := by
  rw [Span.degradedNow, Bool.and_eq_true, Bool.not_eq_true', Bool.not_eq_true', ← Bool.not_eq_true, belowMinimum_iff,
    ← Bool.not_eq_true, Span.railsAll_iff]
  simp

theorem outsideEnvelope_eq (sc : SpanConfig) (sp : Span) : sp.outsideEnvelope sc =
    sp.meas.m.any (fun m => decide (m < sc.xmin - 50000) || decide (sc.xmax + 50000 < m)) := by
  cases hm : sp.meas.m with
  | none => simp [Span.outsideEnvelope, hm]
  | some m =>
    rw [Bool.eq_iff_iff]
    simp only [Span.outsideEnvelope, hm, inRange, Config.envelopeMargin, Option.any_some, Bool.not_and, Bool.or_eq_true,
      Bool.not_eq_true', decide_eq_true_eq]
    exact or_congr (decide_eq_false_iff_not.trans Int.not_le) (decide_eq_false_iff_not.trans Int.not_le)

theorem followingError_iff {sc : SpanConfig} {sp : Span} : sp.followingError sc = true ↔
    sp.inRun = true ∧ ∃ r : Rail, (sp.meas.er.get r).any (fun e => decide (sc.fLim < e.natAbs)) = true := by
  rw [Span.followingError, Bool.and_eq_true, Quad.any_toList]
  refine and_congr_right fun _ => exists_congr fun r => ?_
  cases sp.meas.er.get r <;> exact .rfl

theorem zoneIntrusion_iff : zoneIntrusion i p = true ↔ (p.span i).faultHas .zoneConflict = false ∧
    p.zones.any (fun z => (z.sideOf i).any (fun d => (z.part d).inside && z.claim != sideClaim d)) = true := by
  have hintruded : ∀ z : ZoneEntry, z.intruded i = (z.sideOf i).any (fun d => (z.part d).inside && z.claim != sideClaim d) := by
    intro z
    cases h : z.sideOf i <;> simp [ZoneEntry.intruded, h]
  simp only [zoneIntrusion, Bool.and_eq_true, Bool.not_eq_true', Span.inConflict, hintruded]

/-- The stops of the checks are those the statements name. -/
theorem checkStops_eq (hrails : 0 < (env.span i).rails) :
    checkStops env i (p.span i) (zoneIntrusion i p) = periodStops env i (p.span i) p.zones := by
  have hskew : ((p.span i).state.energised && (skewOf (env.span i) (p.span i).meas.mr).isSome) = true ↔
      (p.span i).state.energised = true ∧ ∀ r : Rail, r.val < (env.span i).rails → (p.span i).meas.mr.get r ≠ none := by
    rw [Bool.and_eq_true, skewOf_isSome hrails]
  simp only [checkStops, Span.checks, periodStops, Span.skewStop, belowMinimum_iff, outsideEnvelope_eq, followingError_iff,
    zoneIntrusion_iff, hskew]

/-! ### The whole of what a period forms -/

theorem setpointMode_isSome {sp : Span} (h : sp.state ≠ .unconfigured) : ∃ mode, sp.setpointMode = some mode := by
  unfold Span.setpointMode
  cases hstate : sp.state with
  | unconfigured => exact absurd hstate h
  | stopping => cases sp.inSafeStop <;> simp
  | proving =>
    cases sp.test with
    | none => exact ⟨_, rfl⟩
    | some t => cases ht : t.phase <;> simp [ht]
  | _ => exact ⟨_, rfl⟩

/-- A span in mode PROOF performs a test. -/
theorem setCommand_proof {sc : SpanConfig} {sp : Span} (h : sp.setpointMode = some .proof) (a : AddrRec) :
    setCommand sc sp .proof a = dirInt sp.testDir * sc.proofTorque := by
  cases ht : sp.test with
  | some t => simp [setCommand, Span.testDir, ht]
  | none =>
    exfalso
    unfold Span.setpointMode at h
    cases hstate : sp.state <;> simp only [hstate, ht] at h <;> try cases h
    split at h <;> cases h

/-- The set a period posts carries the commands its records show, in rail and address order (R98). -/
theorem postSet_commands {mode : SetpointMode} (h : (p.span i).setpointMode = some mode) :
    ((postSet env i p).span i).posted = some { mode := mode, cmds := (four.flatMap (p.railBogies i)).map (fun a => (a.addr,
      match mode with
      | .run => a.command
      | .proof => dirInt (p.span i).testDir * (env.span i).proofTorque
      | .braked => 0
      | .energize => 0)) } := by
  rw [postSet_posted h, setCommands]
  refine congrArg (fun cmds => some (SetpointSet.mk mode cmds)) (List.map_congr_left fun a _ => ?_)
  cases mode with
  | proof => rw [setCommand_proof h]
  | run | braked | energize => rfl

/-- The set stands in the setpoint mode a period leaves (R16). -/
theorem periodFormed_posted (h : (p.span i).state ≠ .unconfigured) :
    let b := (periodFormed env i p).span i
    ∃ set, b.posted = some set ∧ b.setpointMode = some set.mode ∧
      set.cmds = (four.flatMap ((periodFormed env i p).railBogies i)).map (fun a => (a.addr,
        match set.mode with
        | .run => a.command
        | .proof => dirInt b.testDir * (env.span i).proofTorque
        | .braked => 0
        | .energize => 0)) := by
  intro b
  have halign := alignSpan_span (env := env) (i := i) (p := p)
  have hset := postSet_formed (env := env) (i := i) (p := alignSpan env i p)
  have hraise : formedFrom ((postSet env i (alignSpan env i p)).span i) b :=
    raiseStops_span (p := zonePeriod env i (postSet env i (alignSpan env i p)))
  have hstate : ((alignSpan env i p).span i).state = (p.span i).state := by rw [formedFrom] at halign; rw [halign]
  obtain ⟨mode, hmode⟩ := setpointMode_isSome (sp := (alignSpan env i p).span i) (by rw [hstate]; exact h)
  have hposted := postSet_commands (env := env) hmode
  have hb := hset.trans hraise
  have hpostedKept : b.posted = ((postSet env i (alignSpan env i p)).span i).posted := by
    have hspan : b = { (postSet env i (alignSpan env i p)).span i with raised := b.raised } := by
      simp only [b, periodFormed, raiseStops, Plant.span_setSpan, zonePeriod_span]
    rw [hspan]
  refine ⟨_, hpostedKept.trans hposted, ?_, ?_⟩
  · rw [formedFrom] at hb
    rw [hb]
    exact hmode
  · have hdir : b.testDir = ((alignSpan env i p).span i).testDir := by
      rw [formedFrom] at hb
      rw [hb]
      rfl
    have hbogies : (periodFormed env i p).railBogies i = (alignSpan env i p).railBogies i := by
      simp only [funext_iff, Plant.railBogies, Plant.bogies, periodFormed_link, alignSpan_link, implies_true]
    rw [hdir, hbogies]

/-- The stops a period raises, where none is still to be taken. -/
theorem periodFormed_raised (hrails : 0 < (env.span i).rails) (h : (p.span i).raised = []) :
    ((periodFormed env i p).span i).raised = periodStops env i ((periodFormed env i p).span i) (periodFormed env i p).zones := by
  let u := zonePeriod env i (postSet env i (alignSpan env i p))
  have hnone : (u.span i).raised = [] := by
    have hform := (alignSpan_span (env := env) (i := i) (p := p))
    have hset : (u.span i).raised = ((alignSpan env i p).span i).raised := by
      simp only [u, zonePeriod_span]
      rw [postSet_span]
    rw [hset, alignSpan_eq]
    cases hskew : skewOf (env.span i) ((driveSpan env i p).span i).meas.mr with
    | none => rw [skewStep_kept hskew, driveSpan_span]; exact h
    | some t => rw [(skewStep_formed hskew).1, driveSpan_span]; exact h
  have hspan : (raiseStops env i u).span i = { u.span i with raised := checkStops env i (u.span i) (zoneIntrusion i u) } := by
    have hraised := raise_distinct [] (checkStops env i (u.span i) (zoneIntrusion i u)) (checkStops_nodup _ _)
    rw [List.nil_append] at hraised
    rw [← hraised]
    simp only [raiseStops, Plant.span_setSpan, hnone, checkStops]
  have hform : periodFormed env i p = raiseStops env i u := rfl
  rw [hform, raiseStops_zones, hspan]
  exact checkStops_eq (p := u) hrails

/-- What a period forms of its span and of the records, from the plant the measurement leaves to the end. -/
theorem periodDone_formed (hrails : 0 < (env.span i).rails) (hraised : (p.span i).raised = []) :
    let q := periodDone env i p
    let b := q.span i
    measured env i p (p.span i) b ∧ trimmed (env.span i) (p.span i) b ∧ skewed (env.span i) (p.span i) b ∧
      b.degraded = decide ((∀ r : Rail, r.val < (env.span i).rails → env.minValid i r ≤ b.meas.nValid.get r) ∧
        ∃ r : Rail, r.val < (env.span i).rails ∧ b.meas.nValid.get r < env.declared i r) ∧
      q.link.addrs = p.link.addrs.map (driven env i p b) ∧ b.raised = periodStops env i b q.zones := by
  intro q b
  let u := spanStep env i (periodFound env i p)
  have hfound := periodFound_span (env := env) (i := i) (p := p)
  rw [measuredFrom] at hfound
  obtain ⟨-, hstep, haddrs⟩ := StepKeeps.spanStep env i (periodFound env i p)
  simp only [Span.formed, Prod.mk.injEq] at hstep
  obtain ⟨hmeas, hlast, -, harmed, hskew, hleading, hlagging, hraisedKept, -⟩ := hstep
  obtain ⟨hdegraded, hn, hmr, hm, htrim⟩ := alignSpan_trimmed (env := env) (i := i) (p := u)
  have hskewed := alignSpan_skewed (p := u) hrails
  have hb : b = { (alignSpan env i u).span i with posted := b.posted, raised := b.raised } := by
    have hset := postSet_span env i (alignSpan env i u)
    simp only [b, q, periodDone, periodFormed, raiseStops, Plant.span_setSpan, zonePeriod_span]
    rw [hset]
  have hbn : b.meas = ((alignSpan env i u).span i).meas := by rw [hb]
  have hblast : b.lastM = ((periodFound env i p).span i).lastM := by
    have hform := periodFormed_span (env := env) (i := i) (p := u)
    rw [formedFrom] at hform
    exact (congrArg Span.lastM hform).trans hlast
  have hu : (u.span i).meas = ((periodFound env i p).span i).meas := hmeas
  have hmeasured := periodFound_measured (env := env) (i := i) (p := p) hrails
  have hlinkAddrs : q.link.addrs = (driveSpan env i u).link.addrs := congrArg BogieLink.addrs periodFormed_link
  refine ⟨?_, ?_, ?_, ?_, ?_, ?_⟩
  · simpa only [measured, hbn, hn, hmr, hm, hu, hblast] using hmeasured
  · have hfoundTr : (u.span i).meas.tr = (p.span i).meas.tr := by rw [hu, hfound]
    rw [hb]
    intro r
    have hr := htrim r
    rw [hfoundTr] at hr
    exact hr
  · have hkept : (u.span i).skew = (p.span i).skew ∧ (u.span i).leading = (p.span i).leading ∧
        (u.span i).lagging = (p.span i).lagging ∧ (u.span i).skewArmed = (p.span i).skewArmed :=
      ⟨hskew.trans (by rw [hfound]), hleading.trans (by rw [hfound]), hlagging.trans (by rw [hfound]), harmed.trans (by rw [hfound])⟩
    obtain ⟨hk1, hk2, hk3, hk4⟩ := hkept
    rw [hb]
    simp only [skewed, hk1, hk2, hk3, hk4] at hskewed ⊢
    exact hskewed
  · have hbdeg : b.degraded = (u.span i).degradedNow env i := by rw [hb]; exact hdegraded
    rw [hbdeg, Bool.eq_iff_iff, degradedNow_iff, decide_eq_true_iff, hbn, hn]
  · rw [hlinkAddrs]
    have haddrs' : u.link.addrs = p.link.addrs.map (AddrRec.shown env i) := haddrs
    refine driveSpan_addrs haddrs' ?_ ?_
    · have hdrive := skewStep_span (env := env) (i := i) (p := driveSpan env i u)
      rw [← alignSpan_eq] at hdrive
      exact (hdrive.trans postSet_formed).trans (raiseStops_span (p := zonePeriod env i (postSet env i (alignSpan env i u))))
    · have hskewStep : ((alignSpan env i u).span i).meas.tr = ((driveSpan env i u).span i).meas.tr := by
        rw [alignSpan_eq]
        cases hsk : skewOf (env.span i) ((driveSpan env i u).span i).meas.mr with
        | none => rw [skewStep_kept hsk]
        | some t => rw [(skewStep_formed hsk).1]
      rw [hbn, hskewStep]
  · have hnone : (u.span i).raised = [] := hraisedKept.trans (by rw [hfound]; exact hraised)
    exact periodFormed_raised hrails hnone

end

/-- The plant the state machine of a period finds, whatever stops are still to be taken. -/
def periodTaken (env : Env) (i : Slot) (p : Plant) : Plant :=
  measureSpan env i (takeRaised env i (p.setSpan i { p.span i with periodT := Config.periodMs }))

theorem exec_spanPeriod_taken {s : State} {i : Slot} (hrun : s.resetPin = false) (hstate : (s.plant.span i).state ≠ .unconfigured) :
    exec (.spanPeriod i) s =
      .next (settle { s with plant := periodFormed s.env i (spanStep s.env i (periodTaken s.env i s.plant)) }) := by
  refine (runEvent_running hrun _).trans ?_
  have hstate' : ((s.plant.span i).state == .unconfigured) = false := by simpa using hstate
  simp only [State.onPlant, spanPeriodOf, Plant.span_setSpan, hstate', Bool.false_eq_true, if_false]
  rfl

theorem periodTaken_of_none {env : Env} {i : Slot} {p : Plant} (hraised : (p.span i).raised = []) :
    periodTaken env i p = periodFound env i p := by
  have htaken : takeRaised env i (p.setSpan i { p.span i with periodT := Config.periodMs }) =
      p.setSpan i { p.span i with periodT := Config.periodMs } := by
    simp [takeRaised, hraised]
  rw [periodTaken, htaken]
  rfl

theorem measureSpan_span_ne {env : Env} {i j : Slot} (h : j ≠ i) (p : Plant) : (measureSpan env i p).span j = p.span j :=
  Plant.span_setSpan_ne p h _

theorem measureSpan_periodT (env : Env) (i : Slot) (p : Plant) : ((measureSpan env i p).span i).periodT = (p.span i).periodT := by
  have hspan : (measureSpan env i p).span i = (formPositions env i p).span i := rfl
  rw [hspan]
  simp [formPositions]

/-- The period timer restarted and the other spans left alone, whatever stops are taken first. -/
theorem periodTaken_keeps (env : Env) (i : Slot) (p : Plant) :
    ((periodTaken env i p).span i).periodT = 10 ∧ ∀ j : Slot, j ≠ i → (periodTaken env i p).span j = p.span j := by
  obtain ⟨hothers, hformed, -⟩ := StepKeeps.takeRaised env i (p.setSpan i { p.span i with periodT := Config.periodMs })
  simp only [Span.formed, Prod.mk.injEq, Plant.span_setSpan] at hformed
  obtain ⟨-, -, -, -, -, -, -, -, htimer⟩ := hformed
  refine ⟨(measureSpan_periodT ..).trans htimer, fun j hj => ?_⟩
  rw [periodTaken, measureSpan_span_ne hj, hothers j hj, Plant.span_setSpan_ne _ hj, Plant.span_setSpan_ne _ hj]

/-- A FAULTED or LOCKED span with no entry of the Clearance Table: its period reports a skew warning or nothing. -/
theorem periodDone_out {env : Env} {i : Slot} {p : Plant} (hstate : (p.span i).state = .faulted ∨ (p.span i).state = .locked)
    (hzones : p.zones = []) :
    let q := periodDone env i p
    let b := q.span i
    q.out = if (p.span i).skewArmed = true ∧ b.skewArmed = false
      then p.out.push (.skewWarn i b.skew (b.leading.getD 0) (b.lagging.getD 0) env.time) else p.out := by
  intro q b
  let u := periodFound env i p
  have hfound := periodFound_span (env := env) (i := i) (p := p)
  rw [measuredFrom] at hfound
  have hstep : spanStep env i u = u := by
    have hu : (u.span i).state = (p.span i).state := by rw [hfound]
    rcases hstate with h | h <;> simp [spanStep, hu, h]
  have harmed : ((driveSpan env i u).span i).skewArmed = (p.span i).skewArmed := by
    rw [driveSpan_span]
    show ((periodFound env i p).span i).skewArmed = _
    rw [hfound]
  have hzones' : (postSet env i (alignSpan env i u)).zones = [] := by simp [u, hzones]
  have hq : q = raiseStops env i (postSet env i (alignSpan env i u)) := by
    simp only [q, periodDone, u] at hstep ⊢
    rw [hstep, periodFormed, zonePeriod_none hzones']
  have hout : q.out = (alignSpan env i u).out := by rw [hq, raiseStops_out, postSet_out]
  have hb : b = { (alignSpan env i u).span i with posted := b.posted, raised := b.raised } := by
    have hset := postSet_span env i (alignSpan env i u)
    simp only [b, hq, raiseStops, Plant.span_setSpan]
    rw [hset]
  rw [hout, hb]
  rw [alignSpan_eq]
  cases hskew : skewOf (env.span i) ((driveSpan env i u).span i).meas.mr with
  | none =>
    rw [skewStep_kept hskew, harmed]
    cases (p.span i).skewArmed <;> simp <;> rfl
  | some t =>
    obtain ⟨n, hi, lo⟩ := t
    obtain ⟨hspan, hreport⟩ := skewStep_formed hskew
    rw [hspan, hreport, harmed]
    cases (p.span i).skewArmed with
    | false => simp; rfl
    | true =>
      simp only [true_and, if_true, decide_eq_false_iff_not, Nat.not_le, Option.getD_some]
      rfl

/-- Settles O37: the frame of the period for every state, and what it forms where no stop is still to be taken. -/
theorem spanPeriodPostsASet : Obligations.SpanPeriodPostsASet := by
  unfold Obligations.SpanPeriodPostsASet
  intro s i hrun
  refine ⟨fun hstate => ?_, fun hstate => ?_⟩
  · refine (runEvent_running hrun _).trans ?_
    simp only [State.onPlant, spanPeriodOf, Plant.span_setSpan, hstate, beq_self_eq_true, if_true]
    rfl
  let u := spanStep s.env i (periodTaken s.env i s.plant)
  let q := periodFormed s.env i u
  have hq : q = spanPeriodOf s.env i s.plant := by
    have hstate' : ((s.plant.span i).state == .unconfigured) = false := by simpa using hstate
    simp only [spanPeriodOf, Plant.span_setSpan, hstate', Bool.false_eq_true, if_false]
    rfl
  have hqstate : (q.span i).state ≠ .unconfigured := by
    rw [hq]
    exact (spanPeriodOf_keeps (env := s.env) i s.plant).configured hstate
  have hformed : formedFrom (u.span i) (q.span i) := periodFormed_span
  have hustate : (u.span i).state ≠ .unconfigured := by
    rw [formedFrom] at hformed
    rw [hformed] at hqstate
    exact hqstate
  obtain ⟨htimer, hothers⟩ := periodTaken_keeps s.env i s.plant
  obtain ⟨hstepOthers, hstepFormed, -⟩ := StepKeeps.spanStep s.env i (periodTaken s.env i s.plant)
  simp only [Span.formed, Prod.mk.injEq] at hstepFormed
  obtain ⟨-, -, -, -, -, -, -, -, hstepTimer⟩ := hstepFormed
  obtain ⟨set, hposted, hmode, hcmds⟩ := periodFormed_posted (env := s.env) hustate
  refine ⟨q, exec_spanPeriod_taken hrun hstate, ?_, hqstate, fun j hj => ?_, ⟨set, hposted, hmode⟩, fun hraised hrails => ?_⟩
  · rw [formedFrom] at hformed
    rw [hformed]
    exact hstepTimer.trans htimer
  · exact (periodFormed_span_ne hj).trans ((hstepOthers j hj).trans (hothers j hj))
  · have hdone : q = periodDone s.env i s.plant := by
      simp only [q, u, periodTaken_of_none hraised]
      rfl
    obtain ⟨hmeasured, htrimmed, hskewed, hdegraded, haddrs, hstops⟩ := periodDone_formed (env := s.env) hrails hraised
    rw [← hdone] at hmeasured htrimmed hskewed hdegraded haddrs hstops
    refine ⟨hmeasured, htrimmed, hskewed, hdegraded, haddrs, fun set' hset' => ?_, hstops, fun hrest hzones => ?_⟩
    · obtain rfl := Option.some.inj (hposted.symm.trans hset')
      exact hcmds
    · have hout := periodDone_out (env := s.env) hrest hzones
      rw [← hdone] at hout
      exact hout

end Sys2Proof.Machine
end

