-- ==== Sys2Proof/Proofs/Retirements.lean ====
section
/-! PROOFS. Runs, the heads an advance retires and their reports (chapter 3), and what the choice of a speed keeps (4.5). -/

namespace Sys2Proof.Machine
open Safety

/-! ### The heads retired -/

theorem reached_iff {dir : Dir} {x : Int} {g : Segment} : reached dir x g = true ↔ 0 ≤ dirInt dir * (x - g.target) := by
  simp [reached]

theorem takeWhile_length_lt {α : Type} {f : α → Bool} {l : List α} (h : ∃ a ∈ l, f a = false) : (l.takeWhile f).length < l.length := by
  induction l with
  | nil => obtain ⟨a, ha, -⟩ := h; cases ha
  | cons b l ih =>
    cases hb : f b with
    | false => simp [hb]
    | true =>
      obtain ⟨a, ha, hfalse⟩ := h
      have hin : a ∈ l := (List.mem_cons.1 ha).resolve_left fun heq => by rw [heq, hb] at hfalse; cases hfalse
      simpa [List.takeWhile_cons, hb] using ih ⟨a, hin, hfalse⟩

theorem takeWhile_all {α : Type} {f : α → Bool} {l : List α} (h : ∀ a ∈ l, f a = true) : l.takeWhile f = l := by
  induction l with
  | nil => rfl
  | cons a l ih =>
    rw [List.forall_mem_cons] at h
    rw [List.takeWhile_cons_of_pos h.1, ih h.2]

/-- A chain not all reached loses its leading segments that x has reached. -/
theorem retiredHeads_short {dir : Dir} {x : Int} {chain plan : List Segment} (h : ∃ g ∈ chain, reached dir x g = false) :
    retiredHeads dir x chain plan = chain.takeWhile (reached dir x) := by
  have hlt := takeWhile_length_lt h
  simp [retiredHeads, hlt]

/-- A chain reached whole retires with the heads behind it at x. -/
theorem retiredHeads_whole {dir : Dir} {x : Int} {chain : List Segment} (later : List Segment) (hne : chain ≠ [])
    (h : ∀ g ∈ chain, reached dir x g = true) :
    retiredHeads dir x chain (chain ++ later) = chain ++ later.takeWhile (fun g => g.target == x) := by
  have hempty : chain.isEmpty = false := by simpa using hne
  simp [retiredHeads, takeWhile_all h, hempty]

/-! ### The chain of a run (R40) -/

/-- The segments of a run lie one behind another in its direction: with its last segment reached, all are. -/
theorem runChain_reached {dir : Dir} {x : Int} {plan : List Segment} {last : Segment} (hlast : (runChain dir plan).getLast? = some last)
    (h : reached dir x last = true) : ∀ g ∈ runChain dir plan, reached dir x g = true := by
  induction plan with
  | nil => intro g hg; cases hg
  | cons s rest ih =>
    cases rest with
    | nil =>
      intro g hg
      simp only [runChain, List.getLast?_singleton, Option.some.injEq, List.mem_singleton] at hlast hg
      rw [hg, hlast]
      exact h
    | cons t rest =>
      simp only [runChain] at hlast ⊢
      split at hlast
      · rename_i hcut
        rw [if_pos hcut]
        intro g hg
        simp only [List.getLast?_singleton, Option.some.injEq, List.mem_singleton] at hlast hg
        rw [hg, hlast]
        exact h
      · rename_i hcut
        rw [if_neg hcut]
        have hne : runChain dir (t :: rest) ≠ [] := by
          cases rest with
          | nil => simp [runChain]
          | cons u rest => simp only [runChain]; split <;> simp
        rw [List.getLast?_cons, List.getLast?_eq_some_getLast hne, Option.getD_some, Option.some.injEq] at hlast
        have hall := ih (by rw [List.getLast?_eq_some_getLast hne, hlast])
        have hhead : t ∈ runChain dir (t :: rest) := by
          cases rest with
          | nil => simp [runChain]
          | cons u rest => simp only [runChain]; split <;> simp
        have ht := reached_iff.1 (hall t hhead)
        intro g hg
        rcases List.mem_cons.1 hg with rfl | hg
        · have hcourse : ¬ dirInt dir * (t.target - g.target) < 0 := by
            intro hlt
            exact hcut (by simp [courseOpposes, hlt])
          rw [reached_iff]
          have hsplit : dirInt dir * (x - g.target) = dirInt dir * (x - t.target) + dirInt dir * (t.target - g.target) := by
            rw [← Int.mul_add]
            exact congrArg _ (by omega)
          omega
        · exact hall g hg

theorem runChain_ne_nil {dir : Dir} {plan : List Segment} (h : plan ≠ []) : runChain dir plan ≠ [] := by
  cases plan with
  | nil => exact absurd rfl h
  | cons s rest =>
    cases rest with
    | nil => simp [runChain]
    | cons t rest => simp only [runChain]; split <;> simp

/-! ### The reports of retirements (R43, R46, R51) -/

section
variable (time : Time) (i : Slot) (lw : Nat)

theorem doneReports_shift (count n : Nat) (segs : List Segment) :
    (segs.zipIdx n).flatMap (fun g => if g.1.report = true then [Report.segmentDone i g.1.tag g.1.target time (count - (g.2 + 1))] else []) =
      doneReports time i (count - n) segs := by
  induction segs generalizing count n with
  | nil => rfl
  | cons s rest ih =>
    have hright : doneReports time i (count - n) (s :: rest) =
        (if s.report = true then [Report.segmentDone i s.tag s.target time (count - n - (0 + 1))] else []) ++
          doneReports time i (count - n - 1) rest := by
      rw [doneReports, List.zipIdx_cons, List.flatMap_cons]
      exact congrArg _ (ih (count - n) 1)
    rw [List.zipIdx_cons, List.flatMap_cons, ih count (n + 1), hright, Nat.zero_add, Nat.sub_sub]

/-- The SEGMENT_DONE of the first of some retirements, and those of the others. -/
theorem doneReports_cons (count : Nat) (s : Segment) (rest : List Segment) :
    doneReports time i count (s :: rest) = segmentDoneReports time i s (count - 1) ++ doneReports time i (count - 1) rest := by
  rw [doneReports, List.zipIdx_cons, List.flatMap_cons, doneReports_shift]
  rfl

theorem retirementReports_done (count : Nat) (segs : List Segment) :
    (retirementReports time i lw count segs).flatMap (fun r => r.1) = doneReports time i count segs := by
  induction segs generalizing count with
  | nil => rfl
  | cons s rest ih => rw [retirementReports, List.flatMap_cons, ih, doneReports_cons]

theorem retirementReports_quiet {count : Nat} {segs : List Segment} (hlen : segs.length ≤ count)
    (h : count ≤ lw ∨ lw < count - segs.length) : ∀ r ∈ retirementReports time i lw count segs, r.2 = [] := by
  induction segs generalizing count with
  | nil => intro r hr; cases hr
  | cons s rest ih =>
    rw [List.length_cons] at hlen h
    intro r hr
    rcases List.mem_cons.1 hr with rfl | hr
    · have hlow : (decide (lw < count) && decide (count - 1 ≤ lw)) = false := by
        rw [Bool.and_eq_false_iff, decide_eq_false_iff_not, decide_eq_false_iff_not]
        omega
      simp only [planLowReports, hlow, Bool.false_eq_true, if_false]
    · exact ih (by omega) (by omega) r hr

/-- The count that falls to the mark is reported once, at the mark (R51). -/
theorem retirementReports_low {count : Nat} {segs : List Segment} (hlen : segs.length ≤ count) (habove : lw < count)
    (hbelow : count - segs.length ≤ lw) : (retirementReports time i lw count segs).flatMap (fun r => r.2) = [.planLow i lw lw] := by
  induction segs generalizing count with
  | nil => rw [List.length_nil] at hbelow; omega
  | cons s rest ih =>
    rw [List.length_cons] at hlen hbelow
    rw [retirementReports, List.flatMap_cons]
    by_cases hcross : count = lw + 1
    · subst hcross
      have hquiet := retirementReports_quiet time i lw (count := lw) (segs := rest) (by omega) (.inl (Nat.le_refl _))
      have hnone : (retirementReports time i lw lw rest).flatMap (fun r => r.2) = [] := by
        rw [List.flatMap_eq_nil_iff]
        exact hquiet
      simp [planLowReports, hnone]
    · have hlow : (decide (lw < count) && decide (count - 1 ≤ lw)) = false := by
        rw [Bool.and_eq_false_iff, decide_eq_false_iff_not, decide_eq_false_iff_not]
        omega
      rw [ih (by omega) (by omega) (by omega)]
      simp only [planLowReports, hlow, Bool.false_eq_true, if_false, List.nil_append]

theorem interleaved_quiet {rs : List (List Report × List Report)} (h : ∀ r ∈ rs, r.2 = []) :
    rs.flatMap (fun r => r.1 ++ r.2) = rs.flatMap (fun r => r.1) := by
  exact congrArg List.flatten (List.map_congr_left fun r hr => by rw [h r hr, List.append_nil])

/-- Retirements that do not cross the mark queue their SEGMENT_DONE reports alone. -/
theorem retireReports_quiet {count : Nat} {segs : List Segment} (hlen : segs.length ≤ count)
    (h : count ≤ lw ∨ lw < count - segs.length) (ends : Bool) :
    retireReports time i lw count segs ends = doneReports time i count segs := by
  have hquiet := retirementReports_quiet time i lw hlen h
  have hnone : (retirementReports time i lw count segs).flatMap (fun r => r.2) = [] := by
    rw [List.flatMap_eq_nil_iff]
    exact hquiet
  cases ends
  · simp only [retireReports, Bool.false_eq_true, if_false]
    rw [interleaved_quiet hquiet, retirementReports_done]
  · simp only [retireReports, if_true]
    rw [hnone, List.append_nil, retirementReports_done]

theorem retireReports_ending {count : Nat} {segs : List Segment} (hlen : segs.length ≤ count) (habove : lw < count)
    (hbelow : count - segs.length ≤ lw) :
    retireReports time i lw count segs true = doneReports time i count segs ++ [.planLow i lw lw] := by
  simp only [retireReports, if_true]
  rw [retirementReports_done, retirementReports_low time i lw hlen habove hbelow]

/-- Retirements that cross the mark: PLAN_LOW behind the SEGMENT_DONE of the one that crosses it. -/
theorem retireReports_crossing {count : Nat} {segs : List Segment} (hlen : segs.length ≤ count) (habove : lw < count)
    (hbelow : count - segs.length ≤ lw) : retireReports time i lw count segs false =
      doneReports time i count (segs.take (count - lw)) ++ [.planLow i lw lw] ++ doneReports time i lw (segs.drop (count - lw)) := by
  simp only [retireReports, Bool.false_eq_true, if_false]
  induction segs generalizing count with
  | nil => rw [List.length_nil] at hbelow; omega
  | cons s rest ih =>
    rw [List.length_cons] at hlen hbelow
    rw [retirementReports, List.flatMap_cons]
    by_cases hcross : count = lw + 1
    · subst hcross
      have hquiet := retirementReports_quiet time i lw (count := lw) (segs := rest) (by omega) (.inl (Nat.le_refl _))
      have hone : lw + 1 - lw = 1 := by omega
      rw [Nat.add_sub_cancel, interleaved_quiet hquiet, retirementReports_done, hone, List.take_succ_cons, List.take_zero,
        doneReports_cons]
      simp [planLowReports, doneReports]
    · have hlow : (decide (lw < count) && decide (count - 1 ≤ lw)) = false := by
        rw [Bool.and_eq_false_iff, decide_eq_false_iff_not, decide_eq_false_iff_not]
        omega
      have hstep : count - lw = (count - 1 - lw) + 1 := by omega
      rw [ih (by omega) (by omega) (by omega), hstep, List.take_succ_cons, List.drop_succ_cons, doneReports_cons]
      simp only [planLowReports, hlow, Bool.false_eq_true, if_false, List.append_nil, List.append_assoc]

/-- The reports of retirements that do not end a plan, in two parts. -/
theorem retireReports_append (count : Nat) (a b : List Segment) : retireReports time i lw count (a ++ b) false =
    retireReports time i lw count a false ++ retireReports time i lw (count - a.length) b false := by
  simp only [retireReports, Bool.false_eq_true, if_false]
  induction a generalizing count with
  | nil => rfl
  | cons s rest ih =>
    have hcount : count - (rest.length + 1) = count - 1 - rest.length := by omega
    rw [List.cons_append, retirementReports, retirementReports, List.flatMap_cons, List.flatMap_cons, ih, List.length_cons, hcount]
    simp only [List.append_assoc]

end

/-! ### The choice of a speed (R64 to R66) -/

/-- The checked speed: not above the limit from within it, below v above the limit, and never more than d_dec below v. -/
theorem checkedSpeed_limits (ad dacc l0 v r : Nat) (bs : List Boundary) :
    (v ≤ l0 → checkedSpeed ad dacc l0 v r bs ≤ l0) ∧
    (l0 < v → checkedSpeed ad dacc l0 v r bs < v ∨ ad / 100 = 0) ∧
    v - ad / 100 ≤ checkedSpeed ad dacc l0 v r bs ∧
    (v < checkedSpeed ad dacc l0 v r bs →
      brakeOkAll ad r (checkedSpeed ad dacc l0 v r bs) bs = true ∧ checkedSpeed ad dacc l0 v r bs ≤ v + dacc) := by
  simp only [checkedSpeed]
  split
  · refine ⟨?_, ?_, ?_, ?_⟩ <;> omega
  · split
    · rename_i hok
      exact ⟨fun _ => Nat.min_le_right _ _, fun h => absurd h (by assumption), by omega, fun _ => ⟨hok, Nat.min_le_left _ _⟩⟩
    · split
      · exact ⟨id, fun h => absurd h (by assumption), Nat.sub_le _ _, fun h => absurd h (Nat.lt_irrefl _)⟩
      · refine ⟨?_, ?_, ?_, ?_⟩ <;> omega

/-- The creep floor leaves a speed or raises it to the lesser of the creep speed and the limit. -/
theorem creepFloor_cases (c l0 room u : Nat) :
    creepFloor c l0 room u = u ∨ (creepFloor c l0 room u = min c l0 ∧ u < min c l0) := by
  simp only [creepFloor]
  split
  · rename_i h
    simp only [Bool.and_eq_true, decide_eq_true_eq] at h
    exact .inr ⟨rfl, h.1.1⟩
  · exact .inl rfl

end Sys2Proof.Machine
end

