-- ==== Sys2Proof/Proofs/Profile.lean ====
section
/-! PROOFS. The generator of a span period (chapter 4): the advance, the retirements and what follows them in STOPPING (O39) and,
as lemmas for O38, in MOVING. -/

namespace Sys2Proof.Machine
open Safety

/-! ### The advance (R63, R67) -/

theorem advance_short {sp : Span} {u room : Nat} (h : (u + sp.r) / 100 < room) : advance sp u room =
    ({ sp with x := sp.x + dirInt sp.dir * ((u + sp.r) / 100 : Nat), v := u, r := (u + sp.r) % 100 }, false) := by
  have hlt : advanceOf u sp.r < room := h
  simp only [advance, if_pos hlt, Nat.mod_def]
  rfl

theorem advance_snap {sp : Span} {u room : Nat} (h : room ≤ (u + sp.r) / 100) : advance sp u room =
    ({ sp with x := sp.x + dirInt sp.dir * room, v := 0, r := 0 }, true) := by
  have hnot : ¬ advanceOf u sp.r < room := Nat.not_lt.2 h
  simp only [advance, if_neg hnot]

/-- The nearest of some distances is one of them, and none is nearer. -/
theorem nearest_spec {ds : List Nat} {n : Nat} (h : nearest ds = some n) : n ∈ ds ∧ ∀ d ∈ ds, n ≤ d := by
  induction ds generalizing n with
  | nil => cases h
  | cons d ds ih =>
    simp only [nearest] at h
    cases hrest : nearest ds with
    | none =>
      have hempty : ds = [] := by
        cases ds with
        | nil => rfl
        | cons e es =>
          simp only [nearest] at hrest
          split at hrest <;> cases hrest
      rw [hrest] at h
      cases h
      subst hempty
      simp
    | some e =>
      rw [hrest] at h
      obtain rfl := Option.some.inj h
      obtain ⟨hmem, hle⟩ := ih hrest
      refine ⟨?_, fun x hx => ?_⟩
      · rcases Nat.le_total d e with hde | hde
        · rw [Nat.min_eq_left hde]; exact List.mem_cons_self ..
        · rw [Nat.min_eq_right hde]; exact List.mem_cons_of_mem _ hmem
      · rcases List.mem_cons.1 hx with rfl | hx
        · exact Nat.min_le_left _ _
        · exact Nat.le_trans (Nat.min_le_right _ _) (hle x hx)

theorem nearest_isSome {ds : List Nat} (h : ds ≠ []) : ∃ n, nearest ds = some n := by
  cases ds with
  | nil => exact absurd rfl h
  | cons d ds =>
    simp only [nearest]
    split <;> exact ⟨_, rfl⟩

/-- A stop point nearer than the end of the path is a zone edge. -/
theorem Travel.room_edge {t : Travel} {edges : List Nat} (h : t.room edges ≠ t.stopAt) : t.room edges ∈ edges := by
  unfold Travel.room at h ⊢
  cases hn : nearest edges with
  | none => rw [hn] at h; exact absurd rfl h
  | some e =>
    simp only [hn] at h ⊢
    have hmin : min e t.stopAt = e := by omega
    rw [hmin]
    exact (nearest_spec hn).1

theorem Travel.room_zero {t : Travel} {edges : List Nat} (h : 0 ∈ edges) : t.room edges = 0 := by
  obtain ⟨n, hn⟩ := nearest_isSome (List.ne_nil_of_mem h)
  have hle := (nearest_spec hn).2 0 h
  simp only [Travel.room, hn]
  omega

/-! ### Retirement in a plant (R43) -/

section
variable {env : Env} {i : Slot} {p : Plant}

theorem retired_eq (sp : Span) (segs : List Segment) (ends : Bool) : sp.retired segs ends = { sp with
    plan := sp.plan.drop segs.length, lastDwell := (sp.retired segs ends).lastDwell, lastTag := (sp.retired segs ends).lastTag } := by
  unfold Span.retired
  split
  · rename_i hnone
    rw [List.getLast?_eq_none_iff] at hnone
    subst hnone
    rfl
  · rfl

theorem retired_last {sp : Span} {segs : List Segment} {last : Segment} (h : segs.getLast? = some last) (ends : Bool) :
    (sp.retired segs ends).lastDwell = (if ends then some last.dwell else sp.lastDwell) ∧
    (sp.retired segs ends).lastTag = (if sp.plan.length ≤ segs.length then some last.tag else sp.lastTag) := by
  simp [Span.retired, h]

theorem retireReached_fst (chain gone : List Segment) : (retireReached env i chain gone p).1 =
    retire env i gone (retiredHeads (p.span i).dir (p.span i).x chain (p.span i).plan)
      (decide (chain.length ≤ (retiredHeads (p.span i).dir (p.span i).x chain (p.span i).plan).length)) p := rfl

/-- The reports of a retirement (R43, R46, R51). -/
theorem retire_out (gone segs : List Segment) (ends : Bool) (hprefix : segs <+: (p.span i).plan) :
    (retire env i gone segs ends p).out = (retireReports env.time i (p.span i).lw ((p.span i).plan.length + gone.length) (gone ++ segs)
      ((p.span i).state == .moving && ((p.span i).plan.drop segs.length).isEmpty)).foldl ReportQueue.push p.out := by
  have hlen := hprefix.length_le
  have hcount : ((p.span i).plan.drop segs.length).length + (gone ++ segs).length = (p.span i).plan.length + gone.length := by
    simp only [List.length_drop, List.length_append]
    omega
  have hspan := retired_eq (p.span i) segs ends
  simp only [retire, reportRetired, Plant.reports_out, Plant.span_setSpan, Plant.setSpan_out]
  rw [hspan]
  simp only [hcount]

theorem run_retires_prefix (dir : Dir) (x : Int) (sp : Span) : retiredHeads dir x sp.run sp.plan <+: sp.plan :=
  retiredHeads_isPrefix dir x sp.run_isPrefix

/-! ### The change of state behind a retirement -/

/-- A change of state with no host write to withdraw queues its SPAN_STATE report and no other. -/
theorem changeState_out_of_no_writes {new : SpanState} {rec : Option StopRecord}
    (h : ∀ e ∈ p.link.params, p.link.isWriteOf i e = false) : (changeState env i new rec p).out =
      p.out.push (.spanState i (p.span i).state new ((p.span i).enter (env.span i) new rec).stop) := by
  cases hen : new.energised with
  | false => exact changeState_out env i new rec p hen
  | true =>
    have hnone : p.link.params.filter (p.link.isWriteOf i) = [] := by
      rw [List.filter_eq_nil_iff]
      intro e he
      rw [h e he]
      decide
    rw [changeState_energised_out env i rec p hen, hnone]
    rfl

/-- The measurement leaves which queued entries are writes to a slot's addresses. -/
theorem periodFound_isWriteOf (e : ParamEntry) : (periodFound env i p).link.isWriteOf i e = p.link.isWriteOf i e := by
  have haddr : ∀ a : AddrRec, (a.shown env i).addr = a.addr ∧ (a.shown env i).slot = a.slot := by
    intro a
    unfold AddrRec.shown
    split <;> exact ⟨rfl, rfl⟩
  cases e with
  | lock _ _ => rfl
  | host addr _ _ =>
    have hfind : (periodFound env i p).link.find addr = (p.link.find addr).map (AddrRec.shown env i) := by
      simp only [BogieLink.find, periodFound_link, List.find?_map, Function.comp_def, haddr]
    simp only [BogieLink.isWriteOf, hfind]
    cases p.link.find addr with
    | none => rfl
    | some a => simp [haddr]

/-! ### STOPPING under a CONTROLLED or QUICK stop (R48, R70) -/

/-- The plant of a ramp behind its advance and its retirements. -/
def rampedPlant (env : Env) (i : Slot) (u room : Nat) (p : Plant) : Plant :=
  if (p.span i).jog.isSome then p.setSpan i (advance (p.span i) u room).1
  else (retireReached env i (p.span i).run [] (p.setSpan i (advance (p.span i) u room).1)).1

theorem rampStep_eq {rec : StopRecord} {t : Travel} (ht : (p.span i).travel 100 = some t) :
    rampStep env i rec p =
      let u := (p.span i).v - (if rec.kind = .quick then (env.span i).aq else (env.span i).ad) / 100
      let q := rampedPlant env i u (t.room (zoneEdges i p)) p
      if (advance (p.span i) u (t.room (zoneEdges i p))).1.v = 0 then enterEnd env i rec.endState q else q := by
  cases hkind : rec.kind <;> simp [rampStep, rampedPlant, ht, hkind]

/-- The plan a ramp leaves: a jog's as it was, and a run's without the heads reached. -/
def rampedPlan (sp : Span) (x : Int) : List Segment :=
  if sp.jog.isSome then sp.plan else sp.plan.drop (retiredHeads sp.dir x sp.run sp.plan).length

/-- The span of a ramp behind its advance and its retirements: the plan and what is remembered of its last segment, and else
what the advance leaves. -/
theorem rampedPlant_span (u room : Nat) :
    let a := (rampedPlant env i u room p).span i
    let c := (advance (p.span i) u room).1
    (a.x = c.x ∧ a.v = c.v ∧ a.r = c.r) ∧ a.plan = rampedPlan (p.span i) c.x ∧ a.state = (p.span i).state ∧
      a.stop = (p.span i).stop ∧ a.starved = (p.span i).starved ∧ a.proof = (p.span i).proof := by
  intro a c
  have hadv : c = { p.span i with x := c.x, v := c.v, r := c.r } := advance_eq (p.span i) u room
  have hset : (p.setSpan i c).span i = c := Plant.span_setSpan ..
  cases hjog : (p.span i).jog.isSome with
  | true =>
    have ha : a = c := by simp only [a, rampedPlant, hjog, if_true]; exact hset
    rw [ha, hadv]
    simp only [rampedPlan, hjog, if_true, and_self]
  | false =>
    have ha : a = c.retired (retiredHeads c.dir c.x (p.span i).run c.plan)
        (decide ((p.span i).run.length ≤ (retiredHeads c.dir c.x (p.span i).run c.plan).length)) := by
      simp only [a, rampedPlant, hjog, Bool.false_eq_true, if_false, retireReached_fst, retire_span]
      rw [hset]
    rw [ha, retired_eq, hadv]
    simp only [rampedPlan, hjog, Bool.false_eq_true, if_false, and_self]

theorem rampedPlant_rest (u room : Nat) :
    (rampedPlant env i u room p).zones = p.zones ∧ (rampedPlant env i u room p).link = p.link := by
  unfold rampedPlant
  split
  · exact ⟨rfl, rfl⟩
  · rw [retireReached_fst]
    exact ⟨retire_zones .., retire_link ..⟩

theorem rampedPlant_out (u room : Nat) (hstate : (p.span i).state = .stopping) : (rampedPlant env i u room p).out =
    (if (p.span i).jog.isSome then [] else retireReports env.time i (p.span i).lw (p.span i).plan.length
      (retiredHeads (p.span i).dir (advance (p.span i) u room).1.x (p.span i).run (p.span i).plan) false).foldl
        ReportQueue.push p.out := by
  have hadv := advance_eq (p.span i) u room
  unfold rampedPlant
  split
  · rfl
  · have hprefix := run_retires_prefix (p.span i).dir (advance (p.span i) u room).1.x (p.span i)
    have hspan : (p.setSpan i (advance (p.span i) u room).1).span i = (advance (p.span i) u room).1 := Plant.span_setSpan ..
    rw [retireReached_fst, retire_out _ _ _ (by rw [hspan, hadv]; exact hprefix), hspan, hadv]
    simp only [hstate, Plant.setSpan_out, List.nil_append, List.length_nil, Nat.add_zero]
    rfl

/-- What a period of a ramp leaves of its span, and its reports. -/
theorem rampStep_leaves {rec : StopRecord} {t : Travel} {room u : Nat} (hstate : (p.span i).state = .stopping)
    (hstop : (p.span i).stop = some rec) (ht : (p.span i).travel 100 = some t) (hroom : room = t.room (zoneEdges i p))
    (hu : u = (p.span i).v - (if rec.kind = .quick then (env.span i).aq else (env.span i).ad) / 100)
    (htest : (p.span i).proof.due = false ∧ (env.span i).autoProof = false) :
    let q := rampStep env i rec p
    let b := q.span i
    let δ := (u + (p.span i).r) / 100
    q.zones = p.zones ∧ b.x = (p.span i).x + dirInt (p.span i).dir * (min δ room : Nat) ∧
      b.r = (if δ < room then (u + (p.span i).r) % 100 else 0) ∧ b.starved = (p.span i).starved ∧
      b.plan = rampedPlan (p.span i) b.x ∧
      (δ < room → u ≠ 0 → b.state = .stopping ∧ b.v = u ∧ b.stop = some rec) ∧
      (room ≤ δ ∨ u = 0 → b.v = 0 ∧ b.stop = none ∧ b.jog = none ∧ b.running = false ∧ b.zoneWait = false ∧ b.dwellT = none ∧
        b.state = endSpanState rec.endState) ∧
      ((∀ e ∈ p.link.params, p.link.isWriteOf i e = false) →
        q.out = ((if (p.span i).jog.isSome then [] else retireReports env.time i (p.span i).lw (p.span i).plan.length
            (retiredHeads (p.span i).dir b.x (p.span i).run (p.span i).plan) false) ++
          (if room ≤ δ ∨ u = 0 then [Report.spanState i .stopping b.state none] else [])).foldl ReportQueue.push p.out) := by
  intro q b δ
  obtain ⟨hzones, hlink⟩ := rampedPlant_rest (env := env) (i := i) (p := p) u room
  have hout := rampedPlant_out (env := env) u room hstate
  obtain ⟨⟨hax, hav, har⟩, haplan, hastate, hastop, hastarved, haproof⟩ := rampedPlant_span (env := env) (i := i) (p := p) u room
  have hx : (advance (p.span i) u room).1.x = (p.span i).x + dirInt (p.span i).dir * (min δ room : Nat) := by
    rcases Nat.lt_or_ge δ room with h | h
    · rw [advance_short h, Nat.min_eq_left (Nat.le_of_lt h)]
    · rw [advance_snap h, Nat.min_eq_right h]
  have hr : (advance (p.span i) u room).1.r = (if δ < room then (u + (p.span i).r) % 100 else 0) := by
    rcases Nat.lt_or_ge δ room with h | h
    · rw [advance_short h, if_pos h]
    · rw [advance_snap h, if_neg (Nat.not_lt.2 h)]
  have hv : (advance (p.span i) u room).1.v = 0 ↔ room ≤ δ ∨ u = 0 := by
    rcases Nat.lt_or_ge δ room with h | h
    · rw [advance_short h]
      exact ⟨.inr, fun hor => hor.resolve_left (Nat.not_le.2 h)⟩
    · rw [advance_snap h]
      exact ⟨fun _ => .inl h, fun _ => rfl⟩
  have hq : q = if (advance (p.span i) u room).1.v = 0 then enterEnd env i rec.endState (rampedPlant env i u room p)
      else rampedPlant env i u room p := by
    rw [hu, hroom]
    exact rampStep_eq ht
  by_cases hends : room ≤ δ ∨ u = 0
  · rw [if_pos (hv.2 hends), enterEnd_plain _ _ _ _ (by rw [haproof]; exact htest.1) htest.2] at hq
    have hb := changeState_span env i (endSpanState rec.endState) none (rampedPlant env i u room p)
    rw [← hq] at hb
    have hbx : b.x = (advance (p.span i) u room).1.x := (congrArg Span.x hb).trans hax
    have hbr : b.r = (advance (p.span i) u room).1.r := (congrArg Span.r hb).trans har
    have hbstarved : b.starved = (p.span i).starved := (congrArg Span.starved hb).trans hastarved
    have hbplan : b.plan = rampedPlan (p.span i) (advance (p.span i) u room).1.x := (congrArg Span.plan hb).trans haplan
    have hbstate : b.state = endSpanState rec.endState := congrArg Span.state hb
    have hgen : generatorRuns (endSpanState rec.endState) none = false := by cases rec.endState <;> rfl
    have hnot : endSpanState rec.endState ≠ .stopping ∧ endSpanState rec.endState ≠ .starting := by
      cases rec.endState <;> exact ⟨by decide, by decide⟩
    refine ⟨by rw [hq, changeState_zones, hzones], hbx.trans hx, hbr.trans hr, hbstarved, by rw [hbx, hbplan],
      fun h hne => absurd hends (not_or.2 ⟨Nat.not_le.2 h, hne⟩), fun _ => ?_, fun hwrites => ?_⟩
    · refine ⟨?_, ?_, ?_, ?_, ?_, ?_, hbstate⟩ <;> simp only [b] <;> rw [hb] <;> simp [Span.enter, hgen, hnot]
    · have hnostop : (((rampedPlant env i u room p).span i).enter (env.span i) (endSpanState rec.endState) none).stop = none := by
        simp [Span.enter, hnot]
      have hqout := changeState_out_of_no_writes (env := env) (i := i) (new := endSpanState rec.endState) (rec := none)
        (p := rampedPlant env i u room p) (by rw [hlink]; exact hwrites)
      rw [← hq, hnostop, hastate, hstate, hout] at hqout
      rw [if_pos hends, hbx, hbstate, List.foldl_append]
      exact hqout
  · rw [if_neg (fun h => hends (hv.1 h))] at hq
    have hb : b = (rampedPlant env i u room p).span i := congrArg (fun p : Plant => p.span i) hq
    rw [← hb] at hax hav har haplan hastate hastop hastarved
    refine ⟨by rw [hq, hzones], hax.trans hx, har.trans hr, hastarved, by rw [hax, haplan], fun h hne => ?_, fun h => absurd h hends,
      fun _ => ?_⟩
    · exact ⟨hastate.trans hstate, hav.trans (by rw [advance_short h]), hastop.trans hstop⟩
    · rw [if_neg hends, List.append_nil, hax, hq]
      exact hout

end

/-- Settles O39: the limits of the speed chosen, and the period of a ramp. -/
theorem chosenSpeedKeepsItsLimits : Obligations.ChosenSpeedKeepsItsLimits := by
  unfold Obligations.ChosenSpeedKeepsItsLimits
  refine ⟨fun ad dacc l0 v r c room bs u hu => ?_, fun s i rec t room u δ hrun hstate hstop hkind hraised ht hroom hu hδ htest => ?_⟩
  · obtain ⟨hwithin, habove, hfall, hrise⟩ := checkedSpeed_limits ad dacc l0 v r bs
    have hmax := checkedSpeed_le ad dacc l0 v r bs
    rcases creepFloor_cases c l0 room (checkedSpeed ad dacc l0 v r bs) with heq | ⟨heq, hlt⟩
    · rw [heq] at hu
      subst hu
      exact ⟨hwithin, habove, hfall, hmax, fun h => .inl (hrise h).1, fun h => Nat.le_trans (hrise h).2 (Nat.le_max_left _ _)⟩
    · rw [heq] at hu
      exact ⟨fun _ => by omega, fun _ => .inl (by omega), by omega, by omega, fun _ => .inr hu, fun _ => by omega⟩
  · have hfound := periodFound_span (env := s.env) (i := i) (p := s.plant)
    rw [measuredFrom] at hfound
    have hstep : spanStep s.env i (periodFound s.env i s.plant) = rampStep s.env i rec (periodFound s.env i s.plant) := by
      have hsafe : rec.isSafe = false := by simpa [StopRecord.isSafe] using hkind
      have hs : ((periodFound s.env i s.plant).span i).state = .stopping := by rw [hfound]; exact hstate
      have hr : ((periodFound s.env i s.plant).span i).stop = some rec := by rw [hfound]; exact hstop
      simp [spanStep, hs, hr, hsafe]
    have hedges : zoneEdges i (periodFound s.env i s.plant) = zoneEdges i s.plant := by
      simp only [zoneEdges, periodFound_zones]
      rw [hfound]
      rfl
    have hleaves := rampStep_leaves (env := s.env) (i := i) (p := periodFound s.env i s.plant) (rec := rec) (t := t) (room := room)
      (u := u) (by rw [hfound]; exact hstate) (by rw [hfound]; exact hstop) (by rw [hfound]; exact ht) (by rw [hedges]; exact hroom)
      (by rw [hfound]; exact hu) (by rw [hfound]; exact htest)
    rw [← hstep, hfound] at hleaves
    obtain ⟨hzones, hx, hr, hstarved, hplan, hstands, hends, hout⟩ := hleaves
    obtain ⟨hothers, hkept, -⟩ := StepKeeps.spanStep s.env i (periodFound s.env i s.plant)
    have harmed : ((spanStep s.env i (periodFound s.env i s.plant)).span i).skewArmed = (s.plant.span i).skewArmed := by
      simp only [Span.formed, Prod.mk.injEq] at hkept
      rw [hkept.2.2.2.1, hfound]
    have hb := periodFormed_span (env := s.env) (i := i) (p := spanStep s.env i (periodFound s.env i s.plant))
    rw [formedFrom] at hb
    subst hδ
    refine ⟨_, exec_spanPeriod hrun (by simp [hstate]) hraised, fun j hj => ?_, ?_⟩
    · exact (periodFormed_span_ne hj).trans ((hothers j hj).trans (periodFound_span_ne hj))
    rw [periodDone, hb]
    refine ⟨hx, hr, hstarved, fun hjog => ?_, fun hjog => ?_, hstands, fun h => ?_, fun hz hskew hwrites => ?_⟩
    · refine hplan.trans ?_
      simp only [rampedPlan, hjog, Option.isSome_none, Bool.false_eq_true, if_false]
      rfl
    · refine hplan.trans ?_
      simp only [rampedPlan, hjog, if_true]
    · obtain ⟨hv, hs, hj, hrunning, hwait, hdwell, hst⟩ := hends h
      refine ⟨hv, hs, hj, hrunning, hwait, hdwell, hst.trans ?_⟩
      cases rec.endState <;> rfl
    · rw [periodFormed_out (hzones.trans hz) (harmed.trans hskew)]
      exact hout fun e he => (periodFound_isWriteOf e).trans (hwrites e he)

end Sys2Proof.Machine
end

