-- ==== Sys2Proof/Proofs/MovingPeriods.lean ====
section
/-! PROOFS. A period in MOVING (R40 to R47, R61 to R69): the advance with its snap, what follows it, and the ends of runs and
jogs. -/

namespace Sys2Proof.Machine
open Safety

section
variable {env : Env} {i : Slot} {p : Plant}

/-! ### What follows an advance (R68) -/

theorem afterAdvance_jog_runs {j : JogContext} (hjog : (p.span i).jog = some j) (chain gone : List Segment) :
    afterAdvance env i chain gone false p = p := by
  simp [afterAdvance, hjog]

theorem afterAdvance_jog_ends {j : JogContext} (hjog : (p.span i).jog = some j) (chain gone : List Segment) :
    afterAdvance env i chain gone true p = takeStop env i controlledHold .envelopeEnd p := by
  simp [afterAdvance, hjog]

theorem afterAdvance_run (hjog : (p.span i).jog = none) (chain gone : List Segment) :
    afterAdvance env i chain gone false p = (retireReached env i chain gone p).1 := by
  simp only [afterAdvance, hjog, Option.isSome_none, Bool.false_eq_true, if_false]
  split
  · rename_i h; cases h
  · rfl

theorem afterAdvance_run_ends (hjog : (p.span i).jog = none) {chain : List Segment} (gone : List Segment) {last : Segment}
    (hlast : (retiredHeads (p.span i).dir (p.span i).x chain (p.span i).plan).getLast? = some last) :
    afterAdvance env i chain gone true p = endRun env i last (retireReached env i chain gone p).1 := by
  have hsnd : (retireReached env i chain gone p).2 = some last := hlast
  simp only [afterAdvance, hjog, Option.isSome_none, Bool.false_eq_true, if_false, hsnd]

theorem afterAdvance_run_none (hjog : (p.span i).jog = none) {chain : List Segment} (gone : List Segment)
    (hlast : (retiredHeads (p.span i).dir (p.span i).x chain (p.span i).plan).getLast? = none) :
    afterAdvance env i chain gone true p = (retireReached env i chain gone p).1 := by
  have hsnd : (retireReached env i chain gone p).2 = none := hlast
  simp only [afterAdvance, hjog, Option.isSome_none, Bool.false_eq_true, if_false, hsnd]

/-- A span that stands: its reference with v = 0, its direction and its plan. -/
def standsAt (x : Int) (r : Nat) (dir : Dir) (plan : List Segment) (a : Span) : Prop :=
  a.x = x ∧ a.v = 0 ∧ a.r = r ∧ a.dir = dir ∧ a.plan = plan

theorem standsAt_kept (x : Int) (r : Nat) (dir : Dir) (plan : List Segment) : KeptByStops (standsAt x r dir plan) where
  enter a sc new rec posted h := by
    obtain ⟨hx, hv, hr, hdir, hplan⟩ := h
    exact ⟨hx, by simp [Span.enter, hv], hr, hdir, hplan⟩
  fault _ _ h := h
  test _ _ h := h
  result _ _ h := h

theorem endRun_stands (last : Segment) {x : Int} {r : Nat} {dir : Dir} {plan : List Segment} (h : standsAt x r dir plan (p.span i)) :
    standsAt x r dir plan ((endRun env i last p).span i) := by
  simp only [endRun]
  split
  · refine (standsAt_kept x r dir plan).enterEnd ?_
    split
    · exact h
    · simp only [starve, Plant.report_span, Plant.span_setSpan]
      exact h
  · rw [Plant.span_setSpan]
    exact ⟨h.1, rfl, h.2.2⟩

/-- The plan behind an advance: a jog's as it was, and a run's without the heads reached. -/
def advancedPlan (chain : List Segment) (sp : Span) : List Segment :=
  if sp.jog.isSome then sp.plan else sp.plan.drop (retiredHeads sp.dir sp.x chain sp.plan).length

theorem retireReached_plan (hjog : (p.span i).jog = none) (chain gone : List Segment) :
    ((retireReached env i chain gone p).1.span i).plan = advancedPlan chain (p.span i) := by
  rw [retireReached_fst, retire_span, retired_eq, advancedPlan, hjog]
  rfl

/-- A span that stands behind its advance stands behind what follows it. -/
theorem afterAdvance_stands (chain gone : List Segment) (atStop : Bool) (hv : (p.span i).v = 0) :
    standsAt (p.span i).x (p.span i).r (p.span i).dir (advancedPlan chain (p.span i))
      ((afterAdvance env i chain gone atStop p).span i) := by
  cases hjog : (p.span i).jog with
  | some j =>
    have hstands : standsAt (p.span i).x (p.span i).r (p.span i).dir (advancedPlan chain (p.span i)) (p.span i) :=
      ⟨rfl, hv, rfl, rfl, by simp [advancedPlan, hjog]⟩
    cases atStop with
    | false => rw [afterAdvance_jog_runs hjog]; exact hstands
    | true => rw [afterAdvance_jog_ends hjog]; exact (standsAt_kept ..).takeStop _ _ hstands
  | none =>
    have hstands : standsAt (p.span i).x (p.span i).r (p.span i).dir (advancedPlan chain (p.span i))
        ((retireReached env i chain gone p).1.span i) := by
      refine ⟨?_, ?_, ?_, ?_, retireReached_plan hjog chain gone⟩ <;> rw [retireReached_fst, retire_span, retired_eq]
      exact hv
    cases atStop with
    | false => rw [afterAdvance_run hjog]; exact hstands
    | true =>
      cases hlast : (retiredHeads (p.span i).dir (p.span i).x chain (p.span i).plan).getLast? with
      | none => rw [afterAdvance_run_none hjog gone hlast]; exact hstands
      | some last => rw [afterAdvance_run_ends hjog gone hlast]; exact endRun_stands last hstands

/-- An advance that has not reached its stop point leaves the span MOVING, its run or its jog in progress. -/
theorem afterAdvance_goes_on (chain gone : List Segment) : ∃ dwell tag, (afterAdvance env i chain gone false p).span i =
    { p.span i with plan := advancedPlan chain (p.span i), lastDwell := dwell, lastTag := tag } := by
  cases hjog : (p.span i).jog with
  | some j =>
    have hplan : advancedPlan chain (p.span i) = (p.span i).plan := by simp [advancedPlan, hjog]
    rw [afterAdvance_jog_runs hjog, hplan]
    exact ⟨(p.span i).lastDwell, (p.span i).lastTag, rfl⟩
  | none =>
    have hplan : advancedPlan chain (p.span i) = (p.span i).plan.drop
        (retiredHeads (p.span i).dir (p.span i).x chain (p.span i).plan).length := by simp [advancedPlan, hjog]
    rw [afterAdvance_run hjog, retireReached_fst, retire_span, retired_eq, hplan]
    exact ⟨_, _, rfl⟩

/-! ### The end of a run (R44, R46, R47) -/

theorem starve_span : (starve env i p).span i = { p.span i with starved := true } := Plant.span_setSpan ..

theorem endRun_dwells (last : Segment) (hplan : (p.span i).plan ≠ []) :
    (endRun env i last p).span i = (p.span i).dwelling := by
  have hne : (p.span i).plan.isEmpty = false := by simpa using hplan
  simp [endRun, hne]

theorem endRun_holds (last : Segment) (hplan : (p.span i).plan = [])
    (htest : (p.span i).proof.due = false ∧ (env.span i).autoProof = false) :
    endRun env i last p = changeState env i .holding none (if last.stop then p else starve env i p) := by
  have hempty : (p.span i).plan.isEmpty = true := by simp [hplan]
  simp only [endRun, hempty, if_true]
  refine enterEnd_plain env i .holding _ ?_ htest.2
  split
  · exact htest.1
  · rw [starve_span]; exact htest.1

/-- What the end of a run that empties the plan leaves of the span, and its reports. -/
theorem endRun_leaves (last : Segment) (hplan : (p.span i).plan = []) (hstate : (p.span i).state = .moving)
    (htest : (p.span i).proof.due = false ∧ (env.span i).autoProof = false) :
    let q := endRun env i last p
    let b := q.span i
    q.zones = p.zones ∧ b.state = .holding ∧ b.running = false ∧ b.dwellT = none ∧ b.holdT = some ((env.span i).tHold * 1000) ∧
      b.starved = (if last.stop = true then (p.span i).starved else true) ∧
      ((∀ e ∈ p.link.params, p.link.isWriteOf i e = false) → q.out =
        ((if last.stop = true then [] else [Report.planStarved i ((p.span i).lastTag.getD 0) (p.span i).x env.time]) ++
          [Report.spanState i .moving .holding none]).foldl ReportQueue.push p.out) := by
  intro q b
  let u := if last.stop then p else starve env i p
  have hq : q = changeState env i .holding none u := endRun_holds last hplan htest
  have hu : u.zones = p.zones ∧ u.link = p.link ∧ (u.span i).state = .moving ∧
      (u.span i).starved = (if last.stop = true then (p.span i).starved else true) ∧
      u.out = (if last.stop = true then [] else [Report.planStarved i ((p.span i).lastTag.getD 0) (p.span i).x env.time]).foldl
        ReportQueue.push p.out := by
    cases hstop : last.stop with
    | true =>
      have hup : u = p := if_pos hstop
      rw [hup]
      exact ⟨rfl, rfl, hstate, rfl, rfl⟩
    | false =>
      have hup : u = starve env i p := if_neg (by rw [hstop]; decide)
      rw [hup, starve_span]
      exact ⟨rfl, rfl, hstate, rfl, rfl⟩
  obtain ⟨huzones, hulink, hustate, hustarved, huout⟩ := hu
  have hb := changeState_span env i .holding none u
  rw [← hq] at hb
  refine ⟨by rw [hq, changeState_zones, huzones], ?_, ?_, ?_, ?_, ?_, fun hwrites => ?_⟩
  · exact congrArg Span.state hb
  · simp only [b]; rw [hb]; simp [Span.enter, generatorRuns]
  · simp only [b]; rw [hb]; simp [Span.enter]
  · simp only [b]; rw [hb]; simp [Span.enter]
  · exact (congrArg Span.starved hb).trans hustarved
  · rw [hq, changeState_out_of_no_writes (by rw [hulink]; exact hwrites), hustate, huout, List.foldl_append]
    rfl

/-! ### The step of the generator -/

section
variable {k : Nat} {t : Travel} {room u : Nat} (gone : List Segment)
  (hk : speedFactor env (env.span i) (p.span i) = k) (ht : (p.span i).travel k = some t) (hroom : room = t.room (zoneEdges i p))
  (hu : u = creepFloor (env.span i).c (t.cruise * k / 100) room
    (checkedSpeed (env.span i).ad (t.accel / 100) (t.cruise * k / 100) (p.span i).v (p.span i).r (t.boundaries room)))
include hk ht hroom hu

theorem travelStep_eq : travelStep env i gone p = afterAdvance env i (p.span i).run gone
    ((advance (p.span i) u room).2 && room == t.stopAt) (p.setSpan i { (advance (p.span i) u room).1 with
      zoneWait := (zoneEdges i p).contains 0 || ((advance (p.span i) u room).2 && (zoneEdges i p).contains room) }) := by
  subst hk hroom hu
  simp only [travelStep, ht]
  rfl

/-- Short of the nearest stop point, x and r follow the speed chosen (R67). -/
theorem travelStep_short (h : (u + (p.span i).r) / 100 < room) : travelStep env i gone p =
    afterAdvance env i (p.span i).run gone false (p.setSpan i { p.span i with
      x := (p.span i).x + dirInt (p.span i).dir * ((u + (p.span i).r) / 100 : Nat), v := u, r := (u + (p.span i).r) % 100,
      zoneWait := false }) := by
  have hedge : (zoneEdges i p).contains 0 = false := by
    rw [← Bool.not_eq_true, List.contains_iff_mem]
    intro hin
    rw [hroom, Travel.room_zero hin] at h
    exact absurd h (Nat.not_lt_zero _)
  rw [travelStep_eq gone hk ht hroom hu, advance_short h, hedge]
  rfl

/-- At the nearest stop point, x stands on it (R67); a zone edge puts the span in zone wait (log entry 11). -/
theorem travelStep_snap (h : room ≤ (u + (p.span i).r) / 100) : ∃ wait, (room ≠ t.stopAt → wait = true) ∧
    travelStep env i gone p = afterAdvance env i (p.span i).run gone (room == t.stopAt) (p.setSpan i { p.span i with
      x := (p.span i).x + dirInt (p.span i).dir * room, v := 0, r := 0, zoneWait := wait }) := by
  refine ⟨(zoneEdges i p).contains 0 || (zoneEdges i p).contains room, fun hne => ?_, ?_⟩
  · have hin : room ∈ zoneEdges i p := by
      rw [hroom] at hne ⊢
      exact Travel.room_edge hne
    rw [Bool.or_eq_true, List.contains_iff_mem, List.contains_iff_mem]
    exact .inr hin
  · rw [travelStep_eq gone hk ht hroom hu, advance_snap h]
    simp only [Bool.true_and]

/-- What the step of the generator leaves, but at the end of a run or a jog. -/
theorem travelStep_leaves (hstate : (p.span i).state = .moving) :
    let b := (travelStep env i gone p).span i
    let δ := (u + (p.span i).r) / 100
    b.dir = (p.span i).dir ∧
      (δ < room → b.state = .moving ∧ b.v = u ∧ b.x = (p.span i).x + dirInt (p.span i).dir * (δ : Nat) ∧
        b.r = (u + (p.span i).r) % 100 ∧ b.zoneWait = false ∧ b.running = (p.span i).running ∧ b.jog = (p.span i).jog) ∧
      (room ≤ δ → b.x = (p.span i).x + dirInt (p.span i).dir * room ∧ b.v = 0 ∧ b.r = 0) ∧
      (room ≤ δ → room ≠ t.stopAt → b.state = .moving ∧ b.zoneWait = true ∧ b.running = (p.span i).running ∧
        b.jog = (p.span i).jog) ∧
      b.plan = advancedPlan (p.span i).run { p.span i with x := b.x } := by
  intro b δ
  rcases Nat.lt_or_ge δ room with h | h
  · have hstep := travelStep_short gone hk ht hroom hu h
    obtain ⟨dwell, tag, hspan⟩ := afterAdvance_goes_on (env := env) (i := i) (p := p.setSpan i { p.span i with
      x := (p.span i).x + dirInt (p.span i).dir * ((u + (p.span i).r) / 100 : Nat), v := u, r := (u + (p.span i).r) % 100,
      zoneWait := false }) (p.span i).run gone
    rw [← hstep, Plant.span_setSpan] at hspan
    have hb : b = _ := hspan
    rw [hb]
    exact ⟨rfl, fun _ => ⟨hstate, rfl, rfl, rfl, rfl, rfl, rfl⟩, fun hge => absurd h (Nat.not_lt.2 hge),
      fun hge => absurd h (Nat.not_lt.2 hge), rfl⟩
  · obtain ⟨wait, hwait, hstep⟩ := travelStep_snap gone hk ht hroom hu h
    have hstands := afterAdvance_stands (env := env) (i := i) (p := p.setSpan i { p.span i with
      x := (p.span i).x + dirInt (p.span i).dir * room, v := 0, r := 0, zoneWait := wait }) (p.span i).run gone (room == t.stopAt)
      (by rw [Plant.span_setSpan])
    rw [← hstep, Plant.span_setSpan] at hstands
    obtain ⟨hx, hv, hr, hdir, hplan⟩ := hstands
    refine ⟨hdir, fun hlt => absurd hlt (Nat.not_lt.2 h), fun _ => ⟨hx, hv, hr⟩, fun _ hne => ?_, ?_⟩
    · have hfalse : (room == t.stopAt) = false := by simpa using hne
      rw [hfalse] at hstep
      obtain ⟨dwell, tag, hspan⟩ := afterAdvance_goes_on (env := env) (i := i) (p := p.setSpan i { p.span i with
        x := (p.span i).x + dirInt (p.span i).dir * room, v := 0, r := 0, zoneWait := wait }) (p.span i).run gone
      rw [← hstep, Plant.span_setSpan] at hspan
      have hb : b = _ := hspan
      rw [hb]
      exact ⟨hstate, hwait hne, rfl, rfl⟩
    · refine hplan.trans ?_
      have hbx : b.x = (p.span i).x + dirInt (p.span i).dir * room := hx
      rw [hbx]
      rfl

/-- A jog at the end of the envelope is over (R74, R75). -/
theorem travelStep_jog_ends {j : JogContext} (hstate : (p.span i).state = .moving) (hjog : (p.span i).jog = some j)
    (hreach : room ≤ (u + (p.span i).r) / 100) (hstop : room = t.stopAt)
    (htest : (p.span i).proof.due = false ∧ (env.span i).autoProof = false) :
    ((travelStep env i gone p).span i).state = .holding ∧ ((travelStep env i gone p).span i).jog = none := by
  obtain ⟨wait, -, hstep⟩ := travelStep_snap gone hk ht hroom hu hreach
  have htrue : (room == t.stopAt) = true := by simpa using hstop
  rw [htrue, afterAdvance_jog_ends (by rw [Plant.span_setSpan]; exact hjog)] at hstep
  rw [hstep]
  obtain ⟨hnew, -, -, hnojog, -⟩ := controlledHold_holds (env := env) (i := i) (why := .envelopeEnd) (p := p.setSpan i { p.span i with
      x := (p.span i).x + dirInt (p.span i).dir * room, v := 0, r := 0, zoneWait := wait })
    (by rw [Plant.span_setSpan]; exact hstate) (by rw [Plant.span_setSpan])
    (.inr (.inr (by rw [Plant.span_setSpan]; exact htest)))
  exact ⟨hnew, hnojog⟩

end

/-! ### The stop point of a run -/

/-- A run's stop point is the end of its last segment (R60). -/
theorem travel_run {sp : Span} {k : Nat} {t : Travel} (hjog : sp.jog = none) (ht : sp.travel k = some t) :
    ∃ last, sp.run.getLast? = some last ∧ t.stopAt = ahead sp.dir sp.x last.target := by
  simp only [Span.travel, hjog] at ht
  cases hrun : sp.run with
  | nil => rw [hrun] at ht; cases ht
  | cons h rest =>
    rw [hrun] at ht
    cases ht
    exact ⟨(h :: rest).getLastD h, by rw [List.getLast?_cons]; cases rest <;> simp, rfl⟩

theorem ahead_reached (dir : Dir) (x target : Int) : 0 ≤ dirInt dir * (x + dirInt dir * (ahead dir x target : Nat) - target) := by
  cases dir <;> simp only [ahead, dirInt] <;> omega

theorem ahead_short {dir : Dir} {x target : Int} {d : Nat} (h : d < ahead dir x target) :
    ¬ 0 ≤ dirInt dir * (x + dirInt dir * (d : Nat) - target) := by
  cases dir <;> simp only [ahead, dirInt] at * <;> omega

/-- On its stop point, a run is reached whole. -/
theorem run_reached {sp : Span} {k : Nat} {t : Travel} (hjog : sp.jog = none) (ht : sp.travel k = some t) :
    sp.run ≠ [] ∧ ∀ g ∈ sp.run, reached sp.dir (sp.x + dirInt sp.dir * t.stopAt) g = true := by
  obtain ⟨last, hlast, hstop⟩ := travel_run hjog ht
  have hrunning : sp.run = runChain sp.dir sp.plan := by
    unfold Span.run at hlast ⊢
    split at hlast
    · rename_i h; rw [if_pos h]
    · cases hlast
  refine ⟨fun h => (by rw [h] at hlast; cases hlast), ?_⟩
  rw [hrunning] at hlast ⊢
  exact runChain_reached hlast (reached_iff.2 (by rw [hstop]; exact ahead_reached ..))

/-- Short of its stop point, a run is not reached whole. -/
theorem run_not_reached {sp : Span} {k : Nat} {t : Travel} (hjog : sp.jog = none) (ht : sp.travel k = some t) {d : Nat}
    (hd : d < t.stopAt) : ∃ g ∈ sp.run, reached sp.dir (sp.x + dirInt sp.dir * (d : Nat)) g = false := by
  obtain ⟨last, hlast, hstop⟩ := travel_run hjog ht
  refine ⟨last, List.mem_of_getLast? hlast, ?_⟩
  rw [← Bool.not_eq_true, reached_iff]
  exact ahead_short (by rw [← hstop]; exact hd)

/-- The heads retired on the stop point: the whole run, with the heads behind it at x. -/
theorem retiredHeads_at_stop {sp : Span} {k : Nat} {t : Travel} (hjog : sp.jog = none) (ht : sp.travel k = some t) :
    sp.run.length ≤ (retiredHeads sp.dir (sp.x + dirInt sp.dir * t.stopAt) sp.run sp.plan).length := by
  obtain ⟨hne, hall⟩ := run_reached hjog ht
  obtain ⟨later, hplan⟩ := sp.run_isPrefix
  rw [← hplan, retiredHeads_whole later hne hall, List.length_append]
  exact Nat.le_add_right _ _

/-- Short of its stop point a run leaves a segment in the plan. -/
theorem retiredHeads_before_stop {sp : Span} {k : Nat} {t : Travel} (hjog : sp.jog = none) (ht : sp.travel k = some t) {d : Nat}
    (hd : d < t.stopAt) :
    sp.plan.drop (retiredHeads sp.dir (sp.x + dirInt sp.dir * (d : Nat)) sp.run sp.plan).length ≠ [] := by
  have hshort := run_not_reached hjog ht hd
  rw [retiredHeads_short hshort]
  intro hnil
  have hlen := takeWhile_length_lt hshort
  have hle := sp.run_isPrefix.length_le
  rw [List.drop_eq_nil_iff] at hnil
  omega

/-- The end of a run in the step of the generator, with the heads `gone` retired at its start. -/
theorem travelStep_run_ends {k : Nat} {t : Travel} {room u : Nat} (gone : List Segment) {last : Segment}
    (hk : speedFactor env (env.span i) (p.span i) = k) (ht : (p.span i).travel k = some t) (hroom : room = t.room (zoneEdges i p))
    (hu : u = creepFloor (env.span i).c (t.cruise * k / 100) room
      (checkedSpeed (env.span i).ad (t.accel / 100) (t.cruise * k / 100) (p.span i).v (p.span i).r (t.boundaries room)))
    (hstate : (p.span i).state = .moving) (hjog : (p.span i).jog = none)
    (hreach : room ≤ (u + (p.span i).r) / 100) (hstop : room = t.stopAt)
    (htest : (p.span i).proof.due = false ∧ (env.span i).autoProof = false)
    (hlast : (retiredHeads (p.span i).dir ((p.span i).x + dirInt (p.span i).dir * room) (p.span i).run (p.span i).plan).getLast? =
      some last) :
    let q := travelStep env i gone p
    let b := q.span i
    let x := (p.span i).x + dirInt (p.span i).dir * room
    let segs := retiredHeads (p.span i).dir x (p.span i).run (p.span i).plan
    ((p.span i).plan.drop segs.length ≠ [] → b.state = .moving ∧ b.running = false ∧ b.starved = (p.span i).starved ∧
      b.dwellT = if last.dwell = 0 then none else some (last.dwell * 1000)) ∧
    ((p.span i).plan.drop segs.length = [] → q.zones = p.zones ∧ b.state = .holding ∧ b.running = false ∧ b.dwellT = none ∧
      b.holdT = some ((env.span i).tHold * 1000) ∧ b.starved = (if last.stop = true then (p.span i).starved else true) ∧
      ((∀ e ∈ p.link.params, p.link.isWriteOf i e = false) → q.out =
        (retireReports env.time i (p.span i).lw ((p.span i).plan.length + gone.length) (gone ++ segs) true ++
          (if last.stop = true then [] else [Report.planStarved i last.tag x env.time]) ++
          [Report.spanState i .moving .holding none]).foldl ReportQueue.push p.out)) := by
  intro q b x segs
  obtain ⟨wait, -, hstep⟩ := travelStep_snap gone hk ht hroom hu hreach
  have htrue : (room == t.stopAt) = true := by simpa using hstop
  let a := p.setSpan i { p.span i with x := x, v := 0, r := 0, zoneWait := wait }
  have ha : a.span i = { p.span i with x := x, v := 0, r := 0, zoneWait := wait } := Plant.span_setSpan ..
  let c := (retireReached env i (p.span i).run gone a).1
  have hends : decide ((p.span i).run.length ≤ segs.length) = true := by
    have hle := retiredHeads_at_stop hjog ht
    rw [← hstop] at hle
    exact decide_eq_true hle
  have hc : c.span i = (a.span i).retired segs true := by
    have hfst := retireReached_fst (env := env) (i := i) (p := a) (p.span i).run gone
    simp only [c, hfst, retire_span, ha]
    exact congrArg _ hends
  have hq : q = endRun env i last c := by
    simp only [q]
    rw [hstep, htrue]
    exact afterAdvance_run_ends (p := a) (by rw [ha]; exact hjog) gone (by rw [ha]; exact hlast)
  have hcs := retired_eq (a.span i) segs true
  obtain ⟨hdwell, htag⟩ := retired_last (sp := a.span i) hlast true
  rw [← hc, ha] at hcs hdwell htag
  have hcplan : (c.span i).plan = (p.span i).plan.drop segs.length := congrArg Span.plan hcs
  have hcstate : (c.span i).state = .moving := by rw [hcs]; exact hstate
  have hcx : (c.span i).x = x := by rw [hcs]
  have hcstarved : (c.span i).starved = (p.span i).starved := by rw [hcs]
  have hcproof : (c.span i).proof = (p.span i).proof := by rw [hcs]
  refine ⟨fun hplan => ?_, fun hplan => ?_⟩
  · have hb : b = (c.span i).dwelling := by
      simp only [b, hq]
      exact endRun_dwells last (by rw [hcplan]; exact hplan)
    have hlastDwell : (c.span i).lastDwell = some last.dwell := hdwell
    rw [hb]
    simp only [Span.dwelling, hlastDwell, hcstate, hcstarved, Option.getD_some, and_self]
  · obtain ⟨hzones, hst, hrun, hdw, hhold, hstarved, hout⟩ := endRun_leaves (env := env) (p := c) last (by rw [hcplan]; exact hplan)
      hcstate (by rw [hcproof]; exact htest)
    rw [← hq] at hzones hst hrun hdw hhold hstarved hout
    have hczones : c.zones = p.zones := by simp only [c, retireReached_fst, retire_zones]; rfl
    have hclink : c.link = p.link := by simp only [c, retireReached_fst, retire_link]; rfl
    refine ⟨hzones.trans hczones, hst, hrun, hdw, hhold, hstarved.trans (by rw [hcstarved]), fun hwrites => ?_⟩
    have hprefix : segs <+: (a.span i).plan := by rw [ha]; exact run_retires_prefix _ _ _
    have hcout : c.out = (retireReports env.time i (p.span i).lw ((p.span i).plan.length + gone.length) (gone ++ segs) true).foldl
        ReportQueue.push p.out := by
      have hret := retire_out (env := env) gone segs true hprefix
      rw [ha] at hret
      have hends' : ((p.span i).state == .moving && ((p.span i).plan.drop segs.length).isEmpty) = true := by simp [hstate, hplan]
      simp only [hends'] at hret
      have hcret : c = retire env i gone segs true a := by
        simp only [c, retireReached_fst, ha]
        exact congrArg (fun e => retire env i gone segs e a) hends
      rw [hcret]
      exact hret
    have hlen : (p.span i).plan.length ≤ segs.length := List.drop_eq_nil_iff.1 hplan
    have hctag : (c.span i).lastTag = some last.tag := htag.trans (if_pos hlen)
    rw [hout (by rw [hclink]; exact hwrites), hcout, hctag, hcx, ← List.foldl_append, Option.getD_some, List.append_assoc]

end

end Sys2Proof.Machine
end

