-- ==== Sys2Proof/Proofs/ReportsApart.lean ====
section
/-! PROOFS. Nothing of a plant but its report queue turns on that queue: two plants that differ in it alone differ in it alone
behind a period in MOVING. What the first period of a run queues, set apart from what it does (O38). -/

namespace Sys2Proof.Machine
open Safety

/-- The plants agree but for the report queue. -/
def SameBut (p q : Plant) : Prop := q = { p with out := q.out }

namespace SameBut

section
variable {p q : Plant}

theorem refl (p : Plant) : SameBut p p := rfl

theorem trans {u : Plant} (h : SameBut p q) (k : SameBut q u) : SameBut p u := by
  rw [SameBut] at h k ⊢
  rw [k, h]

theorem ite {c : Prop} [Decidable c] {p' q' : Plant} (h : SameBut p q) (k : SameBut p' q') :
    SameBut (if c then p else p') (if c then q else q') := by
  split
  · exact h
  · exact k

/-- An operation that does not read the report queue, on plants that agree but for it. -/
theorem apply {f g : Plant → Plant} (hf : ∀ p o, SameBut (f p) (g { p with out := o })) (h : SameBut p q) : SameBut (f p) (g q) := by
  rw [h]
  exact hf p _

end

section
variable (env : Env) (i : Slot) (p : Plant) (o : ReportQueue)

theorem reports {q : Plant} (h : SameBut p q) (rs rs' : List Report) : SameBut (p.reports rs) (q.reports rs') := by
  have hreports : ∀ (u : Plant) (ts : List Report), SameBut u (u.reports ts) := by
    intro u ts
    induction ts generalizing u with
    | nil => rfl
    | cons t ts ih => exact .trans (q := u.report t) rfl (ih _)
  have hback : SameBut (p.reports rs) p := by
    have hp := hreports p rs
    rw [SameBut] at hp ⊢
    rw [hp]
  exact (hback.trans h).trans (hreports q rs')

theorem postSet : SameBut (postSet env i p) (postSet env i { p with out := o }) := by
  have hspan : ({ p with out := o } : Plant).span i = p.span i := rfl
  simp only [Machine.postSet, hspan]
  split <;> rfl

theorem changeState (new : SpanState) (rec : Option StopRecord) :
    SameBut (changeState env i new rec p) (changeState env i new rec { p with out := o }) := by
  have hspan : ({ p with out := o } : Plant).span i = p.span i := rfl
  have hwrites : ∀ u v : Plant, SameBut u v → SameBut (withdrawWrites env i u) (withdrawWrites env i v) := by
    intro u v h
    exact apply (fun u o => reports (p := { u with link := { u.link with
      params := u.link.params.filter (fun e => !u.link.isWriteOf i e) } }) (q := { u with
        link := { u.link with params := u.link.params.filter (fun e => !u.link.isWriteOf i e) }, out := o }) rfl _ _) h
  have hdrop : ∀ u v : Plant, SameBut u v → SameBut (dropLockCommand i u) (dropLockCommand i v) := fun u v h =>
    apply (fun _ _ => rfl) h
  have hpost : ∀ u v : Plant, SameBut u v → SameBut (Machine.postSet env i u) (Machine.postSet env i v) := fun u v h =>
    apply (postSet env i) h
  simp only [Machine.changeState, hspan]
  have hfirst : SameBut
      ((p.setSpan i ((p.span i).enter (env.span i) new rec)).report
        (.spanState i (p.span i).state new ((p.span i).enter (env.span i) new rec).stop))
      ((({ p with out := o } : Plant).setSpan i ((p.span i).enter (env.span i) new rec)).report
        (.spanState i (p.span i).state new ((p.span i).enter (env.span i) new rec).stop)) := rfl
  have hsecond := ite (c := new.energised = true) (hwrites _ _ hfirst) hfirst
  have hthird := ite (c := ((p.span i).state == .locking || (p.span i).state == .unlocking) = true) (hdrop _ _ hsecond) hsecond
  exact ite (hpost _ _ hthird) hthird

theorem enterEnd (e : EndState) : SameBut (enterEnd env i e p) (enterEnd env i e { p with out := o }) := by
  have htest : ∀ u (o : ReportQueue), SameBut (tryTest env i u) (tryTest env i { u with out := o }) := fun u o =>
    ite (changeState env i (u.setSpan i { u.span i with test := some (TestRecord.start (u.span i).proof.nextDir) }) o _ _) rfl
  exact apply (f := tryTest env i) (g := tryTest env i) htest (changeState env i p o _ _)

theorem endRun (last : Segment) : SameBut (endRun env i last p) (endRun env i last { p with out := o }) := by
  have hstarve : SameBut (if last.stop then p else starve env i p)
      (if last.stop then { p with out := o } else starve env i { p with out := o }) := ite rfl rfl
  exact ite (apply (fun u o => enterEnd env i u o .holding) hstarve) rfl

theorem reportRetired (segs segs' : List Segment) : SameBut (reportRetired env i segs p) (reportRetired env i segs' { p with out := o }) :=
  reports p (q := { p with out := o }) rfl _ _

theorem retireReached (chain gone gone' : List Segment) :
    SameBut (retireReached env i chain gone p).1 (retireReached env i chain gone' { p with out := o }).1 :=
  reportRetired env i _ o _ _

theorem afterAdvance (hjog : (p.span i).jog = none) (chain gone gone' : List Segment) (atStop : Bool) :
    SameBut (afterAdvance env i chain gone atStop p) (afterAdvance env i chain gone' atStop { p with out := o }) := by
  have hretire := retireReached env i p o chain gone gone'
  cases atStop with
  | false => rw [afterAdvance_run hjog, afterAdvance_run (p := { p with out := o }) hjog]; exact hretire
  | true =>
    cases hlast : (retiredHeads (p.span i).dir (p.span i).x chain (p.span i).plan).getLast? with
    | none =>
      rw [afterAdvance_run_none hjog gone hlast, afterAdvance_run_none (p := { p with out := o }) hjog gone' hlast]
      exact hretire
    | some last =>
      rw [afterAdvance_run_ends hjog gone hlast, afterAdvance_run_ends (p := { p with out := o }) hjog gone' hlast]
      exact apply (fun u o => endRun env i u o last) hretire

/-- The step of the generator for a run, whatever heads its start has retired. -/
theorem travelStep (hjog : (p.span i).jog = none) (gone gone' : List Segment) :
    SameBut (travelStep env i gone p) (travelStep env i gone' { p with out := o }) := by
  have hspan : ({ p with out := o } : Plant).span i = p.span i := rfl
  cases ht : (p.span i).travel (speedFactor env (env.span i) (p.span i)) with
  | none =>
    simp only [Machine.travelStep, hspan, ht]
    exact reportRetired env i p o _ _
  | some t =>
    rw [travelStep_eq gone rfl ht rfl rfl, travelStep_eq (p := { p with out := o }) gone' rfl ht rfl rfl]
    refine afterAdvance env i (p.setSpan i _) o ?_ _ _ _ _
    rw [Plant.span_setSpan, advance_eq]
    exact hjog

/-! ### Behind the state machine -/

theorem skewStep : SameBut (skewStep env i p) (skewStep env i { p with out := o }) := by
  have hspan : ({ p with out := o } : Plant).span i = p.span i := rfl
  simp only [Machine.skewStep, hspan]
  split
  · rfl
  · exact ite rfl rfl

theorem alignSpan : SameBut (alignSpan env i p) (alignSpan env i { p with out := o }) := skewStep env i (driveSpan env i p) o

theorem raiseStops : SameBut (raiseStops env i p) (raiseStops env i { p with out := o }) := rfl

end

end SameBut

/-- The turn of an entry is the same whatever reports are queued. -/
theorem zoneTurn_entry (env : Env) (i : Slot) (sp : Span) (z : ZoneEntry) (a b : ReportQueue) :
    (zoneTurn env i sp z a).1 = (zoneTurn env i sp z b).1 := by
  have hrelease : ∀ (d : Side) (m : Bool) (w : ZoneEntry), (w.release env.time d m a).1 = (w.release env.time d m b).1 := by
    intro d m w
    simp only [ZoneEntry.release]
    split
    · split <;> rfl
    · rfl
  have hrequest : ∀ (d : Side) (m : Bool) (w : ZoneEntry) (a b : ReportQueue),
      (w.request env.time d m a).1 = (w.request env.time d m b).1 := by
    intro d m w a b
    simp only [ZoneEntry.request]
    split
    · rfl
    · split
      · split <;> rfl
      · rfl
  cases hside : z.sideOf i with
  | none => simp [zoneTurn, hside]
  | some d =>
    simp only [zoneTurn, hside]
    rw [hrelease]
    exact hrequest ..

theorem SameBut.zonePeriod (env : Env) (i : Slot) (p : Plant) (o : ReportQueue) :
    SameBut (zonePeriod env i p) (zonePeriod env i { p with out := o }) := by
  have hentries : ∀ a b : ReportQueue, (zoneSweep (zoneTurn env i (p.span i)) p.zones a).1 =
      (zoneSweep (zoneTurn env i (p.span i)) p.zones b).1 := by
    intro a b
    rw [zoneSweep_entries (g := fun z => (zoneTurn env i (p.span i) z p.out).1) fun z q => zoneTurn_entry env i _ z q p.out,
      zoneSweep_entries (g := fun z => (zoneTurn env i (p.span i) z p.out).1) fun z q => zoneTurn_entry env i _ z q p.out]
  have hzones : (Machine.zonePeriod env i { p with out := o }).zones = (Machine.zonePeriod env i p).zones := hentries o p.out
  rw [SameBut, ← hzones]
  rfl

/-- What a period forms behind the state machine. -/
theorem SameBut.periodFormed {env : Env} {i : Slot} {p q : Plant} (h : SameBut p q) :
    SameBut (periodFormed env i p) (periodFormed env i q) := by
  have halign := SameBut.apply (SameBut.alignSpan env i) h
  have hset := SameBut.apply (SameBut.postSet env i) halign
  have hzones := SameBut.apply (SameBut.zonePeriod env i) hset
  exact SameBut.apply (f := Machine.raiseStops env i) (g := Machine.raiseStops env i) (SameBut.raiseStops env i) hzones

/-! ### The start of a run (R42) -/

section
variable {env : Env} {i : Slot} {p : Plant}

/-- A span at the start of a run without the heads at x, where another head is left. -/
theorem retired_begins {sp : Span} {gone later : List Segment} (hplan : sp.plan = gone ++ later) (hlater : later ≠ []) :
    sp.retired gone false = { sp with plan := later } := by
  have hshort : ¬ sp.plan.length ≤ gone.length := by
    have hpos := List.length_pos_iff.2 hlater
    rw [hplan, List.length_append]
    omega
  cases hlast : gone.getLast? with
  | none =>
    rw [List.getLast?_eq_none_iff] at hlast
    subst hlast
    rw [List.nil_append] at hplan
    rw [← hplan]
    rfl
  | some last =>
    obtain ⟨hdwell, htag⟩ := retired_last (sp := sp) hlast false
    rw [if_neg hshort] at htag
    rw [retired_eq, hdwell, htag, hplan, List.drop_left]
    rfl

theorem headsAtX_eq {sp : Span} {gone later : List Segment} (hplan : sp.plan = gone ++ later)
    (hgone : ∀ g ∈ gone, g.target = sp.x) (hlater : ∀ h rest, later = h :: rest → h.target ≠ sp.x) : sp.headsAtX = gone := by
  have hall : ∀ g ∈ gone, (g.target == sp.x) = true := fun g hg => by simpa using hgone g hg
  rw [Span.headsAtX, hplan, List.takeWhile_append_of_pos hall]
  cases later with
  | nil => rw [List.takeWhile_nil, List.append_nil]
  | cons h rest =>
    have hne : (h.target == sp.x) = false := by simpa using hlater h rest rfl
    rw [List.takeWhile_cons, hne]
    simp

/-- A span whose run begins at a head beyond x. -/
def Span.begun (later : List Segment) (h : Segment) (sp : Span) : Span :=
  { sp with plan := later, running := true, dir := if sp.x < h.target then .pos else .neg }

theorem startRun_begins {gone later rest : List Segment} {h : Segment} (hplan : (p.span i).plan = gone ++ later)
    (hgone : ∀ g ∈ gone, g.target = (p.span i).x) (hlater : later = h :: rest) (hne : h.target ≠ (p.span i).x) :
    startRun env i p = p.setSpan i ((p.span i).begun later h) := by
  have hheads : (p.span i).headsAtX = gone := headsAtX_eq hplan hgone fun h' rest' heq => by
    rw [hlater] at heq
    obtain ⟨rfl, -⟩ := List.cons.inj heq
    exact hne
  have hretire : retireEqual i p = p.setSpan i { p.span i with plan := later } := by
    rw [retireEqual, hheads, retired_begins hplan (by rw [hlater]; exact List.cons_ne_nil _ _)]
  simp only [startRun, hretire, Plant.span_setSpan, hlater]
  rw [Plant.setSpan_setSpan]
  rfl

/-- The start of a run that finds every head at x ends the plan at once. -/
theorem startRun_ends {gone : List Segment} {last : Segment} (hplan : (p.span i).plan = gone)
    (hgone : ∀ g ∈ gone, g.target = (p.span i).x) (hlast : gone.getLast? = some last) :
    startRun env i p = endRun env i last (reportRetired env i gone (p.setSpan i ((p.span i).retired gone false))) := by
  have hheads : (p.span i).headsAtX = gone := headsAtX_eq (later := []) (by rw [hplan, List.append_nil]) hgone
    fun _ _ h => by cases h
  have hempty : ((p.span i).retired gone false).plan = [] := by
    rw [retired_eq, hplan]
    exact List.drop_length
  simp only [startRun, retireEqual, hheads, Plant.span_setSpan, hempty, hlast]

theorem periodFound_begun (later : List Segment) (h : Segment) :
    periodFound env i (p.setSpan i ((p.span i).begun later h)) =
      (periodFound env i p).setSpan i (((periodFound env i p).span i).begun later h) := by
  have hform : ∀ u : Plant, formPositions env i (u.setSpan i ((u.span i).begun later h)) =
      (formPositions env i u).setSpan i (((formPositions env i u).span i).begun later h) := by
    intro u
    simp only [formPositions, Plant.span_setSpan, Plant.setSpan_setSpan]
    rfl
  have htimer : (p.setSpan i ((p.span i).begun later h)).setSpan i
        { (p.setSpan i ((p.span i).begun later h)).span i with periodT := Config.periodMs } =
      (p.setSpan i { p.span i with periodT := Config.periodMs }).setSpan i
        (((p.setSpan i { p.span i with periodT := Config.periodMs }).span i).begun later h) := by
    simp only [Plant.span_setSpan, Plant.setSpan_setSpan]
    rfl
  simp only [periodFound, measureSpan]
  rw [htimer, hform]
  rfl

end

end Sys2Proof.Machine
end

