-- ==== Sys2Proof/Proofs/MovingObligation.lean ====
section
/-! PROOFS. The period in MOVING assembled: with a run or a jog in progress, in a dwell, and at the start of a run (O38). -/

namespace Sys2Proof.Machine
open Safety

section
variable {env : Env} {i : Slot} {p : Plant}

/-! ### The reports of the heads a run's start has retired -/

/-- The report queue with the reports of the heads a run's start has retired (R42). -/
def startReported (env : Env) (i : Slot) (gone : List Segment) (p : Plant) : ReportQueue :=
  (retireReports env.time i (p.span i).lw ((p.span i).plan.length + gone.length) gone false).foldl ReportQueue.push p.out

/-- Where a segment is left, the heads of a run's start are reported ahead of those of its advance. -/
theorem retireReached_gone {chain : List Segment} (gone : List Segment)
    (hprefix : retiredHeads (p.span i).dir (p.span i).x chain (p.span i).plan <+: (p.span i).plan)
    (hne : (p.span i).plan.drop (retiredHeads (p.span i).dir (p.span i).x chain (p.span i).plan).length ≠ []) :
    (retireReached env i chain gone p).1 =
      (retireReached env i chain [] { p with out := startReported env i gone p }).1 := by
  have hsame := SameBut.retireReached env i p (startReported env i gone p) chain gone []
  have hends : ((p.span i).state == .moving &&
      ((p.span i).plan.drop (retiredHeads (p.span i).dir (p.span i).x chain (p.span i).plan).length).isEmpty) = false := by
    rw [List.isEmpty_eq_false_iff.2 hne, Bool.and_false]
  have hleft : (retireReached env i chain gone p).1.out = (retireReports env.time i (p.span i).lw
      ((p.span i).plan.length + gone.length) (gone ++ retiredHeads (p.span i).dir (p.span i).x chain (p.span i).plan) false).foldl
        ReportQueue.push p.out := by
    rw [retireReached_fst, retire_out _ _ _ hprefix, hends]
  have hright : (retireReached env i chain [] { p with out := startReported env i gone p }).1.out =
      (retireReports env.time i (p.span i).lw (p.span i).plan.length
        (retiredHeads (p.span i).dir (p.span i).x chain (p.span i).plan) false).foldl ReportQueue.push
          (startReported env i gone p) := by
    rw [retireReached_fst]
    refine (retire_out (p := { p with out := startReported env i gone p }) [] _ _ hprefix).trans ?_
    have hspan : ({ p with out := startReported env i gone p } : Plant).span i = p.span i := rfl
    rw [hspan, hends, List.nil_append, List.length_nil, Nat.add_zero]
  have hout : (retireReached env i chain gone p).1.out =
      (retireReached env i chain [] { p with out := startReported env i gone p }).1.out := by
    rw [hleft, hright, retireReports_append, List.foldl_append, Nat.add_sub_cancel]
    rfl
  rw [SameBut, ← hout] at hsame
  exact hsame.symm

theorem afterAdvance_gone (hjog : (p.span i).jog = none) {chain : List Segment} (gone : List Segment) (atStop : Bool)
    (hprefix : retiredHeads (p.span i).dir (p.span i).x chain (p.span i).plan <+: (p.span i).plan)
    (hne : (p.span i).plan.drop (retiredHeads (p.span i).dir (p.span i).x chain (p.span i).plan).length ≠ []) :
    afterAdvance env i chain gone atStop p = afterAdvance env i chain [] atStop { p with out := startReported env i gone p } := by
  have hretire := retireReached_gone (env := env) gone hprefix hne
  cases atStop with
  | false => rw [afterAdvance_run hjog, afterAdvance_run (p := { p with out := startReported env i gone p }) hjog]; exact hretire
  | true =>
    cases hlast : (retiredHeads (p.span i).dir (p.span i).x chain (p.span i).plan).getLast? with
    | none =>
      rw [afterAdvance_run_none hjog gone hlast, afterAdvance_run_none (p := { p with out := startReported env i gone p }) hjog [] hlast]
      exact hretire
    | some last =>
      rw [afterAdvance_run_ends hjog gone hlast, afterAdvance_run_ends (p := { p with out := startReported env i gone p }) hjog [] hlast]
      exact congrArg (endRun env i last) hretire

section
variable {k : Nat} {t : Travel} {room u : Nat} (gone : List Segment)
  (hk : speedFactor env (env.span i) (p.span i) = k) (ht : (p.span i).travel k = some t) (hroom : room = t.room (zoneEdges i p))
  (hu : u = creepFloor (env.span i).c (t.cruise * k / 100) room
    (checkedSpeed (env.span i).ad (t.accel / 100) (t.cruise * k / 100) (p.span i).v (p.span i).r (t.boundaries room)))
  (hstate : (p.span i).state = .moving)
include hk ht hroom hu hstate

theorem travelStep_x : ((travelStep env i gone p).span i).x = (advance (p.span i) u room).1.x := by
  obtain ⟨-, hshort, hsnap, -, -⟩ := travelStep_leaves gone hk ht hroom hu hstate
  rcases Nat.lt_or_ge ((u + (p.span i).r) / 100) room with h | h
  · rw [(hshort h).2.2.1, advance_short h]
  · rw [(hsnap h).1, advance_snap h]

/-- A period that starts a run and leaves a segment reports the heads at x and goes on as a period of that run. -/
theorem travelStep_gone (hjog : (p.span i).jog = none) (hplan : ((travelStep env i gone p).span i).plan ≠ []) :
    travelStep env i gone p = travelStep env i [] { p with out := startReported env i gone p } := by
  obtain ⟨-, -, -, -, hleft⟩ := travelStep_leaves gone hk ht hroom hu hstate
  rw [hleft, travelStep_x gone hk ht hroom hu hstate] at hplan
  simp only [advancedPlan, hjog, Option.isSome_none, Bool.false_eq_true, if_false] at hplan
  rw [travelStep_eq gone hk ht hroom hu,
    travelStep_eq (p := { p with out := startReported env i gone p }) [] hk ht hroom hu]
  let a : Span := { (advance (p.span i) u room).1 with
    zoneWait := (zoneEdges i p).contains 0 || ((advance (p.span i) u room).2 && (zoneEdges i p).contains room) }
  have hadv := advance_eq (p.span i) u room
  let c := (advance (p.span i) u room).1
  have ha : a = { p.span i with x := c.x, v := c.v, r := c.r, zoneWait := a.zoneWait } := by
    simp only [a]
    rw [hadv]
  have hspan : (p.setSpan i a).span i = a := Plant.span_setSpan ..
  have hsame : startReported env i gone (p.setSpan i a) = startReported env i gone p := by
    simp only [startReported, hspan]
    rw [ha]
    rfl
  have hafter := afterAdvance_gone (env := env) (p := p.setSpan i a) (chain := (p.span i).run)
    (by rw [hspan, ha]; exact hjog) gone ((advance (p.span i) u room).2 && room == t.stopAt)
    (by rw [hspan, ha]; exact run_retires_prefix _ _ _) (by rw [hspan, ha]; exact hplan)
  rw [hsame] at hafter
  exact hafter

/-- A period that retires the whole plan of a run stands on its stop point. -/
theorem travelStep_emptied (hjog : (p.span i).jog = none) (hplan : ((travelStep env i gone p).span i).plan = []) :
    room ≤ (u + (p.span i).r) / 100 ∧ room = t.stopAt ∧
      retiredHeads (p.span i).dir ((p.span i).x + dirInt (p.span i).dir * room) (p.span i).run (p.span i).plan = (p.span i).plan := by
  obtain ⟨-, hshort, hsnap, -, hleft⟩ := travelStep_leaves gone hk ht hroom hu hstate
  rw [hleft] at hplan
  simp only [advancedPlan, hjog, Option.isSome_none, Bool.false_eq_true, if_false] at hplan
  have hle : room ≤ t.stopAt := by rw [hroom]; exact Travel.room_le _ _
  have hreach : room ≤ (u + (p.span i).r) / 100 := by
    refine Classical.byContradiction fun hlt => ?_
    rw [Nat.not_le] at hlt
    rw [(hshort hlt).2.2.1] at hplan
    exact retiredHeads_before_stop hjog ht (Nat.lt_of_lt_of_le hlt hle) hplan
  rw [(hsnap hreach).1] at hplan
  have hstop : room = t.stopAt := by
    refine Classical.byContradiction fun hne => ?_
    exact retiredHeads_before_stop hjog ht (Nat.lt_of_le_of_ne hle hne) hplan
  refine ⟨hreach, hstop, ?_⟩
  have hlen : (p.span i).plan.length ≤ _ := List.drop_eq_nil_iff.1 hplan
  have hprefix := run_retires_prefix (p.span i).dir ((p.span i).x + dirInt (p.span i).dir * room) (p.span i)
  exact hprefix.eq_of_length (Nat.le_antisymm hprefix.length_le hlen)

end

/-! ### The state machine in MOVING -/

theorem spanStep_dwells {n : Nat} (hstate : (p.span i).state = .moving) (hdwell : (p.span i).dwellT = some n) : spanStep env i p = p := by
  simp [spanStep, hstate, movingStep, hdwell]

theorem spanStep_travels (hstate : (p.span i).state = .moving) (hdwell : (p.span i).dwellT = none)
    (hgoes : (p.span i).jog.isSome = true ∨ (p.span i).running = true) : spanStep env i p = travelStep env i [] p := by
  have hgoes' : ((p.span i).jog.isSome || (p.span i).running) = true := by simpa using hgoes
  simp only [spanStep, hstate, movingStep, hdwell, Option.isSome_none, Bool.false_eq_true, if_false, hgoes', if_true]

theorem spanStep_starts (hstate : (p.span i).state = .moving) (hdwell : (p.span i).dwellT = none) (hjog : (p.span i).jog = none)
    (hrunning : (p.span i).running = false) : spanStep env i p =
      if ((startRun env i p).span i).running then travelStep env i (p.span i).headsAtX (startRun env i p) else startRun env i p := by
  simp only [spanStep, hstate, movingStep, hdwell, hjog, hrunning, Option.isSome_none, Bool.or_self, Bool.false_eq_true, if_false]

theorem periodFound_edges : zoneEdges i (periodFound env i p) = zoneEdges i p := by
  have hfound := periodFound_span (env := env) (i := i) (p := p)
  rw [measuredFrom] at hfound
  simp only [zoneEdges, periodFound_zones]
  rw [hfound]
  rfl

/-- The reports of a period, with no entry of the Clearance Table and no skew warning to give. -/
theorem periodDone_reports (hzones : (spanStep env i (periodFound env i p)).zones = p.zones) (hnone : p.zones = [])
    (hskew : (p.span i).skewArmed = false) : (periodDone env i p).out = (spanStep env i (periodFound env i p)).out := by
  obtain ⟨-, hkept, -⟩ := StepKeeps.spanStep env i (periodFound env i p)
  simp only [Span.formed, Prod.mk.injEq] at hkept
  obtain ⟨-, -, -, harmed, -⟩ := hkept
  have hfound := periodFound_span (env := env) (i := i) (p := p)
  rw [measuredFrom] at hfound
  exact periodFormed_out (hzones.trans hnone) (harmed.trans (by rw [hfound]; exact hskew))

end

/-! ### The period with a run or a jog in progress -/

section
variable {s : State} {i : Slot} {k : Nat} {t : Travel} {room u : Nat}
  (hstate : (s.plant.span i).state = .moving) (hdwell : (s.plant.span i).dwellT = none)
  (hgoes : (s.plant.span i).jog.isSome = true ∨ (s.plant.span i).running = true)
  (hk : k = min s.wind.kw (min (s.plant.span i).override (if (s.plant.span i).degraded then (s.env.span i).kdeg else 100)))
  (ht : (s.plant.span i).travel k = some t) (hroom : room = t.room (zoneEdges i s.plant))
  (hu : u = creepFloor (s.env.span i).c (t.cruise * k / 100) room
    (checkedSpeed (s.env.span i).ad (t.accel / 100) (t.cruise * k / 100) (s.plant.span i).v (s.plant.span i).r (t.boundaries room)))
include hstate hdwell hgoes hk ht hroom hu

/-- What such a period leaves, but at the end of the run or the jog. -/
theorem movingPeriod_leaves : let b := (periodDone s.env i s.plant).span i
    let a := s.plant.span i
    let δ := (u + a.r) / 100
    b.dir = a.dir ∧
      (δ < room → b.state = .moving ∧ b.v = u ∧ b.x = a.x + dirInt a.dir * (δ : Nat) ∧ b.r = (u + a.r) % 100 ∧
        b.zoneWait = false ∧ b.running = a.running ∧ b.jog = a.jog) ∧
      (room ≤ δ → b.x = a.x + dirInt a.dir * room ∧ b.v = 0 ∧ b.r = 0) ∧
      (room ≤ δ → room ≠ t.stopAt → b.state = .moving ∧ b.zoneWait = true ∧ b.running = a.running ∧ b.jog = a.jog) ∧
      b.plan = advancedPlan a.run { a with x := b.x } := by
  intro b a δ
  have hfound := periodFound_span (env := s.env) (i := i) (p := s.plant)
  rw [measuredFrom] at hfound
  have hstep : spanStep s.env i (periodFound s.env i s.plant) = travelStep s.env i [] (periodFound s.env i s.plant) :=
    spanStep_travels (by rw [hfound]; exact hstate) (by rw [hfound]; exact hdwell) (by rw [hfound]; exact hgoes)
  have hleaves := travelStep_leaves (env := s.env) (p := periodFound s.env i s.plant) [] (k := k) (t := t) (room := room) (u := u)
    (by rw [hfound]; exact hk.symm) (by rw [hfound]; exact ht) (by rw [periodFound_edges]; exact hroom)
    (by rw [hfound]; exact hu) (by rw [hfound]; exact hstate)
  rw [← hstep, hfound] at hleaves
  have hb : formedFrom ((spanStep s.env i (periodFound s.env i s.plant)).span i) b := periodFormed_span
  rw [formedFrom] at hb
  rw [hb]
  exact hleaves

/-- The end of a jog at a period. -/
theorem movingPeriod_jog_ends {j : JogContext} (hjog : (s.plant.span i).jog = some j)
    (hreach : room ≤ (u + (s.plant.span i).r) / 100) (hstop : room = t.stopAt) (htest : noTestOwed s i) :
    ((periodDone s.env i s.plant).span i).state = .holding ∧ ((periodDone s.env i s.plant).span i).jog = none := by
  have hfound := periodFound_span (env := s.env) (i := i) (p := s.plant)
  rw [measuredFrom] at hfound
  have hstep : spanStep s.env i (periodFound s.env i s.plant) = travelStep s.env i [] (periodFound s.env i s.plant) :=
    spanStep_travels (by rw [hfound]; exact hstate) (by rw [hfound]; exact hdwell) (by rw [hfound]; exact hgoes)
  have hends := travelStep_jog_ends (env := s.env) (p := periodFound s.env i s.plant) [] (k := k) (t := t) (room := room) (u := u)
    (j := j) (by rw [hfound]; exact hk.symm) (by rw [hfound]; exact ht) (by rw [periodFound_edges]; exact hroom)
    (by rw [hfound]; exact hu) (by rw [hfound]; exact hstate) (by rw [hfound]; exact hjog) (by rw [hfound]; exact hreach) hstop
    (by rw [hfound]; exact htest)
  rw [← hstep] at hends
  have hb := periodFormed_span (env := s.env) (i := i) (p := spanStep s.env i (periodFound s.env i s.plant))
  rw [formedFrom] at hb
  rw [periodDone, hb]
  exact hends

/-- The end of a run at a period: a dwell, or HOLDING with its reports. -/
theorem movingPeriod_run_ends {last : Segment} (hjog : (s.plant.span i).jog = none)
    (hreach : room ≤ (u + (s.plant.span i).r) / 100) (hstop : room = t.stopAt) (htest : noTestOwed s i)
    (hlast : (retiredHeads (s.plant.span i).dir ((s.plant.span i).x + dirInt (s.plant.span i).dir * room) (s.plant.span i).run
      (s.plant.span i).plan).getLast? = some last) :
    let q := periodDone s.env i s.plant
    let b := q.span i
    let a := s.plant.span i
    let x := a.x + dirInt a.dir * room
    let segs := retiredHeads a.dir x a.run a.plan
    (a.plan.drop segs.length ≠ [] → b.state = .moving ∧ b.running = false ∧ b.starved = a.starved ∧
      b.dwellT = if last.dwell = 0 then none else some (last.dwell * 1000)) ∧
    (a.plan.drop segs.length = [] → b.state = .holding ∧ b.running = false ∧ b.dwellT = none ∧
      b.holdT = some ((s.env.span i).tHold * 1000) ∧ b.starved = (if last.stop = true then a.starved else true) ∧
      (s.plant.zones = [] → a.skewArmed = false → (∀ e ∈ s.plant.link.params, s.plant.link.isWriteOf i e = false) → q.out =
        (retireReports s.time i a.lw a.plan.length segs true ++
          (if last.stop = true then [] else [Report.planStarved i last.tag x s.time]) ++
          [Report.spanState i .moving .holding none]).foldl ReportQueue.push s.plant.out)) := by
  intro q b a x segs
  have hfound := periodFound_span (env := s.env) (i := i) (p := s.plant)
  rw [measuredFrom] at hfound
  have hstep : spanStep s.env i (periodFound s.env i s.plant) = travelStep s.env i [] (periodFound s.env i s.plant) :=
    spanStep_travels (by rw [hfound]; exact hstate) (by rw [hfound]; exact hdwell) (by rw [hfound]; exact hgoes)
  have hends := travelStep_run_ends (env := s.env) (p := periodFound s.env i s.plant) [] (k := k) (t := t) (room := room) (u := u)
    (last := last) (by rw [hfound]; exact hk.symm) (by rw [hfound]; exact ht) (by rw [periodFound_edges]; exact hroom)
    (by rw [hfound]; exact hu) (by rw [hfound]; exact hstate) (by rw [hfound]; exact hjog) (by rw [hfound]; exact hreach) hstop
    (by rw [hfound]; exact htest) (by rw [hfound]; exact hlast)
  rw [← hstep, hfound] at hends
  obtain ⟨hdwells, hholds⟩ := hends
  have hb : formedFrom ((spanStep s.env i (periodFound s.env i s.plant)).span i) b := periodFormed_span
  rw [formedFrom] at hb
  refine ⟨fun hplan => ?_, fun hplan => ?_⟩
  · rw [hb]
    exact hdwells hplan
  · obtain ⟨hzones, hst, hrun, hdw, hhold, hstarved, hout⟩ := hholds hplan
    refine ⟨?_, ?_, ?_, ?_, ?_, fun hnone hskew hwrites => ?_⟩
    · rw [hb]; exact hst
    · rw [hb]; exact hrun
    · rw [hb]; exact hdw
    · rw [hb]; exact hhold
    · rw [hb]; exact hstarved
    · exact (periodDone_reports hzones hnone hskew).trans (hout fun e he => (periodFound_isWriteOf e).trans (hwrites e he))

end

/-! ### The first period of a run -/

section
variable {env : Env} {i : Slot} {p : Plant}

/-- The plant of a first period behind the start of its run is the one a period of that run finds. -/
theorem startRun_found {gone later rest : List Segment} {h : Segment} (hplan : (p.span i).plan = gone ++ later)
    (hgone : ∀ g ∈ gone, g.target = (p.span i).x) (hlater : later = h :: rest) (hne : h.target ≠ (p.span i).x)
    (hstate : (p.span i).state = .moving) (hdwell : (p.span i).dwellT = none) (hjog : (p.span i).jog = none)
    (hrunning : (p.span i).running = false) :
    spanStep env i (periodFound env i p) =
        travelStep env i gone (periodFound env i (p.setSpan i ((p.span i).begun later h))) ∧
      spanStep env i (periodFound env i (p.setSpan i ((p.span i).begun later h))) =
        travelStep env i [] (periodFound env i (p.setSpan i ((p.span i).begun later h))) := by
  have hfound := periodFound_span (env := env) (i := i) (p := p)
  rw [measuredFrom] at hfound
  have hstart := startRun_begins (env := env) (i := i) (p := periodFound env i p) (gone := gone) (rest := rest)
    (by rw [hfound]; exact hplan) (by rw [hfound]; exact hgone) hlater (by rw [hfound]; exact hne)
  have hbegun := periodFound_begun (env := env) (i := i) (p := p) later h
  have hheads : ((periodFound env i p).span i).headsAtX = gone := headsAtX_eq (by rw [hfound]; exact hplan)
    (by rw [hfound]; exact hgone) fun h' rest' heq => by
      rw [hlater] at heq
      obtain ⟨rfl, -⟩ := List.cons.inj heq
      rw [hfound]
      exact hne
  refine ⟨?_, ?_⟩
  · rw [spanStep_starts (by rw [hfound]; exact hstate) (by rw [hfound]; exact hdwell) (by rw [hfound]; exact hjog)
      (by rw [hfound]; exact hrunning), hstart, hheads, ← hbegun]
    have hrun : ((periodFound env i (p.setSpan i ((p.span i).begun later h))).span i).running = true := by
      rw [hbegun, Plant.span_setSpan]
      rfl
    rw [if_pos hrun]
  · refine spanStep_travels ?_ ?_ (.inr ?_) <;> rw [hbegun, Plant.span_setSpan]
    · rw [hfound]; exact hstate
    · rw [hfound]; exact hdwell
    · rfl

/-- A span whose run has begun travels. -/
theorem begun_travels {sp : Span} {later rest : List Segment} {h : Segment} (hlater : later = h :: rest) (hjog : sp.jog = none)
    (k : Nat) : ∃ t, (sp.begun later h).travel k = some t := by
  have hrun : (sp.begun later h).run ≠ [] := by
    have hchain : (sp.begun later h).run = runChain (sp.begun later h).dir later := rfl
    rw [hchain]
    exact runChain_ne_nil (by rw [hlater]; exact List.cons_ne_nil _ _)
  have hjog' : (sp.begun later h).jog = none := hjog
  cases hcase : (sp.begun later h).run with
  | nil => exact absurd hcase hrun
  | cons a as => exact ⟨_, by simp only [Span.travel, hjog', hcase]; rfl⟩

end

section
variable {s : State} {i : Slot} {gone later : List Segment} (hrun : s.resetPin = false)
  (hstate : (s.plant.span i).state = .moving) (hdwell : (s.plant.span i).dwellT = none) (hraised : (s.plant.span i).raised = [])
  (hjog : (s.plant.span i).jog = none) (hrunning : (s.plant.span i).running = false)
  (hplan : (s.plant.span i).plan = gone ++ later) (hgone : ∀ g ∈ gone, g.target = (s.plant.span i).x)
include hrun hstate hdwell hraised hjog hrunning hplan hgone

/-- A first period with a head beyond x, against a period of the run it begins. -/
theorem firstPeriod_begins {h : Segment} {rest : List Segment} {p : Plant} (hlater : later = h :: rest)
    (hne : h.target ≠ (s.plant.span i).x) (hp : p = s.plant.setSpan i ((s.plant.span i).begun later h)) :
    ∃ (q u : Plant), exec (.spanPeriod i) s = .next (settle { s with plant := q }) ∧
      exec (.spanPeriod i) { s with plant := p } = .next (settle { s with plant := u }) ∧ q = { u with out := q.out } ∧
      ((q.span i).plan ≠ [] → exec (.spanPeriod i) s = exec (.spanPeriod i) { s with plant := { p with
        out := (retireReports s.time i (s.plant.span i).lw (s.plant.span i).plan.length gone false).foldl ReportQueue.push
          s.plant.out } }) ∧
      (∀ last, (q.span i).plan = [] → later.getLast? = some last → noTestOwed s i → s.plant.zones = [] →
        (s.plant.span i).skewArmed = false → (∀ e ∈ s.plant.link.params, s.plant.link.isWriteOf i e = false) →
        (q.span i).state = .holding ∧
        q.out = (retireReports s.time i (s.plant.span i).lw (s.plant.span i).plan.length (s.plant.span i).plan true ++
          (if last.stop = true then [] else [Report.planStarved i last.tag (q.span i).x s.time]) ++
          [Report.spanState i .moving .holding none]).foldl ReportQueue.push s.plant.out) := by
  obtain ⟨hfirst, hnext⟩ := startRun_found (env := s.env) hplan hgone hlater hne hstate hdwell hjog hrunning
  rw [← hp] at hfirst hnext
  let f := periodFound s.env i p
  have hspan : p.span i = (s.plant.span i).begun later h := by rw [hp, Plant.span_setSpan]
  have hfound := periodFound_span (env := s.env) (i := i) (p := p)
  rw [measuredFrom, hspan] at hfound
  have hfstate : (f.span i).state = .moving := by simp only [f]; rw [hfound]; exact hstate
  have hfjog : (f.span i).jog = none := by simp only [f]; rw [hfound]; exact hjog
  have hfx : (f.span i).x = (s.plant.span i).x := by simp only [f]; rw [hfound]; rfl
  have hfplan : (f.span i).plan = later := by simp only [f]; rw [hfound]; rfl
  have hflw : (f.span i).lw = (s.plant.span i).lw := by simp only [f]; rw [hfound]; rfl
  have hfproof : (f.span i).proof = (s.plant.span i).proof := by simp only [f]; rw [hfound]; rfl
  have hfarmed : (f.span i).skewArmed = (s.plant.span i).skewArmed := by simp only [f]; rw [hfound]; rfl
  have hfzones : f.zones = s.plant.zones := by simp only [f, periodFound_zones, hp, Plant.setSpan_zones]
  have hfout : f.out = s.plant.out := by simp only [f, periodFound_out, hp, Plant.setSpan_out]
  have hcount : later.length + gone.length = (s.plant.span i).plan.length := by rw [hplan, List.length_append, Nat.add_comm]
  have hconf : (s.plant.span i).state ≠ .unconfigured := by rw [hstate]; decide
  have hpconf : (p.span i).state ≠ .unconfigured := by rw [hspan]; exact hconf
  have hpraised : (p.span i).raised = [] := by rw [hspan]; exact hraised
  have hexec := exec_spanPeriod hrun hconf hraised
  have hexecRun : ∀ o, exec (.spanPeriod i) { s with plant := { p with out := o } } =
      .next (settle { s with plant := periodFormed s.env i (travelStep s.env i [] { f with out := o }) }) := by
    intro o
    have ho := exec_spanPeriod (s := { s with plant := { p with out := o } }) (i := i) hrun hpconf hpraised
    have hstep : spanStep s.env i { f with out := o } = travelStep s.env i [] { f with out := o } := by
      have hfd : (f.span i).dwellT = none := by simp only [f]; rw [hfound]; exact hdwell
      have hfr : (f.span i).running = true := by simp only [f]; rw [hfound]; rfl
      exact spanStep_travels (p := { f with out := o }) hfstate hfd (.inr hfr)
    rw [← hstep]
    exact ho
  obtain ⟨t, ht⟩ : ∃ t, (f.span i).travel (speedFactor s.env (s.env.span i) (f.span i)) = some t := by
    simp only [f]
    rw [hfound]
    exact begun_travels (sp := s.plant.span i) hlater hjog _
  have hq : periodDone s.env i s.plant = periodFormed s.env i (travelStep s.env i gone f) := by rw [periodDone, hfirst]
  have hb := periodFormed_span (env := s.env) (i := i) (p := travelStep s.env i gone f)
  rw [formedFrom, ← hq] at hb
  have hbplan : ((periodDone s.env i s.plant).span i).plan = ((travelStep s.env i gone f).span i).plan := by rw [hb]
  refine ⟨periodDone s.env i s.plant, periodFormed s.env i (travelStep s.env i [] f), hexec, hexecRun p.out, ?_, fun hleft => ?_,
    fun last hnone hlast htest hzones hskew hwrites => ?_⟩
  · rw [hq]
    exact SameBut.periodFormed (SameBut.travelStep s.env i f f.out hfjog [] gone)
  · have hgoes := travelStep_gone (env := s.env) (p := f) gone rfl ht rfl rfl hfstate hfjog (by rw [← hbplan]; exact hleft)
    have hreported : startReported s.env i gone f =
        (retireReports s.time i (s.plant.span i).lw (s.plant.span i).plan.length gone false).foldl ReportQueue.push s.plant.out := by
      simp only [startReported, hflw, hfplan, hfout, hcount]
      rfl
    rw [hexec, hq, hgoes, hreported, hexecRun]
  · rw [hbplan] at hnone
    obtain ⟨hreach, hstop, hwhole⟩ := travelStep_emptied (env := s.env) (p := f) gone rfl ht rfl rfl hfstate hfjog hnone
    have hsegs : (retiredHeads (f.span i).dir ((f.span i).x + dirInt (f.span i).dir * t.room (zoneEdges i f)) (f.span i).run
        (f.span i).plan).getLast? = some last := by rw [hwhole, hfplan]; exact hlast
    obtain ⟨-, hholds⟩ := travelStep_run_ends (env := s.env) (p := f) gone rfl ht rfl rfl hfstate hfjog hreach hstop
      (by rw [hfproof]; exact htest) hsegs
    obtain ⟨hzonesKept, hst, -, -, -, -, hout⟩ := hholds (by rw [hwhole]; exact List.drop_length)
    obtain ⟨-, -, hsnap, -, -⟩ := travelStep_leaves (env := s.env) (p := f) gone rfl ht rfl rfl hfstate
    have hbx : ((periodDone s.env i s.plant).span i).x = ((travelStep s.env i gone f).span i).x := by rw [hb]
    refine ⟨by rw [hb]; exact hst, ?_⟩
    have hstepOut : (spanStep s.env i (periodFound s.env i s.plant)).zones = s.plant.zones := by
      rw [hfirst]
      exact hzonesKept.trans hfzones
    rw [periodDone_reports hstepOut hzones hskew, hfirst, hbx, (hsnap hreach).1]
    have hwritesKept : ∀ e ∈ f.link.params, f.link.isWriteOf i e = false := by
      intro e he
      refine (periodFound_isWriteOf e).trans ?_
      rw [hp]
      refine hwrites e ?_
      simpa only [f, periodFound_link, hp, Plant.setSpan_link] using he
    rw [hout hwritesKept, hwhole, hfplan, hflw, hfout, hcount, ← hplan]
    rfl

/-- A first period that finds every head at x: the plan is at its end. -/
theorem firstPeriod_ends {last : Segment} (hlater : later = []) (hlast : gone.getLast? = some last) (htest : noTestOwed s i) :
    ∃ q : Plant, exec (.spanPeriod i) s = .next (settle { s with plant := q }) ∧ (q.span i).state = .holding ∧
      (q.span i).plan = [] ∧ (q.span i).x = (s.plant.span i).x ∧ (q.span i).v = 0 ∧
      (q.span i).starved = (if last.stop = true then (s.plant.span i).starved else true) ∧
      (s.plant.zones = [] → (s.plant.span i).skewArmed = false →
        (∀ e ∈ s.plant.link.params, s.plant.link.isWriteOf i e = false) →
        q.out = (retireReports s.time i (s.plant.span i).lw (s.plant.span i).plan.length gone true ++
          (if last.stop = true then [] else [Report.planStarved i last.tag (q.span i).x s.time]) ++
          [Report.spanState i .moving .holding none]).foldl ReportQueue.push s.plant.out) := by
  rw [hlater, List.append_nil] at hplan
  let f := periodFound s.env i s.plant
  have hfound := periodFound_span (env := s.env) (i := i) (p := s.plant)
  rw [measuredFrom] at hfound
  let a := f.setSpan i ((f.span i).retired gone false)
  let c := reportRetired s.env i gone a
  have hstart : startRun s.env i f = endRun s.env i last c := startRun_ends (by simp only [f]; rw [hfound]; exact hplan)
    (by simp only [f]; rw [hfound]; exact hgone) hlast
  have hca : c.span i = (f.span i).retired gone false := by simp only [c, a, reportRetired_span, Plant.span_setSpan]
  have hcs := retired_eq (f.span i) gone false
  obtain ⟨-, htag⟩ := retired_last (sp := f.span i) hlast false
  rw [← hca] at hcs htag
  have hfplan : (f.span i).plan = gone := by simp only [f]; rw [hfound]; exact hplan
  have hcplan : (c.span i).plan = [] := by rw [hcs, hfplan]; exact List.drop_length
  have hcstate : (c.span i).state = .moving := by rw [hcs]; simp only [f]; rw [hfound]; exact hstate
  have hcx : (c.span i).x = (s.plant.span i).x := by rw [hcs]; simp only [f]; rw [hfound]
  have hcstarved : (c.span i).starved = (s.plant.span i).starved := by rw [hcs]; simp only [f]; rw [hfound]
  have hclw : (c.span i).lw = (s.plant.span i).lw := by rw [hcs]; simp only [f]; rw [hfound]
  have hcproof : (c.span i).proof = (s.plant.span i).proof := by rw [hcs]; simp only [f]; rw [hfound]
  have hctag : (c.span i).lastTag = some last.tag := htag.trans (if_pos (Nat.le_of_eq (by rw [hfplan])))
  obtain ⟨hzones, hst, hnotRunning, -, -, hstarved, hout⟩ := endRun_leaves (env := s.env) (p := c) last hcplan hcstate
    (by rw [hcproof]; exact htest)
  have hholds := endRun_holds (env := s.env) (p := c) last hcplan (by rw [hcproof]; exact htest)
  have hheld : standsAt (s.plant.span i).x (c.span i).r (c.span i).dir [] ((endRun s.env i last c).span i) := by
    have hu : ∀ u : Plant, (u.span i).x = (s.plant.span i).x → (u.span i).r = (c.span i).r → (u.span i).dir = (c.span i).dir →
        (u.span i).plan = [] → standsAt (s.plant.span i).x (c.span i).r (c.span i).dir []
          ((changeState s.env i .holding none u).span i) := by
      intro u hx hr hdir hp
      rw [changeState_span]
      exact ⟨hx, by simp [Span.enter, generatorRuns], hr, hdir, hp⟩
    rw [hholds]
    cases last.stop
    · exact hu _ (by simp [starve, hcx]) (by simp [starve]) (by simp [starve]) (by simp [starve, hcplan])
    · exact hu _ hcx rfl rfl hcplan
  obtain ⟨hx, hv, -, -, hp⟩ := hheld
  have hstep : spanStep s.env i f = endRun s.env i last c := by
    rw [spanStep_starts (by simp only [f]; rw [hfound]; exact hstate) (by simp only [f]; rw [hfound]; exact hdwell)
      (by simp only [f]; rw [hfound]; exact hjog) (by simp only [f]; rw [hfound]; exact hrunning), hstart,
      if_neg (by rw [hnotRunning]; decide)]
  have hb := periodFormed_span (env := s.env) (i := i) (p := spanStep s.env i f)
  rw [formedFrom, hstep] at hb
  have hq : periodDone s.env i s.plant = periodFormed s.env i (endRun s.env i last c) := by rw [periodDone]; exact congrArg _ hstep
  have hbx : ((periodDone s.env i s.plant).span i).x = (s.plant.span i).x := by rw [hq, hb]; exact hx
  refine ⟨_, exec_spanPeriod hrun (by rw [hstate]; decide) hraised, ?_, ?_, hbx, ?_, ?_, fun hnone hskew hwrites => ?_⟩
  · rw [hq, hb]; exact hst
  · rw [hq, hb]; exact hp
  · rw [hq, hb]; exact hv
  · rw [hq, hb]; exact hstarved.trans (by rw [hcstarved])
  · have hczones : c.zones = s.plant.zones := by simp only [c, reportRetired_zones, a, Plant.setSpan_zones, f, periodFound_zones]
    have hclink : c.link = f.link := by simp only [c, reportRetired_link, a, Plant.setSpan_link]
    have hspan : a.span i = c.span i := by simp only [c, reportRetired_span]
    have hcout : c.out = (retireReports s.time i (s.plant.span i).lw (s.plant.span i).plan.length gone true).foldl
        ReportQueue.push s.plant.out := by
      refine (Plant.reports_out _ _).trans ?_
      rw [hspan, hcplan, hclw, hcstate, hplan, List.length_nil, Nat.zero_add]
      rfl
    have hkept : (spanStep s.env i (periodFound s.env i s.plant)).zones = s.plant.zones :=
      (congrArg Plant.zones hstep).trans (hzones.trans hczones)
    rw [periodDone_reports hkept hnone hskew, hbx]
    refine (congrArg Plant.out hstep).trans ?_
    have hcwrites : ∀ e ∈ c.link.params, c.link.isWriteOf i e = false := by
      rw [hclink]
      intro e he
      exact (periodFound_isWriteOf e).trans (hwrites e he)
    rw [hout hcwrites, hcout, hctag, hcx, ← List.foldl_append, Option.getD_some, List.append_assoc]
    rfl

end

/-- Settles O38: the period of a run or a jog, of a dwell and of the start of a run, and the lists of heads and reports. -/
theorem periodInMovingAdvancesOrSnaps : Obligations.PeriodInMovingAdvancesOrSnaps := by
  unfold Obligations.PeriodInMovingAdvancesOrSnaps
  refine ⟨fun s i k t room u hrun hstate hdwell hraised hgoes hk ht hroom hu => ?_, fun s i n hrun hstate hdwell hraised => ?_,
    fun s i gone later hrun hstate hdwell hraised hjog hrunning hplan hgone => ⟨fun h rest p hlater hne hp => ?_,
      fun last hlater hlast htest => ?_⟩, fun dir x chain later => ⟨fun hshort => ?_, fun hne hall => ?_⟩,
    fun time i lw count segs hlen => ⟨fun ends hquiet => ?_, fun habove hbelow => ⟨?_, ?_⟩⟩⟩
  · have hconf : (s.plant.span i).state ≠ .unconfigured := by rw [hstate]; decide
    obtain ⟨hothers, -, -⟩ := StepKeeps.spanStep s.env i (periodFound s.env i s.plant)
    obtain ⟨hdir, hshort, hsnap, hedge, hplan⟩ := movingPeriod_leaves hstate hdwell hgoes hk ht hroom hu
    have hleft : (s.plant.span i).jog = none → ((periodDone s.env i s.plant).span i).plan = (s.plant.span i).plan.drop
        (retiredHeads (s.plant.span i).dir ((periodDone s.env i s.plant).span i).x (s.plant.span i).run
          (s.plant.span i).plan).length := by
      intro hjog
      refine hplan.trans ?_
      simp only [advancedPlan, hjog, Option.isSome_none, Bool.false_eq_true, if_false]
    refine ⟨_, exec_spanPeriod hrun hconf hraised, fun j hj => ?_, hdir, hshort, hsnap, hedge, hleft, fun j hjog => ⟨?_, ?_⟩,
      fun segs last hjog hreach hstop htest hsegs hlast => ?_⟩
    · exact (periodFormed_span_ne hj).trans ((hothers j hj).trans (periodFound_span_ne hj))
    · refine hplan.trans ?_
      simp only [advancedPlan, hjog, Option.isSome_some, if_true]
    · intro hreach hstop htest
      exact movingPeriod_jog_ends hstate hdwell hgoes hk ht hroom hu hjog hreach hstop htest
    · have hx := (hsnap hreach).1
      subst hsegs
      rw [hleft hjog]
      rw [hx] at hlast ⊢
      exact movingPeriod_run_ends hstate hdwell hgoes hk ht hroom hu hjog hreach hstop htest hlast
  · have hfound := periodFound_span (env := s.env) (i := i) (p := s.plant)
    rw [measuredFrom] at hfound
    have hstep := spanStep_dwells (env := s.env) (i := i) (p := periodFound s.env i s.plant) (by rw [hfound]; exact hstate)
      (by rw [hfound]; exact hdwell)
    have hb := periodFormed_span (env := s.env) (i := i) (p := spanStep s.env i (periodFound s.env i s.plant))
    rw [formedFrom] at hb
    refine ⟨_, exec_spanPeriod hrun (by rw [hstate]; decide) hraised, ?_⟩
    rw [periodDone, hb, hstep, hfound]
    exact ⟨hstate, rfl, rfl, rfl, rfl, hdwell, rfl⟩
  · exact firstPeriod_begins hrun hstate hdwell hraised hjog hrunning hplan hgone hlater hne hp
  · exact firstPeriod_ends hrun hstate hdwell hraised hjog hrunning hplan hgone hlater hlast htest
  · have hshort' : ∃ g ∈ chain, reached dir x g = false := by
      obtain ⟨g, hg, hlt⟩ := hshort
      exact ⟨g, hg, by simpa [reached] using hlt⟩
    exact retiredHeads_short hshort'
  · exact retiredHeads_whole later hne fun g hg => reached_iff.2 (hall g hg)
  · exact retireReports_quiet time i lw hlen hquiet ends
  · exact retireReports_ending time i lw hlen habove hbelow
  · exact retireReports_crossing time i lw hlen habove hbelow

end Sys2Proof.Machine
end

