-- ==== Sys2Proof/Proofs/ClaimTurns.lean ====
section
/-! PROOFS. The Clearance Table's turn at a span's period (R132 to R136): what it makes of one entry and of all, and that the
state machine of a period leaves the entries to it. -/

namespace Sys2Proof.Machine
open Safety

/-! ### The entries through the state machine of a period -/

section
variable (env : Env) (i : Slot) (p : Plant)

@[simp] theorem startTest_zones : (startTest env i p).zones = p.zones := by simp [startTest]

@[simp] theorem tryTest_zones : (tryTest env i p).zones = p.zones := by
  unfold tryTest
  split
  · exact startTest_zones env i p
  · rfl

@[simp] theorem enterEnd_zones (e : EndState) : (enterEnd env i e p).zones = p.zones := by simp [enterEnd]

@[simp] theorem abandonTest_zones (why : AbandonCause) : (abandonTest env i why p).zones = p.zones := rfl

/-- No stop touches the Clearance Table. -/
@[simp] theorem takeStop_zones (req : StopRequest) (why : JogEnd) : (takeStop env i req why p).zones = p.zones := by
  unfold takeStop
  cases (p.span i).state with
  | unconfigured | locking | locked | unlocking => rfl
  | resting =>
    simp only [stopResting]
    split
    · simp
    · rfl
  | starting | proving => simp [stopStarting, stopProving]
  | moving =>
    simp only [stopMoving]
    split <;> simp
  | holding =>
    simp only [stopHolding]
    split
    · rfl
    · simp
  | stopping =>
    simp only [stopStopping]
    split
    · simp
    · split
      · simp
      · split <;> simp
  | faulted => exact registerStop_zones env i req p

theorem endRun_zones (last : Segment) : (endRun env i last p).zones = p.zones := by
  simp only [endRun]
  split
  · split
    · simp
    · simp [starve]
  · rfl

theorem retireReached_zones (chain gone : List Segment) : (retireReached env i chain gone p).1.zones = p.zones := by
  rw [retireReached_fst, retire_zones]

theorem startRun_zones : (startRun env i p).zones = p.zones := by
  simp only [startRun]
  split
  · rw [endRun_zones, reportRetired_zones]; rfl
  · rfl
  · rfl

theorem afterAdvance_zones (chain gone : List Segment) (atStop : Bool) : (afterAdvance env i chain gone atStop p).zones = p.zones := by
  simp only [afterAdvance]
  split
  · split
    · exact takeStop_zones env i p _ _
    · rfl
  · split
    · rw [endRun_zones, retireReached_zones]
    · exact retireReached_zones env i p chain gone

theorem travelStep_zones (gone : List Segment) : (travelStep env i gone p).zones = p.zones := by
  simp only [travelStep]
  split
  · exact reportRetired_zones env i gone p
  · rw [afterAdvance_zones, Plant.setSpan_zones]

theorem movingStep_zones : (movingStep env i p).zones = p.zones := by
  simp only [movingStep]
  split
  · rfl
  · split
    · exact travelStep_zones env i p _
    · split
      · rw [travelStep_zones, startRun_zones]
      · exact startRun_zones env i p

theorem rampStep_zones (r : StopRecord) : (rampStep env i r p).zones = p.zones := by
  have hite : ∀ (c : Prop) [Decidable c] (a b : Plant), a.zones = p.zones → b.zones = p.zones → (if c then a else b).zones = p.zones := by
    intro c _ a b ha hb
    split
    · exact ha
    · exact hb
  have hretire : ∀ (c : Prop) [Decidable c] (a : Plant), a.zones = p.zones →
      (if c then a else (retireReached env i (p.span i).run [] a).1).zones = p.zones := fun c _ a ha =>
    hite c _ _ ha ((retireReached_zones env i a _ _).trans ha)
  simp only [rampStep]
  refine hite _ _ _ ((enterEnd_zones env i _ _).trans (hretire _ _ ?_)) (hretire _ _ ?_)
  · exact Plant.setSpan_zones ..
  · exact Plant.setSpan_zones ..

theorem failTest_zones (creep : Option (Nat × Nat)) : (failTest env i creep p).zones = p.zones := by
  simp [failTest]

theorem testPeriod_zones : (testPeriod env i p).zones = p.zones := by
  unfold testPeriod
  split
  · rfl
  · split
    · split
      · simp [beginHold]
      · rfl
    · unfold holdPeriod
      split
      · simp
      · split
        · exact failTest_zones env i p _
        · rfl

theorem lockPeriods_zones : (lockingPeriod env i p).zones = p.zones ∧ (unlockingPeriod env i p).zones = p.zones := by
  unfold lockingPeriod unlockingPeriod
  constructor
  · split
    · split <;> simp
    · rfl
  · split
    · split <;> simp
    · rfl

variable {p} in
/-- The state machine of a period leaves the entries alone, but for the evaluation at the end of a SAFE stop. -/
theorem spanStep_zones (h : (p.span i).inSafeStop = false) : (spanStep env i p).zones = p.zones := by
  simp only [spanStep]
  split
  case h_1 | h_9 | h_11 => rfl
  case h_2 | h_5 => exact tryTest_zones env i p
  case h_3 =>
    split
    · exact changeState_zones ..
    · rfl
  case h_4 => exact movingStep_zones env i p
  case h_6 hstate =>
    split
    · rfl
    case h_2 r hstop =>
      have hsafe : r.isSafe = false := by simpa [Span.inSafeStop, hstate, hstop, StopRecord.isSafe] using h
      rw [if_neg (by simp [hsafe])]
      exact rampStep_zones env i p r
  case h_7 => exact testPeriod_zones env i p
  case h_8 => exact (lockPeriods_zones env i p).1
  case h_10 => exact (lockPeriods_zones env i p).2

end

/-! ### What an entry reads of a side -/

section
variable (z : ZoneEntry) (d e : Side) (w : ZoneSide) (i : Slot)

@[simp] theorem ZoneEntry.part_withPart : (z.withPart d w).part d = w := by cases d <;> rfl
@[simp] theorem ZoneEntry.other_withPart : (z.withPart d w).part (sideOther d) = z.part (sideOther d) := by cases d <;> rfl
@[simp] theorem ZoneEntry.claim_withPart : (z.withPart d w).claim = z.claim := by cases d <;> rfl
@[simp] theorem ZoneEntry.lo_withPart : (z.withPart d w).lo e = z.lo e := by cases d <;> rfl
@[simp] theorem ZoneEntry.hi_withPart : (z.withPart d w).hi e = z.hi e := by cases d <;> rfl

theorem sideClaim_ne_free : sideClaim d ≠ .free := by cases d <;> decide
theorem sideClaim_other_ne : sideClaim (sideOther d) ≠ sideClaim d := by cases d <;> decide

end

/-! ### The turn of one entry -/

section
variable {time : Time} {i : Slot} {d : Side} {b : Span} {z : ZoneEntry} {q : ReportQueue}

theorem covers_eq (x : Int) : z.covers d x = decide (z.lo d ≤ x ∧ x ≤ z.hi d) := by
  rw [ZoneEntry.covers, inRange, Bool.decide_and]

theorem insideAt_eq : z.insideAt d b.x b.meas.mr = insideNow z d b := by
  have hrails : ∀ f : Option Int → Bool, b.meas.mr.toList.any f = four.any (fun r => f (b.meas.mr.get r)) := fun _ => rfl
  rw [ZoneEntry.insideAt, insideNow, hrails, covers_eq]
  refine congrArg (_ || ·) (congrArg (List.any four) (funext fun r => ?_))
  cases b.meas.mr.get r with
  | none => rfl
  | some m => exact covers_eq m

theorem meets_eq : z.meets d b.x b.pathEnd = pathMeets z d b := by
  unfold ZoneEntry.meets pathMeets
  cases b.pathEnd with
  | none => rfl
  | some e => simp only [Option.any_some, Bool.decide_and]

/-- An entry with the inside flag of a side judged afresh (R132). -/
def ZoneEntry.found (z : ZoneEntry) (d : Side) (b : Span) : ZoneEntry :=
  z.withPart d { z.part d with inside := insideNow z d b }

theorem zoneTurn_eq {env : Env} (h : z.sideOf i = some d) : zoneTurn env i b z q =
    let a := (z.found d b).release env.time d (pathMeets z d b) q
    a.1.request env.time d (requests z d b) a.2 := by
  have hmeets : (z.found d b).meets d b.x b.pathEnd = pathMeets z d b := by
    rw [← meets_eq]
    simp only [ZoneEntry.meets]
    simp only [ZoneEntry.found, ZoneEntry.lo_withPart, ZoneEntry.hi_withPart]
  have hcovers : (z.found d b).covers d b.x = decide (z.lo d ≤ b.x ∧ b.x ≤ z.hi d) := by
    rw [← covers_eq, ZoneEntry.covers, ZoneEntry.covers]
    simp only [ZoneEntry.found, ZoneEntry.lo_withPart, ZoneEntry.hi_withPart]
  simp only [zoneTurn, h, insideAt_eq]
  simp only [← ZoneEntry.found.eq_1, hmeets, hcovers, requests, Span.inConflict]

/-! ### The outcomes of a turn -/

section
variable {env : Env} (h : z.sideOf i = some d)
include h

/-- A claim held by a span inside, or whose path meets the interval, is kept. -/
theorem zoneTurn_kept (hc : z.claim = sideClaim d) (hstay : insideNow z d b = true ∨ pathMeets z d b = true) :
    zoneTurn env i b z q = (z.found d b, q) := by
  have hkeep : (!insideNow z d b && !pathMeets z d b) = false := by rcases hstay with h | h <;> simp [h]
  rw [zoneTurn_eq h]
  simp [ZoneEntry.release, ZoneEntry.request, ZoneEntry.found, hc, hkeep]

omit h in
/-- Without the path of the entry's interval or x in it, nothing is requested. -/
theorem requests_of_gone (hinside : insideNow z d b = false) (hmeets : pathMeets z d b = false) : requests z d b = false := by
  have hx : decide (z.lo d ≤ b.x ∧ b.x ≤ z.hi d) = false := by
    rw [insideNow, Bool.or_eq_false_iff] at hinside
    exact hinside.1
  rw [requests, hmeets, hx, Bool.and_false, Bool.false_or, Bool.and_false]

/-- A claim the span has done with passes to the other span when that one waits, and is FREE otherwise (R136). -/
theorem zoneTurn_released (hc : z.claim = sideClaim d) (hinside : insideNow z d b = false) (hmeets : pathMeets z d b = false) :
    zoneTurn env i b z q =
      let freed := { z.found d b with claim := .free }
      let told := q.push (.zone z.entry (z.slot d) .released env.time)
      let passed := freed.grant env.time (sideOther d) told
      if (z.part (sideOther d)).wait = true then (passed.1.withPart d (passed.1.part d).noWait, passed.2)
      else (freed.withPart d (freed.part d).noWait, told) := by
  have hnot : ((z.found d b).part d).inside = false := by rw [ZoneEntry.found, ZoneEntry.part_withPart]; exact hinside
  have hrelease : (z.found d b).release env.time d false q =
      if (z.part (sideOther d)).wait = true then ({ z.found d b with claim := .free } : ZoneEntry).grant env.time (sideOther d)
        (q.push (.zone z.entry (z.slot d) .released env.time))
      else ({ z.found d b with claim := .free }, q.push (.zone z.entry (z.slot d) .released env.time)) := by
    have hclaim : (z.found d b).claim = sideClaim d := (ZoneEntry.claim_withPart ..).trans hc
    have hwait : ({ z.found d b with claim := .free } : ZoneEntry).part (sideOther d) = z.part (sideOther d) := by cases d <;> rfl
    have hname : Report.zone (z.found d b).entry ((z.found d b).slot d) .released env.time =
        .zone z.entry (z.slot d) .released env.time := by cases d <;> rfl
    unfold ZoneEntry.release
    rw [if_pos (by rw [hclaim, hnot]; simp), hname]
    exact ite_congr (congrArg (fun w : ZoneSide => w.wait = true) hwait) (fun _ => rfl) (fun _ => rfl)
  have hother : sideClaim (sideOther d) ≠ sideClaim d := sideClaim_other_ne d
  have hfree : Claim.free ≠ sideClaim d := (sideClaim_ne_free d).symm
  rw [zoneTurn_eq h, hmeets, hrelease, requests_of_gone hinside hmeets]
  split
  · simp only [ZoneEntry.request, Bool.false_eq_true, if_false]
    rw [if_neg (by simpa [ZoneEntry.grant] using hother)]
  · simp only [ZoneEntry.request, Bool.false_eq_true, if_false]
    rw [if_neg (by simpa using hfree)]

/-- A claim not held: the request of the span alone (R133, R135). -/
theorem zoneTurn_requested (hc : z.claim ≠ sideClaim d) : zoneTurn env i b z q =
    if requests z d b = true then
      if z.claim = .free ∧ (z.part (sideOther d)).inside = false then (z.found d b).grant env.time d q
      else ((z.found d b).refuse env.time d, q)
    else ((z.found d b).withPart d ((z.found d b).part d).noWait, q) := by
  have hclaim : (z.found d b).claim = z.claim := ZoneEntry.claim_withPart ..
  have hother : (z.found d b).part (sideOther d) = z.part (sideOther d) := ZoneEntry.other_withPart ..
  rw [zoneTurn_eq h]
  simp [ZoneEntry.release, ZoneEntry.request, hclaim, hother, hc]

/-- The turn of an entry is the judgement of R132 to R136, with its reports. -/
theorem zoneTurn_judged : claimJudged env.time d b z (zoneTurn env i b z q).1 ∧
    (zoneTurn env i b z q).2 = (claimReports env.time d b z).foldl ReportQueue.push q := by
  by_cases hc : z.claim = sideClaim d
  · by_cases hstay : insideNow z d b = true ∨ pathMeets z d b = true
    · rw [zoneTurn_kept h hc hstay]
      have hreports : claimReports env.time d b z = [] := by
        rw [claimReports, if_pos hc, if_neg]
        rintro ⟨h1, h2⟩
        simp [h1, h2] at hstay
      refine ⟨⟨?_, ?_, ?_, fun _ => ⟨fun _ => ⟨?_, ?_, ?_⟩, fun h1 h2 => ?_⟩, fun hne => absurd hc hne⟩, by rw [hreports]; rfl⟩
      · cases d <;> rfl
      · exact congrArg ZoneSide.inside (ZoneEntry.part_withPart ..)
      · exact congrArg ZoneSide.inside (ZoneEntry.other_withPart ..)
      · exact ZoneEntry.claim_withPart ..
      · exact ZoneEntry.part_withPart ..
      · exact ZoneEntry.other_withPart ..
      · simp [h1, h2] at hstay
    · obtain ⟨hinside, hmeets⟩ : insideNow z d b = false ∧ pathMeets z d b = false := by simpa using hstay
      rw [zoneTurn_released h hc hinside hmeets]
      cases hwait : (z.part (sideOther d)).wait with
      | true =>
        cases d <;> simp_all [claimJudged, claimReports, ZoneEntry.found, ZoneEntry.grant, ZoneEntry.withPart, ZoneEntry.part, sideOther,
          sideClaim, noWait, ZoneSide.noWait, ZoneEntry.slot]
      | false =>
        cases d <;> simp_all [claimJudged, claimReports, ZoneEntry.found, ZoneEntry.grant, ZoneEntry.withPart, ZoneEntry.part, sideOther,
          sideClaim, noWait, ZoneSide.noWait, ZoneEntry.slot]
  · rw [zoneTurn_requested h hc]
    by_cases hwant : requests z d b = true
    · by_cases hgrant : z.claim = .free ∧ (z.part (sideOther d)).inside = false
      · rw [if_pos hwant, if_pos hgrant]
        cases d <;> simp_all [claimJudged, claimReports, ZoneEntry.found, ZoneEntry.grant, ZoneEntry.withPart, ZoneEntry.part, sideOther,
          sideClaim, noWait, ZoneSide.noWait, ZoneEntry.slot]
      · rw [if_pos hwant, if_neg hgrant]
        have hreports : claimReports env.time d b z = [] := by rw [claimReports, if_neg hc, if_neg (fun g => hgrant g.2)]
        refine ⟨?_, by rw [hreports]; rfl⟩
        cases hwait : (z.part d).wait <;> cases d <;> simp_all [claimJudged, ZoneEntry.found, ZoneEntry.refuse, ZoneEntry.withPart,
          ZoneEntry.part, sideOther, sideClaim, noWait]
    · rw [if_neg hwant]
      cases d <;> simp_all [claimJudged, claimReports, ZoneEntry.found, ZoneEntry.withPart, ZoneEntry.part, sideOther,
        sideClaim, noWait, ZoneSide.noWait]

end

end

/-! ### The turn of every entry at a period -/

/-- The reports of the turn of an entry for a slot. -/
def turnReports (time : Time) (i : Slot) (b : Span) (z : ZoneEntry) : List Report :=
  match z.sideOf i with
  | none => []
  | some d => claimReports time d b z

/-- What an operation on every entry queues, where each entry's reports do not turn on the queue. -/
theorem zoneSweep_reports {f : ZoneEntry → ReportQueue → ZoneEntry × ReportQueue} {r : ZoneEntry → List Report}
    (hf : ∀ z q, (f z q).2 = (r z).foldl ReportQueue.push q) (zs : List ZoneEntry) (q : ReportQueue) :
    (zoneSweep f zs q).2 = (zs.flatMap r).foldl ReportQueue.push q := by
  induction zs generalizing q with
  | nil => rfl
  | cons z zs ih => rw [List.flatMap_cons, List.foldl_append, ← hf]; exact ih _

section
variable {env : Env} {i : Slot} {p : Plant}

theorem zoneTurn_unnamed {b : Span} {z : ZoneEntry} {q : ReportQueue} (h : z.sideOf i = none) : zoneTurn env i b z q = (z, q) := by
  simp [zoneTurn, h]

theorem zonePeriod_zones : (zonePeriod env i p).zones = p.zones.map (fun z => (zoneTurn env i (p.span i) z p.out).1) :=
  zoneSweep_entries (fun z q => zoneTurn_entry env i _ z q p.out) _ _

theorem zonePeriod_out : (zonePeriod env i p).out = (p.zones.flatMap (turnReports env.time i (p.span i))).foldl ReportQueue.push p.out := by
  refine zoneSweep_reports (fun z q => ?_) _ _
  cases hside : z.sideOf i with
  | none => rw [zoneTurn_unnamed hside]; simp [turnReports, hside]
  | some d => rw [(zoneTurn_judged hside).2]; simp [turnReports, hside]

/-- No test starts where none is due and auto-proof is off. -/
theorem tryTest_none (hdue : (p.span i).proof.due = false) (hauto : (env.span i).autoProof = false) : tryTest env i p = p := by
  simp [tryTest, autoTestWanted, hdue, hauto]

/-- With the skew warning disarmed the alignment step queues nothing. -/
theorem alignSpan_out (h : (p.span i).skewArmed = false) : (alignSpan env i p).out = p.out := by
  have hdriven : ((driveSpan env i p).span i).skewArmed = false := by rw [driveSpan_span]; exact h
  rw [alignSpan_eq]
  simp only [skewStep]
  split
  · rfl
  · simp only [hdriven, Bool.false_and, Bool.false_eq_true, if_false]
    rfl

/-- The plant at the Clearance Table's turn of a period. -/
def periodTurning (env : Env) (i : Slot) (p : Plant) : Plant :=
  postSet env i (alignSpan env i (spanStep env i (periodFound env i p)))

theorem periodTurning_span : (periodDone env i p).span i =
    { (periodTurning env i p).span i with raised := ((periodDone env i p).span i).raised } := by
  simp only [periodDone, periodFormed, raiseStops, Plant.span_setSpan, zonePeriod_span, periodTurning]

/-- The entries after a period: the turn of each. -/
theorem periodDone_zones (h : (p.span i).inSafeStop = false) : (periodDone env i p).zones =
    p.zones.map (fun z => (zoneTurn env i ((periodTurning env i p).span i) z (periodTurning env i p).out).1) := by
  have hfound := periodFound_span (env := env) (i := i) (p := p)
  rw [measuredFrom] at hfound
  have hsafe : ((periodFound env i p).span i).inSafeStop = false := by rw [hfound]; exact h
  have hkept : (periodTurning env i p).zones = p.zones := by
    simp only [periodTurning, postSet_zones, alignSpan_zones, spanStep_zones env i hsafe, periodFound_zones]
  rw [← hkept]
  exact zonePeriod_zones

/-- The entries after a period, each judged for the span the period leaves. -/
theorem periodDone_claims (h : (p.span i).inSafeStop = false) {k : Nat} {z w : ZoneEntry} (hz : p.zones[k]? = some z)
    (hw : (periodDone env i p).zones[k]? = some w) : (z.sideOf i = none → w = z) ∧
      ∀ d, z.sideOf i = some d → claimJudged env.time d ((periodDone env i p).span i) z w := by
  rw [periodDone_zones h, List.getElem?_map, hz] at hw
  have hturn : (zoneTurn env i ((periodTurning env i p).span i) z (periodTurning env i p).out).1 = w := Option.some.inj hw
  subst hturn
  refine ⟨fun hside => by rw [zoneTurn_unnamed hside], fun d hside => ?_⟩
  rw [periodTurning_span]
  exact (zoneTurn_judged hside).1

/-- A span at rest, held, locked or faulted reports at a period only what its entries do. -/
theorem periodDone_turnReports (hsafe : (p.span i).state = .resting ∨ (p.span i).state = .holding ∨ (p.span i).state = .locked ∨
      (p.span i).state = .faulted) (hskew : (p.span i).skewArmed = false) (hdue : (p.span i).proof.due = false)
    (hauto : (env.span i).autoProof = false) : (periodDone env i p).out =
      (p.zones.flatMap (turnReports env.time i ((periodDone env i p).span i))).foldl ReportQueue.push p.out := by
  have hfound := periodFound_span (env := env) (i := i) (p := p)
  rw [measuredFrom] at hfound
  have htest : tryTest env i (periodFound env i p) = periodFound env i p :=
    tryTest_none (by rw [hfound]; exact hdue) hauto
  have hstep : spanStep env i (periodFound env i p) = periodFound env i p := by
    have hst : ((periodFound env i p).span i).state = (p.span i).state := by rw [hfound]
    rcases hsafe with h | h | h | h <;> simp [spanStep, hst, h, htest]
  let u := postSet env i (alignSpan env i (periodFound env i p))
  have huz : u.zones = p.zones := by simp only [u, postSet_zones, alignSpan_zones, periodFound_zones]
  have huo : u.out = p.out := by
    rw [postSet_out, alignSpan_out (by rw [hfound]; exact hskew), periodFound_out]
  have hdone : periodDone env i p = raiseStops env i (zonePeriod env i u) := by rw [periodDone, hstep]; rfl
  rw [hdone, raiseStops_out, zonePeriod_out, huz, huo, raiseStops, Plant.span_setSpan, zonePeriod_span]
  rfl

end

end Sys2Proof.Machine
end

