-- ==== Sys2Proof/Proofs/WaitsAndResumes.lean ====
section
/-! PROOFS. The end of a trip dwell with the spans it lets resume (R147, R149), and the report of a zone wait (R135). -/

namespace Sys2Proof.Machine
open Safety

/-! ### The auto-resume of the spans -/

section
variable {env : Env} {i j : Slot} {p : Plant}

theorem autoResume_span_ne (h : j ≠ i) : (autoResume env i p).span j = p.span j := by
  unfold autoResume
  split
  · rfl
  · unfold startSpan enterMotion
    split <;> rw [changeState_span_ne _ _ _ _ _ h, Plant.span_setSpan_ne _ h]

theorem autoResume_zones : (autoResume env i p).zones = p.zones := by
  unfold autoResume
  split
  · rfl
  · unfold startSpan enterMotion
    split <;> rw [changeState_zones, Plant.setSpan_zones]

/-- A HOLDING span whose conditions of START hold moves again, and its starved flag is cleared (R149). -/
theorem autoResume_moves (hwind : (p.span i).windHold = false) (hstate : (p.span i).state = .holding) (hplan : (p.span i).plan ≠ []) (hgate : env.gate.shut = false)
    (hkey : env.keyLocal = false) (howed : (p.span i).proof.owed ≠ 8) (hproof : (p.span i).proof.unproven = false)
    (hskew : (p.span i).skew ≤ (env.span i).sStop) :
    ((autoResume env i p).span i).state = .moving ∧ ((autoResume env i p).span i).starved = false ∧
      ((autoResume env i p).span i).windHold = false ∧ ((autoResume env i p).span i).holdT = none := by
  have hnone : startRefusal env i p = none := by
    rw [startRefusal_of_plan (.inr hstate) hplan, hkey, if_neg (by decide)]
    exact motionRefusal_of_met hgate howed hproof hskew
  have hstart : autoResume env i p = startSpan env i p := by
    unfold autoResume
    split
    · next h => exact absurd (h.symm.trans hnone) (by simp)
    · rfl
  rw [hstart, startSpan, enterMotion_holding (by rw [Plant.span_setSpan]; exact hstate), changeState_span, Plant.span_setSpan]
  exact ⟨rfl, rfl, by simp [Span.enter, hwind], rfl⟩

theorem resumeSpan_span_ne {flags : Quad Bool} (p : Plant) (h : j ≠ i) : (resumeSpan env flags i p).span j = p.span j := by
  unfold resumeSpan
  split
  · exact autoResume_span_ne h
  · rfl

theorem resumeSpan_zones {flags : Quad Bool} : (resumeSpan env flags i p).zones = p.zones := by
  unfold resumeSpan
  split
  · exact autoResume_zones
  · rfl

theorem resumeSpans_zones : (resumeSpans env p).zones = p.zones := by
  simp only [resumeSpans, eachSlot, resumeSpan_zones]
  rfl

/-- A span that was not held by the wind, or is not to resume, has its flag cleared and no more (R149). -/
theorem resumeSpans_stays (h : (p.span i).windHold = false ∨ (env.span i).autoResume = false ∨ env.mode ≠ .ready) :
    (resumeSpans env p).span i = { p.span i with windHold := false } := by
  obtain ⟨u, hu, hspan⟩ := eachSlot_at (f := resumeSpan env (p.spans.map Span.windHold)) (fun p h => resumeSpan_span_ne p h)
    (eachSlot clearWindHold p) i
  have hflag : (p.spans.map Span.windHold).get i = (p.span i).windHold := Quad.get_map ..
  rw [resumeSpans, hspan, resumeSpan, if_neg, hu, eachSlot_clearWindHold_span]
  rcases h with h | h | h <;> simp [hflag, h]

/-- In READY a HOLDING span held by the wind and to resume moves again when the conditions of START hold (R149). -/
theorem resumeSpans_moves (hmode : env.mode = .ready) (hheld : (p.span i).windHold = true) (hauto : (env.span i).autoResume = true)
    (hstate : (p.span i).state = .holding) (hplan : (p.span i).plan ≠ []) (hgate : env.gate.shut = false)
    (hkey : env.keyLocal = false) (howed : (p.span i).proof.owed ≠ 8) (hproof : (p.span i).proof.unproven = false)
    (hskew : (p.span i).skew ≤ (env.span i).sStop) :
    ((resumeSpans env p).span i).state = .moving ∧ ((resumeSpans env p).span i).starved = false ∧
      ((resumeSpans env p).span i).windHold = false ∧ ((resumeSpans env p).span i).holdT = none := by
  obtain ⟨u, hu, hspan⟩ := eachSlot_at (f := resumeSpan env (p.spans.map Span.windHold)) (fun p h => resumeSpan_span_ne p h)
    (eachSlot clearWindHold p) i
  have hflag : (p.spans.map Span.windHold).get i = (p.span i).windHold := Quad.get_map ..
  rw [eachSlot_clearWindHold_span] at hu
  have hresumes : resumeSpan env (p.spans.map Span.windHold) i u = autoResume env i u := by
    rw [resumeSpan, if_pos]
    simp [hflag, hheld, hmode, hauto]
  rw [resumeSpans, hspan, hresumes]
  have hmoves := autoResume_moves (env := env) (i := i) (p := u) (by rw [hu]) (by rw [hu]; exact hstate) (by rw [hu]; exact hplan) hgate hkey
    (by rw [hu]; exact howed) (by rw [hu]; exact hproof) (by rw [hu]; exact hskew)
  exact hmoves

end

/-- The end of a trip dwell: the gate its last gust gives, and the spans' resume (R147, R149). -/
theorem tripDwell_over {s : State} {w : WindRecord} {g : Nat} (hgate : s.wind.gate = .tripped) (hdwell : s.wind.dwellT.isSome = true)
    (hw : s.wind.limits = some w) (hg : s.wind.gust = some g) :
    let n : WindGate := { s.wind with
      gate := if g ≤ w.ws then .clear else .reduced, dwellT := none,
      kw := if g ≤ w.ws then 100 else 100 - (100 - w.kmin) * (g - w.ws) / (w.wt - w.ws) }
    tripDwell s = { s with
      plant := resumeSpans { s.env with gate := n.gate, kw := n.kw } (s.plant.reports (gateReports s.time s.wind n)), wind := n } := by
  have hover : s.wind.dwellOver = { s.wind with
      gate := if g ≤ w.ws then .clear else .reduced, dwellT := none,
      kw := if g ≤ w.ws then 100 else 100 - (100 - w.kmin) * (g - w.ws) / (w.wt - w.ws) } := by
    simp only [WindGate.dwellOver, hw, hg]
    split <;> rfl
  have hopen : (if g ≤ w.ws then GateState.clear else .reduced).shut = false := by split <;> rfl
  simp only [tripDwell, hgate, hdwell, hover, hopen, beq_self_eq_true, Bool.and_self, if_true, Bool.false_eq_true, if_false]
  rfl

/-! ### A zone wait that lasts (R135) -/

theorem zoneSweep_append (f : ZoneEntry → ReportQueue → ZoneEntry × ReportQueue) (a b : List ZoneEntry) (q : ReportQueue) :
    zoneSweep f (a ++ b) q = ((zoneSweep f a q).1 ++ (zoneSweep f b (zoneSweep f a q).2).1, (zoneSweep f b (zoneSweep f a q).2).2) := by
  induction a generalizing q with
  | nil => rfl
  | cons z a ih => simp only [List.cons_append, zoneSweep, ih]

theorem zoneSweep_untouched {f : ZoneEntry → ReportQueue → ZoneEntry × ReportQueue} {zs : List ZoneEntry}
    (h : ∀ z ∈ zs, ∀ q, f z q = (z, q)) (q : ReportQueue) : zoneSweep f zs q = (zs, q) := by
  induction zs with
  | nil => rfl
  | cons z zs ih =>
    rw [List.forall_mem_cons] at h
    simp only [zoneSweep, h.1, ih h.2]

/-- The expiry touches the one entry that it names. -/
theorem waitExpired_eq {env : Env} {e : Nat} {d : Side} {p : Plant} {z : ZoneEntry} {pre post : List ZoneEntry}
    (hzones : p.zones = pre ++ z :: post) (hentry : z.entry = e) (hother : ∀ y ∈ pre ++ post, y.entry ≠ e) :
    waitExpired env e d p =
      { p with zones := pre ++ (z.waitExpired env.time d p.out).1 :: post, out := (z.waitExpired env.time d p.out).2 } := by
  have hskip : ∀ y ∈ pre ++ post, ∀ q : ReportQueue,
      (if y.entry == e then y.waitExpired env.time d q else (y, q)) = (y, q) := fun y hy q => by
    rw [if_neg (by simpa using hother y hy)]
  have hpre := zoneSweep_untouched (fun y hy => hskip y (List.mem_append_left _ hy))
  have hpost := zoneSweep_untouched (fun y hy => hskip y (List.mem_append_right _ hy))
  simp only [waitExpired, hzones, zoneSweep_append, hpre, zoneSweep, hentry, beq_self_eq_true, if_true, hpost]

/-- Settles O51: the end of the dwell and the resumes, the report of a wait, and the claims at a period. -/
theorem dwellEndsTheTripAndWaitsAreReported : Obligations.DwellEndsTheTripAndWaitsAreReported := by
  unfold Obligations.DwellEndsTheTripAndWaitsAreReported
  refine ⟨fun s w g hrun hgate hdwell hw hg => ?_, fun s hrun hgate => ?_, fun s e d z pre post hrun hzones hentry hother =>
    ⟨fun htimer => ?_, fun htimer => ?_⟩, fun s i hrun hstate hsafe hraised => ?_⟩
  · refine ⟨_, (runEvent_running hrun _).trans (by rw [tripDwell_over hgate hdwell hw hg]), ?_, fun i => ⟨fun hstays => ?_,
      fun hmode hheld hauto hstate hplan hkey howed hproof hskew => ?_⟩⟩
    · rw [resumeSpans_zones, Plant.reports_zones]
    · rw [resumeSpans_stays, Plant.reports_span]
      rw [Plant.reports_span]
      exact hstays
    · refine resumeSpans_moves hmode ?_ hauto ?_ ?_ ?_ hkey ?_ ?_ ?_ <;> simp only [Plant.reports_span]
      · exact hheld
      · exact hstate
      · exact hplan
      · split <;> rfl
      · exact howed
      · exact hproof
      · exact hskew
  · refine (runEvent_running hrun _).trans ?_
    simp [tripDwell, hgate]
  · refine (runEvent_running hrun _).trans ?_
    rw [State.onPlant, waitExpired_eq hzones hentry hother]
    simp only [ZoneEntry.waitExpired, htimer, if_true]
    rfl
  · refine (runEvent_running hrun _).trans ?_
    rw [State.onPlant, waitExpired_eq hzones hentry hother]
    simp only [ZoneEntry.waitExpired, htimer, Option.isSome_none, Bool.false_eq_true, if_false]
    rw [← hzones]
  · refine ⟨periodDone s.env i s.plant, exec_spanPeriod hrun hstate hraised, ?_, fun k z w hz hw => periodDone_claims hsafe hz hw,
      fun hskew htest hrest => ?_⟩
    · rw [periodDone_zones hsafe, List.length_map]
    · obtain ⟨hdue, hauto⟩ := htest
      exact periodDone_turnReports hrest hskew hdue hauto

end Sys2Proof.Machine
end

