-- ==== Sys2Proof/Proofs/WindSamples.lean ====
section
/-! PROOFS. The wind sample (R143 to R146): the anemometers, the gate, and what an entry into TRIPPED or BLIND does to a span
(R148). -/

namespace Sys2Proof.Machine
open Safety

/-! ### One anemometer (R143, R145) -/

namespace Anemometer

section
variable {a o : Anemometer} {k : Nat}

theorem judge_of_zero (hs : a.status = .valid) (hl : a.latest = some 0) : a.judge o =
    if o.windy = true then
      if a.zeroRun + 1 = 120 then { a with status := .suspect, zeroRun := 120, recovery := 0 } else { a with zeroRun := a.zeroRun + 1 }
    else { a with zeroRun := 0 } := by
  simp [judge, hs, hl]

theorem judge_of_some (hs : a.status = .valid) (hl : a.latest ≠ some 0) : a.judge o = { a with zeroRun := 0 } := by
  simp [judge, hs]

theorem judge_suspect_zero (hs : a.status = .suspect) (hl : a.latest = some 0) : a.judge o = { a with recovery := 0 } := by
  simp [judge, hs, hl]

theorem judge_suspect_some {v : Nat} (hs : a.status = .suspect) (hl : a.latest = some v) (hv : v ≠ 0) : a.judge o =
    if a.recovery + 1 = 8 then { a with status := .valid, zeroRun := 0, recovery := 8 } else { a with recovery := a.recovery + 1 } := by
  simp [judge, hs, hl]

theorem judge_of_disabled (hs : a.status = .disabled) : a.judge o = a := by simp [judge, hs]

/-- A judgement changes the status and its two runs alone. -/
theorem judge_keeps : a.judge o =
    { a with status := (a.judge o).status, zeroRun := (a.judge o).zeroRun, recovery := (a.judge o).recovery } := by
  unfold judge
  split
  · split
    · split <;> rfl
    · rfl
  · rfl
  · rfl
  · split <;> rfl
  · rfl

theorem judge_latest : (a.judge o).latest = a.latest := by rw [judge_keeps]; rfl

/-- VALID and SUSPECT pass into each other alone. -/
theorem judge_listens : (a.judge o).status = .valid ∨ (a.judge o).status = .suspect ↔ a.status = .valid ∨ a.status = .suspect := by
  unfold judge
  split
  next hs _ =>
    split
    · split <;> simp [hs]
    · simp [hs]
  next hs _ => simp [hs]
  next hs _ => simp [hs]
  next hs _ => split <;> simp [hs]
  next => rfl

theorem windy_iff : a.windy = true ↔ (a.status = .valid ∨ a.status = .suspect) ∧ ∃ v, a.latest = some v ∧ 50 ≤ v := by
  unfold windy
  cases a.latest <;> simp

theorem judge_windy : (a.judge o).windy = a.windy := by
  rw [Bool.eq_iff_iff, windy_iff, windy_iff, judge_latest, judge_listens]

theorem sample_eq : a.sample k = { a with
    count := 0, ring := (a.sample k).ring, status := if a.status = .empty then .valid else a.status,
    zeroRun := if a.status = .empty then 0 else a.zeroRun, recovery := if a.status = .empty then 0 else a.recovery } := by
  unfold sample
  split <;> simp_all

theorem sample_ring (h : a.status ≠ .disabled) : (a.sample k).ring = pushRing a.ring (min a.count 250 * k / 25) := by
  unfold sample
  split
  · next hd => exact absurd hd h
  · rfl
  · rfl

end

end Anemometer

/-- What the sample and its judgement against the other anemometer make of one (R143, R145). -/
def sampleJudged (a other b : Anemometer) : Prop :=
  (a.status = .valid → b.latest = some 0 → (other.status = .valid ∨ other.status = .suspect) → (∃ v, other.latest = some v ∧ 50 ≤ v) →
    b.zeroRun = a.zeroRun + 1 ∧ (b.zeroRun = 120 → b.status = .suspect ∧ b.recovery = 0) ∧ (b.zeroRun ≠ 120 → b.status = .valid)) ∧
  (a.status = .valid → (∃ v, b.latest = some v ∧ v ≠ 0) ∨ other.status = .disabled ∨ (∃ v, other.latest = some v ∧ v < 50) →
    b.status = .valid ∧ b.zeroRun = 0) ∧
  (a.status = .suspect → b.latest = some 0 → b.status = .suspect ∧ b.recovery = 0) ∧
  (a.status = .suspect → (∃ v, b.latest = some v ∧ v ≠ 0) →
    b.recovery = a.recovery + 1 ∧ (b.recovery = 8 → b.status = .valid ∧ b.zeroRun = 0) ∧ (b.recovery ≠ 8 → b.status = .suspect))

theorem sampleJudged_of {a o other : Anemometer} {k : Nat} (hwindy : o.windy = other.windy) :
    sampleJudged a other ((a.sample k).judge o) := by
  have hsample := Anemometer.sample_eq (a := a) (k := k)
  have hstatus : a.status ≠ .empty → (a.sample k).status = a.status ∧ (a.sample k).zeroRun = a.zeroRun ∧
      (a.sample k).recovery = a.recovery := by
    intro h
    rw [hsample]
    simp [h]
  rw [sampleJudged, Anemometer.judge_latest]
  refine ⟨fun hs hl hlisten hblow => ?_, fun hs hcalm => ?_, fun hs hl => ?_, fun hs hl => ?_⟩
  · obtain ⟨hs', hz, -⟩ := hstatus (by rw [hs]; decide)
    rw [Anemometer.judge_of_zero (hs'.trans hs) hl, if_pos (hwindy.trans (Anemometer.windy_iff.mpr ⟨hlisten, hblow⟩)), hz]
    split
    · next h => exact ⟨h.symm, fun _ => ⟨rfl, rfl⟩, fun hne => absurd rfl hne⟩
    · next h => exact ⟨rfl, fun heq => absurd heq h, fun _ => hs'.trans hs⟩
  · obtain ⟨hs', -⟩ := hstatus (by rw [hs]; decide)
    by_cases hl : (a.sample k).latest = some 0
    · have hstill : o.windy = false := by
        rw [hwindy, Bool.eq_false_iff, Ne, Anemometer.windy_iff]
        rintro ⟨hlisten, v, hv, hge⟩
        rcases hcalm with ⟨u, hu, hne⟩ | hoff | ⟨u, hu, hlt⟩
        · exact hne (Option.some.inj (hu.symm.trans hl))
        · rcases hlisten with h | h <;> exact absurd (hoff.symm.trans h) (by decide)
        · have := Option.some.inj (hu.symm.trans hv)
          omega
      rw [Anemometer.judge_of_zero (hs'.trans hs) hl, if_neg (by rw [hstill]; decide)]
      exact ⟨hs'.trans hs, rfl⟩
    · rw [Anemometer.judge_of_some (hs'.trans hs) hl]
      exact ⟨hs'.trans hs, rfl⟩
  · obtain ⟨hs', -⟩ := hstatus (by rw [hs]; decide)
    rw [Anemometer.judge_suspect_zero (hs'.trans hs) hl]
    exact ⟨hs'.trans hs, rfl⟩
  · obtain ⟨v, hl, hv⟩ := hl
    obtain ⟨hs', -, hr⟩ := hstatus (by rw [hs]; decide)
    rw [Anemometer.judge_suspect_some (hs'.trans hs) hl hv, hr]
    split
    · next h => exact ⟨h.symm, fun _ => ⟨rfl, rfl⟩, fun hne => absurd rfl hne⟩
    · next h => exact ⟨rfl, fun heq => absurd heq h, fun _ => hs'.trans hs⟩

/-- A sample takes an EMPTY anemometer to VALID and leaves a DISABLED one DISABLED. -/
theorem sampled_first {a o : Anemometer} {k : Nat} : ((a.sample k).judge o).count = 0 ∧
    (a.status ≠ .disabled → ((a.sample k).judge o).ring = pushRing a.ring (min a.count 250 * k / 25)) ∧
    (a.status = .empty → ((a.sample k).judge o).status = .valid) ∧
    (a.status = .disabled → ((a.sample k).judge o).status = .disabled) := by
  have hsample := Anemometer.sample_eq (a := a) (k := k)
  refine ⟨?_, fun h => ?_, fun h => ?_, fun h => ?_⟩
  · rw [Anemometer.judge_keeps, hsample]
  · rw [Anemometer.judge_keeps, ← Anemometer.sample_ring h]
  · have hs : (a.sample k).status = .valid ∧ (a.sample k).zeroRun = 0 := by rw [hsample]; simp [h]
    by_cases hl : (a.sample k).latest = some 0
    · rw [Anemometer.judge_of_zero hs.1 hl, hs.2, if_neg (by decide : ¬ 0 + 1 = 120)]
      split <;> exact hs.1
    · rw [Anemometer.judge_of_some hs.1 hl]
      exact hs.1
  · have hs : (a.sample k).status = .disabled := by rw [hsample]; simp [h]
    rw [Anemometer.judge_of_disabled hs, hs]

/-- The report of a judgement is that of the statuses before the sample and behind it. -/
theorem judgeReports_eq {time : Time} {which : AnemometerId} {a o : Anemometer} {k : Nat} :
    judgeReports time which (a.sample k) ((a.sample k).judge o) = statusReports time which a ((a.sample k).judge o) := by
  by_cases h : a.status = .empty
  · obtain ⟨-, -, hvalid, -⟩ := sampled_first (a := a) (o := o) (k := k)
    have hs : (a.sample k).status = .valid := by rw [Anemometer.sample_eq]; simp [h]
    simp [judgeReports, statusReports, h, hs, hvalid h]
  · have hs : (a.sample k).status = a.status := by rw [Anemometer.sample_eq]; simp [h]
    unfold judgeReports statusReports
    rw [hs]
    split
    next ha hb => rw [ha, hb, if_pos ⟨rfl, rfl⟩]
    next ha hb => rw [ha, hb, if_neg (by decide), if_pos ⟨rfl, rfl⟩]
    next hvalid hsuspect => rw [if_neg fun h => hvalid h.1 h.2, if_neg fun h => hsuspect h.1 h.2]

/-! ### The gate (R146, R147) -/

section
variable {n : WindGate} {w : WindRecord} {g : Nat}

theorem related_iff : w.related = true ↔ w.ws + w.h < w.wt ∧ 1 ≤ w.h := by simp [WindRecord.related]

theorem gated_of_gust (hw : n.limits = some w) (hg : n.gustNow = some g) (hr : w.related = true) : n.gated = n.judgeGate w g := by
  simp [WindGate.gated, hw, hg, hr]

theorem gated_blind (h : n.limits = none ∨ n.gustNow = none ∨ ∃ w, n.limits = some w ∧ w.related = false) : n.gated = n.goBlind := by
  unfold WindGate.gated
  rcases h with h | h | ⟨w, h, hr⟩
  · simp [h]
  · split <;> simp_all
  · split <;> simp_all

theorem gated_keeps : n.gated.sampleT = n.sampleT ∧ n.gated.an1 = n.an1 ∧ n.gated.an2 = n.an2 := by
  unfold WindGate.gated WindGate.judgeGate WindGate.goBlind
  split
  · split
    · split <;> exact ⟨rfl, rfl, rfl⟩
    · exact ⟨rfl, rfl, rfl⟩
  · exact ⟨rfl, rfl, rfl⟩

end

/-- The gate judged from a gust, by the state it finds (the table of R146). -/
theorem gated_table {n : WindGate} {w : WindRecord} {g : Nat} (hw : n.limits = some w) (hlimits : w.ws + w.h < w.wt) (hh : 1 ≤ w.h)
    (hg : n.gustNow = some g) : n.gated.gust = some g ∧
      (n.gate = .clear ∨ n.gate = .reduced →
        n.gated.gate = (if g ≤ w.ws then .clear else if g < w.wt then .reduced else .tripped) ∧
        n.gated.kw = (if g ≤ w.ws then 100 else if g < w.wt then 100 - (100 - w.kmin) * (g - w.ws) / (w.wt - w.ws) else 0)) ∧
      (n.gate = .blind → n.gated.gate = .tripped ∧ n.gated.kw = 0 ∧ n.gated.dwellT = none) ∧
      (n.gate = .tripped → n.gated.gate = .tripped ∧ n.gated.kw = 0 ∧ (w.wt ≤ g + w.h → n.gated.dwellT = none) ∧
        (g + w.h < w.wt → n.gated.dwellT = some (n.dwellT.getD (w.tdw * 1000)))) := by
  rw [gated_of_gust hw hg (related_iff.mpr ⟨hlimits, hh⟩)]
  have hopen : ∀ gate : GateState, n.gate = gate → gate = .clear ∨ gate = .reduced →
      n.judgeGate w g = { n with gate := gateFor w g, gust := some g, kw := windFactor w (gateFor w g) g, dwellT := none } := by
    rintro gate h (rfl | rfl) <;> simp [WindGate.judgeGate, h]
  refine ⟨?_, fun h => ?_, fun h => ?_, fun h => ?_⟩
  · unfold WindGate.judgeGate
    split <;> rfl
  · rw [hopen n.gate rfl h]
    refine ⟨rfl, ?_⟩
    by_cases h1 : g ≤ w.ws
    · simp [gateFor, windFactor, h1]
    · by_cases h2 : g < w.wt <;> simp [gateFor, windFactor, reducedFactor, h1, h2]
  · simp [WindGate.judgeGate, h]
  · have hform : n.judgeGate w g = { n with gust := some g, kw := 0, dwellT := dwellAt w g n.dwellT } := by
      simp [WindGate.judgeGate, h]
    rw [hform]
    refine ⟨h, rfl, fun hhigh => ?_, fun hlow => ?_⟩
    · exact if_neg (by omega)
    · refine (if_pos (by omega)).trans ?_
      cases n.dwellT <;> rfl

/-! ### The whole sample -/

/-- The Wind Gate a sample leaves. -/
def windSampled (s : State) : WindGate := (s.wind.sampled s.cfg.wind).2.gated

/-- The reports of a sample: the anemometers' and then the gate's (R150). -/
def windReports (s : State) : List Report :=
  statusReports s.time .an1 s.wind.an1 (windSampled s).an1 ++ statusReports s.time .an2 s.wind.an2 (windSampled s).an2 ++
    (if (windSampled s).gate = s.wind.gate then []
     else [Report.wind (.gate s.wind.gate (windSampled s).gate (windSampled s).gust (windSampled s).kw) s.time])

/-- The plant a sample leaves. -/
def windHeld (s : State) : Plant :=
  if (windSampled s).gate.shut = true ∧ s.wind.gate.shut = false then
    eachSlot (holdForWind { s.env with gate := (windSampled s).gate, kw := (windSampled s).kw }) (s.plant.reports (windReports s))
  else s.plant.reports (windReports s)

section
variable {s : State}

theorem windSampled_an1 : (windSampled s).an1 =
    (s.wind.an1.sample (windCalibrations s.cfg.wind).1).judge (s.wind.an2.sample (windCalibrations s.cfg.wind).2) := by
  rw [windSampled, gated_keeps.2.1]
  rfl

theorem windSampled_an2 : (windSampled s).an2 = (s.wind.an2.sample (windCalibrations s.cfg.wind).2).judge (windSampled s).an1 := by
  rw [windSampled_an1, windSampled, gated_keeps.2.2]
  rfl

theorem windSample_eq : windSample s = { s with wind := windSampled s, plant := windHeld s } := by
  have hreports : judgeReports s.time .an1 (s.wind.sampled s.cfg.wind).1.an1 (s.wind.sampled s.cfg.wind).2.an1 ++
      judgeReports s.time .an2 (s.wind.sampled s.cfg.wind).1.an2 (s.wind.sampled s.cfg.wind).2.an2 ++
      gateReports s.time s.wind (windSampled s) = windReports s := by
    rw [windReports, windSampled_an1, windSampled_an2, windSampled_an1, ← judgeReports_eq, ← judgeReports_eq, gateReports]
    exact congrArg _ (ite_congr (propext eq_comm) (fun _ => rfl) (fun _ => rfl))
  have hform : windSample s =
      let s' : State := { s with wind := windSampled s, plant := s.plant.reports (windReports s) }
      if (windSampled s).gate.shut && !s.wind.gate.shut then { s' with plant := eachSlot (holdForWind s'.env) s'.plant } else s' := by
    rw [← hreports]
    rfl
  rw [hform, windHeld]
  by_cases h : (windSampled s).gate.shut = true ∧ s.wind.gate.shut = false
  · simp only [h.1, h.2, Bool.not_false, Bool.and_self, and_self, if_true]
    rfl
  · rw [if_neg h]
    exact if_neg (by simpa using h)

end

/-! ### The spans at an entry into TRIPPED or BLIND (R148) -/

section
variable {env : Env} {i : Slot} {p : Plant}

theorem holdForWind_takes (h : (p.span i).state = .starting ∨ (p.span i).state = .moving) : holdForWind env i p =
    takeStop env i controlledHold .otherStop (p.setSpan i { p.span i with windHold := true }) := by
  rcases h with h | h <;> simp [holdForWind, h]

theorem holdForWind_stands (h : (p.span i).state ≠ .starting) (h' : (p.span i).state ≠ .moving) : holdForWind env i p = p := by
  simp [holdForWind, h, h']

/-- What an entry into TRIPPED or BLIND makes of a span (R148). -/
def heldByWind (env : Env) (i : Slot) (a b : Span) : Prop :=
  (a.state = .moving → a.v ≠ 0 → b.state = .stopping ∧ b.windHold = true ∧ b.v = a.v ∧
    b.stop = some { kind := .controlled, endState := .holding }) ∧
  (a.state = .moving → a.v = 0 → a.proof.due = false → (env.span i).autoProof = false →
    b.state = .holding ∧ b.windHold = true ∧ b.v = 0 ∧ b.dwellT = none ∧ b.jog = none ∧ b.holdT = some ((env.span i).tHold * 1000)) ∧
  (a.state = .starting → a.proof.due = false → (env.span i).autoProof = false →
    restsIn .resting b ∧ b.windHold = true ∧ b.posted.map (fun set => set.mode) = some .braked) ∧
  (a.state ≠ .moving → a.state ≠ .starting → b = a)

/-- A span in motion or STARTING is held by the wind: at speed by a CONTROLLED stop, at v = 0 at once, and STARTING by its
abort (R148). -/
theorem eachSlot_holdForWind : heldByWind env i (p.span i) ((eachSlot (holdForWind env) p).span i) := by
  obtain ⟨u, hu, hspan⟩ := eachSlot_at (f := holdForWind env) (fun p h => holdForWind_span_ne env h p) p i
  rw [heldByWind, hspan]
  have hflagged : (u.setSpan i { u.span i with windHold := true }).span i = { p.span i with windHold := true } := by
    rw [Plant.span_setSpan, hu]
  refine ⟨fun hst hv => ?_, fun hst hv hdue hauto => ?_, fun hst hdue hauto => ?_, fun h1 h2 => ?_⟩
  · rw [holdForWind_takes (.inr (by rw [hu]; exact hst))]
    obtain ⟨hstate, hspeed, hstop, hwind⟩ := controlledHold_ramps (env := env) (i := i) (why := .otherStop)
      (p := u.setSpan i { u.span i with windHold := true }) (by rw [hflagged]; exact hst) (by rw [hflagged]; exact hv)
    rw [hflagged] at hspeed hwind
    exact ⟨hstate, hwind, hspeed, hstop⟩
  · rw [holdForWind_takes (.inr (by rw [hu]; exact hst))]
    obtain ⟨hstate, hspeed, hdwell, hjog, hhold, hwind⟩ := controlledHold_holds (env := env) (i := i) (why := .otherStop)
      (p := u.setSpan i { u.span i with windHold := true }) (by rw [hflagged]; exact hst) (by rw [hflagged]; exact hv)
      (.inr (.inr ⟨by rw [hflagged]; exact hdue, hauto⟩))
    rw [hflagged] at hwind
    exact ⟨hstate, hwind, hspeed, hdwell, hjog, hhold⟩
  · rw [holdForWind_takes (.inl (by rw [hu]; exact hst))]
    obtain ⟨hrests, -, hposted, hwind⟩ := controlledHold_aborts (env := env) (i := i) (why := .otherStop)
      (p := u.setSpan i { u.span i with windHold := true }) (by rw [hflagged]; exact hst)
      (.inr (.inr ⟨by rw [hflagged]; exact hdue, hauto⟩))
    rw [hflagged] at hwind
    exact ⟨hrests, hwind, hposted⟩
  · rw [holdForWind_stands (by rw [hu]; exact h2) (by rw [hu]; exact h1), hu]

end

section
variable {s : State}

theorem windHeld_open (h : (windSampled s).gate.shut = false ∨ s.wind.gate.shut = true) :
    windHeld s = s.plant.reports (windReports s) := by
  refine if_neg ?_
  rintro ⟨h1, h2⟩
  simp [h1, h2] at h

theorem windHeld_shut (hshut : (windSampled s).gate.shut = true) (hwas : s.wind.gate.shut = false) (i : Slot) :
    heldByWind s.env i (s.plant.span i) ((windHeld s).span i) := by
  rw [windHeld, if_pos ⟨hshut, hwas⟩, ← Plant.reports_span (p := s.plant) (rs := windReports s)]
  exact eachSlot_holdForWind

end

/-- Settles O50: pulses, the sample of both anemometers, the gate, and what the gate does to the spans. -/
theorem windSampledAndGated : Obligations.WindSampledAndGated := by
  unfold Obligations.WindSampledAndGated
  have hexec : ∀ s : State, s.resetPin = false → exec .windSample s = .next (settle { s with wind := windSampled s, plant := windHeld s }) :=
    fun s hrun => (runEvent_running hrun _).trans (by rw [windSample_eq])
  have htimer : ∀ s : State, (windSampled s).sampleT = 250 := fun s => gated_keeps.1
  refine ⟨fun s hrun => ⟨runEvent_running hrun _, runEvent_running hrun _⟩, fun s w hrun hw => ?_, fun s hrun hw => ?_⟩
  · obtain ⟨hcount1, hring1, hempty1, hoff1⟩ := sampled_first (a := s.wind.an1) (o := s.wind.an2.sample (windCalibrations s.cfg.wind).2)
      (k := (windCalibrations s.cfg.wind).1)
    obtain ⟨hcount2, hring2, hempty2, -⟩ := sampled_first (a := s.wind.an2) (o := (windSampled s).an1)
      (k := (windCalibrations s.cfg.wind).2)
    rw [← windSampled_an1] at hcount1 hring1 hempty1 hoff1
    rw [← windSampled_an2] at hcount2 hring2
    rw [hw] at hring1 hring2
    refine ⟨windSampled s, windHeld s, hexec s hrun, htimer s, hcount1, hcount2, hring1, hring2, hempty1, hoff1,
      fun g hlimits hh hg => ?_, fun hblind => ?_, fun a other b hwhich => ?_, fun hopen => ?_, fun hopen => ?_,
      fun hshut hwas i => ?_, fun hshut hwas i => ?_⟩
    · obtain ⟨hgust, hopen, hblind, htrip⟩ := gated_table (n := (s.wind.sampled s.cfg.wind).2) (g := g) hw hlimits hh (by
        rw [windSampled, gated_keeps.2.1, gated_keeps.2.2] at hg
        exact hg)
      refine ⟨hgust, hopen, hblind, fun h => ?_⟩
      obtain ⟨hgate, hkw, hstop, hrun⟩ := htrip h
      refine ⟨hgate, hkw, hstop, fun hlow => (hrun hlow).trans ?_⟩
      show some (s.wind.dwellT.getD _) = _
      cases s.wind.dwellT <;> rfl
    · have hform : windSampled s = (s.wind.sampled s.cfg.wind).2.goBlind := by
        refine gated_blind (.inr ?_)
        rcases hblind with h | h
        · refine .inl ?_
          rw [windSampled, gated_keeps.2.1, gated_keeps.2.2] at h
          exact h
        · refine .inr ⟨w, hw, ?_⟩
          rw [Bool.eq_false_iff, Ne, related_iff]
          omega
      rw [hform]
      exact ⟨rfl, rfl, rfl, rfl⟩
    · rcases hwhich with ⟨rfl, rfl, rfl⟩ | ⟨rfl, rfl, rfl⟩
      · rw [windSampled_an1]
        exact sampleJudged_of (by rw [windSampled_an2, Anemometer.judge_windy])
      · rw [windSampled_an2]
        exact sampleJudged_of rfl
    · rw [windHeld_open hopen, Plant.reports_out]
      rfl
    · rw [windHeld_open hopen, Plant.reports_spans]
    · exact (windHeld_shut hshut hwas i).1
    · obtain ⟨-, hholds, haborts, hstands⟩ := windHeld_shut hshut hwas i
      exact ⟨fun hst hv htest => hholds hst hv htest.1 htest.2, fun hst htest => haborts hst htest.1 htest.2, hstands⟩
  · have hblind : windSampled s = (s.wind.sampled s.cfg.wind).2.goBlind := gated_blind (.inl hw)
    refine ⟨windSampled s, windHeld s, hexec s hrun, ?_, ?_, ?_, ?_, htimer s⟩ <;> rw [hblind] <;> rfl

end Sys2Proof.Machine
end

