-- ==== Sys2Proof/Proofs/TransactionEnds.lean ====
section
/-! PROOFS. The ends of the transactions of a link cycle that update no record, and the place of a broadcast asked for in a
cycle (R99, R108, R110, R126). -/

namespace Sys2Proof.Machine
open Safety

/-! ### The ends of broadcasts and writes -/

section
variable {env : Env} {p : Plant} {rest : List Txn}

theorem broadcastEnd_head {b : Broadcast} {inserted : Bool} (h : p.link.cycle = .broadcast b inserted :: rest) :
    broadcastEnd p = { p with link := { p.link with cycle := rest, bcasts := p.link.bcasts.filter (fun c => c.slot != b.slot) } } := by
  simp [broadcastEnd, popTxn, BogieLink.pop, Txn.mark, h]

theorem broadcastEnd_other (h : ∀ b inserted rest, p.link.cycle ≠ .broadcast b inserted :: rest) : broadcastEnd p = p := by
  unfold broadcastEnd
  split
  · next hc => exact absurd hc (h _ _ _)
  · rfl

theorem writeEnd_head {addr : Nat} {index : Byte} {value : BitVec 16} {branch : Branch} {wait : Nat} {w : Option LinkWord}
    (h : p.link.cycle = .param addr index value branch wait true :: rest) : writeEnd env w p = { p with
      out := p.out.push (.paramDone addr index value (if wordGood addr w then .acknowledged else .notAcknowledged) env.time),
      link := { p.link with cycle := rest, prev := some { branch := branch, isPoll := false } } } := by
  simp [writeEnd, popTxn, BogieLink.pop, Txn.mark, h, Plant.report]

theorem writeEnd_other {w : Option LinkWord}
    (h : ∀ addr index value branch wait live rest, p.link.cycle ≠ .param addr index value branch wait live :: rest) :
    writeEnd env w p = p := by
  unfold writeEnd
  split
  · next hc => exact absurd hc (h _ _ _ _ _ _ _)
  · rfl

theorem lockEnd_head {i : Slot} {addr : Nat} {cmd : LockCmd} {branch : Branch} {wait : Nat} {l : LockRecord}
    (h : p.link.cycle = .lock i addr cmd branch wait true :: rest) (hlock : (p.span i).lock = some l) (hcmd : l.cmd = cmd) :
    lockEnd p = Plant.setSpan { p with link := { p.link with cycle := rest, prev := some { branch := branch, isPoll := false } } } i
      { p.span i with lock := some { l with sent := true, replied := false } } := by
  simp [lockEnd, markSent, popTxn, BogieLink.pop, Txn.mark, h, hlock, hcmd, Plant.setSpan]

theorem lockEnd_other (h : ∀ i addr cmd branch wait live rest, p.link.cycle ≠ .lock i addr cmd branch wait live :: rest) :
    lockEnd p = p := by
  unfold lockEnd
  split
  · next hc => exact absurd hc (h _ _ _ _ _ _ _)
  · rfl

end

/-! ### A broadcast asked for during a cycle (R99) -/

theorem insertBroadcast_behind {b : Broadcast} {asked later : List Txn} (hasked : ∀ y ∈ asked, ∃ c, y = .broadcast c true)
    (hlater : ∀ y, later.head? = some y → ∀ c, y ≠ .broadcast c true) :
    insertBroadcast b (asked ++ later) = asked ++ .broadcast b true :: later := by
  induction asked with
  | nil =>
    cases later with
    | nil => rfl
    | cons y later =>
      have hy : y.isInserted = false := by
        cases y with
        | broadcast c inserted =>
          cases inserted
          · rfl
          · exact absurd rfl (hlater _ rfl c)
        | burst | poll | param | lock => rfl
      simp [insertBroadcast, hy]
  | cons y asked ih =>
    rw [List.forall_mem_cons] at hasked
    obtain ⟨⟨c, rfl⟩, hrest⟩ := hasked
    simp [insertBroadcast, Txn.isInserted, ih hrest]

/-- Settles O47: the ends of broadcasts and writes, what ends none, and the place of a broadcast asked for. -/
theorem broadcastAndWritesEnd : Obligations.BroadcastAndWritesEnd := by
  unfold Obligations.BroadcastAndWritesEnd
  intro s hrun
  have hevent : ∀ f : Env → Plant → Plant, ∀ q : Plant, f s.env s.plant = q →
      runEvent (State.onPlant f) s = .next (settle { s with plant := q }) := fun f q hq => by
    rw [runEvent_running hrun, State.onPlant, hq]
  refine ⟨fun b inserted rest hc => hevent _ _ (broadcastEnd_head hc),
    fun addr index value branch wait rest w hc => hevent _ _ (writeEnd_head hc),
    fun i addr cmd branch wait rest w l hc hlock hcmd => hevent _ _ (lockEnd_head hc hlock hcmd),
    fun w hc => ⟨hevent _ s.plant (broadcastEnd_other ?_), hevent _ s.plant (writeEnd_other ?_), hevent _ s.plant (lockEnd_other ?_)⟩,
    fun w x rest hc => ⟨fun hx => hevent _ s.plant (broadcastEnd_other ?_), fun hx => hevent _ s.plant (writeEnd_other ?_),
      fun hx => hevent _ s.plant (lockEnd_other ?_)⟩,
    fun l b x asked later hc hnew hasked hlater => ?_⟩
  · simp [hc]
  · simp [hc]
  · simp [hc]
  · intro b inserted rest' h
    exact hx b inserted (List.cons.inj (hc.symm.trans h)).1
  · intro addr index value branch wait live rest' h
    exact hx addr index value branch wait live (List.cons.inj (hc.symm.trans h)).1
  · intro i addr cmd branch wait live rest' h
    exact hx i addr cmd branch wait live (List.cons.inj (hc.symm.trans h)).1
  · rw [BogieLink.requestBroadcast, if_neg (by rw [hnew]; decide), hc]
    exact congrArg (fun ts => { l with bcasts := l.bcasts ++ [b], cycle := x :: ts }) (insertBroadcast_behind hasked hlater)

end Sys2Proof.Machine
end

