-- ==== Sys2Proof/Proofs/CycleComposition.lean ====
section
/-! PROOFS. The composition of a link cycle (R93, R96, R97, R101, R109). -/

namespace Sys2Proof.Machine
open Safety

/-! ### The steps of R96 -/

theorem add_txns (ts : List Txn) (d : Draft) : (ts.foldl Draft.add d).txns = d.txns ++ ts := by
  induction ts generalizing d with
  | nil => simp
  | cons t ts ih => simp [ih, Draft.add]

/-- Polls are composed from the front of the round while each fits, and the first left does not. -/
theorem composePolls_spec (budget : Nat) (round : List Txn) (d : Draft) : ∃ ps rest, round = ps ++ rest ∧
    (composePolls budget round d).1 = ps.foldl Draft.add d ∧ (composePolls budget round d).2 = rest.head?.map Txn.pollAddr ∧
    (∀ x, rest.head? = some x → budget < (ps.foldl Draft.add d).used + (ps.foldl Draft.add d).price x) ∧
    (ps ≠ [] → (ps.foldl Draft.add d).used ≤ budget) := by
  induction round generalizing d with
  | nil => exact ⟨[], [], rfl, rfl, rfl, by simp, by simp⟩
  | cons t round ih =>
    by_cases hfits : d.fits budget t = true
    · obtain ⟨ps, rest, hround, hdraft, hstop, hnext, hused⟩ := ih (d.add t)
      refine ⟨t :: ps, rest, by rw [hround]; rfl, ?_, ?_, hnext, fun _ => ?_⟩
      · rw [composePolls, if_pos hfits]; exact hdraft
      · rw [composePolls, if_pos hfits]; exact hstop
      · cases ps with
        | nil => simpa [Draft.fits, Draft.add] using hfits
        | cons x ps => exact hused (by simp)
    · refine ⟨[], t :: round, rfl, ?_, ?_, ?_, by simp⟩
      · rw [composePolls, if_neg hfits]; rfl
      · rw [composePolls, if_neg hfits]; rfl
      · rintro x hx
        obtain rfl : t = x := by simpa using hx
        simpa [Draft.fits] using hfits

/-- The cursor moves to the first poll left, or to the first of the round. -/
theorem nextCursor_eq {cursor : Nat} {ps rest : List Txn} :
    nextCursor cursor (ps ++ rest) (rest.head?.map Txn.pollAddr) = ((rest ++ (ps ++ rest)).head?.map Txn.pollAddr).getD cursor := by
  cases rest with
  | nil => cases ps <;> rfl
  | cons x rest => rfl

/-- The head of the parameter queue is sent when it fits, and the queue is kept otherwise. -/
theorem composeWrite_spec (env : Env) (p : Plant) (params : List ParamEntry) (d : Draft) : ∃ w left : List _,
    (composeWrite env p params d).1 = w.foldl Draft.add d ∧ (composeWrite env p params d).2 = left ∧
    (params = [] → w = [] ∧ left = []) ∧
    (∀ e rest, params = e :: rest → (entryTxn env p e = none → w = [] ∧ left = params) ∧
      (∀ x, entryTxn env p e = some x → (d.fits env.cfg.dev.budget x = true → w = [x] ∧ left = rest) ∧
        (d.fits env.cfg.dev.budget x = false → w = [] ∧ left = params))) ∧
    (w ≠ [] → (w.foldl Draft.add d).used ≤ env.cfg.dev.budget) := by
  cases params with
  | nil => exact ⟨[], [], rfl, rfl, fun _ => ⟨rfl, rfl⟩, by simp, by simp⟩
  | cons e rest =>
    cases htxn : entryTxn env p e with
    | none =>
      refine ⟨[], e :: rest, by simp [composeWrite, htxn], by simp [composeWrite, htxn], by simp, ?_, by simp⟩
      rintro _ _ ⟨⟩
      exact ⟨fun _ => ⟨rfl, rfl⟩, fun x hx => by simp [htxn] at hx⟩
    | some t =>
      by_cases hfits : d.fits env.cfg.dev.budget t = true
      · refine ⟨[t], rest, by simp [composeWrite, htxn, hfits], by simp [composeWrite, htxn, hfits], by simp, ?_, fun _ => ?_⟩
        · rintro _ _ ⟨⟩
          refine ⟨fun h => by simp [htxn] at h, fun x hx => ?_⟩
          obtain rfl := Option.some.inj (htxn.symm.trans hx)
          exact ⟨fun _ => ⟨rfl, rfl⟩, fun h => by simp [hfits] at h⟩
        · simpa [Draft.fits, Draft.add] using hfits
      · refine ⟨[], e :: rest, by simp [composeWrite, htxn, hfits], by simp [composeWrite, htxn, hfits], by simp, ?_, by simp⟩
        rintro _ _ ⟨⟩
        refine ⟨fun h => by simp [htxn] at h, fun x hx => ?_⟩
        obtain rfl := Option.some.inj (htxn.symm.trans hx)
        exact ⟨fun h => absurd h hfits, fun _ => ⟨rfl, rfl⟩⟩

/-- The host writes removed at the head are those to role NONE (R109). -/
theorem deadHead_spec (l : BogieLink) (ps : List ParamEntry) : ps = (deadHead l ps).1 ++ (deadHead l ps).2 ∧
    (∀ e ∈ (deadHead l ps).1, ∃ addr index value, e = .host addr index value ∧ l.find addr = none) ∧
    (∀ addr index value, (deadHead l ps).2.head? = some (.host addr index value) → (l.find addr).isSome = true) := by
  induction ps with
  | nil => exact ⟨rfl, by simp [deadHead], by simp [deadHead]⟩
  | cons e ps ih =>
    cases e with
    | lock slot cmd => exact ⟨rfl, by simp [deadHead], by simp [deadHead]⟩
    | host addr index value =>
      by_cases hfind : (l.find addr).isSome = true
      · refine ⟨by simp [deadHead, hfind], by simp [deadHead, hfind], fun a n v h => ?_⟩
        simp only [deadHead, hfind, if_true, List.head?_cons, Option.some.injEq, ParamEntry.host.injEq] at h
        rw [← h.1]
        exact hfind
      · obtain ⟨hsplit, hdead, hhead⟩ := ih
        have hform : deadHead l (.host addr index value :: ps) = (.host addr index value :: (deadHead l ps).1, (deadHead l ps).2) := by
          simp [deadHead, hfind]
        rw [hform]
        refine ⟨congrArg (List.cons _) hsplit, ?_, hhead⟩
        rw [List.forall_mem_cons]
        exact ⟨⟨addr, index, value, rfl, by simpa using hfind⟩, hdead⟩

/-! ### What the ages leave of the composition -/

section
variable {env : Env} {p u : Plant}

/-- A plant with the ages a cycle start leaves. -/
def Plant.agesTo (p u : Plant) : Prop := u.spans = p.spans ∧ u.link.addrs = p.link.addrs.map AddrRec.older

theorem find_aged (h : p.agesTo u) (addr : Nat) : u.link.find addr = (p.link.find addr).map AddrRec.older := by
  rw [BogieLink.find, h.2, List.find?_map]
  rfl

theorem railBogies_aged (h : p.agesTo u) (i : Slot) (r : Rail) : u.railBogies i r = (p.railBogies i r).map AddrRec.older := by
  simp only [Plant.railBogies, Plant.bogies, h.2, List.filter_map]
  rfl

theorem spanBursts_aged (h : p.agesTo u) (i : Slot) : spanBursts env i u = spanBursts env i p := by
  have hrail : ∀ s r, railBurst env i s u r = railBurst env i s p r := by
    intro s r
    rw [railBurst, railBurst, railBogies_aged h]
    cases p.railBogies i r with
    | nil => rfl
    | cons a rest => simp [AddrRec.older]
  have hspan : u.span i = p.span i := congrArg (fun q : Quad Span => q.get i) h.1
  simp only [spanBursts, hspan, funext (hrail _)]

theorem entryTxn_aged (h : p.agesTo u) (e : ParamEntry) : entryTxn env u e = entryTxn env p e := by
  cases e with
  | host addr index value =>
    simp only [entryTxn, find_aged h]
    cases p.link.find addr <;> rfl
  | lock slot cmd =>
    have hunit : u.lockUnit slot = (p.lockUnit slot).map AddrRec.older := by
      rw [Plant.lockUnit, h.2, List.find?_map]
      rfl
    simp only [entryTxn, hunit]
    cases p.lockUnit slot <;> rfl

theorem pollRound_aged (h : p.agesTo u) (hcursor : u.link.cursor = p.link.cursor) : pollRound env u.link = pollRound env p.link := by
  simp only [pollRound, h.2, hcursor, List.filter_map, ← List.map_append, List.filterMap_map]
  rfl

end

/-! ### The whole composition -/

/-- The draft a cycle is composed into. -/
def Draft.begun (before : Option TxnMark) : Draft := { txns := [], used := 0, prev := before }

/-- A plant with a link cycle composed, behind a last transaction that counts for the gap (R93, R96, R97, R101, R109). -/
def cycleComposed (env : Env) (before : Option TxnMark) (p q : Plant) : Prop :=
  ∃ (dead params left : List ParamEntry) (head w ps : List Txn),
    q.zones = p.zones ∧ (∀ i : Slot, q.span i = (p.span i).takeSet) ∧ q.link.addrs = p.link.addrs.map AddrRec.older ∧
    q.link.bcasts = p.link.bcasts ∧ q.link.held = false ∧ q.link.cycleT = p.link.cycleT ∧ q.link.prev = before ∧
    p.link.params = dead ++ params ∧
    (∀ e ∈ dead, ∃ addr index value, e = .host addr index value ∧ p.link.find addr = none) ∧
    (∀ addr index value, params.head? = some (.host addr index value) → (p.link.find addr).isSome = true) ∧
    q.out = (dead.flatMap (withdrawnReport env.time)).foldl ReportQueue.push p.out ∧
    head = p.link.bcasts.map (fun b => Txn.broadcast b false) ++ four.flatMap (fun i => spanBursts env i p) ∧
    q.link.cycle = head ++ w ++ ps ∧ q.link.params = left ∧
    (params = [] → w = [] ∧ left = []) ∧
    (∀ e rest, params = e :: rest → (entryTxn env p e = none → w = [] ∧ left = params) ∧
      (∀ x, entryTxn env p e = some x →
        (Draft.fits (head.foldl Draft.add (Draft.begun before)) env.cfg.dev.budget x = true → w = [x] ∧ left = rest) ∧
        (Draft.fits (head.foldl Draft.add (Draft.begun before)) env.cfg.dev.budget x = false → w = [] ∧ left = params))) ∧
    ∃ rest, pollRound env p.link = ps ++ rest ∧
      (∀ x, rest.head? = some x → env.cfg.dev.budget < (q.link.cycle.foldl Draft.add (Draft.begun before)).used +
        (q.link.cycle.foldl Draft.add (Draft.begun before)).price x) ∧
      q.link.cursor = ((rest ++ (ps ++ rest)).head?.map Txn.pollAddr).getD p.link.cursor ∧
      (w ++ ps ≠ [] → (q.link.cycle.foldl Draft.add (Draft.begun before)).used ≤ env.cfg.dev.budget)

theorem startCycle_composes (env : Env) (before : Option TxnMark) (p : Plant) :
    cycleComposed env before p (startCycle env before p) := by
  obtain ⟨hparams, hdead, hhead⟩ := deadHead_spec p.link p.link.params
  let u := Plant.reports { p with link := { p.link with params := (deadHead p.link p.link.params).2, addrs := p.link.addrs.map AddrRec.older } }
    ((deadHead p.link p.link.params).1.flatMap (withdrawnReport env.time))
  have hlink : u.link = { p.link with params := (deadHead p.link p.link.params).2, addrs := p.link.addrs.map AddrRec.older } :=
    Plant.reports_link ..
  have hbcasts : u.link.bcasts = p.link.bcasts := by rw [hlink]
  have htimer : u.link.cycleT = p.link.cycleT := by rw [hlink]
  have haged : p.agesTo u := ⟨Plant.reports_spans .., congrArg BogieLink.addrs hlink⟩
  let head := p.link.bcasts.map (fun b => Txn.broadcast b false) ++ four.flatMap (fun i => spanBursts env i p)
  have hheadDraft : composeHead env before u = head.foldl Draft.add (Draft.begun before) := by
    simp only [composeHead, spanBursts_aged haged, hlink]
    rfl
  obtain ⟨w, left, hw, hleft, hempty, hwrite, hwused⟩ := composeWrite_spec env u u.link.params (composeHead env before u)
  have hround : pollRound env u.link = pollRound env p.link := pollRound_aged haged (by rw [hlink])
  obtain ⟨ps, rest, hsplit, hpolls, hstop, hnext, hused⟩ := composePolls_spec env.cfg.dev.budget (pollRound env u.link)
    (composeWrite env u u.link.params (composeHead env before u)).1
  have hdraft : (composePolls env.cfg.dev.budget (pollRound env u.link)
      (composeWrite env u u.link.params (composeHead env before u)).1).1 = (head ++ w ++ ps).foldl Draft.add (Draft.begun before) := by
    rw [hpolls, hw, hheadDraft, ← List.foldl_append, ← List.foldl_append, ← List.append_assoc]
  have hcycle : (startCycle env before p).link.cycle = head ++ w ++ ps :=
    (congrArg Draft.txns hdraft).trans (add_txns _ _)
  have hentry : ∀ e, entryTxn env u e = entryTxn env p e := entryTxn_aged haged
  have htotal : ps.foldl Draft.add (composeWrite env u u.link.params (composeHead env before u)).1 =
      (startCycle env before p).link.cycle.foldl Draft.add (Draft.begun before) := by rw [hcycle, ← hdraft, hpolls]
  rw [htotal] at hnext hused
  rw [hheadDraft] at hwrite
  simp only [hentry] at hwrite
  refine ⟨_, u.link.params, left, head, w, ps, ?_, fun i => ?_, ?_, ?_, rfl, ?_, rfl, ?_, hdead, ?_, ?_, rfl, hcycle, hleft, hempty, hwrite,
    rest, hround.symm.trans hsplit, hnext, ?_, fun hne => ?_⟩
  · exact Plant.reports_zones ..
  · exact (Quad.get_map ..).trans (congrArg (fun q : Quad Span => (q.get i).takeSet) haged.1)
  · exact haged.2
  · exact hbcasts
  · exact htimer
  · rw [hlink]; exact hparams
  · rw [hlink]; exact hhead
  · exact Plant.reports_out ..
  · rw [← nextCursor_eq, ← hsplit, ← hstop]
    have hcursor : u.link.cursor = p.link.cursor := by rw [hlink]
    rw [← hcursor]
    rfl
  · cases ps with
    | nil =>
      rw [← htotal, hw]
      exact hwused (by simpa using hne)
    | cons x ps => exact hused (by simp)

/-- Settles O46: the composition of a cycle at an expiry and at a held start, and an expiry held during a cycle. -/
theorem linkCycleComposed : Obligations.LinkCycleComposed := by
  unfold Obligations.LinkCycleComposed
  intro s hrun
  have hevent : ∀ q : Plant, cycleStart s.env s.plant = q → exec .linkCycleStart s = .next (settle { s with plant := q }) := fun q hq =>
    (runEvent_running hrun _).trans (by rw [State.onPlant, hq])
  refine ⟨fun hidle => ?_, fun hbusy => hevent _ ?_⟩
  · let before := if s.plant.link.held = true then s.plant.link.prev else none
    let p : Plant := if s.plant.link.held = true then s.plant else { s.plant with link := { s.plant.link with cycleT := 10 } }
    have hstart : cycleStart s.env s.plant = startCycle s.env before p := by
      simp only [cycleStart, hidle, before, p]
      split <;> rfl
    have hp : p = { s.plant with link := { s.plant.link with
        cycleT := if s.plant.link.held = true then s.plant.link.cycleT else 10 } } := by
      simp only [p]
      split <;> rfl
    have hcomposed := startCycle_composes s.env before p
    rw [hp] at hcomposed hstart
    obtain ⟨dead, params, left, head, w, ps, hzones, hspans, haddrs, hbcasts, hheld, htimer, hprev, hparams, hdead, hfirst, hout, hhead,
      hcycle, hleft, hempty, hwrite, rest, hround, hnext, hcursor, hused⟩ := hcomposed
    have hdrop : (pollRound s.env s.plant.link).drop ps.length = rest := by
      have : pollRound s.env s.plant.link = ps ++ rest := hround
      rw [this, List.drop_left]
    refine ⟨_, dead, params, left, head, w, ps, before, hevent _ hstart, hzones, hspans, haddrs, hbcasts, hheld, htimer, rfl, hprev, hparams,
      hdead, hfirst, hout, hhead, hcycle, hleft, hempty, hwrite, ?_, ?_, ?_, hused⟩
    · have : pollRound s.env s.plant.link = ps ++ rest := hround
      rw [this, List.take_left]
    · rw [hdrop]
      intro x hx
      rw [Nat.add_assoc]
      exact hnext x hx
    · have : pollRound s.env s.plant.link = ps ++ rest := hround
      rw [hdrop, this, hcursor]
      cases rest ++ (ps ++ rest) <;> rfl
  · unfold cycleStart
    split
    · next h => exact absurd h hbusy
    · rfl

end Sys2Proof.Machine
end

