-- ==== Sys2Proof/Proofs/Acquisition.lean ====
section
/-! PROOFS. The end of acquisition (R105, R139, R161, R162): the first state of every span in use, the claims, and the sets posted. -/

namespace Sys2Proof.Machine
open Safety

/-! ### The first state of one span -/

/-- A cause noted is the cause registered, without its report. -/
theorem Span.note_record (time : Time) (c : FaultCause) (sp : Span) :
    sp.note time c = { sp with fault := some (faultWith time c sp) } := by
  cases hf : sp.fault with
  | none => simp [Span.note, faultWith, hf]
  | some f =>
    by_cases h : f.first = c ∨ c ∈ f.later
    · have h' : (f.first == c || f.later.contains c) = true := by simpa using h
      simp only [Span.note, faultWith, hf, h', h, if_true]
      rw [← hf]
    · have h' : (f.first == c || f.later.contains c) = false := by simpa using h
      simp [Span.note, faultWith, hf, h]

section
variable {env : Env} {i j : Slot} {p u : Plant}

/-- A span measured and placed at the end of acquisition, before its first state. -/
def firstPlaced (env : Env) (i : Slot) (p : Plant) : Span :=
  { p.span i with meas := ((periodFound env i p).span i).meas, lastM := ((periodFound env i p).span i).lastM,
                  x := (env.span i).clampX (((periodFound env i p).span i).meas.m.getD 0), r := 0, dir := .pos }

/-- The causes a span is found with at the end of acquisition, noted in the order of R162. -/
def firstNoted (env : Env) (i : Slot) (sp : Span) : Span :=
  let a := if sp.belowMinimum env i then sp.note env.time .bogieLoss else sp
  if sp.outsideEnvelope (env.span i) then a.note env.time .envelope else a

theorem formPositions_span : (formPositions env i p).span i =
    { p.span i with meas := ((periodFound env i p).span i).meas, lastM := ((periodFound env i p).span i).lastM } := by
  have hfound : (periodFound env i p).span i = (formPositions env i (p.setSpan i { p.span i with periodT := Config.periodMs })).span i := rfl
  rw [hfound]
  simp only [formPositions, Plant.span_setSpan]
  rfl

theorem firstState_eq : firstState env i p = p.setSpan i
    (if pinsEngaged i p then (firstPlaced env i p).first .locked
     else (firstNoted env i (firstPlaced env i p)).first
      (if (firstPlaced env i p).belowMinimum env i || (firstPlaced env i p).outsideEnvelope (env.span i) then .faulted else .resting)) := by
  have hpins : pinsEngaged i (formPositions env i p) = pinsEngaged i p := rfl
  have hset : ∀ sp : Span, (formPositions env i p).setSpan i sp = p.setSpan i sp := fun sp => by
    simp [formPositions]
  simp only [firstState, formPositions_span, hpins, hset]
  rfl

/-- What the end of acquisition gives every span in use, whatever its state (R162). -/
def acquired (env : Env) (i : Slot) (p : Plant) (a b : Span) : Prop :=
  (b.state = .resting ∨ b.state = .locked ∨ b.state = .faulted) ∧ b.v = 0 ∧ b.r = 0 ∧ b.dir = .pos ∧
  (∀ m, b.meas.m = some m → b.x = max (env.span i).xmin (min (env.span i).xmax m)) ∧
  (b.meas.m = none → b.x = max (env.span i).xmin (min (env.span i).xmax 0)) ∧
  (0 < (env.span i).rails → measured env i p a b)

/-- The first state of a span without a fault record, where no claim is in conflict (R162). -/
def firstJudged (env : Env) (i : Slot) (pins : Bool) (b : Span) : Prop :=
  (pins = true → b.state = .locked ∧ b.fault = none) ∧
  (pins = false → ∀ loss out : Prop, (loss ↔ ∃ r : Rail, r.val < (env.span i).rails ∧ b.meas.nValid.get r < env.minValid i r) →
    (out ↔ ∃ m, b.meas.m = some m ∧ (m < (env.span i).xmin - 50000 ∨ (env.span i).xmax + 50000 < m)) →
    (¬ loss → ¬ out → b.state = .resting ∧ b.fault = none) ∧
    (loss ∨ out → b.state = .faulted ∧ ∃ f, b.fault = some f ∧ f.time = env.time ∧
      (loss → f.first = .bogieLoss ∧ (f.later = [.envelope] ↔ out) ∧ (f.later = [] ↔ ¬ out)) ∧
      (¬ loss → f.first = .envelope ∧ f.later = [])))

theorem firstNoted_keeps (sp : Span) : firstNoted env i sp = { sp with fault := (firstNoted env i sp).fault } := by
  simp only [firstNoted]
  split
  · rw [Span.note_record]
    split
    · rw [Span.note_record]
    · rfl
  · split
    · rw [Span.note_record]
    · rfl

theorem firstState_span : (firstState env i p).span i = { firstPlaced env i p with
    state := ((firstState env i p).span i).state, v := 0, fault := ((firstState env i p).span i).fault,
    proof := ((firstState env i p).span i).proof } := by
  rw [firstState_eq, Plant.span_setSpan]
  split
  · rfl
  · rw [firstNoted_keeps]
    rfl

theorem firstState_acquired : acquired env i p (p.span i) ((firstState env i p).span i) := by
  have hspan := firstState_span (env := env) (i := i) (p := p)
  have hstate : ((firstState env i p).span i).state = .resting ∨ ((firstState env i p).span i).state = .locked ∨
      ((firstState env i p).span i).state = .faulted := by
    rw [firstState_eq, Plant.span_setSpan]
    split
    · exact .inr (.inl rfl)
    · simp only [Span.first]
      split
      · exact .inr (.inr rfl)
      · exact .inl rfl
  rw [hspan]
  refine ⟨hstate, rfl, rfl, rfl, fun m hm => ?_, fun hm => ?_, fun hrails => ?_⟩
  · have hm' : ((periodFound env i p).span i).meas.m = some m := hm
    show (env.span i).clampX _ = _
    rw [hm']
    rfl
  · have hm' : ((periodFound env i p).span i).meas.m = none := hm
    show (env.span i).clampX _ = _
    rw [hm']
    rfl
  · exact periodFound_measured hrails

theorem firstState_judged (hfault : (p.span i).fault = none) :
    firstJudged env i (pinsEngaged i p) ((firstState env i p).span i) := by
  have hplaced : (firstPlaced env i p).fault = none := hfault
  have hspan := firstState_eq (env := env) (i := i) (p := p)
  refine ⟨fun hpins => ?_, fun hpins loss out hloss hout => ?_⟩
  · rw [hspan, Plant.span_setSpan, if_pos hpins]
    exact ⟨rfl, hplaced⟩
  · have hlossIs : loss ↔ (firstPlaced env i p).belowMinimum env i = true := by
      rw [belowMinimum_iff, hloss, firstState_span]
    have houtIs : out ↔ (firstPlaced env i p).outsideEnvelope (env.span i) = true := by
      rw [outsideEnvelope_eq, hout, firstState_span]
      simp [Option.any_eq_true]
    have hb : (firstState env i p).span i = (firstNoted env i (firstPlaced env i p)).first
        (if (firstPlaced env i p).belowMinimum env i || (firstPlaced env i p).outsideEnvelope (env.span i) then .faulted
         else .resting) := by
      rw [hspan, Plant.span_setSpan, if_neg (by rw [hpins]; decide)]
    rw [hlossIs, houtIs, hb]
    cases hl : (firstPlaced env i p).belowMinimum env i with
    | true =>
      cases ho : (firstPlaced env i p).outsideEnvelope (env.span i) <;>
        simp [Span.first, firstNoted, hl, ho, Span.note_record, faultWith, hplaced]
    | false =>
      cases ho : (firstPlaced env i p).outsideEnvelope (env.span i) <;>
        simp [Span.first, firstNoted, hl, ho, Span.note_record, faultWith, hplaced]

theorem firstState_span_ne (h : j ≠ i) : (firstState env i p).span j = p.span j := by
  rw [firstState_eq, Plant.span_setSpan_ne _ h]

@[simp] theorem firstState_link : (firstState env i p).link = p.link := by rw [firstState_eq, Plant.setSpan_link]
@[simp] theorem firstState_zones : (firstState env i p).zones = p.zones := by rw [firstState_eq, Plant.setSpan_zones]

/-! ### The address records at the end of acquisition (R105) -/

theorem filter_map_fixed {α : Type} {f : α → α} {c : α → Bool} (hc : ∀ a, c (f a) = c a) (hf : ∀ a, c a = true → f a = a) (l : List α) :
    (l.map f).filter c = l.filter c := by
  rw [List.filter_map, Function.comp_def]
  simp only [hc]
  exact (List.map_congr_left fun a ha => hf a (List.mem_filter.1 ha).2).trans (List.map_id' _)

theorem notPresent : (LinkState.lost == LinkState.present) = false ∧ (LinkState.unknown == LinkState.present) = false := ⟨rfl, rfl⟩

/-- No valid bogie was UNKNOWN: the records' end leaves what is measured. -/
theorem validRail_lost (h : u.link.addrs = p.link.addrs.map AddrRec.lostAtEnd) (r : Rail) : u.validRail env i r = p.validRail env i r := by
  simp only [Plant.validRail, Plant.railBogies, Plant.bogies, List.filter_filter, h]
  refine filter_map_fixed (f := AddrRec.lostAtEnd) (fun a => ?_) (fun a ha => if_neg ?_) _
  · unfold AddrRec.lostAtEnd
    split
    · next hl => simp [AddrRec.isValid, eq_of_beq hl, notPresent]
    · rfl
  · simp only [Bool.and_eq_true, AddrRec.isValid, beq_iff_eq] at ha
    simp [ha.1.1.1]

theorem pinsEngaged_lost (h : u.link.addrs = p.link.addrs.map AddrRec.lostAtEnd) : pinsEngaged i u = pinsEngaged i p := by
  have hunit : u.lockUnit i = (p.lockUnit i).map AddrRec.lostAtEnd := by
    have hsame : ∀ a : AddrRec, ((a.lostAtEnd).role == .lockUnit && (a.lostAtEnd).slot == i) = (a.role == .lockUnit && a.slot == i) := by
      intro a
      unfold AddrRec.lostAtEnd
      split <;> rfl
    simp only [Plant.lockUnit, h, List.find?_map, Function.comp_def, hsame]
  rw [pinsEngaged, pinsEngaged, hunit]
  cases p.lockUnit i with
  | none => rfl
  | some a =>
    simp only [Option.map_some, AddrRec.lostAtEnd]
    split
    · next hl => simp [eq_of_beq hl, notPresent]
    · rfl

/-! ### The assignment of claims (R139) -/

/-- A span as the assignment of claims leaves it: as it was, or, out of UNCONFIGURED, FAULTED with ZONE_CONFLICT. -/
def conflicted (a b : Span) : Prop :=
  b = a ∨ (b = { a with state := .faulted, v := 0, fault := b.fault, proof := b.proof } ∧ a.state ≠ .unconfigured ∧
    b.faultHas .zoneConflict = true)

theorem conflicted.trans {a b c : Span} (h : conflicted a b) (k : conflicted b c) : conflicted a c := by
  rcases h with rfl | ⟨hb, hu, hz⟩
  · exact k
  · rcases k with rfl | ⟨hc, -, hz'⟩
    · exact .inr ⟨hb, hu, hz⟩
    · rw [hb] at hc
      exact .inr ⟨hc, hu, hz'⟩

/-- What the assignment reads of a span. -/
theorem conflicted.reads {a b : Span} (h : conflicted a b) : b.x = a.x ∧ b.meas = a.meas ∧
    (b.state ≠ .unconfigured ↔ a.state ≠ .unconfigured) := by
  rcases h with rfl | ⟨hb, hu, -⟩
  · exact ⟨rfl, rfl, .rfl⟩
  · rw [hb]
    exact ⟨rfl, rfl, fun _ => hu, fun _ => (by decide : SpanState.faulted ≠ .unconfigured)⟩

theorem conflictSpan_span : (conflictSpan env i p).span i = ((p.span i).note env.time .zoneConflict).first .faulted := Plant.span_setSpan ..
theorem conflictSpan_span_ne (h : j ≠ i) : (conflictSpan env i p).span j = p.span j := Plant.span_setSpan_ne p h _

theorem conflictSpan_faults : ((conflictSpan env i p).span i).state = .faulted ∧
    ((conflictSpan env i p).span i).faultHas .zoneConflict = true := by
  rw [conflictSpan_span, Span.note_record]
  exact ⟨rfl, (faultHas_faultWith env.time _ _ _).trans (by simp)⟩

theorem conflictSpan_conflicted (h : (p.span i).state ≠ .unconfigured) (j : Slot) :
    conflicted (p.span j) ((conflictSpan env i p).span j) := by
  by_cases hj : j = i
  · subst hj
    refine .inr ⟨?_, h, conflictSpan_faults.2⟩
    rw [conflictSpan_span, Span.note_record]
    rfl
  · exact .inl (conflictSpan_span_ne hj)

/-- An entry is assigned the same from spans the assignment has placed in conflict. -/
theorem assign_conflicted (h : ∀ j, conflicted (p.span j) (u.span j)) (z : ZoneEntry) : z.assign u = z.assign p := by
  have hinside : ∀ (d : Side) (j : Slot), (z.insideAt d (u.span j).x (u.span j).meas.mr && (u.span j).state != .unconfigured) =
      (z.insideAt d (p.span j).x (p.span j).meas.mr && (p.span j).state != .unconfigured) := by
    intro d j
    obtain ⟨hx, hm, hst⟩ := (h j).reads
    rw [hx, hm]
    have hleft : ((u.span j).state != .unconfigured) = ((p.span j).state != .unconfigured) := by
      rw [Bool.eq_iff_iff, bne_iff_ne, bne_iff_ne]
      exact hst
    rw [hleft]
  simp only [ZoneEntry.assign, hinside]

/-- A span in conflict stays in it. -/
theorem conflicted.stays {a b : Span} (h : conflicted a b) (ha : a.state = .faulted ∧ a.faultHas .zoneConflict = true) :
    b.state = .faulted ∧ b.faultHas .zoneConflict = true := by
  rcases h with rfl | ⟨hb, -, hz⟩
  · exact ha
  · exact ⟨by rw [hb], hz⟩

theorem ZoneEntry.sideOf_isSome {z : ZoneEntry} : (z.sideOf j).isSome = true ↔ z.spanA = j ∨ z.spanB = j := by
  unfold ZoneEntry.sideOf
  split
  · next h => simp [h]
  · next h => split <;> simp_all

/-- One entry's conflict: both its spans, where both are inside, and no other span. -/
theorem entryConflict_spec (z : ZoneEntry) :
    let p' := if (z.assign p).2 then conflictSpan env z.spanB (conflictSpan env z.spanA p) else p
    (∀ j, conflicted (p.span j) (p'.span j)) ∧
    (∀ j, (((z.sideOf j).isSome = true → (z.assign p).2 = false) → p'.span j = p.span j) ∧
      ((z.assign p).2 = true → (z.sideOf j).isSome = true →
        (p'.span j).state = .faulted ∧ (p'.span j).faultHas .zoneConflict = true)) ∧ p'.link = p.link := by
  cases hboth : (z.assign p).2 with
  | false => exact ⟨fun _ => .inl rfl, fun _ => ⟨fun _ => rfl, fun h => absurd h (by decide)⟩, rfl⟩
  | true =>
    obtain ⟨hA, hB⟩ := ZoneEntry.assign_both hboth
    have hfirst : ∀ j, conflicted (p.span j) ((conflictSpan env z.spanA p).span j) := conflictSpan_conflicted hA
    have hsecond : ∀ j, conflicted ((conflictSpan env z.spanA p).span j) ((conflictSpan env z.spanB (conflictSpan env z.spanA p)).span j) :=
      conflictSpan_conflicted ((hfirst _).reads.2.2.mpr hB)
    refine ⟨fun j => (hfirst j).trans (hsecond j), fun j => ⟨fun hspared => ?_, fun _ hside => ?_⟩, rfl⟩
    · have hne : ¬(z.spanA = j ∨ z.spanB = j) := fun h => absurd (hspared (ZoneEntry.sideOf_isSome.mpr h)) (by decide)
      rw [not_or] at hne
      exact (conflictSpan_span_ne (Ne.symm hne.2)).trans (conflictSpan_span_ne (Ne.symm hne.1))
    · rcases ZoneEntry.sideOf_isSome.mp hside with rfl | rfl
      · exact (hsecond _).stays conflictSpan_faults
      · exact conflictSpan_faults

/-- The claims of every entry, and the spans placed in conflict: those of an entry with both inside, and no others. -/
theorem assignZones_spec (zs : List ZoneEntry) (p : Plant) :
    (assignZones env zs p).1 = zs.map (fun z => (z.assign p).1) ∧
    (∀ j, conflicted (p.span j) ((assignZones env zs p).2.span j)) ∧
    (∀ j : Slot, (∀ z ∈ zs, (z.sideOf j).isSome = true → (z.assign p).2 = false) → (assignZones env zs p).2.span j = p.span j) ∧
    (∀ z ∈ zs, (z.assign p).2 = true → ∀ j : Slot, (z.sideOf j).isSome = true →
      ((assignZones env zs p).2.span j).state = .faulted ∧ ((assignZones env zs p).2.span j).faultHas .zoneConflict = true) ∧
    (assignZones env zs p).2.link = p.link := by
  induction zs generalizing p with
  | nil => exact ⟨rfl, fun _ => .inl rfl, fun _ _ => rfl, by simp, rfl⟩
  | cons z zs ih =>
    let p' := if (z.assign p).2 then conflictSpan env z.spanB (conflictSpan env z.spanA p) else p
    obtain ⟨hkept, hnamed, hlink⟩ := entryConflict_spec (env := env) (p := p) z
    have hassign : ∀ y : ZoneEntry, y.assign p' = y.assign p := assign_conflicted hkept
    obtain ⟨hclaims, hconf, hspared, hboth, hlink'⟩ := ih p'
    simp only [hassign] at hclaims hspared hboth
    refine ⟨congrArg (List.cons _) hclaims, fun j => (hkept j).trans (hconf j), fun j hj => ?_, fun y hy hyboth j hside => ?_, hlink'.trans hlink⟩
    · rw [List.forall_mem_cons] at hj
      exact (hspared j hj.2).trans ((hnamed j).1 hj.1)
    · rcases List.mem_cons.1 hy with rfl | hy
      · exact conflicted.stays (hconf j) ((hnamed j).2 hyboth hside)
      · exact hboth y hy hyboth j hside

end

/-! ### The stages of the end of acquisition (R162) -/

/-- A sweep over the slots that leaves the link alone does to one span what its operation does to that span, on a plant that has it
and the link as they were. -/
theorem eachSlot_at_link {f : Slot → Plant → Plant} (hne : ∀ {i j : Slot} (p : Plant), j ≠ i → (f i p).span j = p.span j)
    (hlink : ∀ i p, (f i p).link = p.link) (p : Plant) (i : Slot) :
    ∃ q : Plant, q.span i = p.span i ∧ q.link = p.link ∧ (eachSlot f p).span i = (f i q).span i := by
  unfold eachSlot
  match i with
  | 0 => exact ⟨p, rfl, rfl, by simp (disch := decide) only [hne]⟩
  | 1 => exact ⟨f 0 p, by simp (disch := decide) only [hne], by simp only [hlink], by simp (disch := decide) only [hne]⟩
  | 2 => exact ⟨f 1 (f 0 p), by simp (disch := decide) only [hne], by simp only [hlink], by simp (disch := decide) only [hne]⟩
  | 3 => exact ⟨f 2 (f 1 (f 0 p)), by simp (disch := decide) only [hne], by simp only [hlink], rfl⟩

section
variable {env : Env} {i j : Slot} {p : Plant}

theorem ifInUse_of_some {f : Slot → Plant → Plant} (h : (env.cfg.spans.get i).isSome = true) : ifInUse env f i p = f i p := if_pos h

theorem ifInUse_of_none {f : Slot → Plant → Plant} (h : env.cfg.spans.get i = none) : ifInUse env f i p = p :=
  if_neg (by rw [h]; decide)

theorem ifInUse_span_ne {f : Slot → Plant → Plant} (hne : ∀ p, (f i p).span j = p.span j) : (ifInUse env f i p).span j = p.span j := by
  unfold ifInUse
  split
  · exact hne p
  · rfl

theorem ifInUse_link {f : Slot → Plant → Plant} (h : ∀ p, (f i p).link = p.link) : (ifInUse env f i p).link = p.link := by
  unfold ifInUse
  split
  · exact h p
  · rfl

theorem ifInUse_zones {f : Slot → Plant → Plant} (h : ∀ p, (f i p).zones = p.zones) : (ifInUse env f i p).zones = p.zones := by
  unfold ifInUse
  split
  · exact h p
  · rfl

/-- The plant with every address still UNKNOWN LOST (R105). -/
def acquireLost (env : Env) (p : Plant) : Plant :=
  Plant.reports { p with link := { p.link with addrs := p.link.addrs.map AddrRec.lostAtEnd } } (lostReports env.time p.link.addrs)

/-- The plant with the first states (R162, step 2). -/
def acquireFirst (env : Env) (p : Plant) : Plant := eachSlot (ifInUse env (firstState env)) (acquireLost env p)

/-- The plant with the claims assigned (R139). -/
def acquireClaimed (env : Env) (p : Plant) : Plant :=
  { (assignZones env (acquireFirst env p).zones (acquireFirst env p)).2 with
    zones := (assignZones env (acquireFirst env p).zones (acquireFirst env p)).1 }

/-- The set and the reports of a span's first state. -/
def firstPosted (env : Env) (i : Slot) (p : Plant) : Plant := (postSet env i p).reports (firstReports i (p.span i))

theorem acquirePlant_eq : acquirePlant env p = eachSlot (ifInUse env (firstPosted env)) (acquireClaimed env p) := rfl

theorem acquireLost_link : (acquireLost env p).link = { p.link with addrs := p.link.addrs.map AddrRec.lostAtEnd } := Plant.reports_link ..

theorem acquireFirst_link : (acquireFirst env p).link = { p.link with addrs := p.link.addrs.map AddrRec.lostAtEnd } :=
  eachSlot_keeps (P := fun q => q.link = _) (fun _ _ h => (ifInUse_link fun _ => firstState_link).trans h) acquireLost_link

theorem acquireFirst_zones : (acquireFirst env p).zones = p.zones :=
  eachSlot_keeps (P := fun q => q.zones = _) (fun _ _ h => (ifInUse_zones fun _ => firstState_zones).trans h) (Plant.reports_zones ..)

/-- The first states, in the terms of the plant that acquisition ends with. -/
theorem acquireFirst_span : (env.cfg.spans.get i = none → (acquireFirst env p).span i = p.span i) ∧
    ((env.cfg.spans.get i).isSome = true → acquired env i p (p.span i) ((acquireFirst env p).span i) ∧
      ((p.span i).fault = none → firstJudged env i (pinsEngaged i p) ((acquireFirst env p).span i)) ∧
      (pinsEngaged i p = true → ((acquireFirst env p).span i).state = .locked)) := by
  obtain ⟨u, hu, hlink, hspan⟩ := eachSlot_at_link (f := ifInUse env (firstState env))
    (fun p h => ifInUse_span_ne fun p => firstState_span_ne h) (fun i p => ifInUse_link fun _ => firstState_link) (acquireLost env p) i
  have hu' : u.span i = p.span i := hu.trans (Plant.reports_span ..)
  have haddrs : u.link.addrs = p.link.addrs.map AddrRec.lostAtEnd := by rw [hlink, acquireLost_link]
  have hat : (acquireFirst env p).span i = (ifInUse env (firstState env) i u).span i := hspan
  rw [hat]
  refine ⟨fun hnone => by rw [ifInUse_of_none hnone, hu'], fun hsome => ?_⟩
  rw [ifInUse_of_some hsome, ← hu', ← pinsEngaged_lost haddrs]
  refine ⟨?_, firstState_judged, fun hpins => ?_⟩
  · obtain ⟨hst, hv, hr, hdir, hx, hx0, hm⟩ := firstState_acquired (env := env) (i := i) (p := u)
    refine ⟨hst, hv, hr, hdir, hx, hx0, fun hrails => ?_⟩
    have hmeasured := hm hrails
    simp only [measured, validRail_lost haddrs] at hmeasured
    exact hmeasured
  · rw [firstState_eq, Plant.span_setSpan, if_pos hpins]
    rfl

theorem acquireClaimed_link : (acquireClaimed env p).link = { p.link with addrs := p.link.addrs.map AddrRec.lostAtEnd } :=
  (assignZones_spec _ _).2.2.2.2.trans acquireFirst_link

theorem firstPosted_keeps : (firstPosted env i p).link = p.link ∧ (firstPosted env i p).zones = p.zones ∧
    (firstPosted env i p).span i = { p.span i with posted := ((firstPosted env i p).span i).posted } ∧
    ∀ j, j ≠ i → (firstPosted env i p).span j = p.span j := by
  have hspan : ∀ j, (firstPosted env i p).span j = (postSet env i p).span j := fun j => Plant.reports_span ..
  refine ⟨(Plant.reports_link ..).trans (postSet_link ..), (Plant.reports_zones ..).trans (postSet_zones ..), ?_, fun j hj => ?_⟩
  · rw [hspan]
    exact postSet_span env i p
  · rw [hspan]
    exact postSet_span_ne env hj p

theorem firstPosted_braked (h : (p.span i).state = .resting ∨ (p.span i).state = .locked ∨ (p.span i).state = .faulted) :
    ((firstPosted env i p).span i).posted.map (fun set => set.mode) = some .braked := by
  have hmode : (p.span i).setpointMode = some .braked := by rcases h with h | h | h <;> simp [Span.setpointMode, h]
  rw [firstPosted, Plant.reports_span]
  simp [postSet, hmode]

theorem acquirePlant_link : (acquirePlant env p).link = { p.link with addrs := p.link.addrs.map AddrRec.lostAtEnd } := by
  rw [acquirePlant_eq]
  exact eachSlot_keeps (P := fun q => q.link = _) (fun _ _ h => (ifInUse_link fun _ => firstPosted_keeps.1).trans h) acquireClaimed_link

theorem acquirePlant_zones : (acquirePlant env p).zones = p.zones.map (fun z => (z.assign (acquireFirst env p)).1) := by
  have hclaims : (acquireClaimed env p).zones = p.zones.map (fun z => (z.assign (acquireFirst env p)).1) := by
    have h := (assignZones_spec (env := env) (acquireFirst env p).zones (acquireFirst env p)).1
    exact h.trans (by rw [acquireFirst_zones])
  rw [acquirePlant_eq]
  exact eachSlot_keeps (P := fun q => q.zones = _) (fun _ _ h => (ifInUse_zones fun _ => firstPosted_keeps.2.1).trans h) hclaims

/-- The end of acquisition leaves a span as the claims left it, with its BRAKED set where it is in use. -/
theorem acquirePlant_span : (acquirePlant env p).span i = { (acquireClaimed env p).span i with posted := ((acquirePlant env p).span i).posted } ∧
    (env.cfg.spans.get i = none → (acquirePlant env p).span i = (acquireClaimed env p).span i) ∧
    ((env.cfg.spans.get i).isSome = true → ((acquireClaimed env p).span i).state = .resting ∨ ((acquireClaimed env p).span i).state = .locked ∨
      ((acquireClaimed env p).span i).state = .faulted →
      ((acquirePlant env p).span i).posted.map (fun set => set.mode) = some .braked) := by
  obtain ⟨u, hu, hspan⟩ := eachSlot_at (f := ifInUse env (firstPosted env))
    (fun p h => ifInUse_span_ne fun p => firstPosted_keeps.2.2.2 _ h) (acquireClaimed env p) i
  rw [acquirePlant_eq, hspan, ← hu]
  refine ⟨?_, fun hnone => by rw [ifInUse_of_none hnone], fun hsome hst => ?_⟩
  · unfold ifInUse
    split
    · exact firstPosted_keeps.2.2.1
    · rfl
  · rw [ifInUse_of_some hsome]
    exact firstPosted_braked hst

/-- The claims leave what acquisition gives every span in use. -/
theorem conflicted.acquired {q : Plant} {a b c : Span} (h : conflicted b c) (k : acquired env i q a b) : acquired env i q a c := by
  rcases h with rfl | ⟨hc, -⟩
  · exact k
  · obtain ⟨-, -, hr, hdir, hx, hx0, hm⟩ := k
    rw [hc]
    exact ⟨.inr (.inr rfl), rfl, hr, hdir, hx, hx0, hm⟩

end

/-! ### Into READY -/

/-- The plant the device enters READY with (R162). -/
def acquireDone (s : State) : Plant := (resetOverrides (acquirePlant s.env s.plant)).report (.mode .ready .none s.time)

theorem endAcquisition_eq (s : State) : endAcquisition s = { s with
    plant := acquireDone s, sup := { s.sup with mode := .ready, e := 0, acqT := none, window := some 0, stableT := some 600000 } } := rfl

section
variable {s : State} {i : Slot}

theorem acquireDone_span : (acquireDone s).span i = { (acquirePlant s.env s.plant).span i with override := 100 } := Quad.get_map ..

theorem acquireDone_zones : (acquireDone s).zones = s.plant.zones.map (fun z => (z.assign (acquireFirst s.env s.plant)).1) := acquirePlant_zones

/-- The span READY begins with, as the claims left it. -/
theorem acquireDone_claimed : (acquireDone s).span i = { (acquireClaimed s.env s.plant).span i with
    posted := ((acquireDone s).span i).posted, override := 100 } := by
  rw [acquireDone_span, acquirePlant_span.1]

theorem acquireClaimed_span : conflicted ((acquireFirst s.env s.plant).span i) ((acquireClaimed s.env s.plant).span i) :=
  (assignZones_spec _ _).2.1 i

/-- A span named by no entry with both spans inside keeps its first state. -/
theorem acquireClaimed_spared (h : ∀ z ∈ (acquireDone s).zones, (z.sideOf i).isSome = true → ¬ (z.sideA.inside = true ∧ z.sideB.inside = true)) :
    (acquireClaimed s.env s.plant).span i = (acquireFirst s.env s.plant).span i := by
  refine (assignZones_spec _ _).2.2.1 i fun z hz hside => ?_
  rw [acquireFirst_zones] at hz
  have hmem : (z.assign (acquireFirst s.env s.plant)).1 ∈ (acquireDone s).zones := by
    rw [acquireDone_zones]
    exact List.mem_map_of_mem hz
  have hnot := h _ hmem hside
  rw [← Bool.and_eq_true] at hnot
  exact Bool.eq_false_iff.mpr hnot

/-- The spans of an entry with both inside are in conflict. -/
theorem acquireClaimed_both {w : ZoneEntry} (hw : w ∈ (acquireDone s).zones) (hside : (w.sideOf i).isSome = true) (hA : w.sideA.inside = true)
    (hB : w.sideB.inside = true) : ((acquireClaimed s.env s.plant).span i).state = .faulted ∧
      ((acquireClaimed s.env s.plant).span i).faultHas .zoneConflict = true := by
  rw [acquireDone_zones, List.mem_map] at hw
  obtain ⟨z, hz, rfl⟩ := hw
  rw [← acquireFirst_zones (env := s.env)] at hz
  exact (assignZones_spec _ _).2.2.2.1 z hz (Bool.and_eq_true_iff.mpr ⟨hA, hB⟩) i hside

/-- An entry after the assignment, read from the spans READY begins with (R139). -/
theorem acquireDone_entry {k : Nat} {z w : ZoneEntry} (hz : s.plant.zones[k]? = some z) (hw : (acquireDone s).zones[k]? = some w) :
    w = { z with claim := w.claim, sideA := w.sideA, sideB := w.sideB } ∧ noWait w.sideA ∧ noWait w.sideB ∧
    (w.sideA.inside = true ↔
      ((acquireDone s).span z.spanA).state ≠ .unconfigured ∧ insideNow z .a ((acquireDone s).span z.spanA) = true) ∧
    (w.sideB.inside = true ↔
      ((acquireDone s).span z.spanB).state ≠ .unconfigured ∧ insideNow z .b ((acquireDone s).span z.spanB) = true) ∧
    w.claim = (if w.sideA.inside = w.sideB.inside then .free else if w.sideA.inside = true then .heldA else .heldB) := by
  rw [acquireDone_zones, List.getElem?_map, hz] at hw
  have hassign : (z.assign (acquireFirst s.env s.plant)).1 = w := Option.some.inj hw
  subst hassign
  have hinside : ∀ (d : Side) (j : Slot), (z.insideAt d ((acquireFirst s.env s.plant).span j).x ((acquireFirst s.env s.plant).span j).meas.mr &&
      ((acquireFirst s.env s.plant).span j).state != .unconfigured) = true ↔
      ((acquireDone s).span j).state ≠ .unconfigured ∧ insideNow z d ((acquireDone s).span j) = true := by
    intro d j
    obtain ⟨hx, hm, hst⟩ := (acquireClaimed_span (s := s) (i := j)).reads
    rw [acquireDone_claimed, ← insideAt_eq]
    simp only [hx, hm, Bool.and_eq_true, bne_iff_ne, and_comm, hst]
  refine ⟨rfl, ⟨rfl, rfl⟩, ⟨rfl, rfl⟩, hinside .a z.spanA, hinside .b z.spanB, ?_⟩
  have hclaim : ∀ a b : Bool, (if a && !b then Claim.heldA else if b && !a then .heldB else .free) =
      (if a = b then .free else if a = true then .heldA else .heldB) := by decide
  exact hclaim _ _

/-- What READY begins with for a span in use (R162). -/
theorem acquireDone_acquired (hsome : (s.cfg.spans.get i).isSome = true) : acquired s.env i s.plant (s.plant.span i) ((acquireDone s).span i) := by
  have h := acquireClaimed_span.acquired ((acquireFirst_span (env := s.env) (p := s.plant)).2 hsome).1
  rw [acquireDone_claimed]
  exact h

end

/-- Settles O49: the end of acquisition by its timer, and the timer's expiry in any other mode. -/
theorem acquisitionEndsInReady : Obligations.AcquisitionEndsInReady := by
  unfold Obligations.AcquisitionEndsInReady
  intro s hrun
  refine ⟨fun hmode htimer => ?_, fun hmode => ?_⟩
  · refine ⟨acquireDone s, ?_, ?_, fun i hnone hblank => ?_, ?_, fun k z w hz hw => ?_, fun i sc hsc => ?_⟩
    · refine (runEvent_running hrun _).trans ?_
      simp only [acquisitionExpired, hmode, htimer, beq_self_eq_true, Bool.and_self, if_true, endAcquisition_eq]
    · refine (acquirePlant_link (env := s.env)).trans ?_
      have hrecord : ∀ a : AddrRec, a.lostAtEnd = if a.link = .unknown then { a with link := .lost, miss := 3, good := 0 } else a :=
        fun a => ite_congr (propext beq_iff_eq) (fun _ => rfl) (fun _ => rfl)
      rw [funext hrecord]
    · rw [acquireDone_span, acquirePlant_span.2.1 hnone]
      have hfirst := (acquireFirst_span (env := s.env) (p := s.plant)).1 hnone
      rcases acquireClaimed_span (s := s) (i := i) with h | ⟨-, hleft, -⟩
      · rw [h, hfirst]
      · exact absurd (by rw [hfirst]; exact hblank) hleft
    · rw [acquireDone_zones, List.length_map]
    · obtain ⟨hkept, hA, hB, hinA, hinB, hclaim⟩ := acquireDone_entry hz hw
      refine ⟨hkept, hA, hB, hinA, hinB, hclaim.trans ?_⟩
      cases w.sideA.inside <;> cases w.sideB.inside <;> rfl
    · have hsome : (s.cfg.spans.get i).isSome = true := by rw [hsc]; rfl
      have henv : s.env.span i = sc := congrArg (fun o => Option.getD o SpanConfig.absent) hsc
      obtain ⟨-, hjudged, hlocked⟩ := (acquireFirst_span (env := s.env) (p := s.plant)).2 hsome
      have hacquired := acquireDone_acquired hsome
      have hclaimed := acquireDone_claimed (s := s) (i := i)
      obtain ⟨hst, hv, hr, hdir, hx, hx0, hm⟩ := hacquired
      rw [henv] at hx hx0 hm
      refine ⟨hst, hv, hr, hdir, by rw [acquireDone_span], hx, hx0, hm, fun hfault hfree => ?_, fun z hz hside hA hB => ?_, ?_, fun hpins hnone => ?_⟩
      · have hspared := acquireClaimed_spared hfree
        have hfirst := hjudged hfault
        rw [← hspared, firstJudged, henv] at hfirst
        rw [hclaimed]
        exact hfirst
      · rw [hclaimed]
        exact acquireClaimed_both hz hside hA hB
      · rw [acquireDone_span]
        rw [hclaimed] at hst
        exact acquirePlant_span.2.2 hsome hst
      · have hspared := acquireClaimed_spared (s := s) (i := i) (by rw [acquireDone_zones, hnone]; simp)
        rw [hclaimed, hspared]
        exact hlocked hpins
  · refine (runEvent_running hrun _).trans ?_
    simp [acquisitionExpired, hmode]

end Sys2Proof.Machine
end

