-- ==== Sys2Proof/Proofs/ReplyWindows.lean ====
section
/-! PROOFS. The reply windows of the bogie link (R94, R98, R102 to R104), and the good reply that ends acquisition (R161). -/

namespace Sys2Proof.Machine
open Safety

/-! ### One address record changed -/

section
variable {l : BogieLink} {addr n : Nat} {a b : AddrRec} {f : AddrRec → AddrRec}

theorem find_addr (h : l.find addr = some a) : a.addr = addr := by simpa using List.find?_some h

theorem find_update (hf : ∀ x, x.addr = addr → (f x).addr = addr) :
    (l.update addr f).find n = (l.find n).map (fun x => if x.addr == addr then f x else x) := by
  have hsame : ∀ x : AddrRec, ((if x.addr == addr then f x else x).addr == n) = (x.addr == n) := by
    intro x
    by_cases hx : x.addr = addr
    · simp [hx, hf x hx]
    · simp [hx]
  simp only [BogieLink.update, BogieLink.find, List.find?_map, Function.comp_def, hsame]

/-- A record put in place of an address is found there, and the others as they were. -/
theorem find_replaced (hfind : l.find addr = some a) (hb : b.addr = addr) : (l.update addr (fun _ => b)).find addr = some b ∧
    ∀ c, c ≠ addr → (l.update addr (fun _ => b)).find c = l.find c := by
  refine ⟨?_, fun c hc => ?_⟩
  · rw [find_update fun _ _ => hb, hfind]
    simp [find_addr hfind]
  · rw [find_update fun _ _ => hb]
    cases hx : l.find c with
    | none => rfl
    | some x => simp [find_addr hx, hc]

theorem update_update (hf : ∀ x, x.addr = addr → (f x).addr = addr) : (l.update addr f).update addr (fun _ => b) = l.update addr (fun _ => b) := by
  unfold BogieLink.update
  simp only [List.map_map]
  refine congrArg (fun as => { l with addrs := as }) (List.map_congr_left fun x _ => ?_)
  by_cases hx : x.addr = addr
  · simp [hx, hf x hx]
  · simp [hx]

end

/-! ### A good reply and a miss (R103, R104) -/

namespace AddrRec

section
variable {a : AddrRec} {energised : Bool}

theorem heard_unknown (h : a.link = .unknown) : a.heard energised = { a with miss := 0, good := 0, link := .present } := by simp [heard, h]
theorem heard_present (h : a.link = .present) : a.heard energised = { a with miss := 0 } := by simp [heard, h]

theorem heard_recovers (h : a.link = .lost) (hg : 3 ≤ a.good) (he : energised = false) :
    a.heard energised = { a with miss := 0, good := 0, link := .present } := by
  have hn : min (a.good + 1) 4 = 4 := by omega
  simp [heard, h, hn, he]

theorem heard_waits (h : a.link = .lost) (hg : a.good < 3 ∨ energised = true) :
    a.heard energised = { a with miss := 0, good := min (a.good + 1) 4 } := by
  have hn : (min (a.good + 1) 4 == 4 && !energised) = false := by
    rcases hg with hg | hg
    · have : min (a.good + 1) 4 ≠ 4 := by omega
      simp [this]
    · simp [hg]
  simp [heard, h, hn]

theorem heard_addr : (a.heard energised).addr = a.addr := by
  unfold heard
  split
  · rfl
  · rfl
  · simp only
    split <;> rfl

theorem heard_known : (a.heard energised).link ≠ .unknown := by
  unfold heard
  split
  · exact (by decide : LinkState.present ≠ .unknown)
  · next h => exact (by rw [h]; decide : a.link ≠ .unknown)
  · next h =>
    simp only
    split
    · exact (by decide : LinkState.present ≠ .unknown)
    · exact (by rw [h]; decide : a.link ≠ .unknown)

theorem heard_last : (a.heard energised).last = a.last := by
  unfold heard
  split
  · rfl
  · rfl
  · simp only
    split <;> rfl

theorem missed_eq : a.missed = { a with
    miss := min (a.miss + 1) 3, good := 0, link := if a.link = .present ∧ 2 ≤ a.miss then .lost else a.link } := by
  have h : (a.link == .present && min (a.miss + 1) 3 == 3) = true ↔ a.link = .present ∧ 2 ≤ a.miss := by
    rw [Bool.and_eq_true, beq_iff_eq, beq_iff_eq]
    exact and_congr_right fun _ => by omega
  simp only [missed, h]

theorem missed_reports (time : Time) : linkReports time a a.missed =
    if a.link = .present ∧ 2 ≤ a.miss then [.bogie a.addr a.slot a.role false time] else [] := by
  rw [missed_eq]
  unfold linkReports
  by_cases h : a.link = .present ∧ 2 ≤ a.miss
  · simp [h]
  · simp only [h, if_false]
    cases a.link <;> rfl

end

end AddrRec

/-! ### A window closed -/

section
variable {env : Env} {p : Plant} {addr : Nat} {a : AddrRec}

theorem judgeWindow_eq {good : Bool} (h : p.link.find addr = some a) : judgeWindow env addr good p =
    let b := if good then a.heard (p.span a.slot).state.energised else a.missed
    Plant.reports { p with link := p.link.update addr (fun _ => b) } (linkReports env.time a b) := by
  simp [judgeWindow, h]

/-- A plant whose record of an address a window has judged: the record is replaced, and nothing else of the entries and of the
address records. -/
def windowJudged (addr : Nat) (b : AddrRec) (cycle : List Txn) (p q : Plant) : Prop :=
  q.zones = p.zones ∧ q.link.cycle = cycle ∧ q.link.addrs = (p.link.update addr (fun _ => b)).addrs

theorem windowJudged.find {b : AddrRec} {cycle : List Txn} {q : Plant} (h : windowJudged addr b cycle p q) (hfind : p.link.find addr = some a)
    (hb : b.addr = addr) : q.link.find addr = some b ∧ ∀ c, c ≠ addr → q.link.find c = p.link.find c := by
  obtain ⟨-, -, haddrs⟩ := h
  have hat : ∀ c, q.link.find c = (p.link.update addr (fun _ => b)).find c := fun c => by rw [BogieLink.find, BogieLink.find, haddrs]
  obtain ⟨hself, hother⟩ := find_replaced hfind hb
  exact ⟨(hat addr).trans hself, fun c hc => (hat c).trans (hother c hc)⟩

/-- A reply stored changes the address record, and of the spans at most whether a lock command has been answered (R102, R126). -/
theorem storeReply_spec (r : LastReply) (hfind : p.link.find addr = some a) :
    (storeReply addr r p).link = p.link.update addr (fun b => { b with last := some r, age := 0 }) ∧
    (storeReply addr r p).zones = p.zones ∧ (a.role = .bogie → (storeReply addr r p).spans = p.spans) ∧
    ∀ j, ((storeReply addr r p).span j).state = (p.span j).state := by
  simp only [storeReply, hfind]
  split
  · next l hrole hl =>
    have hbogie : a.role ≠ .bogie := by rw [hrole]; decide
    split
    · refine ⟨rfl, rfl, fun h => absurd h hbogie, fun j => ?_⟩
      by_cases hj : j = a.slot
      · subst hj
        rw [Plant.span_setSpan]
        rfl
      · rw [Plant.span_setSpan_ne _ hj]
        rfl
    · exact ⟨rfl, rfl, fun _ => rfl, fun _ => rfl⟩
  · exact ⟨rfl, rfl, fun _ => rfl, fun _ => rfl⟩

/-- A POLL whose four words are good: its reply stored and a good reply counted (R102, R104). -/
theorem pollEnd_heard {branch : Branch} {wait : Nat} {rest : List Txn} {w0 w1 w2 w3 : Option LinkWord} {r : LastReply}
    (hc : p.link.cycle = .poll addr branch wait true :: rest) (hfind : p.link.find addr = some a) (hr : readReply a w0 w1 w2 w3 = some r) :
    windowJudged addr (({ a with last := some r, age := 0 } : AddrRec).heard (p.span a.slot).state.energised) rest p
      (pollEnd env w0 w1 w2 w3 p) ∧ (a.role = .bogie → (pollEnd env w0 w1 w2 w3 p).spans = p.spans) := by
  obtain ⟨hlink, hzones, hspans, hstates⟩ := storeReply_spec r hfind
  have hfound : (storeReply addr r p).link.find addr = some { a with last := some r, age := 0 } := by
    rw [hlink, find_update (by intro x hx; exact hx), hfind]
    simp [find_addr hfind]
  have hform : pollEnd env w0 w1 w2 w3 p = popTxn (judgeWindow env addr true (storeReply addr r p)) := by
    simp [pollEnd, hc, pollClosed, hfind, hr]
  have hupdate : ∀ b, (storeReply addr r p).link.update addr (fun _ => b) = p.link.update addr (fun _ => b) := fun b => by
    rw [hlink, update_update (by intro x hx; exact hx)]
  simp only [hform, judgeWindow_eq hfound, if_true, hstates, hupdate]
  refine ⟨⟨?_, ?_, ?_⟩, fun hrole => ?_⟩
  · exact (Plant.reports_zones ..).trans hzones
  · simp [popTxn, BogieLink.pop, Plant.reports_link, BogieLink.update, hc]
  · simp [popTxn, BogieLink.pop, Plant.reports_link, BogieLink.update, hc]
  · exact (Plant.reports_spans ..).trans (hspans hrole)

/-- A POLL with a word missing or bad: a miss (R103). -/
theorem pollEnd_missed {branch : Branch} {wait : Nat} {rest : List Txn} {w0 w1 w2 w3 : Option LinkWord}
    (hc : p.link.cycle = .poll addr branch wait true :: rest) (hfind : p.link.find addr = some a) (hr : readReply a w0 w1 w2 w3 = none) :
    windowJudged addr a.missed rest p (pollEnd env w0 w1 w2 w3 p) ∧ (pollEnd env w0 w1 w2 w3 p).spans = p.spans ∧
      (pollEnd env w0 w1 w2 w3 p).out = (linkReports env.time a a.missed).foldl ReportQueue.push p.out := by
  have hform : pollEnd env w0 w1 w2 w3 p = popTxn (Plant.reports { p with link := p.link.update addr (fun _ => a.missed) }
      (linkReports env.time a a.missed)) := by
    simp [pollEnd, hc, pollClosed, hfind, hr, judgeWindow_eq hfind]
  rw [hform]
  refine ⟨⟨?_, ?_, ?_⟩, ?_, ?_⟩
  · exact Plant.reports_zones ..
  · simp [popTxn, BogieLink.pop, Plant.reports_link, BogieLink.update, hc]
  · simp [popTxn, BogieLink.pop, Plant.reports_link, BogieLink.update, hc]
  · exact Plant.reports_spans ..
  · exact Plant.reports_out ..

/-- The cycle behind an acknowledgement window of a burst: the burst ends with its last window (R98). -/
def burstLeft (i : Slot) (r : Rail) (branch : Branch) (wait first n : Nat) (mode : SetpointMode) (ws : List BurstWord) (rest : List Txn) :
    List Txn := if ws = [] then rest else .burst i r branch wait first n mode ws :: rest

/-- An acknowledgement window that counts: a good acknowledgement or a miss, with the last reply and the age as they were (R98). -/
theorem ackEnd_judged {i : Slot} {r : Rail} {branch : Branch} {wait first n : Nat} {mode : SetpointMode} {b : BurstWord} {ws : List BurstWord}
    {rest : List Txn} {w : Option LinkWord} (hc : p.link.cycle = .burst i r branch wait first n mode (b :: ws) :: rest)
    (hlive : b.live = true) (hfind : p.link.find b.addr = some a) :
    windowJudged b.addr (if wordGood b.addr w then a.heard (p.span a.slot).state.energised else a.missed)
      (burstLeft i r branch wait first n mode ws rest) p (ackEnd env w p) ∧ (ackEnd env w p).spans = p.spans := by
  unfold burstLeft ackEnd
  rw [hc]
  simp only [hlive, if_true, judgeWindow_eq hfind]
  cases ws with
  | nil =>
    refine ⟨⟨?_, ?_, ?_⟩, ?_⟩
    · exact Plant.reports_zones ..
    · simp [popTxn, BogieLink.pop, Plant.reports_link, BogieLink.update, hc]
    · simp [popTxn, BogieLink.pop, Plant.reports_link, BogieLink.update, hc]
    · exact Plant.reports_spans ..
  | cons b' ws =>
    refine ⟨⟨?_, rfl, ?_⟩, ?_⟩
    · exact Plant.reports_zones ..
    · simp [Plant.reports_link]
    · exact Plant.reports_spans ..

end

/-! ### The end of acquisition by a good reply (R161) -/

/-- A device with an address still UNKNOWN does not end acquisition at a good reply. -/
theorem afterGoodReply_waits {good : Bool} {s : State} (h : good = false ∨ (s.sup.mode = .acquiring → ∃ b ∈ s.plant.link.addrs, b.link = .unknown)) :
    afterGoodReply good s = s := by
  refine if_neg ?_
  rw [Bool.and_eq_true, State.allKnown, Bool.and_eq_true]
  rintro ⟨hgood, hmode, hall⟩
  rcases h with h | h
  · exact absurd (hgood.symm.trans h) (by decide)
  · obtain ⟨b, hb, hu⟩ := h (eq_of_beq hmode)
    have := List.all_eq_true.1 hall b hb
    simp [hu] at this

theorem afterGoodReply_ends {s : State} (hmode : s.sup.mode = .acquiring) (h : ∀ b ∈ s.plant.link.addrs, b.link ≠ .unknown) :
    afterGoodReply true s = endAcquisition s := by
  refine if_pos ?_
  simp only [State.allKnown, hmode, Bool.true_and, beq_self_eq_true, List.all_eq_true, bne_iff_ne]
  exact h

/-- Another address UNKNOWN is so behind the window too. -/
theorem windowJudged.unknown {addr : Nat} {b : AddrRec} {cycle : List Txn} {p q : Plant} (h : windowJudged addr b cycle p q)
    (hu : ∃ x ∈ p.link.addrs, x.addr ≠ addr ∧ x.link = .unknown) : ∃ x ∈ q.link.addrs, x.link = .unknown := by
  obtain ⟨x, hx, hne, hlink⟩ := hu
  obtain ⟨-, -, haddrs⟩ := h
  refine ⟨x, ?_, hlink⟩
  rw [haddrs]
  exact List.mem_map.2 ⟨x, hx, by simp [hne]⟩

/-- With every other address known, and the one judged, none is UNKNOWN. -/
theorem windowJudged.known {addr : Nat} {b : AddrRec} {cycle : List Txn} {p q : Plant} (h : windowJudged addr b cycle p q)
    (hk : ∀ x ∈ p.link.addrs, x.addr ≠ addr → x.link ≠ .unknown) (hb : b.link ≠ .unknown) : ∀ x ∈ q.link.addrs, x.link ≠ .unknown := by
  obtain ⟨-, -, haddrs⟩ := h
  rw [haddrs]
  intro x hx
  obtain ⟨y, hy, rfl⟩ := List.mem_map.1 hx
  by_cases hya : y.addr = addr
  · simpa [hya] using hb
  · simpa [hya] using hk y hy hya

/-- Where no address is UNKNOWN the end of acquisition leaves the link alone. -/
theorem acquireDone_link {s : State} (h : ∀ b ∈ s.plant.link.addrs, b.link ≠ .unknown) : (acquireDone s).link = s.plant.link := by
  have hkept : s.plant.link.addrs.map AddrRec.lostAtEnd = s.plant.link.addrs := by
    refine (List.map_congr_left fun b hb => ?_).trans (List.map_id' _)
    exact if_neg (by simpa using h b hb)
  refine (acquirePlant_link (env := s.env)).trans ?_
  rw [hkept]

theorem readReply_some {a : AddrRec} {addr : Nat} {v0 v1 v2 v3 : LinkWord} (ha : a.addr = addr) (h0 : wordGood addr (some v0) = true)
    (h1 : wordGood addr (some v1) = true) (h2 : wordGood addr (some v2) = true) (h3 : wordGood addr (some v3) = true) :
    readReply a (some v0) (some v1) (some v2) (some v3) = some (assembleReply a.role v0 v1 v2 v3) := by
  simp [readReply, ha, h0, h1, h2, h3]

theorem readReply_none {a : AddrRec} {addr : Nat} {w0 w1 w2 w3 : Option LinkWord} (ha : a.addr = addr)
    (h : wordGood addr w0 = false ∨ wordGood addr w1 = false ∨ wordGood addr w2 = false ∨ wordGood addr w3 = false) :
    readReply a w0 w1 w2 w3 = none := by
  rcases h with h | h | h | h <;> simp [readReply, ha, h]

/-- A POLL's window on the whole device. -/
theorem exec_pollReply {s : State} {addr wait : Nat} {branch : Branch} {rest : List Txn} {a : AddrRec} {w0 w1 w2 w3 : Option LinkWord}
    (hrun : s.resetPin = false) (hc : s.plant.link.cycle = .poll addr branch wait true :: rest) (hfind : s.plant.link.find addr = some a) :
    exec (.pollReply w0 w1 w2 w3) s = .next (settle (afterGoodReply (readReply a w0 w1 w2 w3).isSome
      { s with plant := pollEnd s.env w0 w1 w2 w3 s.plant })) := by
  refine (runEvent_running hrun _).trans ?_
  have hlisten : s.plant.link.listening = some a := by simp [BogieLink.listening, hc, hfind]
  simp only [pollReply, hc, hlisten]
  rfl

theorem exec_setpointAck {s : State} {i : Slot} {r : Rail} {branch : Branch} {wait first n : Nat} {mode : SetpointMode} {b : BurstWord}
    {ws : List BurstWord} {rest : List Txn} {a : AddrRec} {w : Option LinkWord} (hrun : s.resetPin = false)
    (hc : s.plant.link.cycle = .burst i r branch wait first n mode (b :: ws) :: rest) (hlive : b.live = true)
    (hfind : s.plant.link.find b.addr = some a) :
    exec (.setpointAck w) s = .next (settle (afterGoodReply (wordGood a.addr w) { s with plant := ackEnd s.env w s.plant })) := by
  refine (runEvent_running hrun _).trans ?_
  have hlisten : s.plant.link.listening = some a := by simp [BogieLink.listening, hc, hlive, hfind]
  simp only [setpointAck, hc, hlisten]
  rfl

/-- Settles O48: good replies, the reply that ends acquisition, misses, and acknowledgements. -/
theorem replyWindowsJudged : Obligations.ReplyWindowsJudged := by
  unfold Obligations.ReplyWindowsJudged
  refine ⟨fun s addr wait branch rest a v0 v1 v2 v3 hrun hstays hc hfind h0 h1 h2 h3 => ?_,
    fun s addr wait branch rest a v0 v1 v2 v3 hrun hmode hc hfind hknown h0 h1 h2 h3 => ?_,
    fun s addr wait branch rest a w0 w1 w2 w3 hrun hc hfind hbad => ?_,
    fun s i r branch wait first n mode b ws rest a w hrun hstays hc hlive hfind => ?_⟩
  · have ha := find_addr hfind
    have hr := readReply_some ha h0 h1 h2 h3
    obtain ⟨hjudged, hspans⟩ := pollEnd_heard (env := s.env) hc hfind hr
    obtain ⟨hself, hother⟩ := hjudged.find hfind (AddrRec.heard_addr.trans ha)
    refine ⟨pollEnd s.env (some v0) (some v1) (some v2) (some v3) s.plant, ?_, hjudged.2.1, hjudged.1, hspans, hother, fun hl => ?_,
      fun hl => ?_, fun hl hg he => ?_, fun hl hg => ?_⟩
    · rw [exec_pollReply hrun hc hfind, afterGoodReply_waits (s := { s with plant := pollEnd s.env (some v0) (some v1) (some v2) (some v3) s.plant }) (.inr fun hmode => hjudged.unknown (hstays hmode))]
    · exact hself.trans (congrArg some (AddrRec.heard_unknown hl))
    · exact hself.trans (congrArg some (AddrRec.heard_present hl))
    · exact hself.trans (congrArg some (AddrRec.heard_recovers hl hg he))
    · exact hself.trans (congrArg some (AddrRec.heard_waits hl hg))
  · have ha := find_addr hfind
    have hr := readReply_some ha h0 h1 h2 h3
    obtain ⟨hjudged, -⟩ := pollEnd_heard (env := s.env) hc hfind hr
    obtain ⟨hself, hother⟩ := hjudged.find hfind (AddrRec.heard_addr.trans ha)
    let u : State := { s with plant := pollEnd s.env (some v0) (some v1) (some v2) (some v3) s.plant }
    have hnone : ∀ x ∈ u.plant.link.addrs, x.link ≠ .unknown := hjudged.known hknown AddrRec.heard_known
    have hlink : (acquireDone u).link = u.plant.link := acquireDone_link hnone
    refine ⟨acquireDone u, ?_, ?_, fun c hc => ?_, ?_, fun i hsome => ?_⟩
    · rw [exec_pollReply hrun hc hfind, hr, Option.isSome_some, afterGoodReply_ends (s := u) hmode hnone, endAcquisition_eq]
    · rw [hlink]; exact hjudged.2.1
    · rw [hlink]; exact hother c hc
    · rw [hlink]
      refine (congrArg (Option.map AddrRec.last) hself).trans ?_
      rw [Option.map_some, AddrRec.heard_last]
    · exact (acquireDone_acquired (s := u) hsome).1
  · have ha := find_addr hfind
    have hr := readReply_none ha hbad
    obtain ⟨hjudged, hspans, hout⟩ := pollEnd_missed (env := s.env) hc hfind hr
    obtain ⟨hself, hother⟩ := hjudged.find hfind (show a.missed.addr = addr from ha)
    refine ⟨pollEnd s.env w0 w1 w2 w3 s.plant, ?_, hjudged.2.1, hjudged.1, hspans, hother, ?_, ?_⟩
    · rw [exec_pollReply hrun hc hfind, hr, Option.isSome_none, afterGoodReply_waits (.inl rfl)]
    · rw [hself, AddrRec.missed_eq]
    · rw [hout, AddrRec.missed_reports, ha]
      split <;> rfl
  · have ha := find_addr hfind
    obtain ⟨hjudged, hspans⟩ := ackEnd_judged (env := s.env) (w := w) hc hlive hfind
    obtain ⟨hself, hother⟩ := hjudged.find hfind (by
      split
      · exact AddrRec.heard_addr.trans ha
      · exact ha)
    refine ⟨ackEnd s.env w s.plant, ?_, hspans, hjudged.1, hother, hjudged.2.1, fun hg hl => ?_, fun hg hl => ?_, fun hg hl hrun he => ?_,
      fun hg hl hrun => ?_, fun hg => ?_⟩
    · rw [exec_setpointAck hrun hc hlive hfind, afterGoodReply_waits (s := { s with plant := ackEnd s.env w s.plant }) (.inr fun hmode => hjudged.unknown (hstays hmode))]
    · rw [hself, if_pos hg, AddrRec.heard_present hl]
    · rw [hself, if_pos hg, AddrRec.heard_unknown hl]
    · rw [hself, if_pos hg, AddrRec.heard_recovers hl hrun he]
    · rw [hself, if_pos hg, AddrRec.heard_waits hl hrun]
    · rw [hself, if_neg (by rw [hg]; decide), AddrRec.missed_eq]

end Sys2Proof.Machine
end
